-- ==== Sys2Proof/Word.lean ====
section
/-! DEFINITION. The word types of the core (spec R4, R53, R68) and the form memories are held in. -/

namespace Sys2Proof

/-- One byte of IN_MEM or OUT_MEM (R18, R19). -/
abbrev Byte := BitVec 8

/-- A 32-bit register word, CTRL command or token word (R10, R52, R53). -/
abbrev Word := BitVec 32

/-- A memory of `w`-bit cells as (address, value) pairs, addresses strictly rising. An address that is
not listed holds no value (R18, R20). `Cells 8` is a list of `Host.Cell`. -/
abbrev Cells (w : Nat) := List (Nat × BitVec w)

/-- The kind of a decode table entry (R68). The codes 6 and 7 are unused and are not represented. -/
inductive Kind where
  | literal
  | length
  | distance
  | endOfBlock
  | linkToSubtable
  | invalid
deriving DecidableEq, Repr, Inhabited

/-- A decode table entry (R68): `extra` is the extra-bit count, or the subtable width of a link; `base`
is the base value, or the subtable offset of a link; `len` is the length of the code that selects it. -/
structure Entry where
  kind  : Kind
  extra : BitVec 4
  base  : BitVec 16
  len   : BitVec 4
deriving DecidableEq, Repr, Inhabited

/-- An encode table entry (R28, R71): the bit-reversed code and its length. -/
structure EncEntry where
  code : BitVec 15
  len  : BitVec 4
deriving DecidableEq, Repr, Inhabited

/-- A run-length pair: meta symbol and extra value (R29, R94). -/
abbrev Pair := BitVec 5 × BitVec 7

end Sys2Proof
end

