-- ==== Sys2Proof/Syntax.lean ====
section
/-! DEFINITION. The instructions: one constructor for each row of spec/opcode_table.json (R49, R50, R52,
R53). -/

namespace Sys2Proof

/-- The table slot selector SEL of BUILD, DECODESYM, ENCODESYM (R27): 0 meta, 1 literal/length,
2 distance. The value 3 selects no slot and its words are reserved (R51). -/
inductive Sel where
  | codeLen
  | litLen
  | dist
deriving DecidableEq, Repr

/-- The selector of RLE_EMIT, which takes 1 or 2 only (R50, R94). -/
inductive RleSel where
  | litLen
  | dist
deriving DecidableEq, Repr

/-- The instructions of the core: the primitive micro-operations, the steps of the engine, the host
commands and the token words. -/
inductive Instr where
  -- primitive micro-operations (R50, first table)
  | build (sel : Sel)
  | decodesym (sel : Sel)
  | encodesym (sel : Sel)
  | peek (n : BitVec 6)
  | consume (n : BitVec 6)
  | read (n : BitVec 6)
  | align
  | refill
  | rleEmit (sel : RleSel)
  | put (n : BitVec 6)
  | finalize
  | rleExpand
  -- steps of the decoder engine (R50, second table)
  | dHeader
  | dPreamble
  | dStoredHdr
  | dStoredCopy
  | dDynCounts
  | dDynMetalen
  | dDynMetabuild
  | dDynCodelen
  | dDynTablebuild
  | dStatic
  | dBgLiteral
  | dBgMlen
  | dBgMdist
  | dBgMdistwr
  -- steps of the encoder engine (R50, second table)
  | eBuild
  | eHeader
  | eMetalen
  | eCodelen
  | eWriteToken
  | eLitRep
  | eMatchDistRep
  | eMatchExtra
  | eDistRep
  | eDistExtra
  | eEob
  | eFinalize
  -- host commands: writes to CTRL (R52)
  | startDecode (isLast : Bool)
  | startEncode (isLast : Bool)
  | softReset
  | setMode (mode isLast : Bool)
  -- token words (R53)
  | tokenLiteral (b : Byte)
  | tokenMatch (l : BitVec 9) (d : BitVec 16)
  | tokenEnd
deriving DecidableEq, Repr

end Sys2Proof
end

