-- ==== Sys2Proof/WellFormed.lean ====
section
/-! DEFINITION. Which instruction terms the encodings admit: N is at most 32 (R49, R51), and a match
token has length 3..258 and distance 1..32768 (R53). Every other operand's range is its type. -/

namespace Sys2Proof

/-- The range of the N operand (R49). -/
def countOk (n : BitVec 6) : Bool := decide (n.toNat ≤ 32)

/-- The ranges of a match token's length and distance (R53). -/
def matchInRange (l : BitVec 9) (d : BitVec 16) : Bool :=
  decide (3 ≤ l.toNat) && decide (l.toNat ≤ 258) && decide (1 ≤ d.toNat) && decide (d.toNat ≤ 32768)

/-- An instruction that its encoding admits. -/
def Instr.wellFormed : Instr → Bool
  | .build _ => true
  | .decodesym _ => true
  | .encodesym _ => true
  | .peek n => countOk n
  | .consume n => countOk n
  | .read n => countOk n
  | .align => true
  | .refill => true
  | .rleEmit _ => true
  | .put n => countOk n
  | .finalize => true
  | .rleExpand => true
  | .dHeader => true
  | .dPreamble => true
  | .dStoredHdr => true
  | .dStoredCopy => true
  | .dDynCounts => true
  | .dDynMetalen => true
  | .dDynMetabuild => true
  | .dDynCodelen => true
  | .dDynTablebuild => true
  | .dStatic => true
  | .dBgLiteral => true
  | .dBgMlen => true
  | .dBgMdist => true
  | .dBgMdistwr => true
  | .eBuild => true
  | .eHeader => true
  | .eMetalen => true
  | .eCodelen => true
  | .eWriteToken => true
  | .eLitRep => true
  | .eMatchDistRep => true
  | .eMatchExtra => true
  | .eDistRep => true
  | .eDistExtra => true
  | .eEob => true
  | .eFinalize => true
  | .startDecode _ => true
  | .startEncode _ => true
  | .softReset => true
  | .setMode _ _ => true
  | .tokenLiteral _ => true
  | .tokenMatch l d => matchInRange l d
  | .tokenEnd => true

end Sys2Proof
end

