-- ==== Sys2Proof/Decode.lean ====
section
/-! DEFINITION. The decoder of the three word formats (R49..R53): total, refusing reserved words by name;
then the encoder, from the same tables. -/

namespace Sys2Proof

/-- Where a word is presented to the core: as a micro-operation (16 bits, R49), as a write to CTRL (R52),
or as a token taken from TOKEN_IN (R53). The same 32 bits mean different things at the last two. -/
inductive Port where
  | uop
  | ctrl
  | token
deriving DecidableEq, Repr

/-- A word at a port; a micro-operation word is the low 16 bits. -/
structure Code where
  port : Port
  word : Word
deriving DecidableEq, Repr

/-- Why a word is refused: the reserved micro-operation words of R51, one name for each way, and a token
word that is none of the forms of R53. -/
inductive Reject where
  | reservedOp
  | countOutOfRange
  | countNotZero
  | selReserved
  | selNotZero
  | reservedBits
  | notAToken
deriving DecidableEq, Repr

/-- The operations with no operand, by OP (R50). The step of the engine's state `c` is OP = 0x20 + c. -/
def plainOp (op : Nat) : Option Instr :=
  match op with
  | 0x07 => some .align
  | 0x08 => some .refill
  | 0x0B => some .finalize
  | 0x0C => some .rleExpand
  | 0x21 => some .dHeader
  | 0x22 => some .dPreamble
  | 0x23 => some .dStoredHdr
  | 0x24 => some .dStoredCopy
  | 0x25 => some .dDynCounts
  | 0x26 => some .dDynMetalen
  | 0x27 => some .dDynMetabuild
  | 0x28 => some .dDynCodelen
  | 0x29 => some .dDynTablebuild
  | 0x2A => some .dStatic
  | 0x2B => some .dBgLiteral
  | 0x2C => some .dBgMlen
  | 0x2D => some .dBgMdist
  | 0x2E => some .dBgMdistwr
  | 0x30 => some .eBuild
  | 0x31 => some .eHeader
  | 0x32 => some .eMetalen
  | 0x33 => some .eCodelen
  | 0x34 => some .eWriteToken
  | 0x35 => some .eLitRep
  | 0x36 => some .eMatchDistRep
  | 0x37 => some .eMatchExtra
  | 0x38 => some .eDistRep
  | 0x39 => some .eDistExtra
  | 0x3A => some .eEob
  | 0x3B => some .eFinalize
  | _ => none

/-- The operations with a bit count N, by OP (R50). -/
def countOp (op : Nat) (n : BitVec 6) : Option Instr :=
  match op with
  | 0x04 => some (.peek n)
  | 0x05 => some (.consume n)
  | 0x06 => some (.read n)
  | 0x0A => some (.put n)
  | _ => none

/-- Whether an OP takes a table slot (R50). -/
def takesSel (op : Nat) : Bool :=
  op == 0x01 || op == 0x02 || op == 0x03 || op == 0x09

/-- The operations with a table slot SEL, by OP and SEL (R50); RLE_EMIT takes 1 or 2. -/
def selOp (op sel : Nat) : Option Instr :=
  match op, sel with
  | 0x01, 0 => some (.build .codeLen)
  | 0x01, 1 => some (.build .litLen)
  | 0x01, 2 => some (.build .dist)
  | 0x02, 0 => some (.decodesym .codeLen)
  | 0x02, 1 => some (.decodesym .litLen)
  | 0x02, 2 => some (.decodesym .dist)
  | 0x03, 0 => some (.encodesym .codeLen)
  | 0x03, 1 => some (.encodesym .litLen)
  | 0x03, 2 => some (.encodesym .dist)
  | 0x09, 1 => some (.rleEmit .litLen)
  | 0x09, 2 => some (.rleEmit .dist)
  | _, _ => none

/-- Decode a micro-operation word (R49, R50); every other word is reserved (R51). -/
def decodeUop (w : BitVec 16) : Except Reject Instr :=
  let op := (w.extractLsb' 0 6).toNat
  let n := w.extractLsb' 6 6
  let sel := (w.extractLsb' 12 2).toNat
  if w.extractLsb' 14 2 ≠ 0#2 then .error .reservedBits
  else if takesSel op then
    if n ≠ 0#6 then .error .countNotZero
    else match selOp op sel with
      | some i => .ok i
      | none => .error .selReserved
  else if sel ≠ 0 then
    match plainOp op, countOp op n with
    | none, none => .error .reservedOp
    | _, _ => .error .selNotZero
  else match countOp op n with
    | some i => if countOk n then .ok i else .error .countOutOfRange
    | none => match plainOp op with
      | none => .error .reservedOp
      | some i => if n ≠ 0#6 then .error .countNotZero else .ok i

/-- Decode a write to CTRL (R10, R52): every 32-bit value is a command; reserved bits are ignored, and
SOFT_RESET takes precedence over START. -/
def decodeCtrl (w : Word) : Instr :=
  if w.getLsbD 3 then .softReset
  else if w.getLsbD 0 then
    if w.getLsbD 1 then .startEncode (w.getLsbD 2) else .startDecode (w.getLsbD 2)
  else .setMode (w.getLsbD 1) (w.getLsbD 2)

/-- Decode a token word by the pattern of its row of R53. DEDUCED: a match whose length or distance is out
of range, which R53 does not count as a token, has the row's pattern and decodes; taking it raises
TokenRangeError (R104; log 40). -/
def decodeToken (w : Word) : Except Reject Instr :=
  if w = 0x40000000#32 then .ok .tokenEnd
  else if w.extractLsb' 8 24 = 0#24 then .ok (.tokenLiteral (w.extractLsb' 0 8))
  else if w.extractLsb' 25 7 = 0x40#7 then .ok (.tokenMatch (w.extractLsb' 16 9) (w.extractLsb' 0 16))
  else .error .notAToken

/-- Decode a word at its port. -/
def decode (c : Code) : Except Reject Instr :=
  match c.port with
  | .uop => decodeUop (c.word.setWidth 16)
  | .ctrl => .ok (decodeCtrl c.word)
  | .token => decodeToken c.word

/-! ## The encoder -/

/-- The value of the SEL field (R27). -/
def Sel.code : Sel → BitVec 2
  | .codeLen => 0#2
  | .litLen => 1#2
  | .dist => 2#2

/-- The value of the SEL field of RLE_EMIT (R94). -/
def RleSel.code : RleSel → BitVec 2
  | .litLen => 1#2
  | .dist => 2#2

/-- A micro-operation word from its fields (R49): reserved, SEL, N, OP. -/
def uopWord (op n : BitVec 6) (sel : BitVec 2) : Word :=
  (0#2 ++ sel ++ n ++ op : BitVec 16).setWidth 32

/-- A CTRL command word from its fields (R10): SOFT_RESET, IS_LAST, MODE, START. -/
def ctrlWord (softReset isLast mode start : Bool) : Word :=
  (BitVec.ofBool softReset ++ BitVec.ofBool isLast ++ BitVec.ofBool mode ++ BitVec.ofBool start :
    BitVec 4).setWidth 32

/-- The token word of a literal (R53). -/
def literalWord (b : Byte) : Word :=
  b.setWidth 32

/-- The token word of a match (R53). -/
def matchWord (l : BitVec 9) (d : BitVec 16) : Word :=
  0x40#7 ++ l ++ d

/-- The END marker (R53). -/
def endWord : Word :=
  0x40000000#32

/-- The word of an instruction, at the port it is presented at (R49, R50, R52, R53). -/
def encode : Instr → Code
  | .build sel => ⟨.uop, uopWord 0x01#6 0#6 sel.code⟩
  | .decodesym sel => ⟨.uop, uopWord 0x02#6 0#6 sel.code⟩
  | .encodesym sel => ⟨.uop, uopWord 0x03#6 0#6 sel.code⟩
  | .peek n => ⟨.uop, uopWord 0x04#6 n 0#2⟩
  | .consume n => ⟨.uop, uopWord 0x05#6 n 0#2⟩
  | .read n => ⟨.uop, uopWord 0x06#6 n 0#2⟩
  | .align => ⟨.uop, uopWord 0x07#6 0#6 0#2⟩
  | .refill => ⟨.uop, uopWord 0x08#6 0#6 0#2⟩
  | .rleEmit sel => ⟨.uop, uopWord 0x09#6 0#6 sel.code⟩
  | .put n => ⟨.uop, uopWord 0x0A#6 n 0#2⟩
  | .finalize => ⟨.uop, uopWord 0x0B#6 0#6 0#2⟩
  | .rleExpand => ⟨.uop, uopWord 0x0C#6 0#6 0#2⟩
  | .dHeader => ⟨.uop, uopWord 0x21#6 0#6 0#2⟩
  | .dPreamble => ⟨.uop, uopWord 0x22#6 0#6 0#2⟩
  | .dStoredHdr => ⟨.uop, uopWord 0x23#6 0#6 0#2⟩
  | .dStoredCopy => ⟨.uop, uopWord 0x24#6 0#6 0#2⟩
  | .dDynCounts => ⟨.uop, uopWord 0x25#6 0#6 0#2⟩
  | .dDynMetalen => ⟨.uop, uopWord 0x26#6 0#6 0#2⟩
  | .dDynMetabuild => ⟨.uop, uopWord 0x27#6 0#6 0#2⟩
  | .dDynCodelen => ⟨.uop, uopWord 0x28#6 0#6 0#2⟩
  | .dDynTablebuild => ⟨.uop, uopWord 0x29#6 0#6 0#2⟩
  | .dStatic => ⟨.uop, uopWord 0x2A#6 0#6 0#2⟩
  | .dBgLiteral => ⟨.uop, uopWord 0x2B#6 0#6 0#2⟩
  | .dBgMlen => ⟨.uop, uopWord 0x2C#6 0#6 0#2⟩
  | .dBgMdist => ⟨.uop, uopWord 0x2D#6 0#6 0#2⟩
  | .dBgMdistwr => ⟨.uop, uopWord 0x2E#6 0#6 0#2⟩
  | .eBuild => ⟨.uop, uopWord 0x30#6 0#6 0#2⟩
  | .eHeader => ⟨.uop, uopWord 0x31#6 0#6 0#2⟩
  | .eMetalen => ⟨.uop, uopWord 0x32#6 0#6 0#2⟩
  | .eCodelen => ⟨.uop, uopWord 0x33#6 0#6 0#2⟩
  | .eWriteToken => ⟨.uop, uopWord 0x34#6 0#6 0#2⟩
  | .eLitRep => ⟨.uop, uopWord 0x35#6 0#6 0#2⟩
  | .eMatchDistRep => ⟨.uop, uopWord 0x36#6 0#6 0#2⟩
  | .eMatchExtra => ⟨.uop, uopWord 0x37#6 0#6 0#2⟩
  | .eDistRep => ⟨.uop, uopWord 0x38#6 0#6 0#2⟩
  | .eDistExtra => ⟨.uop, uopWord 0x39#6 0#6 0#2⟩
  | .eEob => ⟨.uop, uopWord 0x3A#6 0#6 0#2⟩
  | .eFinalize => ⟨.uop, uopWord 0x3B#6 0#6 0#2⟩
  | .startDecode isLast => ⟨.ctrl, ctrlWord false isLast false true⟩
  | .startEncode isLast => ⟨.ctrl, ctrlWord false isLast true true⟩
  | .softReset => ⟨.ctrl, ctrlWord true false false false⟩
  | .setMode mode isLast => ⟨.ctrl, ctrlWord false isLast mode false⟩
  | .tokenLiteral b => ⟨.token, literalWord b⟩
  | .tokenMatch l d => ⟨.token, matchWord l d⟩
  | .tokenEnd => ⟨.token, endWord⟩

/-! ## The opcode table's own view -/

/-- A row of spec/opcode_table.json: a word `w` at the row's port belongs to it when
`w &&& mask = bits`. -/
structure Row where
  port : Port
  mask : Word
  bits : Word
deriving DecidableEq, Repr

/-- The match and mask of an instruction's row in spec/opcode_table.json. -/
def Instr.row : Instr → Row
  | .build _ => ⟨.uop, 0xCFFF#32, 0x0001#32⟩
  | .decodesym _ => ⟨.uop, 0xCFFF#32, 0x0002#32⟩
  | .encodesym _ => ⟨.uop, 0xCFFF#32, 0x0003#32⟩
  | .peek _ => ⟨.uop, 0xF03F#32, 0x0004#32⟩
  | .consume _ => ⟨.uop, 0xF03F#32, 0x0005#32⟩
  | .read _ => ⟨.uop, 0xF03F#32, 0x0006#32⟩
  | .align => ⟨.uop, 0xFFFF#32, 0x0007#32⟩
  | .refill => ⟨.uop, 0xFFFF#32, 0x0008#32⟩
  | .rleEmit _ => ⟨.uop, 0xCFFF#32, 0x0009#32⟩
  | .put _ => ⟨.uop, 0xF03F#32, 0x000A#32⟩
  | .finalize => ⟨.uop, 0xFFFF#32, 0x000B#32⟩
  | .rleExpand => ⟨.uop, 0xFFFF#32, 0x000C#32⟩
  | .dHeader => ⟨.uop, 0xFFFF#32, 0x0021#32⟩
  | .dPreamble => ⟨.uop, 0xFFFF#32, 0x0022#32⟩
  | .dStoredHdr => ⟨.uop, 0xFFFF#32, 0x0023#32⟩
  | .dStoredCopy => ⟨.uop, 0xFFFF#32, 0x0024#32⟩
  | .dDynCounts => ⟨.uop, 0xFFFF#32, 0x0025#32⟩
  | .dDynMetalen => ⟨.uop, 0xFFFF#32, 0x0026#32⟩
  | .dDynMetabuild => ⟨.uop, 0xFFFF#32, 0x0027#32⟩
  | .dDynCodelen => ⟨.uop, 0xFFFF#32, 0x0028#32⟩
  | .dDynTablebuild => ⟨.uop, 0xFFFF#32, 0x0029#32⟩
  | .dStatic => ⟨.uop, 0xFFFF#32, 0x002A#32⟩
  | .dBgLiteral => ⟨.uop, 0xFFFF#32, 0x002B#32⟩
  | .dBgMlen => ⟨.uop, 0xFFFF#32, 0x002C#32⟩
  | .dBgMdist => ⟨.uop, 0xFFFF#32, 0x002D#32⟩
  | .dBgMdistwr => ⟨.uop, 0xFFFF#32, 0x002E#32⟩
  | .eBuild => ⟨.uop, 0xFFFF#32, 0x0030#32⟩
  | .eHeader => ⟨.uop, 0xFFFF#32, 0x0031#32⟩
  | .eMetalen => ⟨.uop, 0xFFFF#32, 0x0032#32⟩
  | .eCodelen => ⟨.uop, 0xFFFF#32, 0x0033#32⟩
  | .eWriteToken => ⟨.uop, 0xFFFF#32, 0x0034#32⟩
  | .eLitRep => ⟨.uop, 0xFFFF#32, 0x0035#32⟩
  | .eMatchDistRep => ⟨.uop, 0xFFFF#32, 0x0036#32⟩
  | .eMatchExtra => ⟨.uop, 0xFFFF#32, 0x0037#32⟩
  | .eDistRep => ⟨.uop, 0xFFFF#32, 0x0038#32⟩
  | .eDistExtra => ⟨.uop, 0xFFFF#32, 0x0039#32⟩
  | .eEob => ⟨.uop, 0xFFFF#32, 0x003A#32⟩
  | .eFinalize => ⟨.uop, 0xFFFF#32, 0x003B#32⟩
  | .startDecode _ => ⟨.ctrl, 0x0000000B#32, 0x00000001#32⟩
  | .startEncode _ => ⟨.ctrl, 0x0000000B#32, 0x00000003#32⟩
  | .softReset => ⟨.ctrl, 0x00000008#32, 0x00000008#32⟩
  | .setMode _ _ => ⟨.ctrl, 0x00000009#32, 0x00000000#32⟩
  | .tokenLiteral _ => ⟨.token, 0xFFFFFF00#32, 0x00000000#32⟩
  | .tokenMatch _ _ => ⟨.token, 0xFE000000#32, 0x80000000#32⟩
  | .tokenEnd => ⟨.token, 0xFFFFFFFF#32, 0x40000000#32⟩

/-- The port of a 32-bit table word that carries no port (log 9): a word whose bits 31:4 are 0 is a write
to CTRL, every other word that is a token is a token, and the rest are CTRL writes with reserved bits
set. -/
def port32 (w : Word) : Port :=
  if w.extractLsb' 4 28 = 0#28 then .ctrl
  else match decodeToken w with
    | .ok _ => .token
    | .error _ => .ctrl

/-- The code a table word of `nbits` bits stands for: 16 bits are a micro-operation, 32 bits a CTRL write
or a token (log 9). -/
def tableCode (nbits w : Nat) : Option Code :=
  if nbits = 16 then some ⟨.uop, BitVec.ofNat 32 w⟩
  else if nbits = 32 then some ⟨port32 (BitVec.ofNat 32 w), BitVec.ofNat 32 w⟩
  else none

/-- The instruction the decoder reads from a table word. -/
def decodeTableWord (nbits w : Nat) : Option Instr :=
  match tableCode nbits w with
  | none => none
  | some c => match decode c with
    | .ok i => some i
    | .error _ => none

end Sys2Proof
end

