-- ==== Sys2Proof/Config.lean ====
section
/-! DEFINITION. The fixed parameters (R1), the open parameters (R2, R35) and the free values: the values
the spec leaves open, each an opaque constant that nothing in Lean can evaluate. -/

namespace Sys2Proof

/-- The packer's output word size PACK_WORD_BITS: 8, 16 or 32 (R2). -/
inductive PackWord where
  | bits8
  | bits16
  | bits32
deriving DecidableEq, Repr

/-- The number of bits of the packer's output word (R2). -/
def PackWord.bits : PackWord → Nat
  | .bits8 => 8
  | .bits16 => 16
  | .bits32 => 32

/-- Where the platform places a memory in the system address map (R35): entry `i` stands at the address
`base + i * stride` (log 24). -/
structure Placement where
  base   : Nat
  stride : Nat
deriving DecidableEq, Repr

/-- The address of entry `i` (R35). -/
def Placement.address (p : Placement) (i : Nat) : Nat :=
  p.base + i * p.stride

/-- The entry that stands at an address; none where no entry does (R35). -/
def Placement.indexOf (p : Placement) (addr : Nat) : Option Nat :=
  let i := (addr - p.base) / p.stride
  if p.address i = addr then some i else none

/-- The open parameters of one instance (R2, R35). They stand in `State`, so that a statement for every
state is a statement for every choice of them; no step changes them. -/
structure Config where
  inMemBytes    : Nat
  outMemBytes   : Nat
  tokenOutDepth : Nat
  packWord      : PackWord
  regBase       : Nat
  inMemAt       : Placement
  outMemAt      : Placement
  litlenAt      : Placement
  distAt        : Placement
  metaLenAt     : Placement
deriving DecidableEq, Repr

namespace Config

/-- The constraints R2 puts on the open parameters. -/
def wf (c : Config) : Bool :=
  decide (1 ≤ c.inMemBytes) && decide (c.inMemBytes ≤ 2 ^ 28) && decide (5 ≤ c.outMemBytes) &&
    decide (2 ≤ c.tokenOutDepth)

/-- DESIGN CHOICE (log 1): the parameters of `State.reset`. The spec leaves them open; the word size is
the one its test vectors use, and the memories stand apart. Unsafe: nothing should rest on these
values. -/
def reference : Config where
  inMemBytes    := 2 ^ 28
  outMemBytes   := 2 ^ 28
  tokenOutDepth := 2 ^ 20
  packWord      := .bits16
  regBase       := 0
  inMemAt       := ⟨0x10000000, 1⟩
  outMemAt      := ⟨0x20000000, 1⟩
  litlenAt      := ⟨0x1000, 1⟩
  distAt        := ⟨0x1200, 1⟩
  metaLenAt     := ⟨0x1300, 1⟩

end Config

/-! The fixed parameters of R1. -/

def maxCodeLen : Nat := 15
def litSymbols : Nat := 288
def distSymbols : Nat := 32
def metaSymbols : Nat := 19
def rootMeta : Nat := 7
def rootLit : Nat := 9
def rootDist : Nat := 6
def maxPeek : Nat := 32
def accBits : Nat := 64
def refillGranule : Nat := 16
def refillThreshold : Nat := 32
def tableEntries : Nat := 2048
def storedMax : Nat := 65535

/-! ## Free values (log 2)

Each takes the counter `State.draws`, which moves with every step that runs something, so that two steps
draw independently. Nothing constrains a free value: a statement about one holds for every value. -/

/-- Which table read of a DECODESYM an entry is drawn for. -/
inductive TableRead where
  | root
  | subtable
deriving DecidableEq, Repr

/-- What DT holds where the spec gives it no contents (R28, 93 part 1: any value). -/
opaque Config.freeEntry : Nat → TableRead → Entry

/-- What ET holds where the spec gives it no contents (R28, 93 part 1: any value). -/
opaque Config.freeEncEntry : Nat → EncEntry

/-- What a host read of a result returns before the terminal STATUS read, or outside the bytes written
(R19, R46: a draw). -/
opaque Config.freeWord : Nat → Word

/-- What a cursor read of an IN_MEM address returns that nothing has written: no run reaches it (R43). -/
opaque Config.freeByte : Nat → Nat → Byte

/-- What a read past the end of `rq` returns: no run reaches it (R102). -/
opaque Config.freePair : Nat → Pair

/-- What a read past the end of a code-length array returns: no run reaches it (R25). -/
opaque Config.freeLen : Nat → Nat → BitVec 4

/-- What `PERM[i]` is for an `i` above 18: no run reaches it (R84, R101). -/
opaque Config.freeMetaSymbol : Nat → Fin 19

/-- The repeat count of a meta symbol above 18: no run reaches it (R86). -/
opaque Config.freeRepeat : Nat → BitVec 9

end Sys2Proof
end

