-- ==== Sys2Proof/Machine/State.lean ====
section
/-! DEFINITION. The state of one core instance as plain data (R8, R10..R16, R18..R32), its reset value
(R130), and the reasons a step can stop (R119). -/

namespace Sys2Proof.Machine

/-- The engine's position, the analogue of a program counter (R8). -/
inductive Fsm where
  | idle
  | dHeader
  | dPreamble
  | dStoredHdr
  | dStoredCopy
  | dDynCounts
  | dDynMetalen
  | dDynMetabuild
  | dDynCodelen
  | dDynTablebuild
  | dStatic
  | dBgLiteral
  | dBgMlen
  | dBgMdist
  | dBgMdistwr
  | dComplete
  | eBuild
  | eHeader
  | eMetalen
  | eCodelen
  | eWriteToken
  | eLitRep
  | eMatchDistRep
  | eMatchExtra
  | eDistRep
  | eDistExtra
  | eEob
  | eFinalize
  | eDone
  | error
deriving DecidableEq, Repr

/-- The error codes of R116. -/
inductive Err where
  | none
  | unexpectedEof
  | treeIncomplete
  | treeOversubscribed
  | invalidCode
  | unsupportedBlockType
  | rleProtocolError
  | storedLengthMismatch
  | unencodableSymbol
  | tokenRangeError
  | outputOverflow
deriving DecidableEq, Repr

/-- The read-write fields of CTRL (R10). -/
structure CtrlReg where
  mode   : Bool
  isLast : Bool
deriving DecidableEq, Repr

/-- The error registers (R16, R31). -/
structure ErrRegs where
  code   : Err
  bitpos : Word
  info   : Word
deriving DecidableEq, Repr

/-- The bit cursor (R24). -/
structure Cursor where
  pos    : BitVec 32
  acc    : BitVec 64
  held   : BitVec 7
  fetch  : BitVec 32
  inBits : BitVec 35
deriving DecidableEq, Repr

/-- The block parser (R25). -/
structure Parser where
  bfinal    : Bool
  btype     : BitVec 2
  hlit      : BitVec 9
  hdist     : BitVec 6
  hclen     : BitVec 5
  mi        : BitVec 5
  metaLen   : List (BitVec 3)
  cl        : List (BitVec 4)
  ci        : BitVec 9
  storedRem : BitVec 16
deriving DecidableEq, Repr

/-- The decoder FSM's registers (R26). -/
structure ByteGen where
  lbase : BitVec 9
  lext  : BitVec 3
  mlen  : BitVec 9
  dbase : BitVec 16
  dext  : BitVec 4
deriving DecidableEq, Repr

/-- A table slot (R28). `dt` holds the entries 0 .. tsize-1 and `et` one entry for each symbol after a
BUILD; an entry that is not listed has unspecified contents (log 14). -/
structure Slot where
  valid : Bool
  rw    : BitVec 4
  tsize : BitVec 12
  nused : BitVec 9
  dt    : List Entry
  et    : List EncEntry
deriving DecidableEq, Repr

/-- The three table slots (R27). -/
structure Slots where
  codeLen : Slot
  litLen  : Slot
  dist    : Slot
deriving DecidableEq, Repr

/-- The token encoder (R29). -/
structure Encoder where
  tin    : BitVec 32
  tok    : Word
  lsym   : BitVec 9
  lxv    : BitVec 5
  lxn    : BitVec 3
  dsym   : BitVec 5
  dxv    : BitVec 13
  dxn    : BitVec 4
  eHlit  : BitVec 5
  eHdist : BitVec 5
  eHclen : BitVec 4
  emi    : BitVec 5
  rq     : List Pair
  rqi    : BitVec 9
  isLast : Bool
deriving DecidableEq, Repr

/-- The bit packer (R30); `optr` is what OUT_SIZE reads (R13). -/
structure Packer where
  pacc   : BitVec 64
  pn     : BitVec 7
  optr   : BitVec 32
  ptotal : BitVec 32
deriving DecidableEq, Repr

/-- The MODEL's own operand and result registers of a primitive micro-operation that is issued by its
word (R49; log 4, log 6, log 7). -/
structure UopRegs where
  opVal    : Word
  resVal   : Word
  resEntry : Entry
  resLens  : List (BitVec 4)
deriving DecidableEq, Repr

/-- What the host and the consumer do between two steps of the engine, as plain data (log 3): issue a
micro-operation word with its run-time operand (log 4), access a register at a bus address, write an
input memory or read OUT_MEM at a bus address, supply a token sequence, let the consumer remove a word
from TOKEN_OUT, let the engine take one turn, or poll STATUS until BUSY is 0 (WAIT of R64), with a
consumer that is ready to drain the queue meanwhile or is not (R133). -/
inductive HostEvent where
  | uop (w : BitVec 16) (v : Word)
  | regWrite (addr : Nat) (v : Word)
  | regRead (addr : Nat)
  | regNarrow (addr : Nat)
  | inMemWrite (addr : Nat) (b : Byte)
  | treeWrite (t : Sel) (addr : Nat) (v : Word)
  | tokenInWrite (ws : List Word)
  | outMemRead (addr : Nat)
  | drain
  | engine
  | wait (ready : Bool)
deriving DecidableEq, Repr

/-- The whole state of one instance. -/
structure State where
  /-- The open parameters (R2, R35); no step changes them. -/
  cfg        : Config
  /-- The engine's position (R8). -/
  state      : Fsm
  /-- CTRL (R10). -/
  ctrl       : CtrlReg
  /-- IN_LEN (R12). -/
  inLen      : Word
  /-- TOKEN_COUNT (R14). -/
  tokenCount : Word
  /-- err_code, ERR_BITPOS, ERR_INFO (R16, R31). -/
  err        : ErrRegs
  /-- IN_MEM (R18). -/
  inMem      : Cells 8
  /-- OUT_MEM (R19). -/
  outMem     : Cells 8
  /-- LITLEN_LEN (R20). -/
  litlenLen  : Cells 4
  /-- DIST_LEN (R20). -/
  distLen    : Cells 4
  /-- META_LEN (R20). -/
  metaLenMem : Cells 3
  /-- TOKEN_OUT, oldest word first (R21). -/
  tokenOut   : List Word
  /-- TOKEN_IN, in order (R23). -/
  tokenIn    : List Word
  /-- The bit cursor (R24). -/
  cur        : Cursor
  /-- The block parser (R25). -/
  par        : Parser
  /-- The decoder FSM (R26). -/
  bg         : ByteGen
  /-- The table slots (R27, R28). -/
  slots      : Slots
  /-- The token encoder (R29). -/
  enc        : Encoder
  /-- The bit packer (R30). -/
  pk         : Packer
  /-- MODEL: operands and results of an issued micro-operation (log 4). -/
  uop        : UopRegs
  /-- MODEL: the host's pending actions, in order (log 3). -/
  host       : List HostEvent
  /-- MODEL: the word the last host read gave (log 3). -/
  hostData   : Option Word
  /-- MODEL: the words the consumer has removed from TOKEN_OUT, in order (R21; log 3). -/
  taken      : List Word
  /-- MODEL: the host has read a terminal STATUS since the last START (R46, R135; log 20). -/
  synced     : Bool
  /-- MODEL: the counter free values are drawn by (log 2). -/
  draws      : Nat
deriving DecidableEq, Repr

/-! ## Reset (R130) -/

/-- An empty table slot: `valid`, `rw`, `tsize`, `nused` are 0, DT and ET hold nothing (R28, R130). -/
def Slot.empty : Slot where
  valid := false
  rw    := 0
  tsize := 0
  nused := 0
  dt    := []
  et    := []

/-- The three slots after reset. -/
def Slots.empty : Slots where
  codeLen := Slot.empty
  litLen  := Slot.empty
  dist    := Slot.empty

/-- The cursor after reset. -/
def Cursor.zero : Cursor where
  pos    := 0
  acc    := 0
  held   := 0
  fetch  := 0
  inBits := 0

/-- The parser after reset. -/
def Parser.zero : Parser where
  bfinal    := false
  btype     := 0
  hlit      := 0
  hdist     := 0
  hclen     := 0
  mi        := 0
  metaLen   := List.replicate 19 0
  cl        := List.replicate 320 0
  ci        := 0
  storedRem := 0

/-- The ByteGen registers after reset. -/
def ByteGen.zero : ByteGen where
  lbase := 0
  lext  := 0
  mlen  := 0
  dbase := 0
  dext  := 0

/-- The encoder registers after reset. -/
def Encoder.zero : Encoder where
  tin    := 0
  tok    := 0
  lsym   := 0
  lxv    := 0
  lxn    := 0
  dsym   := 0
  dxv    := 0
  dxn    := 0
  eHlit  := 0
  eHdist := 0
  eHclen := 0
  emi    := 0
  rq     := []
  rqi    := 0
  isLast := false

/-- The packer registers after reset. -/
def Packer.zero : Packer where
  pacc   := 0
  pn     := 0
  optr   := 0
  ptotal := 0

/-- DESIGN CHOICE (log 30): the model's own micro-operation registers at reset. -/
def UopRegs.zero : UopRegs where
  opVal    := 0
  resVal   := 0
  resEntry := ⟨.literal, 0, 0, 0⟩
  resLens  := []

/-- Power-on reset (R130) of an instance with the open parameters `c`. The last five fields and `uop` are
the model's own: DESIGN CHOICE (log 30). -/
def State.resetWith (c : Config) : State where
  cfg        := c
  state      := .idle
  ctrl       := ⟨false, false⟩
  inLen      := 0
  tokenCount := 0
  err        := ⟨.none, 0, 0⟩
  inMem      := []
  outMem     := []
  litlenLen  := []
  distLen    := []
  metaLenMem := []
  tokenOut   := []
  tokenIn    := []
  cur        := Cursor.zero
  par        := Parser.zero
  bg         := ByteGen.zero
  slots      := Slots.empty
  enc        := Encoder.zero
  pk         := Packer.zero
  uop        := UopRegs.zero
  host       := []
  hostData   := none
  taken      := []
  synced     := true
  draws      := 0

/-- The machine right after power-on reset, with the parameters of `Config.reference` (log 1). -/
def State.reset : State :=
  State.resetWith Config.reference

/-! ## How a step can stop -/

/-- The faults of a model (R119), and the host's accesses to addresses that do not exist. All are safe:
the model stops where the spec gives the machine no way to go on. -/
inductive Fault where
  /-- Raised by START_DECODE when byte `a` below IN_LEN has not been written since reset (R43, R132).
  Safe. -/
  | inputUnwritten (a : Nat)
  /-- Raised by E_BUILD, E_METALEN, and BUILD and RLE_EMIT issued as micro-operations, when an entry of
  the tree memory `t` that they read was never written (R20). Safe. -/
  | treeUnwritten (t : Sel)
  /-- Raised by E_WRITE_TOKEN when TOKEN_IN holds no word at index `tin` (R23, R104). Safe. -/
  | tokenMissing (tin : Nat)
  /-- Raised by a host access to a memory at an address where no entry of it stands (R18, R19, R20, R35).
  Safe (log 23, log 24). -/
  | addressOutside (a : Nat)
deriving DecidableEq, Repr

/-- The refusals of a model (R119): the spec gives the input no meaning. All are safe. -/
inductive Refusal where
  /-- An instruction without a meaning yet, named by its mnemonic. Safe. -/
  | notModelled (mnemonic : String)
  /-- Raised by START_DECODE when IN_LEN exceeds IN_MEM_BYTES (R12, R132). Safe. -/
  | inputTooLong
  /-- Raised by a host write to IN_MEM, a tree memory or TOKEN_IN while BUSY = 1 (R47). Safe. -/
  | inputWriteWhileBusy
  /-- Raised by a host write of a tree length above 15, above 7 for META_LEN (R20). Safe. -/
  | lengthOutOfRange
  /-- Raised by a byte or half-word access to the register block (R17). Safe. -/
  | narrowRegisterAccess
  /-- Raised by a word access below offset 0x20 that is not at a multiple of 4 (log 23). Safe. -/
  | misalignedRegisterAccess
  /-- Raised by a register access outside REG_BASE .. REG_BASE + 0xFFF (R35, log 23). Safe. -/
  | notARegisterAddress
  /-- Raised by the issue of a reserved micro-operation word (R51). Safe. -/
  | reservedMicroOp (w : BitVec 16)
  /-- Raised by the issue of a step's word while `state` does not name that step (log 26). Safe. -/
  | stepOutOfState (w : BitVec 16)
  /-- Raised by the issue of a primitive's word while BUSY = 1, from outside the step that would call it
  (R120; log 36). Safe. -/
  | uopWhileBusy (w : BitVec 16)
deriving DecidableEq, Repr

end Sys2Proof.Machine
end

