-- ==== Sys2Proof/Machine/Flags.lean ====
section
/-! DEFINITION. State codes, the flags computed from the state, and the values of the read-only registers
(R8, R11, R14, R15, R32, R116). -/

namespace Sys2Proof.Machine

/-- The 5-bit code of a state (R8). -/
def fsmCode : Fsm → BitVec 5
  | .idle => 0#5
  | .dHeader => 1#5
  | .dPreamble => 2#5
  | .dStoredHdr => 3#5
  | .dStoredCopy => 4#5
  | .dDynCounts => 5#5
  | .dDynMetalen => 6#5
  | .dDynMetabuild => 7#5
  | .dDynCodelen => 8#5
  | .dDynTablebuild => 9#5
  | .dStatic => 10#5
  | .dBgLiteral => 11#5
  | .dBgMlen => 12#5
  | .dBgMdist => 13#5
  | .dBgMdistwr => 14#5
  | .dComplete => 15#5
  | .eBuild => 16#5
  | .eHeader => 17#5
  | .eMetalen => 18#5
  | .eCodelen => 19#5
  | .eWriteToken => 20#5
  | .eLitRep => 21#5
  | .eMatchDistRep => 22#5
  | .eMatchExtra => 23#5
  | .eDistRep => 24#5
  | .eDistExtra => 25#5
  | .eEob => 26#5
  | .eFinalize => 27#5
  | .eDone => 28#5
  | .error => 31#5

/-- The 4-bit code of an error (R116). -/
def errCode : Err → BitVec 4
  | .none => 0#4
  | .unexpectedEof => 1#4
  | .treeIncomplete => 2#4
  | .treeOversubscribed => 3#4
  | .invalidCode => 4#4
  | .unsupportedBlockType => 5#4
  | .rleProtocolError => 6#4
  | .storedLengthMismatch => 7#4
  | .unencodableSymbol => 8#4
  | .tokenRangeError => 9#4
  | .outputOverflow => 10#4

/-- The terminal states, in which the engine takes no step (R8). -/
def terminal (f : Fsm) : Bool :=
  f == .idle || f == .dComplete || f == .eDone || f == .error

/-- STATUS.BUSY (R11). -/
def busy (s : State) : Bool :=
  !terminal s.state

/-- STATUS.DONE (R11). -/
def done (s : State) : Bool :=
  s.state == .dComplete || s.state == .eDone

/-- STATUS.ERROR (R11). -/
def failed (s : State) : Bool :=
  s.state == .error

/-- STATUS from its fields (R11): FSM_STATE at 20:16, ERR_CODE at 11:8, ERROR, DONE, BUSY at 2:0. -/
def statusOf (fsm : BitVec 5) (code : BitVec 4) (isError isDone isBusy : Bool) : Word :=
  0#11 ++ fsm ++ 0#4 ++ code ++ 0#5 ++ BitVec.ofBool isError ++ BitVec.ofBool isDone ++
    BitVec.ofBool isBusy

/-- STATUS (R11); ERR_CODE is 0 unless ERROR is 1. -/
def statusWord (s : State) : Word :=
  statusOf (fsmCode s.state) (if failed s then errCode s.err.code else 0#4) (failed s) (done s) (busy s)

/-- What a read of CTRL returns (R10): START, SOFT_RESET and the reserved bits read 0. -/
def ctrlValue (s : State) : Word :=
  0#29 ++ BitVec.ofBool s.ctrl.isLast ++ BitVec.ofBool s.ctrl.mode ++ 0#1

/-- BIT_POS (R15): `pos` in decode mode, `ptotal` in encode mode. DEDUCED: the mode is the field CTRL.MODE
as it stands, also after a SET_MODE between two jobs (log 39). -/
def bitPos (s : State) : Word :=
  if s.ctrl.mode then s.pk.ptotal else s.cur.pos

/-- OUT_SIZE (R13). -/
def outSize (s : State) : Word :=
  s.pk.optr

end Sys2Proof.Machine
end

