-- ==== Sys2Proof/Machine/Ops.lean ====
section
/-! DEFINITION. The named operations over memory and registers (R6, R22, R43, R44, R78, R134), and taking
an error, the hardware's only exception (R117). -/

namespace Sys2Proof.Machine

/-- The outcome of a step of this machine. -/
abbrev Out := Host.Outcome State Fault Refusal

/-! ## Memories -/

/-- The value a memory holds at `a`; none where nothing has written it (R18, R20). -/
def memRead {w : Nat} : Cells w → Nat → Option (BitVec w)
  | [], _ => none
  | (k, x) :: rest, a => if k = a then some x else memRead rest a

/-- Write `v` at `a`, keeping the addresses strictly rising. -/
def memWrite {w : Nat} : Cells w → Nat → BitVec w → Cells w
  | [], a, v => [(a, v)]
  | (k, x) :: rest, a, v =>
    if a < k then (a, v) :: (k, x) :: rest
    else if a = k then (a, v) :: rest
    else (k, x) :: memWrite rest a v

/-- The canonical form of a memory: addresses strictly rising. An unlisted address reads as no value, so
no entry can equal what it would read as. -/
def Memory.wf {w : Nat} : Cells w → Bool
  | [] => true
  | [_] => true
  | (a, _) :: (b, y) :: rest => decide (a < b) && Memory.wf ((b, y) :: rest)

/-- The `n` entries of a memory from address `a` on; none when one of them was never written (R20). -/
def readCells {w : Nat} (m : Cells w) (a : Nat) : Nat → Option (List Nat)
  | 0 => some []
  | n + 1 =>
    match memRead m a, readCells m (a + 1) n with
    | some x, some xs => some (x.toNat :: xs)
    | _, _ => none

/-- The first address from `a` on, among `n`, that was never written (R43). -/
def firstUnwritten {w : Nat} (m : Cells w) (a : Nat) : Nat → Option Nat
  | 0 => none
  | n + 1 => if (memRead m a).isNone then some a else firstUnwritten m (a + 1) n

/-! ## The result of an operation of a rule (R6) -/

/-- How an operation of a rule ends: with a value, or by a `raise`, whose state holds the writes made
before it (R6). -/
inductive Res (α : Type) where
  | ok (a : α) (s : State)
  | raised (s : State)

/-- Go on with the next statement of the rule; after a `raise` no statement runs (R6). -/
def Res.bind {α β : Type} (r : Res α) (f : α → State → Res β) : Res β :=
  match r with
  | .ok a s => f a s
  | .raised s => .raised s

/-- The state an operation leaves, raised or not. -/
def Res.state {α : Type} : Res α → State
  | .ok _ s => s
  | .raised s => s

/-- A rule that ends in its last statement or by a `raise` gives a next state either way (R6). -/
def Res.out {α : Type} (r : Res α) : Out :=
  .next r.state

/-! ## State register, errors, tokens -/

/-- `state <- f` (R6). -/
def setState (f : Fsm) (s : State) : State :=
  { s with state := f }

/-- TAKING AN ERROR: `raise e(info)` (R117). It writes the error registers and stops the engine in ERROR;
ERR_BITPOS takes the value BIT_POS has. There is no handler and no return (R122, R123). -/
def raiseErr (e : Err) (info : Word) (s : State) : State :=
  { s with err := ⟨e, bitPos s, info⟩, state := .error }

/-- `raise` as the end of an operation. -/
def raise {α : Type} (e : Err) (info : Word) (s : State) : Res α :=
  .raised (raiseErr e info s)

/-- `EmitToken` (R22): append the word and count it. -/
def emitToken (w : Word) (s : State) : State :=
  { s with tokenOut := s.tokenOut ++ [w], tokenCount := s.tokenCount + 1 }

/-- Append the END marker, which is not counted (R14, R89). -/
def emitEnd (s : State) : State :=
  { s with tokenOut := s.tokenOut ++ [endWord] }

/-- `EndOfBlock` (R78). -/
def endOfBlock (s : State) : State :=
  if s.par.bfinal then setState .dComplete (emitEnd s) else setState .dPreamble s

/-- Token queue back-pressure (R134): the step from `s` to `t` is taken only when the queue has room for
the words it appends; otherwise nothing changes. A step that appends no word is never held. -/
def takeIfRoom (s t : State) : State :=
  if t.tokenOut.length = s.tokenOut.length then t
  else if t.tokenOut.length ≤ s.cfg.tokenOutDepth then t
  else s

/-- `MemWrite(OUT_MEM, optr, 1, v); optr <- optr + 1` (R44, R113, R115). -/
def outByte (v : Byte) (s : State) : Res Unit :=
  if s.cfg.outMemBytes ≤ s.pk.optr.toNat then raise .outputOverflow s.pk.optr s
  else .ok () { s with
    outMem := memWrite s.outMem s.pk.optr.toNat v
    pk := { s.pk with optr := s.pk.optr + 1 } }

/-! ## Table slots (R27, R28) -/

/-- The slot `sel` selects. -/
def slotOf (sel : Sel) (s : State) : Slot :=
  match sel with
  | .codeLen => s.slots.codeLen
  | .litLen => s.slots.litLen
  | .dist => s.slots.dist

/-- Write the slot `sel` selects. -/
def setSlot (sel : Sel) (x : Slot) (s : State) : State :=
  match sel with
  | .codeLen => { s with slots := { s.slots with codeLen := x } }
  | .litLen => { s with slots := { s.slots with litLen := x } }
  | .dist => { s with slots := { s.slots with dist := x } }

/-- `valid[sel] <- 0`; the rest of the slot stays (R28, R78). -/
def clearValid (sel : Sel) (s : State) : State :=
  setSlot sel { slotOf sel s with valid := false } s

/-- `valid[0..2] <- 0` (R79, R132). -/
def clearAllValid (s : State) : State :=
  clearValid .dist (clearValid .litLen (clearValid .codeLen s))

/-- `DT[sel][a]`. The entries of a slot whose `valid` is 0, and those BUILD has not written, are
unspecified: a free value (R28, log 14). -/
def dtRead (sel : Sel) (a : Nat) (site : TableRead) (s : State) : Entry :=
  if (slotOf sel s).valid then ((slotOf sel s).dt[a]?).getD (Config.freeEntry s.draws site)
  else Config.freeEntry s.draws site

/-- `ET[sel][y]`; unspecified as `dtRead` is (R28, log 14). -/
def etRead (sel : Sel) (y : Nat) (s : State) : EncEntry :=
  if (slotOf sel s).valid then ((slotOf sel s).et[y]?).getD (Config.freeEncEntry s.draws)
  else Config.freeEncEntry s.draws

/-! ## Register arrays and queues, read at an index (R25, R29)

No run reads past the end of one; such a read is a free value (log 17). A write past the end has no
register to write (log 18). -/

/-- `cl[i]` (R25). -/
def clAt (s : State) (i : Nat) : BitVec 4 :=
  (s.par.cl[i]?).getD (Config.freeLen s.draws i)

/-- `meta_len[i]` (R25). -/
def metaLenAt (s : State) (i : Nat) : BitVec 3 :=
  (s.par.metaLen[i]?).getD ((Config.freeLen s.draws i).setWidth 3)

/-- `rq[i]` (R29). -/
def rqAt (s : State) (i : Nat) : Pair :=
  (s.enc.rq[i]?).getD (Config.freePair s.draws)

end Sys2Proof.Machine
end

