-- ==== Sys2Proof/Machine/Operands.lean ====
section
/-! DEFINITION. The operand tables and forms: alphabets (R65), the permutation PERM (R56), the length and
distance tables (R59, R60) and classes (R103), the meta symbols' extra bits (R57), symbol entries (R68),
and the length arrays the rules build tables from (R85, R87, R98, R99). -/

namespace Sys2Proof.Machine

/-- The value of a table slot selector (R27). -/
def selNat : Sel → Nat
  | .codeLen => 0
  | .litLen => 1
  | .dist => 2

/-- The alphabet size NSYM (R65). -/
def nsym : Sel → Nat
  | .codeLen => metaSymbols
  | .litLen => litSymbols
  | .dist => distSymbols

/-- The root width ROOT (R65). -/
def rootWidth : Sel → Nat
  | .codeLen => rootMeta
  | .litLen => rootLit
  | .dist => rootDist

/-- The order of the meta lengths in the stream (R56). -/
def perm : List Nat :=
  [16, 17, 18, 0, 8, 7, 9, 6, 10, 5, 11, 4, 12, 3, 13, 2, 14, 1, 15]

/-- `PERM[i]`; above 18 there is no entry, and the value is free (log 17). -/
def permAt (s : State) (i : Nat) : Nat :=
  (perm[i]?).getD (Config.freeMetaSymbol s.draws).val

/-- The extra bits of a meta symbol (R57, R68). -/
def metaExtra (s : Nat) : Nat :=
  if s = 16 then 2 else if s = 17 then 3 else if s = 18 then 7 else 0

/-- The length table (R59): base length and extra bits of the symbols 257, 258, ... 285. -/
def lengthTable : List (Nat × Nat) :=
  [(3, 0), (4, 0), (5, 0), (6, 0), (7, 0), (8, 0), (9, 0), (10, 0),
   (11, 1), (13, 1), (15, 1), (17, 1), (19, 2), (23, 2), (27, 2), (31, 2),
   (35, 3), (43, 3), (51, 3), (59, 3), (67, 4), (83, 4), (99, 4), (115, 4),
   (131, 5), (163, 5), (195, 5), (227, 5), (258, 0)]

/-- The distance table (R60): base distance and extra bits of the symbols 0, 1, ... 29. -/
def distTable : List (Nat × Nat) :=
  [(1, 0), (2, 0), (3, 0), (4, 0), (5, 1), (7, 1), (9, 2), (13, 2),
   (17, 3), (25, 3), (33, 4), (49, 4), (65, 5), (97, 5), (129, 6), (193, 6),
   (257, 7), (385, 7), (513, 8), (769, 8), (1025, 9), (1537, 9), (2049, 10), (3073, 10),
   (4097, 11), (6145, 11), (8193, 12), (12289, 12), (16385, 13), (24577, 13)]

/-- `SymEntry(sel, y, l)` (R68). -/
def symEntry (sel : Sel) (y l : Nat) : Entry :=
  match sel with
  | .codeLen => entryOf .literal (metaExtra y) y
  | .litLen =>
    if y ≤ 255 then entryOf .literal 0 y
    else if y = 256 then entryOf .endOfBlock 0 256
    else match lengthTable[y - 257]? with
      | some (base, extra) => entryOf .length extra base
      | none => entryOf .invalid 0 y
  | .dist =>
    match distTable[y]? with
    | some (base, extra) => entryOf .distance extra base
    | none => entryOf .invalid 0 y
where
  entryOf (kind : Kind) (extra base : Nat) : Entry :=
    ⟨kind, BitVec.ofNat 4 extra, BitVec.ofNat 16 base, BitVec.ofNat 4 l⟩

/-- The last row of a base/extra table whose base is at most `x`, as (index, base, extra); `best` is the
last one seen so far (R103). -/
def classOf (x : Nat) (i : Nat) (best : Nat × Nat × Nat) : List (Nat × Nat) → Nat × Nat × Nat
  | [] => best
  | (base, extra) :: rest =>
    classOf x (i + 1) (if base ≤ x then (i, base, extra) else best) rest

/-- `LenCode(l)` = (lsym, lxv, lxn) (R103): 258 is symbol 285; otherwise the largest of 257..284 whose
base is at most `l`. -/
def lenCode (l : Nat) : Nat × Nat × Nat :=
  if l = 258 then (285, 0, 0)
  else
    let c := classOf l 0 (0, 3, 0) (lengthTable.take 28)
    (257 + c.1, l - c.2.1, c.2.2)

/-- `DistCode(d)` = (dsym, dxv, dxn) (R103): the largest of 0..29 whose base is at most `d`. -/
def distCode (d : Nat) : Nat × Nat × Nat :=
  let c := classOf d 0 (0, 1, 0) distTable
  (c.1, d - c.2.1, c.2.2)

/-! ## Length arrays -/

/-- The meta array of a decode job (R85). -/
def metaArray (s : State) : List Nat :=
  (List.range metaSymbols).map fun y => (metaLenAt s y).toNat

/-- LL of R87: the literal/length part of `cl`, padded with zeros. -/
def litLenArray (s : State) : List Nat :=
  (List.range litSymbols).map fun y => if y < s.par.hlit.toNat then (clAt s y).toNat else 0

/-- DD of R87: the distance part of `cl`, padded with zeros. -/
def distArray (s : State) : List Nat :=
  (List.range distSymbols).map fun y =>
    if y < s.par.hdist.toNat then (clAt s (s.par.hlit.toNat + y)).toNat else 0

/-- The lengths a tree memory holds from entry 0 on, `n` of them; none when one was never written
(R20). -/
def treeLens (t : Sel) (n : Nat) (s : State) : Option (List Nat) :=
  match t with
  | .codeLen => readCells s.metaLenMem 0 n
  | .litLen => readCells s.litlenLen 0 n
  | .dist => readCells s.distLen 0 n

/-- The array BUILD takes when it is issued as a micro-operation: the one the calling state supplies, R85
and R87 in decode mode, R99 in encode mode (DEDUCED, log 5). -/
def buildArray (sel : Sel) (s : State) : Option (List Nat) :=
  if s.ctrl.mode then treeLens sel (nsym sel) s
  else some (match sel with
    | .codeLen => metaArray s
    | .litLen => litLenArray s
    | .dist => distArray s)

/-- The length of an array without its trailing zeros: one more than the last index in use (R98). -/
def usedLength : List Nat → Nat
  | [] => 0
  | x :: rest => if usedLength rest = 0 then (if x = 0 then 0 else 1) else usedLength rest + 1

/-- A header count as R98 sends it: `max(low, last + 1) - low`. -/
def trimmedCount (low : Nat) (lens : List Nat) : Nat :=
  max low (usedLength lens) - low

/-- The meta lengths in the order of PERM (R98, R101). -/
def permuted (lens : List Nat) : List Nat :=
  perm.map fun y => lens.getD y 0

/-- The array RLE_EMIT walks: `LITLEN_LEN[0 .. e_hlit+256]` or `DIST_LEN[0 .. e_hdist]` (R94). -/
def rleArray (sel : RleSel) (s : State) : Option (List Nat) :=
  match sel with
  | .litLen => treeLens .litLen (s.enc.eHlit.toNat + 257) s
  | .dist => treeLens .dist (s.enc.eHdist.toNat + 1) s

/-- The tree memory RLE_EMIT reads (R94). -/
def rleTree : RleSel → Sel
  | .litLen => .litLen
  | .dist => .dist

end Sys2Proof.Machine
end

