-- ==== Sys2Proof/Machine/BitCursor.lean ====
section
/-! DEFINITION. The bit cursor (spec/42_bit_cursor.md): REFILL, PEEK, CONSUME, READ, ALIGN (R36, R37,
R73..R77). Values are read from the stream; `acc`, `held` and `fetch` follow as the hardware holds them. -/

namespace Sys2Proof.Machine

/-- `MemRead(IN_MEM, a, 1)` (R43). A job reads written bytes only; the byte of an unwritten address is
free (log 13). DESIGN CHOICE: so is a byte at or past IN_LEN, where InBit is not defined (R36, log 42). -/
def inByte (s : State) (a : Nat) : Byte :=
  if a < s.inLen.toNat then (memRead s.inMem a).getD (Config.freeByte s.draws a)
  else Config.freeByte s.draws a

/-- `InBit(p)` (R36). -/
def inBit (s : State) (p : Nat) : Bool :=
  (inByte s (p / 8)).getLsbD (p % 8)

/-- Stream bit `p` as PEEK sees it: bits at or past `in_bits`, the end of the input as START latched it, are 0
(R74). Below it, but at or past a lowered IN_LEN, the bit is free (log 42). -/
def streamBit (s : State) (p : Nat) : Bool :=
  decide (p < s.cur.inBits.toNat) && inBit s p

/-- The field of `n` bits that starts at stream bit `p`, first bit lowest (R37, R74). -/
def streamField (s : State) (p : Nat) : Nat → Nat
  | 0 => 0
  | n + 1 => (streamBit s p).toNat + 2 * streamField s (p + 1) n

/-- Fetch one byte into the accumulator (R73). -/
def fetchByte (s : State) (c : Cursor) : Cursor :=
  { c with
    acc   := c.acc ||| ((inByte s c.fetch.toNat).setWidth 64 <<< c.held.toNat)
    held  := c.held + 8
    fetch := c.fetch + 1 }

/-- Fetch `g` bytes, one granule (R73). -/
def fetchBytes (s : State) : Nat → Cursor → Cursor
  | 0, c => c
  | g + 1, c => fetchBytes s g (fetchByte s c)

/-- The loop of REFILL (R73), at most `k` granules; three reach the threshold or the end of input. -/
def refillLoop (s : State) : Nat → Cursor → Cursor
  | 0, c => c
  | k + 1, c =>
    if c.held.toNat < refillThreshold ∧ c.fetch.toNat < s.inLen.toNat then
      refillLoop s k
        (fetchBytes s (min (refillGranule / 8) (s.inLen.toNat - c.fetch.toNat)) c)
    else c

/-- `REFILL()` (R73). -/
def refill (s : State) : State :=
  { s with cur := refillLoop s 4 s.cur }

/-- `Peek(n)` (R74): the value; its refill is `refill`. -/
def peekVal (s : State) (n : Nat) : Nat :=
  streamField s s.cur.pos.toNat n

/-- Fewer than `n` bits are left (R75, R76). -/
def pastEnd (s : State) (n : Nat) : Bool :=
  decide (s.cur.inBits.toNat < s.cur.pos.toNat + n)

/-- Drop `n` bits of the accumulator and move on (R75). -/
def advanceCursor (n : Nat) (s : State) : State :=
  { s with cur := { s.cur with
      pos  := s.cur.pos + BitVec.ofNat 32 n
      acc  := s.cur.acc >>> n
      held := s.cur.held - BitVec.ofNat 7 n } }

/-- `Consume(n)` (R75). -/
def consume (n : Nat) (s : State) : Res Unit :=
  if pastEnd s n then raise .unexpectedEof (BitVec.ofNat 32 n) (refill s)
  else .ok () (advanceCursor n (refill s))

/-- `Read(n)` (R76). -/
def readBits (n : Nat) (s : State) : Res Nat :=
  if pastEnd s n then raise .unexpectedEof (BitVec.ofNat 32 n) s
  else (consume n (refill s)).bind fun _ t => .ok (peekVal s n) t

/-- `Align()` (R77). DESIGN CHOICE: `d = held mod 8`, the first form of R77's pseudocode, in every state. The
form `(pos + 7) & ~7` is equal under R24's invariant; where that fails, after an encode START (log 41), an
aligned `pos` can move. -/
def alignCursor (s : State) : State :=
  { s with cur := { s.cur with
      acc  := s.cur.acc >>> (s.cur.held.toNat % 8)
      held := s.cur.held - BitVec.ofNat 7 (s.cur.held.toNat % 8)
      pos  := s.cur.pos + BitVec.ofNat 32 (s.cur.held.toNat % 8) } }

/-- MODEL: hold the value a micro-operation returns (log 4). -/
def setResVal (v : Nat) (s : State) : State :=
  { s with uop := { s.uop with resVal := BitVec.ofNat 32 v } }

/-! ## The meanings -/

/-- REFILL (R73). -/
def execRefill (s : State) : Out :=
  .next (refill s)

/-- PEEK N (R74). -/
def execPeek (n : BitVec 6) (s : State) : Out :=
  .next (setResVal (peekVal s n.toNat) (refill s))

/-- CONSUME N (R75). -/
def execConsume (n : BitVec 6) (s : State) : Out :=
  (consume n.toNat s).out

/-- READ N (R76). -/
def execRead (n : BitVec 6) (s : State) : Out :=
  ((readBits n.toNat s).bind fun v t => Res.ok () (setResVal v t)).out

/-- ALIGN (R77). -/
def execAlign (s : State) : Out :=
  .next (alignCursor s)

end Sys2Proof.Machine
end

