-- ==== Sys2Proof/Machine/TableBuilder.lean ====
section
/-! DEFINITION. The canonical code table builder (spec/41_table_builder.md): Kraft check, canonical codes,
table layout, BUILD, DECODESYM (R5, R65..R72). -/

namespace Sys2Proof.Machine

/-! ## Kraft check and canonical codes -/

/-- `count[l]` (R66). -/
def countLen (lens : List Nat) (l : Nat) : Nat :=
  (lens.filter (· = l)).length

/-- The Kraft sum scaled by 2^15: `sum over l in 1..15 of count[l] * 2^(15-l)` (R66). -/
def kraftSum (lens : List Nat) : Nat :=
  ((List.range maxCodeLen).map fun k => countLen lens (k + 1) * 2 ^ (14 - k)).sum

/-- `next[l]` before any code is given out (R67): `next[l] = (next[l-1] + count[l-1]) << 1`, with
`count[0]` taken as 0. -/
def firstCode (lens : List Nat) : Nat → Nat
  | 0 => 0
  | l + 1 => (firstCode lens l + if l = 0 then 0 else countLen lens l) * 2

/-- Give out the codes in symbol order (R67): `next` holds `next[0..15]`; an unused symbol gets 0. -/
def assignCodes : List Nat → List Nat → List Nat
  | [], _ => []
  | l :: rest, next =>
    if l = 0 then 0 :: assignCodes rest next
    else next.getD l 0 :: assignCodes rest (next.set l (next.getD l 0 + 1))

/-- The canonical codes `c[0..n-1]` of a length array (R67). -/
def canonCodes (lens : List Nat) : List Nat :=
  assignCodes lens ((List.range 16).map (firstCode lens))

/-- `rev_L(c)` (R5). -/
def revBits : Nat → Nat → Nat
  | 0, _ => 0
  | l + 1, c => (c % 2) * 2 ^ l + revBits l (c / 2)

/-- A used symbol with its code length and canonical code. -/
structure CodeWord where
  sym  : Nat
  len  : Nat
  code : Nat
deriving DecidableEq, Repr

/-- The used symbols in symbol order, from symbol `y` on. -/
def codeWordsFrom (y : Nat) : List Nat → List Nat → List CodeWord
  | l :: lens, c :: codes =>
    if l = 0 then codeWordsFrom (y + 1) lens codes
    else ⟨y, l, c⟩ :: codeWordsFrom (y + 1) lens codes
  | _, _ => []

/-- The used symbols of a length array with their canonical codes (R67). -/
def codeWords (lens : List Nat) : List CodeWord :=
  codeWordsFrom 0 lens (canonCodes lens)

/-- The largest of a list of lengths. -/
def maxLen (lens : List Nat) : Nat :=
  lens.foldl max 0

/-- `table_bit_width_used`: `min(ROOT(sel), max Lv)` (R69, R71). -/
def usedWidth (sel : Sel) (lens : List Nat) : Nat :=
  min (rootWidth sel) (maxLen lens)

/-! ## Table layout (R69) -/

/-- A subtable: its `rw`-bit prefix, its offset and its width. -/
structure Subtable where
  pfx    : Nat
  offset : Nat
  width  : Nat
deriving DecidableEq, Repr

/-- The codes longer than `rw` whose first `rw` bits are `p`: the set G of R69. -/
def groupOf (ws : List CodeWord) (rw p : Nat) : List CodeWord :=
  ws.filter fun x => decide (rw < x.len) && decide (x.code >>> (x.len - rw) = p)

/-- The prefixes of the codes longer than `rw`, in increasing order: the set P of R69. -/
def prefixes (ws : List CodeWord) (rw : Nat) : List Nat :=
  (List.range (2 ^ rw)).filter fun p => !(groupOf ws rw p).isEmpty

/-- The width of the subtable of a prefix: the longest code under it minus `rw` (R69, C1). -/
def subWidth (ws : List CodeWord) (rw p : Nat) : Nat :=
  maxLen ((groupOf ws rw p).map fun x => x.len - rw)

/-- The subtables in the order of R69, the first at `offset`. -/
def subtables (ws : List CodeWord) (rw : Nat) (offset : Nat) : List Nat → List Subtable
  | [] => []
  | p :: rest =>
    ⟨p, offset, subWidth ws rw p⟩ :: subtables ws rw (offset + 2 ^ subWidth ws rw p) rest

/-- Root entry `i` (R69): the symbol whose reversed code is the low bits of `i`, or the link of the prefix
whose reversal is `i`. A complete code gives every `i` exactly one of them. -/
def rootEntry (sel : Sel) (ws : List CodeWord) (rw : Nat) (subs : List Subtable) (i : Nat) : Entry :=
  match ws.find? fun x => decide (x.len ≤ rw) && decide (i % 2 ^ x.len = revBits x.len x.code) with
  | some x => symEntry sel x.sym x.len
  | none =>
    match subs.find? fun t => decide (revBits rw t.pfx = i) with
    | some t => ⟨.linkToSubtable, BitVec.ofNat 4 t.width, BitVec.ofNat 16 t.offset, BitVec.ofNat 4 rw⟩
    | none => ⟨.invalid, 0, 0, 0⟩

/-- Entry `j` of a subtable (R69): the symbol of the group whose last stream bits are the low bits of
`j`. -/
def subEntry (sel : Sel) (ws : List CodeWord) (rw : Nat) (t : Subtable) (j : Nat) : Entry :=
  match (groupOf ws rw t.pfx).find? fun x =>
      decide (j % 2 ^ (x.len - rw) = revBits x.len x.code >>> rw) with
  | some x => symEntry sel x.sym x.len
  | none => ⟨.invalid, 0, 0, 0⟩

/-- The decode table FillTable writes, entries 0 .. tsize-1 (R69). -/
def decodeTable (sel : Sel) (lens : List Nat) : List Entry :=
  let ws := codeWords lens
  let rw := usedWidth sel lens
  let subs := subtables ws rw (2 ^ rw) (prefixes ws rw)
  (List.range (2 ^ rw)).map (rootEntry sel ws rw subs) ++
    subs.flatMap fun t => (List.range (2 ^ t.width)).map (subEntry sel ws rw t)

/-- The encode table (R71): reversed code and length of each symbol, 0 and 0 of an unused one. -/
def encodeTable (lens : List Nat) : List EncEntry :=
  List.zipWith (fun l c => if l = 0 then ⟨0, 0⟩ else ⟨BitVec.ofNat 15 (revBits l c), BitVec.ofNat 4 l⟩)
    lens (canonCodes lens)

/-- The slot BUILD leaves for a complete array (R71). -/
def builtSlot (sel : Sel) (lens : List Nat) : Slot where
  valid := true
  rw    := BitVec.ofNat 4 (usedWidth sel lens)
  tsize := BitVec.ofNat 12 (decodeTable sel lens).length
  nused := BitVec.ofNat 9 (lens.filter (· ≠ 0)).length
  dt    := decodeTable sel lens
  et    := encodeTable lens

/-- `BUILD(sel, Lv)` (R71): the Kraft check comes before any write. -/
def build (sel : Sel) (lens : List Nat) (s : State) : Res Unit :=
  if 2 ^ 15 < kraftSum lens then raise .treeOversubscribed (BitVec.ofNat 32 (selNat sel)) s
  else if kraftSum lens < 2 ^ 15 then raise .treeIncomplete (BitVec.ofNat 32 (selNat sel)) s
  else .ok () (setSlot sel (builtSlot sel lens) s)

/-! ## Symbol lookup (R72) -/

/-- The entry DECODESYM selects: the root entry of the next `rw` bits, or the subtable entry a link
names. -/
def lookup (sel : Sel) (s : State) : Entry :=
  let rw := (slotOf sel s).rw.toNat
  let e := dtRead sel (peekVal s rw) .root s
  if e.kind = .linkToSubtable then
    dtRead sel (e.base.toNat + (peekVal s (rw + e.extra.toNat) >>> rw)) .subtable s
  else e

/-- `DecodeSym(sel)` (R72). -/
def decodeSym (sel : Sel) (s : State) : Res Entry :=
  (consume (lookup sel s).len.toNat (refill s)).bind fun _ t => .ok (lookup sel s) t

/-- MODEL: hold the entry DECODESYM returns (log 4). -/
def setResEntry (e : Entry) (s : State) : State :=
  { s with uop := { s.uop with resEntry := e } }

/-! ## The meanings -/

/-- BUILD SEL (R71), on the array the calling state supplies (log 5). -/
def execBuild (sel : Sel) (s : State) : Out :=
  match buildArray sel s with
  | none => .fault (.treeUnwritten sel)
  | some lens => (build sel lens s).out

/-- DECODESYM SEL (R72). -/
def execDecodesym (sel : Sel) (s : State) : Out :=
  ((decodeSym sel s).bind fun e t => Res.ok () (setResEntry e t)).out

end Sys2Proof.Machine
end

