-- ==== Sys2Proof/Machine/BlockParser.lean ====
section
/-! DEFINITION. The DEFLATE block parser (spec/43_block_parser.md): the steps D_HEADER .. D_STATIC
(R79..R88). -/

namespace Sys2Proof.Machine

/-- D_HEADER (R79): start of the input stream; it reads no bits. -/
def dHeaderStep (s : State) : State :=
  let t := clearAllValid s
  { t with
    cur   := ⟨0, 0, 0, 0, BitVec.ofNat 35 (8 * s.inLen.toNat)⟩
    par   := { s.par with bfinal := false, btype := 0 }
    state := .dPreamble }

/-- `bfinal <- v` (R80). -/
def setBfinal (v : Nat) (s : State) : State :=
  { s with par := { s.par with bfinal := decide (v = 1) } }

/-- `btype <- v` (R80). -/
def setBtype (v : Nat) (s : State) : State :=
  { s with par := { s.par with btype := BitVec.ofNat 2 v } }

/-- The state a block type leads to (R80). -/
def blockState (btype : Nat) : Fsm :=
  if btype = 0 then .dStoredHdr else if btype = 2 then .dDynCounts else .dStatic

/-- D_PREAMBLE (R80): read a block header; the previous block's tables are dead. -/
def dPreambleStep (s : State) : Res Unit :=
  (readBits 1 s).bind fun f s =>
  (readBits 2 (setBfinal f s)).bind fun b s =>
  .ok () (setState (blockState b) (clearValid .dist (clearValid .litLen (setBtype b s))))

/-- `stored_rem <- v` (R81). -/
def setStoredRem (v : Nat) (s : State) : State :=
  { s with par := { s.par with storedRem := BitVec.ofNat 16 v } }

/-- D_STORED_HDR (R81): align, then read the length and its complement. -/
def dStoredHdrStep (s : State) : Res Unit :=
  (readBits 16 (alignCursor s)).bind fun len s =>
  (readBits 16 s).bind fun nlen s =>
  if nlen = len ^^^ 0xFFFF then
    let s := setStoredRem len s
    .ok () (if len = 0 then endOfBlock s else setState .dStoredCopy s)
  else raise .storedLengthMismatch (BitVec.ofNat 32 (nlen * 2 ^ 16 + len)) s

/-- D_STORED_COPY (R82): pass one byte through as a literal token. -/
def dStoredCopyStep (s : State) : Res Unit :=
  (readBits 8 s).bind fun b s =>
  let s := emitToken (literalWord (BitVec.ofNat 8 b)) s
  let s := { s with par := { s.par with storedRem := s.par.storedRem - 1 } }
  .ok () (if s.par.storedRem = 0 then endOfBlock s else s)

/-- D_DYN_COUNTS (R83): read the three counts of a dynamic header. -/
def dDynCountsStep (s : State) : Res Unit :=
  (readBits 5 s).bind fun v s =>
  (readBits 5 { s with par := { s.par with hlit := BitVec.ofNat 9 (v + 257) } }).bind fun v s =>
  (readBits 4 { s with par := { s.par with hdist := BitVec.ofNat 6 (v + 1) } }).bind fun v s =>
  .ok () { s with
    par := { s.par with
      hclen   := BitVec.ofNat 5 (v + 4)
      metaLen := List.replicate 19 0
      mi      := 0 }
    state := .dDynMetalen }

/-- D_DYN_METALEN (R84): read one 3-bit meta code length. -/
def dDynMetalenStep (s : State) : Res Unit :=
  (readBits 3 s).bind fun v s =>
  let s := { s with par := { s.par with
    metaLen := s.par.metaLen.set (permAt s s.par.mi.toNat) (BitVec.ofNat 3 v)
    mi      := s.par.mi + 1 } }
  .ok () (if s.par.mi = s.par.hclen then setState .dDynMetabuild s else s)

/-- D_DYN_METABUILD (R85): build the meta table. -/
def dDynMetabuildStep (s : State) : Res Unit :=
  (build .codeLen (metaArray s) s).bind fun _ s =>
  .ok () { s with par := { s.par with ci := 0 }, state := .dDynCodelen }

/-- Write `v` to `cl[i .. i+n-1]` (R86). -/
def setRun (i : Nat) (v : BitVec 4) : Nat → List (BitVec 4) → List (BitVec 4)
  | 0, l => l
  | n + 1, l => setRun (i + 1) v n (l.set i v)

/-- Write `n` copies of `v` at `ci` and move `ci` on (R86). -/
def appendLens (v : BitVec 4) (n : Nat) (s : State) : State :=
  { s with par := { s.par with
    cl := setRun s.par.ci.toNat v n s.par.cl
    ci := s.par.ci + BitVec.ofNat 9 n } }

/-- The number of code lengths the block declares, `hlit + hdist` (R86). -/
def declaredLens (s : State) : Nat :=
  s.par.hlit.toNat + s.par.hdist.toNat

/-- The last line of R86: all lengths are there. -/
def codelenDone (s : State) : State :=
  if s.par.ci.toNat = declaredLens s then setState .dDynTablebuild s else s

/-- A repeat of `r` lengths `v` (R86), refused when it runs past the declared lengths. -/
def repeatLens (v : BitVec 4) (r : Nat) (s : State) : Res Unit :=
  if declaredLens s < s.par.ci.toNat + r then
    raise .rleProtocolError (BitVec.ofNat 32 (2 ^ 16 + s.par.ci.toNat)) s
  else .ok () (codelenDone (appendLens v r s))

/-- The expansion of meta symbol `y` into code lengths (R86). The meta table gives no symbol above 18; for
one the length and the count are free (log 19). -/
def expandSymbol (y : Nat) (s : State) : Res Unit :=
  if y ≤ 15 then .ok () (codelenDone (appendLens (BitVec.ofNat 4 y) 1 s))
  else if y = 16 then
    if s.par.ci = 0 then raise .rleProtocolError 0 s
    else (readBits 2 s).bind fun x s => repeatLens (clAt s (s.par.ci.toNat - 1)) (3 + x) s
  else if y = 17 then (readBits 3 s).bind fun x s => repeatLens 0 (3 + x) s
  else if y = 18 then (readBits 7 s).bind fun x s => repeatLens 0 (11 + x) s
  else repeatLens (Config.freeLen s.draws y) (Config.freeRepeat s.draws).toNat s

/-- D_DYN_CODELEN (R86): decode one meta symbol and expand it. -/
def dDynCodelenStep (s : State) : Res Unit :=
  (decodeSym .codeLen s).bind fun e s => expandSymbol e.base.toNat s

/-- D_DYN_TABLEBUILD (R87): build the literal/length and distance tables. -/
def dDynTablebuildStep (s : State) : Res Unit :=
  (build .litLen (litLenArray s) s).bind fun _ t =>
  (build .dist (distArray s) t).bind fun _ t =>
  .ok () (setState .dBgLiteral t)

/-- D_STATIC (R88): block types 1 and 3 are refused with an error. -/
def dStaticStep (s : State) : Res Unit :=
  raise .unsupportedBlockType (s.par.btype.setWidth 32) s

/-! ## The meanings -/

/-- D_HEADER (R79). -/
def execDHeader (s : State) : Out :=
  .next (dHeaderStep s)

/-- D_PREAMBLE (R80). -/
def execDPreamble (s : State) : Out :=
  (dPreambleStep s).out

/-- D_STORED_HDR (R81); it may append END, so it waits for room (R134). -/
def execDStoredHdr (s : State) : Out :=
  .next (takeIfRoom s (dStoredHdrStep s).state)

/-- D_STORED_COPY (R82); it waits for room (R134). -/
def execDStoredCopy (s : State) : Out :=
  .next (takeIfRoom s (dStoredCopyStep s).state)

/-- D_DYN_COUNTS (R83). -/
def execDDynCounts (s : State) : Out :=
  (dDynCountsStep s).out

/-- D_DYN_METALEN (R84). -/
def execDDynMetalen (s : State) : Out :=
  (dDynMetalenStep s).out

/-- D_DYN_METABUILD (R85). -/
def execDDynMetabuild (s : State) : Out :=
  (dDynMetabuildStep s).out

/-- D_DYN_CODELEN (R86). -/
def execDDynCodelen (s : State) : Out :=
  (dDynCodelenStep s).out

/-- D_DYN_TABLEBUILD (R87). -/
def execDDynTablebuild (s : State) : Out :=
  (dDynTablebuildStep s).out

/-- D_STATIC (R88). -/
def execDStatic (s : State) : Out :=
  (dStaticStep s).out

end Sys2Proof.Machine
end

