-- ==== Sys2Proof/Machine/HuffmanFsm.lean ====
section
/-! DEFINITION. The Huffman decoder FSM, ByteGen (spec/44_huffman_decoder_fsm.md): its four stages
(R90..R93). -/

namespace Sys2Proof.Machine

/-- The Literal stage on a decoded entry (R90). Slot 1 holds no Distance entry and no link is returned;
either would be a reserved entry, which is what InvalidCode reports (R116; log 15). -/
def literalStage (e : Entry) (s : State) : Res Unit :=
  match e.kind with
  | .literal => .ok () (emitToken (literalWord (e.base.setWidth 8)) s)
  | .length => .ok () { s with
      bg    := { s.bg with lbase := e.base.setWidth 9, lext := e.extra.setWidth 3 }
      state := .dBgMlen }
  | .endOfBlock => .ok () (endOfBlock s)
  | .invalid => raise .invalidCode (e.base.setWidth 32) s
  | .distance => raise .invalidCode (e.base.setWidth 32) s
  | .linkToSubtable => raise .invalidCode (e.base.setWidth 32) s

/-- D_BG_LITERAL (R90): decode the next literal/length symbol. -/
def dBgLiteralStep (s : State) : Res Unit :=
  (decodeSym .litLen s).bind literalStage

/-- D_BG_MLEN (R91): read the length's extra bits. -/
def dBgMlenStep (s : State) : Res Unit :=
  (readBits s.bg.lext.toNat s).bind fun x s =>
  .ok () { s with
    bg    := { s.bg with mlen := s.bg.lbase + BitVec.ofNat 9 x }
    state := .dBgMdist }

/-- The MatchDistance stage on a decoded entry (R92). Slot 2 holds only Distance and Invalid entries
(log 15). -/
def distanceStage (e : Entry) (s : State) : Res Unit :=
  match e.kind with
  | .distance => .ok () { s with
      bg    := { s.bg with dbase := e.base, dext := e.extra }
      state := .dBgMdistwr }
  | .invalid => raise .invalidCode (e.base.setWidth 32) s
  | .literal => raise .invalidCode (e.base.setWidth 32) s
  | .length => raise .invalidCode (e.base.setWidth 32) s
  | .endOfBlock => raise .invalidCode (e.base.setWidth 32) s
  | .linkToSubtable => raise .invalidCode (e.base.setWidth 32) s

/-- D_BG_MDIST (R92): decode the distance symbol. -/
def dBgMdistStep (s : State) : Res Unit :=
  (decodeSym .dist s).bind distanceStage

/-- D_BG_MDISTWR (R93): read the distance's extra bits and emit the match. -/
def dBgMdistwrStep (s : State) : Res Unit :=
  (readBits s.bg.dext.toNat s).bind fun x s =>
  .ok () (setState .dBgLiteral
    (emitToken (matchWord s.bg.mlen (s.bg.dbase + BitVec.ofNat 16 x)) s))

/-! ## The meanings -/

/-- D_BG_LITERAL (R90); it waits for room (R134). -/
def execDBgLiteral (s : State) : Out :=
  .next (takeIfRoom s (dBgLiteralStep s).state)

/-- D_BG_MLEN (R91). -/
def execDBgMlen (s : State) : Out :=
  (dBgMlenStep s).out

/-- D_BG_MDIST (R92). -/
def execDBgMdist (s : State) : Out :=
  (dBgMdistStep s).out

/-- D_BG_MDISTWR (R93); it waits for room (R134). -/
def execDBgMdistwr (s : State) : Out :=
  .next (takeIfRoom s (dBgMdistwrStep s).state)

end Sys2Proof.Machine
end

