-- ==== Sys2Proof/Machine/RleEncoder.lean ====
section
/-! DEFINITION. The code-length RLE encoder and its inverse (spec/45_rle_encoder.md): RLE_EMIT, RLE_EXPAND
(R94..R96). -/

namespace Sys2Proof.Machine

/-- A meta symbol with its extra value. -/
def pairOf (s x : Nat) : Pair :=
  (BitVec.ofNat 5 s, BitVec.ofNat 7 x)

/-- What the walk sends for a run of `count` lengths `cur` after `prev` (R94). -/
def rleRun (prev : Option Nat) (cur count minc : Nat) : List Pair :=
  if count < minc then List.replicate count (pairOf cur 0)
  else if cur ≠ 0 then
    if prev ≠ some cur then [pairOf cur 0, pairOf 16 (count - 1 - 3)] else [pairOf 16 (count - 3)]
  else if count ≤ 10 then [pairOf 17 (count - 3)]
  else [pairOf 18 (count - 11)]

/-- The limits `(maxc, minc)` of the run that starts after a flush (R94). -/
def rleLimits (cur : Nat) (next : Option Nat) : Nat × Nat :=
  if next = some 0 then (138, 3) else if next = some cur then (6, 3) else (7, 4)

/-- The walk of R94 over the lengths still to come; `count` of the current run have been passed. -/
def rleWalk (prev : Option Nat) (count : Nat) (lim : Nat × Nat) : List Nat → List Pair
  | [] => []
  | cur :: rest =>
    if count + 1 < lim.1 ∧ rest.head? = some cur then rleWalk prev (count + 1) lim rest
    else rleRun prev cur (count + 1) lim.2 ++
      rleWalk (some cur) 0 (rleLimits cur rest.head?) rest

/-- `RLE_EMIT` on an array (R94): the pairs it sends. -/
def rlePairs (lens : List Nat) : List Pair :=
  rleWalk none 0 (if lens.head? = some 0 then (138, 3) else (7, 4)) lens

/-- `RLE_EXPAND` (R95) on the pairs still to come; `b` is what has been expanded, newest first. A 16 with
nothing before it gives none. The last branch is the rule's `else` (log 29). -/
def rleExpandFrom (b : List (BitVec 4)) : List Pair → Option (List (BitVec 4))
  | [] => some b.reverse
  | (y, x) :: rest =>
    if y.toNat ≤ 15 then rleExpandFrom (y.setWidth 4 :: b) rest
    else if y.toNat = 16 then
      match b with
      | [] => none
      | v :: _ => rleExpandFrom (List.replicate (3 + x.toNat) v ++ b) rest
    else if y.toNat = 17 then rleExpandFrom (List.replicate (3 + x.toNat) 0 ++ b) rest
    else rleExpandFrom (List.replicate (11 + x.toNat) 0 ++ b) rest

/-- `RLE_EXPAND` on a pair list (R95). -/
def rleExpand (ps : List Pair) : Option (List (BitVec 4)) :=
  rleExpandFrom [] ps

/-- Append the pairs of an array to `rq` (R94). -/
def appendPairs (lens : List Nat) (s : State) : State :=
  { s with enc := { s.enc with rq := s.enc.rq ++ rlePairs lens } }

/-- MODEL: hold the array RLE_EXPAND returns (log 7). -/
def setResLens (l : List (BitVec 4)) (s : State) : State :=
  { s with uop := { s.uop with resLens := l } }

/-! ## The meanings -/

/-- RLE_EMIT SEL (R94). -/
def execRleEmit (sel : RleSel) (s : State) : Out :=
  match rleArray sel s with
  | none => .fault (.treeUnwritten (rleTree sel))
  | some lens => .next (appendPairs lens s)

/-- RLE_EXPAND (R95) on the queue `rq` (log 7). -/
def execRleExpand (s : State) : Out :=
  .next (match rleExpand s.enc.rq with
    | none => raiseErr .rleProtocolError 0 s
    | some l => setResLens l s)

end Sys2Proof.Machine
end

