-- ==== Sys2Proof/Machine/BitPacker.lean ====
section
/-! DEFINITION. The bit packer (spec/47_bit_packer.md): PUT, the trailer, FINALIZE (R40, R113..R115). -/

namespace Sys2Proof.Machine

/-- PACK_WORD_BITS (R2). -/
def packBits (s : State) : Nat :=
  s.cfg.packWord.bits

/-- Write the bytes `j .. j+k-1` of the accumulator, low byte first (R113). -/
def outBytes (acc : BitVec 64) (j : Nat) : Nat → State → Res Unit
  | 0, s => .ok () s
  | k + 1, s => (outByte (acc.extractLsb' (8 * j) 8) s).bind fun _ s => outBytes acc (j + 1) k s

/-- `pacc <- pacc >> n; pn <- pn - n` (R113, R115). -/
def dropPacked (n : Nat) (s : State) : State :=
  { s with pk := { s.pk with pacc := s.pk.pacc >>> n, pn := s.pk.pn - BitVec.ofNat 7 n } }

/-- The flush loop of PUT (R113), at most `k` words: `pn` is 7 bits and a word at least 8, so 16 suffice. -/
def flushWords : Nat → State → Res Unit
  | 0, s => .ok () s
  | k + 1, s =>
    if packBits s ≤ s.pk.pn.toNat then
      (outBytes s.pk.pacc 0 (packBits s / 8) s).bind fun _ s =>
      flushWords k (dropPacked (packBits s) s)
    else .ok () s

/-- The first three lines of PUT (R113): append the low `n` bits of `v` to the accumulator. -/
def accumulate (v n : Nat) (s : State) : State :=
  { s with pk := { s.pk with
    pacc   := s.pk.pacc ||| (BitVec.ofNat 64 (v % 2 ^ n) <<< s.pk.pn.toNat)
    pn     := s.pk.pn + BitVec.ofNat 7 n
    ptotal := s.pk.ptotal + BitVec.ofNat 32 n } }

/-- `Put(v, n)` (R113). -/
def putBits (v n : Nat) (s : State) : Res Unit :=
  flushWords 16 (accumulate v n s)

/-- `Trailer()` (R114). -/
def putTrailer (s : State) : Res Unit :=
  (putBits 0 3 s).bind fun _ s =>
  (putBits 0 ((8 - s.pk.pn.toNat % 8) % 8) s).bind fun _ s =>
  (putBits 0x00 8 s).bind fun _ s =>
  (putBits 0x00 8 s).bind fun _ s =>
  (putBits 0xFF 8 s).bind fun _ s =>
  putBits 0xFF 8 s

/-- The last loop of FINALIZE (R115), at most `k` bytes. -/
def flushBytes : Nat → State → Res Unit
  | 0, s => .ok () s
  | k + 1, s =>
    if 0 < s.pk.pn.toNat then
      (outByte (s.pk.pacc.extractLsb' 0 8) s).bind fun _ s => flushBytes k (dropPacked 8 s)
    else .ok () s

/-- `Finalize()` (R115): the trailer is written when bits are left over or the input is empty (C6). -/
def finalizePacker (s : State) : Res Unit :=
  (if 0 < s.pk.pn.toNat ∨ s.inLen = 0 then putTrailer s else .ok () s).bind fun _ s =>
  flushBytes 16 s

/-! ## The meanings -/

/-- PUT N (R113): the value is the issued operand (log 6). -/
def execPut (n : BitVec 6) (s : State) : Out :=
  (putBits s.uop.opVal.toNat n.toNat s).out

/-- FINALIZE (R115). -/
def execFinalize (s : State) : Out :=
  (finalizePacker s).out

end Sys2Proof.Machine
end

