-- ==== Sys2Proof/Machine/TokenEncoder.lean ====
section
/-! DEFINITION. The token encoder (spec/46_token_encoder.md): ENCODESYM, the steps E_BUILD .. E_FINALIZE,
and the token words as the encoder takes them (R53, R97..R112). -/

namespace Sys2Proof.Machine

/-- `EncodeSym(sel, y)` (R112). DESIGN CHOICE: a symbol outside the alphabet, which only a bare ENCODESYM can
pass, finds a free entry and stands whole in ERR_INFO (log 34). -/
def encodeSym (sel : Sel) (y : Nat) (s : State) : Res Unit :=
  let e := etRead sel y s
  if e.len = 0 then raise .unencodableSymbol (BitVec.ofNat 32 (selNat sel <<< 16 ||| y)) s
  else putBits e.code.toNat e.len.toNat s

/-! ## Tree intake and header -/

/-- The header counts (R98). -/
def setCounts (lit dist codeLen : List Nat) (s : State) : State :=
  { s with enc := { s.enc with
    eHlit  := BitVec.ofNat 5 (trimmedCount 257 lit)
    eHdist := BitVec.ofNat 5 (trimmedCount 1 dist)
    eHclen := BitVec.ofNat 4 (trimmedCount 4 (permuted codeLen)) } }

/-- The RLE symbols of the two arrays (R99): `LITLEN_LEN[0 .. e_hlit+256]`, then
`DIST_LEN[0 .. e_hdist]`. -/
def queueLens (lit dist : List Nat) (s : State) : State :=
  let t := { s with enc := { s.enc with rq := [] } }
  let t := appendPairs (lit.take (t.enc.eHlit.toNat + 257)) t
  let t := appendPairs (dist.take (t.enc.eHdist.toNat + 1)) t
  { t with enc := { t.enc with rqi := 0, emi := 0 } }

/-- E_BUILD on the three length arrays (R99): literal/length, distance, then meta. -/
def eBuildStep (lit dist codeLen : List Nat) (s : State) : Res Unit :=
  (build .litLen lit s).bind fun _ s =>
  (build .dist dist s).bind fun _ s =>
  (build .codeLen codeLen s).bind fun _ s =>
  .ok () (setState .eHeader (queueLens lit dist (setCounts lit dist codeLen s)))

/-- E_HEADER (R100): the block header and the three counts. -/
def eHeaderStep (s : State) : Res Unit :=
  (putBits s.enc.isLast.toNat 1 s).bind fun _ s =>
  (putBits 2 2 s).bind fun _ s =>
  (putBits s.enc.eHlit.toNat 5 s).bind fun _ s =>
  (putBits s.enc.eHdist.toNat 5 s).bind fun _ s =>
  (putBits s.enc.eHclen.toNat 4 s).bind fun _ s =>
  .ok () (setState .eMetalen s)

/-- E_METALEN on the meta length it sends (R101). -/
def eMetalenStep (v : Nat) (s : State) : Res Unit :=
  (putBits v 3 s).bind fun _ s =>
  let s := { s with enc := { s.enc with emi := s.enc.emi + 1 } }
  .ok () (if s.enc.emi.toNat = s.enc.eHclen.toNat + 4 then setState .eCodelen s else s)

/-- The extra bits of an RLE symbol (R102). -/
def putExtra (y x : Nat) (s : State) : Res Unit :=
  if y = 16 then putBits x 2 s
  else if y = 17 then putBits x 3 s
  else if y = 18 then putBits x 7 s
  else .ok () s

/-- E_CODELEN (R102): one RLE symbol with its extra bits. -/
def eCodelenStep (s : State) : Res Unit :=
  let p := rqAt s s.enc.rqi.toNat
  (encodeSym .codeLen p.1.toNat s).bind fun _ s =>
  (putExtra p.1.toNat p.2.toNat s).bind fun _ s =>
  let s := { s with enc := { s.enc with rqi := s.enc.rqi + 1 } }
  .ok () (if s.enc.rqi.toNat = s.enc.rq.length then setState .eWriteToken s else s)

/-! ## Tokens (R104) -/

/-- `tok <- w; tin <- tin + 1; TOKEN_COUNT <- TOKEN_COUNT + 1` (R104). -/
def countToken (w : Word) (s : State) : State :=
  { s with
    enc := { s.enc with tok := w, tin := s.enc.tin + 1 }
    tokenCount := s.tokenCount + 1 }

/-- The encoder takes a literal (R104). -/
def takeLiteral (b : Byte) (s : State) : State :=
  setState .eLitRep (countToken (literalWord b) s)

/-- The length and distance classes of a match (R103, R104). -/
def setClasses (l d : Nat) (s : State) : State :=
  { s with enc := { s.enc with
    lsym := BitVec.ofNat 9 (lenCode l).1
    lxv  := BitVec.ofNat 5 (lenCode l).2.1
    lxn  := BitVec.ofNat 3 (lenCode l).2.2
    dsym := BitVec.ofNat 5 (distCode d).1
    dxv  := BitVec.ofNat 13 (distCode d).2.1
    dxn  := BitVec.ofNat 4 (distCode d).2.2 } }

/-- The encoder takes a match (R104); one out of range raises TokenRangeError. -/
def takeMatch (l : BitVec 9) (d : BitVec 16) (s : State) : State :=
  if matchInRange l d then
    setState .eMatchDistRep (setClasses l.toNat d.toNat (countToken (matchWord l d) s))
  else raiseErr .tokenRangeError (matchWord l d) s

/-- The encoder meets the END marker (R104): it is not consumed and not counted. -/
def takeEnd (s : State) : State :=
  setState .eEob s

/-- E_WRITE_TOKEN on a token word (R104): a word of none of the forms of R53 raises TokenRangeError. -/
def takeWord (w : Word) (s : State) : State :=
  match decodeToken w with
  | .ok (.tokenLiteral b) => takeLiteral b s
  | .ok (.tokenMatch l d) => takeMatch l d s
  | .ok .tokenEnd => takeEnd s
  | .ok _ => raiseErr .tokenRangeError w s
  | .error _ => raiseErr .tokenRangeError w s

/-! ## The meanings -/

/-- ENCODESYM SEL (R112): the symbol is the issued operand (log 6). -/
def execEncodesym (sel : Sel) (s : State) : Out :=
  (encodeSym sel s.uop.opVal.toNat s).out

/-- E_BUILD (R99). The trees are its operands: an entry that was never written faults before anything else
(R20, R121; log 16). -/
def execEBuild (s : State) : Out :=
  match treeLens .litLen litSymbols s, treeLens .dist distSymbols s, treeLens .codeLen metaSymbols s with
  | some lit, some dist, some codeLen => (eBuildStep lit dist codeLen s).out
  | none, _, _ => .fault (.treeUnwritten .litLen)
  | some _, none, _ => .fault (.treeUnwritten .dist)
  | some _, some _, none => .fault (.treeUnwritten .codeLen)

/-- E_HEADER (R100). -/
def execEHeader (s : State) : Out :=
  (eHeaderStep s).out

/-- E_METALEN (R101). -/
def execEMetalen (s : State) : Out :=
  match memRead s.metaLenMem (permAt s s.enc.emi.toNat) with
  | none => .fault (.treeUnwritten .codeLen)
  | some v => (eMetalenStep v.toNat s).out

/-- E_CODELEN (R102). -/
def execECodelen (s : State) : Out :=
  (eCodelenStep s).out

/-- E_WRITE_TOKEN (R104): a word that was never supplied faults (R23). -/
def execEWriteToken (s : State) : Out :=
  match s.tokenIn[s.enc.tin.toNat]? with
  | none => .fault (.tokenMissing s.enc.tin.toNat)
  | some w => .next (takeWord w s)

/-- E_LIT_REP (R105). -/
def execELitRep (s : State) : Out :=
  ((encodeSym .litLen (s.enc.tok.extractLsb' 0 8).toNat s).bind fun _ s =>
    Res.ok () (setState .eWriteToken s)).out

/-- E_MATCH_DIST_REP (R106). -/
def execEMatchDistRep (s : State) : Out :=
  ((encodeSym .litLen s.enc.lsym.toNat s).bind fun _ s => Res.ok () (setState .eMatchExtra s)).out

/-- E_MATCH_EXTRA (R107). -/
def execEMatchExtra (s : State) : Out :=
  ((putBits s.enc.lxv.toNat s.enc.lxn.toNat s).bind fun _ s => Res.ok () (setState .eDistRep s)).out

/-- E_DIST_REP (R108). -/
def execEDistRep (s : State) : Out :=
  ((encodeSym .dist s.enc.dsym.toNat s).bind fun _ s => Res.ok () (setState .eDistExtra s)).out

/-- E_DIST_EXTRA (R109). -/
def execEDistExtra (s : State) : Out :=
  ((putBits s.enc.dxv.toNat s.enc.dxn.toNat s).bind fun _ s => Res.ok () (setState .eWriteToken s)).out

/-- E_EOB (R110). -/
def execEEob (s : State) : Out :=
  ((encodeSym .litLen 256 s).bind fun _ s => Res.ok () (setState .eFinalize s)).out

/-- E_FINALIZE (R111). -/
def execEFinalize (s : State) : Out :=
  ((finalizePacker s).bind fun _ s => Res.ok () (setState .eDone s)).out

/-- TOKEN_LITERAL: what the encoder does when it takes the word (R53, R104; log 8). -/
def execTokenLiteral (b : Byte) (s : State) : Out :=
  .next (takeLiteral b s)

/-- TOKEN_MATCH: what the encoder does when it takes the word (R53, R104; log 8). -/
def execTokenMatch (l : BitVec 9) (d : BitVec 16) (s : State) : Out :=
  .next (takeMatch l d s)

/-- TOKEN_END: what the encoder does when it meets the word (R53, R104; log 8). -/
def execTokenEnd (s : State) : Out :=
  .next (takeEnd s)

end Sys2Proof.Machine
end

