-- ==== Sys2Proof/Machine/HostCommands.lean ====
section
/-! DEFINITION. The host commands, writes to CTRL (R10, R52, R97, R126, R131, R132). -/

namespace Sys2Proof.Machine

/-- `MODE <- m; IS_LAST <- l` (R10, R132). -/
def setCtrl (m l : Bool) (s : State) : State :=
  { s with ctrl := ⟨m, l⟩ }

/-- What START writes in both modes: the registers R132 clears, `in_bits` latched as `8 * IN_LEN` (R24) and
`is_last` cleared (R32), and that no terminal STATUS of the new job has been read yet (R46). DEDUCED: the two
tables' writes happen at every START, though R132 does not list them (log 11, log 38). DESIGN CHOICE: `acc`,
`held` and `fetch` stay until D_HEADER writes them (log 41). -/
def startJob (s : State) : State :=
  { clearAllValid s with
    err        := ⟨.none, 0, 0⟩
    tokenCount := 0
    pk         := Packer.zero
    cur        := { s.cur with pos := 0, inBits := BitVec.ofNat 35 (8 * s.inLen.toNat) }
    enc        := { s.enc with isLast := false }
    tokenOut   := []
    synced     := false }

/-- The encoder start of R97; `is_last` takes CTRL.IS_LAST. -/
def startEncoder (s : State) : State :=
  { s with
    enc   := { s.enc with tin := 0, rq := [], rqi := 0, emi := 0, isLast := s.ctrl.isLast }
    state := if s.inLen = 0 then .eFinalize else .eBuild }

/-- START_DECODE (R132): ignored while busy; IS_LAST takes the written bit (log 10). -/
def execStartDecode (isLast : Bool) (s : State) : Out :=
  if busy s then .next s
  else if s.cfg.inMemBytes < s.inLen.toNat then .refused .inputTooLong
  else match firstUnwritten s.inMem 0 s.inLen.toNat with
    | some a => .fault (.inputUnwritten a)
    | none => .next (setState .dHeader (startJob (setCtrl false isLast s)))

/-- START_ENCODE (R97, R132): ignored while busy. -/
def execStartEncode (isLast : Bool) (s : State) : Out :=
  if busy s then .next s
  else .next (startEncoder (startJob (setCtrl true isLast s)))

/-- SOFT_RESET (R131), in any state: everything of R130 takes its reset value. The host's pending actions
and data, the words the consumer has and the free-value counter are not the instance's and stay
(log 30). -/
def execSoftReset (s : State) : Out :=
  .next { State.resetWith s.cfg with
    host := s.host, hostData := s.hostData, taken := s.taken, draws := s.draws }

/-- SET_MODE (R10): ignored while busy. -/
def execSetMode (mode isLast : Bool) (s : State) : Out :=
  if busy s then .next s else .next (setCtrl mode isLast s)

end Sys2Proof.Machine
end

