-- ==== Sys2Proof/Machine/Dispatch.lean ====
section
/-! DEFINITION. The dispatch: one arm for each instruction. -/

namespace Sys2Proof.Machine

def exec (i : Instr) (s : State) : Host.Outcome State Fault Refusal :=
  match i with
  | .build sel => Sys2Proof.Machine.execBuild sel s
  | .decodesym sel => Sys2Proof.Machine.execDecodesym sel s
  | .encodesym sel => Sys2Proof.Machine.execEncodesym sel s
  | .peek n => Sys2Proof.Machine.execPeek n s
  | .consume n => Sys2Proof.Machine.execConsume n s
  | .read n => Sys2Proof.Machine.execRead n s
  | .align => Sys2Proof.Machine.execAlign s
  | .refill => Sys2Proof.Machine.execRefill s
  | .rleEmit sel => Sys2Proof.Machine.execRleEmit sel s
  | .put n => Sys2Proof.Machine.execPut n s
  | .finalize => Sys2Proof.Machine.execFinalize s
  | .rleExpand => Sys2Proof.Machine.execRleExpand s
  | .dHeader => Sys2Proof.Machine.execDHeader s
  | .dPreamble => Sys2Proof.Machine.execDPreamble s
  | .dStoredHdr => Sys2Proof.Machine.execDStoredHdr s
  | .dStoredCopy => Sys2Proof.Machine.execDStoredCopy s
  | .dDynCounts => Sys2Proof.Machine.execDDynCounts s
  | .dDynMetalen => Sys2Proof.Machine.execDDynMetalen s
  | .dDynMetabuild => Sys2Proof.Machine.execDDynMetabuild s
  | .dDynCodelen => Sys2Proof.Machine.execDDynCodelen s
  | .dDynTablebuild => Sys2Proof.Machine.execDDynTablebuild s
  | .dStatic => Sys2Proof.Machine.execDStatic s
  | .dBgLiteral => Sys2Proof.Machine.execDBgLiteral s
  | .dBgMlen => Sys2Proof.Machine.execDBgMlen s
  | .dBgMdist => Sys2Proof.Machine.execDBgMdist s
  | .dBgMdistwr => Sys2Proof.Machine.execDBgMdistwr s
  | .eBuild => Sys2Proof.Machine.execEBuild s
  | .eHeader => Sys2Proof.Machine.execEHeader s
  | .eMetalen => Sys2Proof.Machine.execEMetalen s
  | .eCodelen => Sys2Proof.Machine.execECodelen s
  | .eWriteToken => Sys2Proof.Machine.execEWriteToken s
  | .eLitRep => Sys2Proof.Machine.execELitRep s
  | .eMatchDistRep => Sys2Proof.Machine.execEMatchDistRep s
  | .eMatchExtra => Sys2Proof.Machine.execEMatchExtra s
  | .eDistRep => Sys2Proof.Machine.execEDistRep s
  | .eDistExtra => Sys2Proof.Machine.execEDistExtra s
  | .eEob => Sys2Proof.Machine.execEEob s
  | .eFinalize => Sys2Proof.Machine.execEFinalize s
  | .startDecode isLast => Sys2Proof.Machine.execStartDecode isLast s
  | .startEncode isLast => Sys2Proof.Machine.execStartEncode isLast s
  | .softReset => Sys2Proof.Machine.execSoftReset s
  | .setMode mode isLast => Sys2Proof.Machine.execSetMode mode isLast s
  | .tokenLiteral b => Sys2Proof.Machine.execTokenLiteral b s
  | .tokenMatch l d => Sys2Proof.Machine.execTokenMatch l d s
  | .tokenEnd => Sys2Proof.Machine.execTokenEnd s

end Sys2Proof.Machine
end

