-- ==== Sys2Proof/Machine/HostPort.lean ====
section
/-! DEFINITION. The host's port (R10..R23, R46, R47, R64): register accesses, memory writes and reads, the
token queue's consumer, the issue of a micro-operation word, and the fetch of the engine's next step. -/

namespace Sys2Proof.Machine

/-! ## The engine's turn -/

/-- The micro-operation word of the step taken in a state (R50): OP = 0x20 + code. -/
def stepWord (f : Fsm) : BitVec 16 :=
  0#10 ++ 1#1 ++ fsmCode f

/-- FETCH: the step `state` names (R8). A terminal state names none: its word is reserved (R50, R51). -/
def fetchInstr (f : Fsm) : Option Instr :=
  match decodeUop (stepWord f) with
  | .ok i => some i
  | .error _ => none

/-- One turn of the engine (R7, R8): in a terminal state it takes no step. -/
def engineTurn (s : State) : Out :=
  match fetchInstr s.state with
  | none => .next s
  | some i => exec i s

/-- A micro-operation word names a step of the engine when bit 5 of OP is set (R50). -/
def isStepWord (w : BitVec 16) : Bool :=
  w.getLsbD 5

/-- The states in which a primitive's word can be issued by itself: IDLE, D_COMPLETE, E_DONE (log 36). -/
def takesPrimitives (s : State) : Bool :=
  !busy s && !failed s

/-- MODEL (log 4): a micro-operation word issued with the run-time operand `v`. A reserved word is refused
(R51). A step's word runs only in the state it is the step of (R8; log 26). A primitive's word is refused
while a job runs, which nothing external can stop (R120), and has no effect in ERROR, where no step is
taken and the error registers keep their values (R31, R122, R123; log 36). -/
def issueUop (w : BitVec 16) (v : Word) (s : State) : Out :=
  match decodeUop w with
  | .error _ => .refused (.reservedMicroOp w)
  | .ok i =>
    if isStepWord w && w != stepWord s.state then .refused (.stepOutOfState w)
    else if isStepWord w || takesPrimitives s then exec i { s with uop := { s.uop with opVal := v } }
    else if busy s then .refused (.uopWhileBusy w)
    else .next s

/-! ## The register block (R10..R17) -/

/-- The offset of a bus address in the register block; none outside its 4 KiB (R35). -/
def regOffset (c : Config) (addr : Nat) : Option Nat :=
  if c.regBase ≤ addr ∧ addr < c.regBase + 0x1000 then some (addr - c.regBase) else none

/-- A write to the word at offset `off` (R10, R12, R17): a CTRL write is a command (R52); IN_LEN writes
are ignored while busy; read-only registers and the offsets from 0x20 on ignore writes. -/
def writeReg (off : Nat) (v : Word) (s : State) : Out :=
  if 0x20 ≤ off then .next s
  else if off % 4 ≠ 0 then .refused .misalignedRegisterAccess
  else if off = 0x00 then exec (decodeCtrl v) s
  else if off = 0x08 then .next (if busy s then s else { s with inLen := v })
  else .next s

/-- The results of the last job are exact as the host reads them (R46, R135): no job runs, and the host has
read the terminal STATUS of the last one (log 20). -/
def resultsExact (s : State) : Bool :=
  s.synced && !busy s

/-- A result register as the host reads it (R46, R135): its value, or a free value as long as the results
are not exact (log 20). -/
def resultReg (v : Word) (s : State) : Word :=
  if resultsExact s then v else Config.freeWord s.draws

/-- STATUS as the host reads it (R11): BUSY, DONE, ERROR and ERR_CODE are exact; FSM_STATE is a free value
while BUSY is 1 (R127; log 21). -/
def readStatus (s : State) : Word :=
  if busy s then statusOf ((Config.freeWord s.draws).setWidth 5) 0#4 false false true
  else statusWord s

/-- The word at offset `off` as the host reads it (R10..R17). -/
def readReg (off : Nat) (s : State) : Word :=
  if off = 0x00 then ctrlValue s
  else if off = 0x04 then readStatus s
  else if off = 0x08 then s.inLen
  else if off = 0x0C then resultReg (outSize s) s
  else if off = 0x10 then resultReg s.tokenCount s
  else if off = 0x14 then resultReg (bitPos s) s
  else if off = 0x18 then resultReg s.err.bitpos s
  else if off = 0x1C then resultReg s.err.info s
  else 0#32

/-- The host gets `v` (log 3). -/
def answer (v : Word) (s : State) : State :=
  { s with hostData := some v }

/-- A terminal STATUS read is the ordering point after which results are exact (R46). -/
def noteStatusRead (off : Nat) (s : State) : State :=
  if off = 0x04 ∧ (done s || failed s) then { s with synced := true } else s

/-- A word access to the register block at a bus address (R17, R35; log 23). -/
def hostRegWrite (addr : Nat) (v : Word) (s : State) : Out :=
  match regOffset s.cfg addr with
  | none => .refused .notARegisterAddress
  | some off => writeReg off v s

/-- A word read of the register block at a bus address (R17, R35; log 23). -/
def hostRegRead (addr : Nat) (s : State) : Out :=
  match regOffset s.cfg addr with
  | none => .refused .notARegisterAddress
  | some off =>
    if off < 0x20 ∧ off % 4 ≠ 0 then .refused .misalignedRegisterAccess
    else .next (answer (readReg off s) (noteStatusRead off s))

/-- A byte or half-word access to the register block (R17). -/
def hostRegNarrow (addr : Nat) (s : State) : Out :=
  match regOffset s.cfg addr with
  | none => .refused .notARegisterAddress
  | some _ => .refused .narrowRegisterAccess

/-! ## The memories and streams (R18..R23) -/

/-- The host writes a byte of IN_MEM (R18, R47). -/
def hostInMemWrite (a : Nat) (b : Byte) (s : State) : Out :=
  if busy s then .refused .inputWriteWhileBusy
  else if s.cfg.inMemBytes ≤ a then .fault (.addressOutside a)
  else .next { s with inMem := memWrite s.inMem a b }

/-- The largest length an entry of a tree memory holds (R20). -/
def maxTreeLen : Sel → Nat
  | .codeLen => 7
  | .litLen => 15
  | .dist => 15

/-- Store a tree length (R20). -/
def setTree (t : Sel) (i : Nat) (v : Word) (s : State) : State :=
  match t with
  | .codeLen => { s with metaLenMem := memWrite s.metaLenMem i (v.setWidth 3) }
  | .litLen => { s with litlenLen := memWrite s.litlenLen i (v.setWidth 4) }
  | .dist => { s with distLen := memWrite s.distLen i (v.setWidth 4) }

/-- The host writes an entry of a tree memory (R20, R47). -/
def hostTreeWrite (t : Sel) (i : Nat) (v : Word) (s : State) : Out :=
  if busy s then .refused .inputWriteWhileBusy
  else if nsym t ≤ i then .fault (.addressOutside i)
  else if maxTreeLen t < v.toNat then .refused .lengthOutOfRange
  else .next (setTree t i v s)

/-- The host supplies a token sequence, which replaces the whole of TOKEN_IN (R23, R47). -/
def hostTokenInWrite (ws : List Word) (s : State) : Out :=
  if busy s then .refused .inputWriteWhileBusy else .next { s with tokenIn := ws }

/-- A byte of OUT_MEM as the host reads it (R19, R46): exact below OUT_SIZE once the results are, free
elsewhere (log 22). -/
def readOutByte (a : Nat) (s : State) : Byte :=
  if resultsExact s ∧ a < s.pk.optr.toNat then
    (memRead s.outMem a).getD ((Config.freeWord s.draws).setWidth 8)
  else (Config.freeWord s.draws).setWidth 8

/-- The host reads a byte of OUT_MEM (R19). -/
def hostOutMemRead (a : Nat) (s : State) : Out :=
  if s.cfg.outMemBytes ≤ a then .fault (.addressOutside a)
  else .next (answer ((readOutByte a s).setWidth 32) s)

/-- The consumer removes the word at the head of TOKEN_OUT (R21); from an empty queue it gets none
(log 25). -/
def consumeToken (s : State) : State :=
  match s.tokenOut with
  | [] => s
  | w :: rest => { s with tokenOut := rest, taken := s.taken ++ [w] }

/-- The consumer's own action (R21). -/
def hostDrain (s : State) : Out :=
  .next (consumeToken s)

/-- Where the platform places a tree memory (R35). -/
def treeAt (t : Sel) (c : Config) : Placement :=
  match t with
  | .codeLen => c.metaLenAt
  | .litLen => c.litlenAt
  | .dist => c.distAt

/-- A host access to the entry of a memory that stands at a bus address (R35); there is none where no entry
stands (log 24). -/
def atAddress (p : Placement) (addr : Nat) (access : Nat → Out) : Out :=
  match p.indexOf addr with
  | none => .fault (.addressOutside addr)
  | some i => access i

/-! ## The host's turn -/

/-- One poll of WAIT (R64): a read of STATUS, the ordering point of R46 when it shows the end of a job. -/
def pollStatus (s : State) : State :=
  answer (readStatus s) (noteStatusRead 0x04 s)

/-- The consumer's turn while the host waits: one that is ready removes a word if there is one (R133). -/
def consumerTurn (ready : Bool) (s : State) : State :=
  if ready then consumeToken s else s

/-- WAIT (R64): the host polls STATUS, and while BUSY is 1 it stays pending and the consumer and the engine
take a turn each. -/
def hostWait (ready : Bool) (s : State) : Out :=
  if busy s then engineTurn (consumerTurn ready { pollStatus s with host := .wait ready :: s.host })
  else .next (pollStatus s)

/-- One action of the host or the consumer, already taken off `host` (log 3). -/
def hostTurn (e : HostEvent) (s : State) : Out :=
  match e with
  | .uop w v => issueUop w v s
  | .regWrite addr v => hostRegWrite addr v s
  | .regRead addr => hostRegRead addr s
  | .regNarrow addr => hostRegNarrow addr s
  | .inMemWrite addr b => atAddress s.cfg.inMemAt addr fun a => hostInMemWrite a b s
  | .treeWrite t addr v => atAddress (treeAt t s.cfg) addr fun i => hostTreeWrite t i v s
  | .tokenInWrite ws => hostTokenInWrite ws s
  | .outMemRead addr => atAddress s.cfg.outMemAt addr fun a => hostOutMemRead a s
  | .drain => hostDrain s
  | .engine => engineTurn s
  | .wait ready => hostWait ready s

/-- Count a step that ran something, so that the next one draws its own free values (log 2). -/
def countDraw (o : Out) : Out :=
  match o with
  | .next s => .next { s with draws := s.draws + 1 }
  | .fault f => .fault f
  | .refused r => .refused r

/-- One step of the instance: the host's next action, or else the engine's turn. An instance in a terminal
state with nothing pending waits, unchanged (R8, R130). -/
def stepOnce (s : State) : Out :=
  match s.host with
  | e :: rest => countDraw (hostTurn e { s with host := rest })
  | [] => if busy s then countDraw (engineTurn s) else .next s

/-! ## Placing an instruction where the next step fetches it (log 27) -/

/-- The states in the order of their codes (R8). -/
def allFsm : List Fsm :=
  [.idle, .dHeader, .dPreamble, .dStoredHdr, .dStoredCopy, .dDynCounts, .dDynMetalen, .dDynMetabuild,
   .dDynCodelen, .dDynTablebuild, .dStatic, .dBgLiteral, .dBgMlen, .dBgMdist, .dBgMdistwr, .dComplete,
   .eBuild, .eHeader, .eMetalen, .eCodelen, .eWriteToken, .eLitRep, .eMatchDistRep, .eMatchExtra,
   .eDistRep, .eDistExtra, .eEob, .eFinalize, .eDone, .error]

/-- The state whose step a word names (R8, R50). -/
def stateOfWord (w : BitVec 16) : Option Fsm :=
  allFsm.find? fun f => stepWord f == w && busy { State.resetWith Config.reference with state := f }

/-- Place a word where the next step fetches: a step of the engine is fetched by `state`, a token by
`tin` in state E_WRITE_TOKEN, a CTRL command and a primitive micro-operation as the host's next
action, the primitive in a state that takes it (log 36). -/
def placeCode (c : Code) (s : State) : State :=
  match c.port with
  | .uop =>
    match stateOfWord (c.word.setWidth 16) with
    | some f => { s with state := f, host := .engine :: s.host }
    | none => { s with
        state := if takesPrimitives s then s.state else .idle
        host  := .uop (c.word.setWidth 16) s.uop.opVal :: s.host }
  | .ctrl => { s with host := .regWrite s.cfg.regBase c.word :: s.host }
  | .token => { s with
      state   := .eWriteToken
      tokenIn := [c.word]
      enc     := { s.enc with tin := 0 }
      host    := .engine :: s.host }

/-- Place a word of the opcode table, by its number of bits (log 9). -/
def placeTableWord (s : State) (nbits w : Nat) : State :=
  match tableCode nbits w with
  | some c => placeCode c s
  | none => s

/-! ## Host programs (R64) -/

/-- `WR IN_MEM[a] BYTES ...` (R64). -/
def writeBytes (c : Config) (a : Nat) : List Byte → List HostEvent
  | [] => []
  | b :: rest => .inMemWrite (c.inMemAt.address a) b :: writeBytes c (a + 1) rest

/-- `DECODE <bytes>` (R64): write the bytes and their count, start, wait, with a consumer ready to drain
TOKEN_OUT (R133). -/
def decodeProgram (c : Config) (bytes : List Byte) : List HostEvent :=
  writeBytes c 0 bytes ++
    [.regWrite (c.regBase + 0x08) (BitVec.ofNat 32 bytes.length),
     .regWrite c.regBase (ctrlWord false false false true), .wait true]

/-- `ENCODE last=<l> size=<n> tokens=<list>` (R64); the tree memories are written beforehand. -/
def encodeProgram (c : Config) (isLast : Bool) (size : Word) (tokens : List Word) : List HostEvent :=
  [.tokenInWrite (tokens ++ [endWord]), .regWrite (c.regBase + 0x08) size,
   .regWrite c.regBase (ctrlWord false isLast true true), .wait false]

/-- `WR <tree>[0 ..], <lengths>` (R64): one write for each entry. -/
def writeTree (c : Config) (t : Sel) (i : Nat) : List Nat → List HostEvent
  | [] => []
  | l :: rest => .treeWrite t ((treeAt t c).address i) (BitVec.ofNat 32 l) :: writeTree c t (i + 1) rest

end Sys2Proof.Machine
end

