-- ==== Sys2Proof/Safety.lean ====
section
/-! DEFINITION. What a safe run is, in the terms the statements use: the invariants of the machine, the
stream values and the output stream as the rules give them, and the frames. -/

namespace Sys2Proof

/-- The host commands (R52). -/
def Instr.isCommand : Instr → Bool
  | .startDecode _ | .startEncode _ | .softReset | .setMode _ _ => true
  | .build _ | .decodesym _ | .encodesym _ | .peek _ | .consume _ | .read _ | .align | .refill
  | .rleEmit _ | .put _ | .finalize | .rleExpand | .dHeader | .dPreamble | .dStoredHdr | .dStoredCopy
  | .dDynCounts | .dDynMetalen | .dDynMetabuild | .dDynCodelen | .dDynTablebuild | .dStatic
  | .dBgLiteral | .dBgMlen | .dBgMdist | .dBgMdistwr | .eBuild | .eHeader | .eMetalen | .eCodelen
  | .eWriteToken | .eLitRep | .eMatchDistRep | .eMatchExtra | .eDistRep | .eDistExtra | .eEob
  | .eFinalize | .tokenLiteral _ | .tokenMatch _ _ | .tokenEnd => false

/-- The operations of the decoder's side: the cursor's, the parser's and the ByteGen stages. -/
def Instr.isDecoder : Instr → Bool
  | .decodesym _ | .peek _ | .consume _ | .read _ | .align | .refill | .dHeader | .dPreamble
  | .dStoredHdr | .dStoredCopy | .dDynCounts | .dDynMetalen | .dDynMetabuild | .dDynCodelen
  | .dDynTablebuild | .dStatic | .dBgLiteral | .dBgMlen | .dBgMdist | .dBgMdistwr => true
  | .build _ | .encodesym _ | .rleEmit _ | .put _ | .finalize | .rleExpand | .eBuild | .eHeader
  | .eMetalen | .eCodelen | .eWriteToken | .eLitRep | .eMatchDistRep | .eMatchExtra | .eDistRep
  | .eDistExtra | .eEob | .eFinalize | .startDecode _ | .startEncode _ | .softReset | .setMode _ _
  | .tokenLiteral _ | .tokenMatch _ _ | .tokenEnd => false

/-- The operations of the encoder's side. -/
def Instr.isEncoder : Instr → Bool
  | .encodesym _ | .rleEmit _ | .put _ | .finalize | .eBuild | .eHeader | .eMetalen | .eCodelen
  | .eWriteToken | .eLitRep | .eMatchDistRep | .eMatchExtra | .eDistRep | .eDistExtra | .eEob
  | .eFinalize | .tokenLiteral _ | .tokenMatch _ _ | .tokenEnd => true
  | .build _ | .decodesym _ | .peek _ | .consume _ | .read _ | .align | .refill | .rleExpand
  | .dHeader | .dPreamble | .dStoredHdr | .dStoredCopy | .dDynCounts | .dDynMetalen | .dDynMetabuild
  | .dDynCodelen | .dDynTablebuild | .dStatic | .dBgLiteral | .dBgMlen | .dBgMdist | .dBgMdistwr
  | .startDecode _ | .startEncode _ | .softReset | .setMode _ _ => false

end Sys2Proof

namespace Sys2Proof.Machine

/-! ## Stream values (R36, R37, R74), as sums over the stream's bits -/

/-- A field of `n` bits at stream bit `p`: `sum over i of InBit(p+i) << i` (R37). -/
def fieldAt (s : State) (p n : Nat) : Nat :=
  ((List.range n).map fun i => if inBit s (p + i) then 2 ^ i else 0).sum

/-- The same with the bits at or past the end of the input read as 0 (R74). -/
def paddedFieldAt (s : State) (p n : Nat) : Nat :=
  ((List.range n).map fun i => if p + i < s.cur.inBits.toNat ∧ inBit s (p + i) then 2 ^ i else 0).sum

/-- At least `n` bits are left (R75). -/
abbrev HasBits (s : State) (n : Nat) : Prop :=
  s.cur.pos.toNat + n ≤ s.cur.inBits.toNat

/-- Every bit position fits the 32-bit `pos` (R2: IN_MEM_BYTES is at most 2^28). -/
abbrev PosFits (s : State) : Prop :=
  s.cur.inBits.toNat ≤ 2 ^ 31

/-- `t` is `s` with the cursor moved by `n` bits; `acc`, `held` and `fetch` are hidden (R34). -/
structure CursorMoved (s t : State) (n : Nat) : Prop where
  pos    : t.cur.pos.toNat = s.cur.pos.toNat + n
  inBits : t.cur.inBits = s.cur.inBits

/-! ## Invariants -/

/-- The cursor's invariant (R24); above `held` the accumulator is 0. -/
structure CursorOk (s : State) : Prop where
  aligned : s.cur.pos.toNat + s.cur.held.toNat = 8 * s.cur.fetch.toNat
  fetched : s.cur.fetch.toNat ≤ s.inLen.toNat
  total   : s.cur.inBits.toNat = 8 * s.inLen.toNat
  bound   : s.inLen.toNat ≤ 2 ^ 28
  held    : s.cur.held.toNat ≤ 64
  bits    : ∀ i, s.cur.acc.getLsbD i = (decide (i < s.cur.held.toNat) && inBit s (s.cur.pos.toNat + i))

/-- The states of a decode job after D_HEADER. -/
def decoding : Fsm → Bool
  | .dPreamble | .dStoredHdr | .dStoredCopy | .dDynCounts | .dDynMetalen | .dDynMetabuild
  | .dDynCodelen | .dDynTablebuild | .dStatic | .dBgLiteral | .dBgMlen | .dBgMdist | .dBgMdistwr => true
  | .idle | .dHeader | .dComplete | .eBuild | .eHeader | .eMetalen | .eCodelen | .eWriteToken | .eLitRep
  | .eMatchDistRep | .eMatchExtra | .eDistRep | .eDistExtra | .eEob | .eFinalize | .eDone | .error => false

/-- Every declared input byte has been written (R43). -/
abbrev InputWritten (s : State) : Prop :=
  ∀ a, a < s.inLen.toNat → (memRead s.inMem a).isSome = true

/-- The decoder's invariant: in a decode job the declared input is there, and after D_HEADER the cursor
is as R24 says. -/
structure DecoderInv (s : State) : Prop where
  config : s.cfg.wf = true
  input  : s.state = .dHeader ∨ decoding s.state = true →
    s.inLen.toNat ≤ s.cfg.inMemBytes ∧ InputWritten s
  cursor : decoding s.state = true → CursorOk s

/-- The packer between two operations (R30, R113): less than a word is held, and nothing above `pn`. -/
structure PackerOk (s : State) : Prop where
  partialWord : s.pk.pn.toNat < packBits s
  clean       : s.pk.pacc.toNat < 2 ^ s.pk.pn.toNat

/-- The packer's invariant: a job that has not failed leaves it as `PackerOk` says. -/
def PackerInv (s : State) : Prop :=
  s.state ≠ .error → PackerOk s

/-- The token queue holds at most TOKEN_OUT_DEPTH words (R21, R134). -/
def QueueInv (s : State) : Prop :=
  s.tokenOut.length ≤ s.cfg.tokenOutDepth

/-- Every memory is in its canonical form. -/
structure MemInv (s : State) : Prop where
  inMem   : Memory.wf s.inMem = true
  outMem  : Memory.wf s.outMem = true
  litlen  : Memory.wf s.litlenLen = true
  dist    : Memory.wf s.distLen = true
  codeLen : Memory.wf s.metaLenMem = true

/-- The ranges R25 gives the parser's registers while a dynamic header is read, and that the indexes the
steps use are inside their arrays (R84, R86). -/
structure ParserInv (s : State) : Prop where
  metaLen : s.par.metaLen.length = 19
  cl      : s.par.cl.length = 320
  counts  : s.state = .dDynMetalen ∨ s.state = .dDynMetabuild ∨ s.state = .dDynCodelen ∨
      s.state = .dDynTablebuild →
    257 ≤ s.par.hlit.toNat ∧ s.par.hlit.toNat ≤ 288 ∧ 1 ≤ s.par.hdist.toNat ∧ s.par.hdist.toNat ≤ 32 ∧
    4 ≤ s.par.hclen.toNat ∧ s.par.hclen.toNat ≤ 19
  mi      : s.state = .dDynMetalen → s.par.mi.toNat < s.par.hclen.toNat
  ci      : s.state = .dDynCodelen → s.par.ci.toNat < s.par.hlit.toNat + s.par.hdist.toNat

/-! ## The output stream (R40) -/

/-- The bits of a byte, bit 0 first. -/
def byteBits (b : Byte) : List Bool :=
  (List.range 8).map fun i => b.getLsbD i

/-- The low `n` bits of a value, bit 0 first. -/
def valueBits (v n : Nat) : List Bool :=
  (List.range n).map fun i => v.testBit i

/-- The output bit stream of a job so far: the bytes written, then the bits the packer holds (R40). -/
def outBits (s : State) : List Bool :=
  ((List.range s.pk.optr.toNat).flatMap fun a => byteBits ((memRead s.outMem a).getD 0)) ++
    (List.range s.pk.pn.toNat).map fun i => s.pk.pacc.getLsbD i

/-- OUT_MEM has room for the words that `n` more bits complete (R44, R113), and the 32-bit pointer does
not wrap. -/
abbrev OutRoom (s : State) (n : Nat) : Prop :=
  s.pk.optr.toNat + packBits s / 8 * ((s.pk.pn.toNat + n) / packBits s) ≤ s.cfg.outMemBytes ∧
  s.pk.optr.toNat + packBits s / 8 * ((s.pk.pn.toNat + n) / packBits s) < 2 ^ 32

/-- OUT_MEM has room for all of `n` more bits, in bytes (R115). -/
abbrev ByteRoom (s : State) (n : Nat) : Prop :=
  s.pk.optr.toNat + (s.pk.pn.toNat + n) / 8 ≤ s.cfg.outMemBytes ∧
  s.pk.optr.toNat + (s.pk.pn.toNat + n) / 8 < 2 ^ 32

/-- `t` has appended the bits `bs` to the output stream of `s`, and stored only at OUT_MEM[optr ..]. -/
structure Appended (s t : State) (bs : List Bool) : Prop where
  stream : outBits t = outBits s ++ bs
  total  : t.pk.ptotal = s.pk.ptotal + BitVec.ofNat 32 bs.length
  packer : PackerOk t
  stored : ∀ a, a < s.pk.optr.toNat ∨ t.pk.optr.toNat ≤ a → memRead t.outMem a = memRead s.outMem a

/-- `t` is `s` stopped by OutputOverflow (R44, R113) after the bits `bs` were passed to the packer: OUT_MEM
is full to its end, its bytes from `optr` on are those of the output stream and every other address reads
as before, the pointer stands at the first address without a place, and nothing else but the error
registers, `state` and the packer has changed. -/
structure Overflowed (s t : State) (bs : List Bool) : Prop where
  optr   : t.pk.optr.toNat = s.cfg.outMemBytes
  total  : t.pk.ptotal = s.pk.ptotal + BitVec.ofNat 32 bs.length
  bytes  : ∀ a, s.pk.optr.toNat ≤ a → a < s.cfg.outMemBytes → ∃ b : Byte, memRead t.outMem a = some b ∧
    ∀ j, j < 8 → (outBits s ++ bs)[8 * a + j]? = some (b.getLsbD j)
  stored : ∀ a, a < s.pk.optr.toNat ∨ s.cfg.outMemBytes ≤ a → memRead t.outMem a = memRead s.outMem a
  rest   : t = { s with
    outMem := t.outMem, pk := t.pk
    err := ⟨.outputOverflow, if s.ctrl.mode then t.pk.ptotal else s.cur.pos,
      BitVec.ofNat 32 s.cfg.outMemBytes⟩
    state := .error }

/-- The instruction `i`, which passes the bit strings `puts` to PUT in order, stops at the first PUT whose
words do not fit OUT_MEM, with OutputOverflow (R113, R44, R117). -/
def OverflowsAt (i : Instr) (s : State) (puts : List (List Bool)) : Prop :=
  ∀ k, k < puts.length → OutRoom s (puts.take k).flatten.length →
    ¬OutRoom s (puts.take (k + 1)).flatten.length →
    ∃ t, exec i s = .next t ∧ Overflowed s t (puts.take (k + 1)).flatten

/-- The instruction `i` raises UnencodableSymbol for symbol `y` of slot `sel`, and changes nothing else
(R112, R117). -/
def RaisesUnencodable (i : Instr) (sel : Sel) (y : Nat) (s : State) : Prop :=
  exec i s = .next { s with
    err := ⟨.unencodableSymbol, bitPos s, BitVec.ofNat 32 (selNat sel <<< 16 ||| y)⟩
    state := .error }

/-! ## The expansion of RLE symbols (R95), as the branches of the rule -/

/-- Going on from the lengths `b`, the pairs expand to the answer: an array, or none where a 16 has nothing
before it. The last branch is the rule's `else` (log 29). -/
inductive Expands : List (BitVec 4) → List Pair → Option (List (BitVec 4)) → Prop where
  | done (b : List (BitVec 4)) : Expands b [] (some b)
  | length (b : List (BitVec 4)) (y : BitVec 5) (x : BitVec 7) (rest : List Pair)
      (r : Option (List (BitVec 4))) (h : y.toNat ≤ 15) :
      Expands (b ++ [y.setWidth 4]) rest r → Expands b ((y, x) :: rest) r
  | nothingToRepeat (x : BitVec 7) (rest : List Pair) : Expands [] ((16#5, x) :: rest) none
  | repeatLast (b : List (BitVec 4)) (v : BitVec 4) (x : BitVec 7) (rest : List Pair)
      (r : Option (List (BitVec 4))) :
      Expands (b ++ [v] ++ List.replicate (3 + x.toNat) v) rest r → Expands (b ++ [v]) ((16#5, x) :: rest) r
  | shortZeros (b : List (BitVec 4)) (x : BitVec 7) (rest : List Pair) (r : Option (List (BitVec 4))) :
      Expands (b ++ List.replicate (3 + x.toNat) 0#4) rest r → Expands b ((17#5, x) :: rest) r
  | longZeros (b : List (BitVec 4)) (y : BitVec 5) (x : BitVec 7) (rest : List Pair)
      (r : Option (List (BitVec 4))) (h : 18 ≤ y.toNat) :
      Expands (b ++ List.replicate (11 + x.toNat) 0#4) rest r → Expands b ((y, x) :: rest) r

/-! ## The runs of the RLE encoder (R94) -/

/-- What is left of a run of the length `v` after its whole windows: `r` more of it, as literal lengths when
fewer than 3, as one 16 otherwise. -/
def restPairs (v r : Nat) : List Pair :=
  if r < 3 then List.replicate r (BitVec.ofNat 5 v, 0#7) else [(16#5, BitVec.ofNat 7 (r - 3))]

/-- The pairs of a run of `n` lengths `v`, `v` not 0 (R94): literal lengths when fewer than 4; otherwise the
length once, then a 16 for each window of 6, then the rest. -/
def lengthRunPairs (v n : Nat) : List Pair :=
  if n < 4 then List.replicate n (BitVec.ofNat 5 v, 0#7)
  else (BitVec.ofNat 5 v, 0#7) :: (List.replicate ((n - 1) / 6) (16#5, 3#7) ++ restPairs v ((n - 1) % 6))

/-- The pairs of a run of `n` zeros (R94): an 18 for each window of 138, then literal zeros when fewer than
3 are left, a 17 for 3 to 10, an 18 for more. -/
def zeroRunPairs (n : Nat) : List Pair :=
  List.replicate (n / 138) (18#5, 127#7) ++
    (if n % 138 < 3 then List.replicate (n % 138) (0#5, 0#7)
    else if n % 138 ≤ 10 then [(17#5, BitVec.ofNat 7 (n % 138 - 3))]
    else [(18#5, BitVec.ofNat 7 (n % 138 - 11))])

/-! ## Tables -/

/-- The order of the meta lengths in the stream, as R56 prints it. -/
def metaOrder : List Nat :=
  [16, 17, 18, 0, 8, 7, 9, 6, 10, 5, 11, 4, 12, 3, 13, 2, 14, 1, 15]

/-- The length table as R59 prints it: extra bits and base of the symbols 257, 258, ... 285. -/
def lengthRows : List (Nat × Nat) :=
  [(0, 3), (0, 4), (0, 5), (0, 6), (0, 7), (0, 8), (0, 9), (0, 10), (1, 11), (1, 13), (1, 15), (1, 17),
   (2, 19), (2, 23), (2, 27), (2, 31), (3, 35), (3, 43), (3, 51), (3, 59), (4, 67), (4, 83), (4, 99),
   (4, 115), (5, 131), (5, 163), (5, 195), (5, 227), (0, 258)]

/-- The distance table as R60 prints it: extra bits and base of the symbols 0, 1, ... 29. -/
def distRows : List (Nat × Nat) :=
  [(0, 1), (0, 2), (0, 3), (0, 4), (1, 5), (1, 7), (2, 9), (2, 13), (3, 17), (3, 25), (4, 33), (4, 49),
   (5, 65), (5, 97), (6, 129), (6, 193), (7, 257), (7, 385), (8, 513), (8, 769), (9, 1025), (9, 1537),
   (10, 2049), (10, 3073), (11, 4097), (11, 6145), (12, 8193), (12, 12289), (13, 16385), (13, 24577)]

/-- The rows of R68 (with R57, R59, R60): slot, symbol, and the kind, extra bits and base of its entry. -/
inductive EntryRow : Sel → Nat → Kind → Nat → Nat → Prop where
  | codeLength (y : Nat) (h : y ≤ 15) : EntryRow .codeLen y .literal 0 y
  | repeatLast : EntryRow .codeLen 16 .literal 2 16
  | shortZeros : EntryRow .codeLen 17 .literal 3 17
  | longZeros : EntryRow .codeLen 18 .literal 7 18
  | literal (y : Nat) (h : y ≤ 255) : EntryRow .litLen y .literal 0 y
  | endOfBlock : EntryRow .litLen 256 .endOfBlock 0 256
  | length (k extra base : Nat) (h : lengthRows[k]? = some (extra, base)) :
      EntryRow .litLen (257 + k) .length extra base
  | noLength (y : Nat) (h : y = 286 ∨ y = 287) : EntryRow .litLen y .invalid 0 y
  | distance (y extra base : Nat) (h : distRows[y]? = some (extra, base)) :
      EntryRow .dist y .distance extra base
  | noDistance (y : Nat) (h : y = 30 ∨ y = 31) : EntryRow .dist y .invalid 0 y

/-- `e` is the entry of symbol `y` of slot `sel` with code length `l` (R68). -/
def IsSymEntry (sel : Sel) (y l : Nat) (e : Entry) : Prop :=
  ∃ kind extra base, EntryRow sel y kind extra base ∧
    e = ⟨kind, BitVec.ofNat 4 extra, BitVec.ofNat 16 base, BitVec.ofNat 4 l⟩

/-- The codes longer than `rw` bits whose first `rw` bits are `p`, each by how many bits it goes on: the set
G of R69. -/
def codesUnder (lens : List Nat) (rw p : Nat) : List Nat :=
  ((lens.zip (canonCodes lens)).filter fun lc => decide (rw < lc.1) && decide (lc.2 >>> (lc.1 - rw) = p)).map
    fun lc => lc.1 - rw

/-- The entries of the subtable of prefix `p`: none where no code goes on from it (R69). -/
def subtableSize (lens : List Nat) (rw p : Nat) : Nat :=
  if codesUnder lens rw p = [] then 0 else 2 ^ maxLen (codesUnder lens rw p)

/-- Where the subtable of prefix `p` starts: after the root table and the subtables of the smaller prefixes
(R69). With `p = 2 ^ rw`, the number of entries in use. -/
def subtableOffset (lens : List Nat) (rw p : Nat) : Nat :=
  2 ^ rw + ((List.range p).map (subtableSize lens rw)).sum

/-- What R69 says the decode table holds for a symbol `y` of code length `l` and code `c`: its entry at
every root index whose low bits are the code, first stream bit lowest; or, for a code longer than `rw`, a
link at the index of its first `rw` bits, and its entry at every index of that subtable whose low bits are
the rest of the code. -/
structure TableHolds (sel : Sel) (lens : List Nat) (dt : List Entry) (rw y l c : Nat) : Prop where
  short : l ≤ rw → ∀ i, i < 2 ^ rw → i % 2 ^ l = revBits l c →
    ∃ e, dt[i]? = some e ∧ IsSymEntry sel y l e
  link  : rw < l → dt[revBits rw (c >>> (l - rw))]? = some
    ⟨.linkToSubtable, BitVec.ofNat 4 (maxLen (codesUnder lens rw (c >>> (l - rw)))),
      BitVec.ofNat 16 (subtableOffset lens rw (c >>> (l - rw))), BitVec.ofNat 4 rw⟩
  long  : rw < l → ∀ j, j < subtableSize lens rw (c >>> (l - rw)) → j % 2 ^ (l - rw) = revBits l c >>> rw →
    ∃ e, dt[subtableOffset lens rw (c >>> (l - rw)) + j]? = some e ∧ IsSymEntry sel y l e

/-- What R71 says a slot holds after a BUILD of the lengths `lens`: the widths and counts, the decode table
of R69, whose size R70 bounds, and the encode table. -/
structure Built (sel : Sel) (lens : List Nat) (x : Slot) : Prop where
  valid : x.valid = true
  rw    : x.rw.toNat = min (rootWidth sel) (maxLen lens)
  nused : x.nused.toNat = (lens.filter (· ≠ 0)).length
  tsize : x.tsize.toNat = subtableOffset lens x.rw.toNat (2 ^ x.rw.toNat)
  fits  : x.tsize.toNat ≤ tableEntries
  size  : x.dt.length = x.tsize.toNat
  dt    : ∀ y l c : Nat, lens[y]? = some l → (canonCodes lens)[y]? = some c → l ≠ 0 →
    TableHolds sel lens x.dt x.rw.toNat y l c
  et    : ∀ (y l c : Nat), lens[y]? = some l → (canonCodes lens)[y]? = some c →
    x.et[y]? =
      some (if l = 0 then EncEntry.mk 0 0 else EncEntry.mk (BitVec.ofNat 15 (revBits l c)) (BitVec.ofNat 4 l))

/-- A length array of an alphabet: as many entries as symbols, each a code length (R65, R66). -/
structure LengthArray (sel : Sel) (lens : List Nat) : Prop where
  size  : lens.length = nsym sel
  range : ∀ l ∈ lens, l ≤ maxCodeLen

/-- The tree memory holds exactly the lengths `lens` from entry 0 on (R20). -/
def TreeHolds {w : Nat} (m : Cells w) (lens : List Nat) : Prop :=
  ∀ y, y < lens.length → (memRead m y).map BitVec.toNat = lens[y]?

/-- The decode table of slot `sel` gives the entry `e` for the next stream bits (R72): directly, or
through a link. -/
def Selects (sel : Sel) (s : State) (e : Entry) : Prop :=
  (slotOf sel s).valid = true ∧
  ((e.kind ≠ .linkToSubtable ∧
      (slotOf sel s).dt[paddedFieldAt s s.cur.pos.toNat (slotOf sel s).rw.toNat]? = some e) ∨
    ∃ l : Entry, l.kind = .linkToSubtable ∧
      (slotOf sel s).dt[paddedFieldAt s s.cur.pos.toNat (slotOf sel s).rw.toNat]? = some l ∧
      (slotOf sel s).dt[l.base.toNat +
        (paddedFieldAt s s.cur.pos.toNat ((slotOf sel s).rw.toNat + l.extra.toNat) >>>
          (slotOf sel s).rw.toNat)]? = some e)

/-- The encode table of slot `sel` gives symbol `y` a code (R112). -/
structure HasCode (sel : Sel) (y : Nat) (s : State) (e : EncEntry) : Prop where
  valid : (slotOf sel s).valid = true
  entry : (slotOf sel s).et[y]? = some e
  used  : e.len ≠ 0

/-! ## Frames -/

/-- What no operation of the engine changes: the parameters, CTRL, IN_LEN, the inputs, and the model's
own host side. -/
structure EngineFrame (s t : State) : Prop where
  cfg        : t.cfg = s.cfg
  ctrl       : t.ctrl = s.ctrl
  inLen      : t.inLen = s.inLen
  inMem      : t.inMem = s.inMem
  litlenLen  : t.litlenLen = s.litlenLen
  distLen    : t.distLen = s.distLen
  metaLenMem : t.metaLenMem = s.metaLenMem
  tokenIn    : t.tokenIn = s.tokenIn
  host       : t.host = s.host
  hostData   : t.hostData = s.hostData
  taken      : t.taken = s.taken
  synced     : t.synced = s.synced
  draws      : t.draws = s.draws

/-- The states R8 and R9 let follow a state in one step of the engine, an error apart. -/
def successors : Fsm → List Fsm
  | .dHeader => [.dPreamble]
  | .dPreamble => [.dStoredHdr, .dDynCounts, .dStatic]
  | .dStoredHdr => [.dStoredHdr, .dStoredCopy, .dPreamble, .dComplete]
  | .dStoredCopy => [.dStoredCopy, .dPreamble, .dComplete]
  | .dDynCounts => [.dDynMetalen]
  | .dDynMetalen => [.dDynMetalen, .dDynMetabuild]
  | .dDynMetabuild => [.dDynCodelen]
  | .dDynCodelen => [.dDynCodelen, .dDynTablebuild]
  | .dDynTablebuild => [.dBgLiteral]
  | .dStatic => []
  | .dBgLiteral => [.dBgLiteral, .dBgMlen, .dPreamble, .dComplete]
  | .dBgMlen => [.dBgMdist]
  | .dBgMdist => [.dBgMdistwr]
  | .dBgMdistwr => [.dBgMdistwr, .dBgLiteral]
  | .eBuild => [.eHeader]
  | .eHeader => [.eMetalen]
  | .eMetalen => [.eMetalen, .eCodelen]
  | .eCodelen => [.eCodelen, .eWriteToken]
  | .eWriteToken => [.eLitRep, .eMatchDistRep, .eEob]
  | .eLitRep => [.eWriteToken]
  | .eMatchDistRep => [.eMatchExtra]
  | .eMatchExtra => [.eDistRep]
  | .eDistRep => [.eDistExtra]
  | .eDistExtra => [.eWriteToken]
  | .eEob => [.eFinalize]
  | .eFinalize => [.eDone]
  | .idle => [.idle]
  | .dComplete => [.dComplete]
  | .eDone => [.eDone]
  | .error => [.error]

end Sys2Proof.Machine
end

