-- ==== Sys2Proof/Certificates/Slice0/Obligations.lean ====
section
/-! DEFINITION. The statements for the provers, each from the numbered rules of spec/ its docstring names. -/

open Sys2Proof Sys2Proof.Machine

/-! ## Encodings -/

/-- R49, R50, R52, R53: decoding the word of a well-formed instruction gives the instruction back, with
every operand at every value its encoding admits. -/
def Obligations.DecodeOfEncodeIsTheInstruction : Prop :=
  ∀ i : Instr, i.wellFormed = true → decode (encode i) = .ok i

/-- R49, R50: a micro-operation word that decodes is the word of exactly that instruction, and the
instruction is well-formed. -/
def Obligations.MicroOpWordsHaveOneMeaning : Prop :=
  ∀ (w : BitVec 16) (i : Instr), decodeUop w = .ok i →
    i.wellFormed = true ∧ encode i = ⟨.uop, w.setWidth 32⟩

/-- R51: the reserved micro-operation words are exactly those listed (and RLE_EMIT with SEL 0, which R50
does not give), the decoder refuses each, and issuing one is refused by name (log 4). -/
def Obligations.ReservedMicroOpWordsAreRefused : Prop :=
  ∀ w : BitVec 16,
    let op := (w.extractLsb' 0 6).toNat
    let n := (w.extractLsb' 6 6).toNat
    let sel := (w.extractLsb' 12 2).toNat
    let hasN := op = 0x04 ∨ op = 0x05 ∨ op = 0x06 ∨ op = 0x0A
    let hasSel := op = 0x01 ∨ op = 0x02 ∨ op = 0x03 ∨ op = 0x09
    let reserved :=
      op = 0x00 ∨ (0x0D ≤ op ∧ op ≤ 0x20) ∨ op = 0x2F ∨ 0x3C ≤ op ∨ 32 < n ∨ (n ≠ 0 ∧ ¬hasN) ∨
      sel = 3 ∨ (sel ≠ 0 ∧ ¬hasSel) ∨ (op = 0x09 ∧ sel = 0) ∨ w.extractLsb' 14 2 ≠ 0#2
    (reserved ↔ ∃ r, decodeUop w = .error r) ∧
    (reserved → ∀ (s : State) (v : Word) (rest : List HostEvent), s.host = .uop w v :: rest →
      step s = .refused (.reservedMicroOp w))

/-- R52, R10: the four commands as CTRL values; SOFT_RESET takes precedence, bits 31:4 are ignored
(bit 2 of START_DECODE is IS_LAST, log 10). -/
def Obligations.CtrlValuesAreTheFourCommands : Prop :=
  (∀ w : Word,
    (w.getLsbD 3 = true → decodeCtrl w = .softReset) ∧
    (w.getLsbD 3 = false → w.getLsbD 0 = true → w.getLsbD 1 = false →
      decodeCtrl w = .startDecode (w.getLsbD 2)) ∧
    (w.getLsbD 3 = false → w.getLsbD 0 = true → w.getLsbD 1 = true →
      decodeCtrl w = .startEncode (w.getLsbD 2)) ∧
    (w.getLsbD 3 = false → w.getLsbD 0 = false →
      decodeCtrl w = .setMode (w.getLsbD 1) (w.getLsbD 2))) ∧
  decodeCtrl 0x00000001#32 = .startDecode false ∧ decodeCtrl 0x00000003#32 = .startEncode false ∧
  decodeCtrl 0x00000007#32 = .startEncode true ∧ decodeCtrl 0x00000008#32 = .softReset

/-- R53: the words of the three rows of tokens, and that every word decodes by its row's pattern: a literal
when bits 31:8 are 0, a match when bits 31:25 are 1000000, END when it is 0x4000_0000, none of them
otherwise. R53 counts a match pattern whose length or distance is out of range among the words that are
no token; that the decoder goes by the pattern and leaves the range to the taking of the word (R104) is
the model's choice (log 40). -/
def Obligations.TokenWordsHaveThreeForms : Prop :=
  (∀ b : Byte, literalWord b = b.setWidth 32 ∧ decodeToken (literalWord b) = .ok (.tokenLiteral b)) ∧
  (∀ (l : BitVec 9) (d : BitVec 16),
    matchWord l d = 0x80000000#32 ||| (l.setWidth 32 <<< 16) ||| d.setWidth 32 ∧
    decodeToken (matchWord l d) = .ok (.tokenMatch l d)) ∧
  (endWord = 0x40000000#32 ∧ decodeToken endWord = .ok .tokenEnd) ∧
  (∀ w : Word, (∃ r, decodeToken w = .error r) ↔
    w.extractLsb' 8 24 ≠ 0#24 ∧ w.extractLsb' 25 7 ≠ 0x40#7 ∧ w ≠ 0x40000000#32)

/-- R50, R53: a few words of two formats, the micro-operation words and the token words, written out from
the encoding tables. -/
def Obligations.SampleWordsDecode : Prop :=
  decodeUop 0b0001000000000001#16 = .ok (.build .litLen) ∧
  decodeUop 0b0000001001000100#16 = .ok (.peek 9#6) ∧
  decodeUop 0b0010000000001001#16 = .ok (.rleEmit .dist) ∧
  decodeUop 0b0000000000101011#16 = .ok .dBgLiteral ∧
  decodeUop 0b0000000000111011#16 = .ok .eFinalize ∧
  decodeToken 0x80090001#32 = .ok (.tokenMatch 9#9 1#16)

/-! ## The step -/

/-- R7, R8, R50, R52, R104: a step runs the instruction its words decode to: the engine the one `state`
names, the host's port the one issued or written to CTRL, and state E_WRITE_TOKEN the token at `tin`;
around it a step takes the host's action off its list and counts the draw (logs 2, 3, 4). A primitive's
word is refused while a job runs and changes nothing in ERROR, and a step's word outside its state is
refused (logs 26, 36). -/
def Obligations.StepRunsTheDecodedInstruction : Prop :=
  (∀ (s : State) (i : Instr), s.host = [] →
    decodeUop (BitVec.ofNat 16 (0x20 + (fsmCode s.state).toNat)) = .ok i →
    step s = countDraw (exec i s)) ∧
  (∀ (s : State) (w : BitVec 16) (v : Word) (rest : List HostEvent) (i : Instr),
    s.host = .uop w v :: rest → decodeUop w = .ok i →
    (w.toNat % 64 < 0x20 ∧ (s.state = .idle ∨ s.state = .dComplete ∨ s.state = .eDone)) ∨
      w = BitVec.ofNat 16 (0x20 + (fsmCode s.state).toNat) →
    step s = countDraw (exec i { s with host := rest, uop := { s.uop with opVal := v } })) ∧
  (∀ (s : State) (w : BitVec 16) (v : Word) (rest : List HostEvent) (i : Instr),
    s.host = .uop w v :: rest → decodeUop w = .ok i →
    (w.toNat % 64 < 0x20 → busy s = true → step s = .refused (.uopWhileBusy w)) ∧
    (w.toNat % 64 < 0x20 → s.state = .error → step s = countDraw (.next { s with host := rest })) ∧
    (0x20 ≤ w.toNat % 64 → w ≠ BitVec.ofNat 16 (0x20 + (fsmCode s.state).toNat) →
      step s = .refused (.stepOutOfState w))) ∧
  (∀ (s : State) (w : Word) (rest : List HostEvent), s.host = .regWrite s.cfg.regBase w :: rest →
    step s = countDraw (exec (decodeCtrl w) { s with host := rest })) ∧
  (∀ (s : State) (w : Word) (i : Instr), s.host = [] → s.state = .eWriteToken →
    s.tokenIn[s.enc.tin.toNat]? = some w → decodeToken w = .ok i → step s = countDraw (exec i s)) ∧
  (∀ s : State, countDraw (.next s) = .next { s with draws := s.draws + 1 })

/-- R8, R130: in the terminal states the engine takes no step, and an instance with nothing pending waits
for a host command. That this waiting is a step of the machine which changes nothing is the model's
reading (log 37). -/
def Obligations.TerminalStatesTakeNoStep : Prop :=
  ∀ s : State, s.state = .idle ∨ s.state = .dComplete ∨ s.state = .eDone ∨ s.state = .error →
    engineTurn s = .next s ∧ (s.host = [] → step s = .next s)

/-! ## Reset and the host commands -/

/-- R130: what power-on reset leaves, whatever the open parameters are; the engine waits. -/
def Obligations.ResetLeavesTheStatedValues : Prop :=
  ∀ c : Config,
    let s := State.resetWith c
    s.state = .idle ∧ s.ctrl = ⟨false, false⟩ ∧ ctrlValue s = 0#32 ∧ statusWord s = 0#32 ∧
    s.inLen = 0#32 ∧ outSize s = 0#32 ∧ s.tokenCount = 0#32 ∧ bitPos s = 0#32 ∧
    s.err = ⟨.none, 0#32, 0#32⟩ ∧ errCode s.err.code = 0#4 ∧
    s.cur = ⟨0#32, 0#64, 0#7, 0#32, 0#35⟩ ∧
    s.par = ⟨false, 0#2, 0#9, 0#6, 0#5, 0#5, List.replicate 19 0#3, List.replicate 320 0#4, 0#9, 0#16⟩ ∧
    s.bg = ⟨0#9, 0#3, 0#9, 0#16, 0#4⟩ ∧
    s.enc = ⟨0#32, 0#32, 0#9, 0#5, 0#3, 0#5, 0#13, 0#4, 0#5, 0#5, 0#4, 0#5, [], 0#9, false⟩ ∧
    s.pk = ⟨0#64, 0#7, 0#32, 0#32⟩ ∧
    (∀ sel : Sel, (slotOf sel s).valid = false ∧ (slotOf sel s).rw = 0#4 ∧
      (slotOf sel s).tsize = 0#12 ∧ (slotOf sel s).nused = 0#9) ∧
    (∀ a, memRead s.inMem a = none ∧ memRead s.outMem a = none ∧ memRead s.litlenLen a = none ∧
      memRead s.distLen a = none ∧ memRead s.metaLenMem a = none) ∧
    s.tokenOut = [] ∧ s.tokenIn = [] ∧ engineTurn s = .next s

/-- R131: a CTRL write with bit 3 set, in any state and whatever its other bits, sets everything of R130 to
its reset value; the parameters stay, and so do the model's own fields for the host, the consumer and the
free values (logs 2, 3, 30). -/
def Obligations.SoftResetRestoresTheResetState : Prop :=
  ∀ (s : State) (w : Word), w.getLsbD 3 = true →
    ∃ t, exec (decodeCtrl w) s = .next t ∧ exec .softReset s = .next t ∧
      t = { State.resetWith s.cfg with
        host := s.host, hostData := s.hostData, taken := s.taken, synced := t.synced, draws := s.draws }

/-- R132, R97: START from a terminal state, in both modes: what it writes, when a decode START is refused
or faults, and that it is ignored while a job runs. The model's readings: IS_LAST at a decode START
(log 10), `synced` (log 20), and that `in_bits` is latched (R24, log 11) and `is_last` cleared (R32, log 38)
at every START, while `acc`, `held` and `fetch` stay (log 41). -/
def Obligations.StartFollowsItsRule : Prop :=
  ∀ (s : State) (last : Bool),
    (terminal s.state = false →
      exec (.startDecode last) s = .next s ∧ exec (.startEncode last) s = .next s) ∧
    (terminal s.state = true →
      (s.cfg.inMemBytes < s.inLen.toNat → exec (.startDecode last) s = .refused .inputTooLong) ∧
      (s.inLen.toNat ≤ s.cfg.inMemBytes → ∀ a, a < s.inLen.toNat → memRead s.inMem a = none →
        (∀ b, b < a → (memRead s.inMem b).isSome = true) →
        exec (.startDecode last) s = .fault (.inputUnwritten a)) ∧
      (s.inLen.toNat ≤ s.cfg.inMemBytes → InputWritten s →
        ∃ t, exec (.startDecode last) s = .next t ∧
          t = { s with
            ctrl := ⟨false, last⟩, err := ⟨.none, 0, 0⟩, tokenCount := 0, pk := ⟨0, 0, 0, 0⟩
            cur := { s.cur with pos := 0, inBits := BitVec.ofNat 35 (8 * s.inLen.toNat) }
            enc := { s.enc with isLast := false }, tokenOut := [], synced := t.synced
            slots := ⟨{ s.slots.codeLen with valid := false }, { s.slots.litLen with valid := false },
              { s.slots.dist with valid := false }⟩
            state := .dHeader }) ∧
      ∃ t, exec (.startEncode last) s = .next t ∧
        t = { s with
          ctrl := ⟨true, last⟩, err := ⟨.none, 0, 0⟩, tokenCount := 0, pk := ⟨0, 0, 0, 0⟩
          cur := { s.cur with pos := 0, inBits := BitVec.ofNat 35 (8 * s.inLen.toNat) }
          tokenOut := [], synced := t.synced
          slots := ⟨{ s.slots.codeLen with valid := false }, { s.slots.litLen with valid := false },
            { s.slots.dist with valid := false }⟩
          enc := { s.enc with tin := 0, rq := [], rqi := 0, emi := 0, isLast := last }
          state := if s.inLen = 0#32 then .eFinalize else .eBuild })

/-- R10: SET_MODE writes MODE and IS_LAST, and is ignored entirely while BUSY is 1. -/
def Obligations.SetModeWritesModeAndIsLast : Prop :=
  ∀ (s : State) (m l : Bool),
    (terminal s.state = true → exec (.setMode m l) s = .next { s with ctrl := ⟨m, l⟩ }) ∧
    (terminal s.state = false → exec (.setMode m l) s = .next s)

/-- R10..R17, R19, R21, R46, R64: what the host and the consumer read. CTRL and IN_LEN are exact at any
time. STATUS gives its fields when no job runs, and such a read that shows the end of a job is the point
from which results are exact; while a job runs it shows BUSY alone, with FSM_STATE a free value (log 21).
The other registers and OUT_MEM below OUT_SIZE are exact when no job runs and that point is passed, and
free values otherwise (logs 20, 22); BIT_POS goes by the live MODE (log 39). Offsets 0x20..0xFFF read 0. A
read changes nothing but the host's data, and STATUS the point. The consumer removes the oldest word of
TOKEN_OUT (log 25). WAIT is such a read of STATUS, with a turn of the consumer and of the engine as long
as BUSY is 1 (log 3). -/
def Obligations.HostReadsGiveTheRegisters : Prop :=
  ∀ s : State,
    let gives (off : Nat) (v : Word) : Prop :=
      hostRegRead (s.cfg.regBase + off) s = .next { s with hostData := some v }
    (gives 0x00 (ctrlValue s) ∧ gives 0x08 s.inLen ∧ ∀ off, 0x20 ≤ off → off ≤ 0xFFF → gives off 0#32) ∧
    (busy s = false → hostRegRead (s.cfg.regBase + 0x04) s = .next { s with
      hostData := some (statusWord s), synced := s.synced || decide (s.state ≠ .idle) }) ∧
    (busy s = true → ∃ v : Word, gives 0x04 v ∧ v.extractLsb' 0 16 = 1#16 ∧ v.extractLsb' 21 11 = 0#11) ∧
    (busy s = false → s.synced = true →
      gives 0x0C s.pk.optr ∧ gives 0x10 s.tokenCount ∧
      gives 0x14 (if s.ctrl.mode then s.pk.ptotal else s.cur.pos) ∧
      gives 0x18 s.err.bitpos ∧ gives 0x1C s.err.info) ∧
    (busy s = true ∨ s.synced = false → ∀ off ∈ [0x0C, 0x10, 0x14, 0x18, 0x1C], ∃ v : Word, gives off v) ∧
    (∀ a, a < s.cfg.outMemBytes →
      (∃ b : Byte, hostOutMemRead a s = .next { s with hostData := some (b.setWidth 32) }) ∧
      ∀ b : Byte, busy s = false → s.synced = true → a < s.pk.optr.toNat → memRead s.outMem a = some b →
        hostOutMemRead a s = .next { s with hostData := some (b.setWidth 32) }) ∧
    (∀ a, s.cfg.outMemBytes ≤ a → hostOutMemRead a s = .fault (.addressOutside a)) ∧
    (∀ w rest, s.tokenOut = w :: rest →
      hostTurn .drain s = .next { s with tokenOut := rest, taken := s.taken ++ [w] }) ∧
    (s.tokenOut = [] → hostTurn .drain s = .next s) ∧
    (∀ ready : Bool,
      (busy s = false → hostTurn (.wait ready) s = hostRegRead (s.cfg.regBase + 0x04) s) ∧
      (busy s = true → ∃ v : Word, gives 0x04 v ∧ hostTurn (.wait ready) s = engineTurn { s with
        hostData := some v, host := .wait ready :: s.host
        tokenOut := if ready then s.tokenOut.tail else s.tokenOut
        taken := if ready then s.taken ++ s.tokenOut.take 1 else s.taken })) ∧
    (let v := statusWord s
     v.getLsbD 0 = busy s ∧ v.getLsbD 1 = done s ∧ v.getLsbD 2 = failed s ∧
     v.extractLsb' 3 5 = 0#5 ∧ v.extractLsb' 8 4 = (if s.state = .error then errCode s.err.code else 0#4) ∧
     v.extractLsb' 12 4 = 0#4 ∧ v.extractLsb' 16 5 = fsmCode s.state ∧ v.extractLsb' 21 11 = 0#11 ∧
     (v.extractLsb' 0 3 = 0#3 ↔ s.state = .idle)) ∧
    (let v := ctrlValue s
     v.getLsbD 0 = false ∧ v.getLsbD 1 = s.ctrl.mode ∧ v.getLsbD 2 = s.ctrl.isLast ∧
     v.extractLsb' 3 29 = 0#29)

/-- R12, R17, R18, R20, R23, R47: the host's data writes: refused while a job runs (IN_LEN ignored), stored
otherwise; a tree length out of range and a byte or half-word register access are refused; writes to
read-only registers and to offsets 0x20..0xFFF are ignored. R35: the host reaches entry `i` of a memory at
the address where the platform places it, and no entry anywhere else (the form of a placement, log 24). -/
def Obligations.HostWritesFollowTheirRules : Prop :=
  ∀ s : State,
    (busy s = true →
      (∀ a b, hostInMemWrite a b s = .refused .inputWriteWhileBusy) ∧
      (∀ t i v, hostTreeWrite t i v s = .refused .inputWriteWhileBusy) ∧
      (∀ ws, hostTokenInWrite ws s = .refused .inputWriteWhileBusy) ∧
      (∀ v, hostRegWrite (s.cfg.regBase + 0x08) v s = .next s)) ∧
    (busy s = false →
      (∀ a b, a < s.cfg.inMemBytes → ∃ m, hostInMemWrite a b s = .next { s with inMem := m } ∧
        ∀ x, memRead m x = if x = a then some b else memRead s.inMem x) ∧
      (∀ i (v : Word), i < 288 → v.toNat ≤ 15 →
        ∃ m, hostTreeWrite .litLen i v s = .next { s with litlenLen := m } ∧
          ∀ x, memRead m x = if x = i then some (v.setWidth 4) else memRead s.litlenLen x) ∧
      (∀ i (v : Word), i < 32 → v.toNat ≤ 15 →
        ∃ m, hostTreeWrite .dist i v s = .next { s with distLen := m } ∧
          ∀ x, memRead m x = if x = i then some (v.setWidth 4) else memRead s.distLen x) ∧
      (∀ i (v : Word), i < 19 → v.toNat ≤ 7 →
        ∃ m, hostTreeWrite .codeLen i v s = .next { s with metaLenMem := m } ∧
          ∀ x, memRead m x = if x = i then some (v.setWidth 3) else memRead s.metaLenMem x) ∧
      (∀ i (v : Word), (i < 288 → 15 < v.toNat → hostTreeWrite .litLen i v s = .refused .lengthOutOfRange) ∧
        (i < 32 → 15 < v.toNat → hostTreeWrite .dist i v s = .refused .lengthOutOfRange) ∧
        (i < 19 → 7 < v.toNat → hostTreeWrite .codeLen i v s = .refused .lengthOutOfRange)) ∧
      (∀ ws, hostTokenInWrite ws s = .next { s with tokenIn := ws }) ∧
      (∀ v, hostRegWrite (s.cfg.regBase + 0x08) v s = .next { s with inLen := v })) ∧
    (∀ off ∈ [0x04, 0x0C, 0x10, 0x14, 0x18, 0x1C], ∀ v,
      hostRegWrite (s.cfg.regBase + off) v s = .next s) ∧
    (∀ off, 0x20 ≤ off → off ≤ 0xFFF → ∀ v, hostRegWrite (s.cfg.regBase + off) v s = .next s) ∧
    (∀ off, off ≤ 0xFFF → hostRegNarrow (s.cfg.regBase + off) s = .refused .narrowRegisterAccess) ∧
    (let reaches (p : Placement) (event : Nat → HostEvent) (access : Nat → Out) : Prop :=
      (1 ≤ p.stride → ∀ i, hostTurn (event (p.base + i * p.stride)) s = access i) ∧
      ∀ addr, (∀ i, addr ≠ p.base + i * p.stride) → hostTurn (event addr) s = .fault (.addressOutside addr)
     (∀ b, reaches s.cfg.inMemAt (fun x => .inMemWrite x b) (fun i => hostInMemWrite i b s)) ∧
     (∀ v, reaches s.cfg.litlenAt (fun x => .treeWrite .litLen x v) (fun i => hostTreeWrite .litLen i v s)) ∧
     (∀ v, reaches s.cfg.distAt (fun x => .treeWrite .dist x v) (fun i => hostTreeWrite .dist i v s)) ∧
     (∀ v, reaches s.cfg.metaLenAt (fun x => .treeWrite .codeLen x v)
       (fun i => hostTreeWrite .codeLen i v s)) ∧
     reaches s.cfg.outMemAt .outMemRead (fun i => hostOutMemRead i s))

/-! ## Memory -/

/-- Every step keeps every memory in its canonical form (R18..R20; the model's form of memory). -/
def Obligations.EveryStepKeepsMemoriesCanonical : Prop :=
  ∀ s t : State, MemInv s → step s = .next t → MemInv t

/-- R44, R113, R115: whatever the operation, the engine stores only at OUT_MEM[optr ..], and `optr` moves
past the bytes stored: every other address reads as before. -/
def Obligations.EngineStoresOnlyAtTheOutputPointer : Prop :=
  ∀ (i : Instr) (s t : State), i.isCommand = false → s.cfg.outMemBytes < 2 ^ 32 → exec i s = .next t →
    s.pk.optr.toNat ≤ t.pk.optr.toNat ∧
    ∀ a, a < s.pk.optr.toNat ∨ t.pk.optr.toNat ≤ a → memRead t.outMem a = memRead s.outMem a

/-! ## Invariants -/

/-- R24, R43: from every state in which it holds, every step keeps the decoder's invariant: after
D_HEADER, `pos + held = 8 * fetch`, `fetch <= IN_LEN`, and the accumulator holds the next stream bits. -/
def Obligations.EveryStepKeepsTheCursorInvariant : Prop :=
  ∀ s t : State, DecoderInv s → step s = .next t → DecoderInv t

/-- R30, R113: from every state in which it holds, every step keeps the packer's invariant: less than a
word is held between two operations, unless the job has failed. -/
def Obligations.EveryStepKeepsThePackerInvariant : Prop :=
  ∀ s t : State, PackerInv s → step s = .next t → PackerInv t

/-- R21, R134: from every state in which it holds, every step keeps at most TOKEN_OUT_DEPTH words in
TOKEN_OUT. -/
def Obligations.EveryStepKeepsTheQueueBounded : Prop :=
  ∀ s t : State, QueueInv s → step s = .next t → QueueInv t

/-- R25, R83, R84, R86: from every state in which it holds, every step keeps the parser's ranges: the
counts, and the indexes inside `meta_len` and `cl`. -/
def Obligations.EveryStepKeepsTheParserRanges : Prop :=
  ∀ s t : State, ParserInv s → step s = .next t → ParserInv t

/-- The invariants hold right after reset, for every choice of the open parameters that R2 allows. -/
def Obligations.InvariantsHoldAtReset : Prop :=
  ∀ c : Config, c.wf = true →
    DecoderInv (State.resetWith c) ∧ PackerInv (State.resetWith c) ∧ QueueInv (State.resetWith c) ∧
    MemInv (State.resetWith c) ∧ ParserInv (State.resetWith c)

/-! ## Whole-machine rules -/

/-- R8, R9: the engine moves only along the state sequences of the document, or to ERROR. -/
def Obligations.EngineFollowsTheStateSequence : Prop :=
  ∀ s t : State, engineTurn s = .next t → t.state = .error ∨ t.state ∈ successors s.state

/-- R22, R118: the engine never withdraws a token, and a step that ends in an error appends none. -/
def Obligations.TokensAreNeverWithdrawn : Prop :=
  ∀ s t : State, engineTurn s = .next t →
    s.tokenOut <+: t.tokenOut ∧ (t.state = .error → t.tokenOut = s.tokenOut)

/-- R31, R117, R123, R132: the error registers are written only by `raise`, which stops a running job, or a
primitive issued by itself (log 4), in ERROR, and cleared only by the host's write of START to CTRL with no
job running, or of SOFT_RESET; in ERROR nothing else changes them. -/
def Obligations.ErrorRegistersChangeOnlyByRaiseOrStart : Prop :=
  ∀ s t : State, step s = .next t → t.err ≠ s.err →
    (s.state ≠ .error ∧ t.state = .error ∧ (busy s = true ∨ ∃ w v rest, s.host = .uop w v :: rest)) ∨
    (t.err = ⟨.none, 0, 0⟩ ∧ t.state ≠ .error ∧ ∃ w rest, s.host = .regWrite s.cfg.regBase w :: rest ∧
      (w.getLsbD 3 = true ∨ (w.getLsbD 0 = true ∧ busy s = false)))

/-- R35, R43, R47: the frame of every operation of the engine. None changes the parameters, CTRL, IN_LEN or
an input memory; the decoder's side leaves the output memory, the encoder and the packer alone; the
encoder's side leaves the cursor, the parser, ByteGen and TOKEN_OUT alone. -/
def Obligations.EngineOperationsKeepTheirFrame : Prop :=
  ∀ (i : Instr) (s t : State), i.isCommand = false → exec i s = .next t →
    EngineFrame s t ∧
    (i.isDecoder = true → t.outMem = s.outMem ∧ t.enc = s.enc ∧ t.pk = s.pk) ∧
    (i.isEncoder = true → t.cur = s.cur ∧ t.par = s.par ∧ t.bg = s.bg ∧ t.tokenOut = s.tokenOut)

/-- R88, R117: D_STATIC raises UnsupportedBlockType: the error registers and `state` are written, and
nothing else. -/
def Obligations.StaticBlockRaisesUnsupported : Prop :=
  ∀ s : State, exec .dStatic s = .next { s with
    err := ⟨.unsupportedBlockType, if s.ctrl.mode then s.pk.ptotal else s.cur.pos,
      s.par.btype.setWidth 32⟩
    state := .error }

/-! ## The bit cursor -/

/-- R74: PEEK returns the next `n` stream bits, those past the end as 0, and does not move `pos`; the
value goes to the model's result register (log 4). -/
def Obligations.PeekReturnsTheNextBits : Prop :=
  ∀ (s : State) (n : BitVec 6), n.toNat ≤ 32 →
    ∃ c : Cursor, c.pos = s.cur.pos ∧ c.inBits = s.cur.inBits ∧
      exec (.peek n) s = .next { s with
        cur := c
        uop := { s.uop with resVal := BitVec.ofNat 32 (paddedFieldAt s s.cur.pos.toNat n.toNat) } }

/-- R75: CONSUME refills, then drops `n` bits of the accumulator and moves `pos` by `n` when `n` bits are
left, and otherwise raises UnexpectedEof(n) with `pos` unchanged. -/
def Obligations.ConsumeAdvancesOrRaises : Prop :=
  ∀ (s : State) (n : BitVec 6), n.toNat ≤ 32 → PosFits s →
    ∃ r, exec .refill s = .next r ∧ r.cur.pos = s.cur.pos ∧
      (HasBits s n.toNat → ∃ t, exec (.consume n) s = .next t ∧ CursorMoved s t n.toNat ∧
        t = { s with
          cur := ⟨t.cur.pos, r.cur.acc >>> n.toNat, r.cur.held - n.setWidth 7, r.cur.fetch, s.cur.inBits⟩ }) ∧
      (¬HasBits s n.toNat → exec (.consume n) s = .next { s with
        cur := r.cur, err := ⟨.unexpectedEof, bitPos s, n.setWidth 32⟩, state := .error })

/-- R76, R37: READ returns the field of the next `n` bits and consumes them, or raises UnexpectedEof(n)
with nothing changed; the value goes to the model's result register (log 4). -/
def Obligations.ReadReturnsTheFieldOrRaises : Prop :=
  ∀ (s : State) (n : BitVec 6), n.toNat ≤ 32 → PosFits s →
    (HasBits s n.toNat → ∃ t, exec (.read n) s = .next t ∧ CursorMoved s t n.toNat ∧
      t = { s with
        cur := t.cur
        uop := { s.uop with resVal := BitVec.ofNat 32 (fieldAt s s.cur.pos.toNat n.toNat) } }) ∧
    (¬HasBits s n.toNat → exec (.read n) s = .next { s with
      err := ⟨.unexpectedEof, bitPos s, n.setWidth 32⟩, state := .error })

/-- R77: ALIGN drops `held mod 8` bits and changes nothing but the cursor; where R24's invariant holds, that
moves `pos` up to the next multiple of 8 and keeps the invariant. That it drops `held mod 8` bits where the
invariant fails too is the model's choice (log 41). -/
def Obligations.AlignRoundsUpToAByte : Prop :=
  ∀ s : State,
    let d := s.cur.held.toNat % 8
    ∃ t, exec .align s = .next t ∧
      t = { s with cur := { s.cur with
        pos := s.cur.pos + BitVec.ofNat 32 d, acc := s.cur.acc >>> d
        held := s.cur.held - BitVec.ofNat 7 d } } ∧
      (CursorOk s → t.cur.pos.toNat = (s.cur.pos.toNat + 7) / 8 * 8 ∧
        t.cur.pos.toNat ≤ s.cur.inBits.toNat ∧ CursorOk t)

/-- R73: REFILL leaves `pos`, and tops the accumulator up to the threshold or to the end of the input. -/
def Obligations.RefillTopsUpTheAccumulator : Prop :=
  ∀ s : State, ∃ t, exec .refill s = .next t ∧ t = { s with cur := t.cur } ∧ CursorMoved s t 0 ∧
    (CursorOk s → CursorOk t ∧ (32 ≤ t.cur.held.toNat ∨ t.cur.fetch.toNat = s.inLen.toNat) ∧
      (s.cur.held.toNat ≤ 47 → t.cur.held.toNat ≤ 47))

/-- R34, R74: after a refill the low `n` bits of the accumulator are the value PEEK gives, bits past the
end of the input as 0. -/
def Obligations.AccumulatorHoldsThePeekedBits : Prop :=
  ∀ (s t : State) (n : Nat), CursorOk s → n ≤ 32 → exec .refill s = .next t →
    t.cur.acc.toNat % 2 ^ n = paddedFieldAt s s.cur.pos.toNat n

/-! ## The table builder -/

/-- R66, R68, R69, R70, R71: BUILD refuses a length array that is not complete, with no write but the error's,
and for a complete one writes the slot as R71 says, the decode table of R69 with the entries of R68 in it,
and nothing else. The
array is the one the calling state supplies: that of R85 or R87 in decode mode, of R99 in encode mode
(log 5), where an entry that was never written faults (log 35). -/
def Obligations.BuildChecksAndFillsTheSlot : Prop :=
  (∀ (sel : Sel) (s : State) (lens : List Nat), buildArray sel s = some lens →
    (2 ^ 15 < kraftSum lens → exec (.build sel) s = .next { s with
      err := ⟨.treeOversubscribed, bitPos s, BitVec.ofNat 32 (selNat sel)⟩, state := .error }) ∧
    (kraftSum lens < 2 ^ 15 → exec (.build sel) s = .next { s with
      err := ⟨.treeIncomplete, bitPos s, BitVec.ofNat 32 (selNat sel)⟩, state := .error }) ∧
    (kraftSum lens = 2 ^ 15 → LengthArray sel lens →
      ∃ x : Slot, Built sel lens x ∧ exec (.build sel) s = .next (setSlot sel x s))) ∧
  (∀ s : State, s.ctrl.mode = false → s.par.metaLen.length = 19 → s.par.cl.length = 320 →
    s.par.hlit.toNat ≤ 288 → s.par.hdist.toNat ≤ 32 →
    buildArray .codeLen s = some (s.par.metaLen.map BitVec.toNat) ∧
    buildArray .litLen s = some ((List.range 288).map fun y =>
      if y < s.par.hlit.toNat then (s.par.cl.getD y 0).toNat else 0) ∧
    buildArray .dist s = some ((List.range 32).map fun y =>
      if y < s.par.hdist.toNat then (s.par.cl.getD (s.par.hlit.toNat + y) 0).toNat else 0)) ∧
  (∀ (s : State) (lens : List Nat), s.ctrl.mode = true →
    (lens.length = 19 → TreeHolds s.metaLenMem lens → buildArray .codeLen s = some lens) ∧
    (lens.length = 288 → TreeHolds s.litlenLen lens → buildArray .litLen s = some lens) ∧
    (lens.length = 32 → TreeHolds s.distLen lens → buildArray .dist s = some lens)) ∧
  (∀ s : State, s.ctrl.mode = true →
    ((∃ y, y < 19 ∧ memRead s.metaLenMem y = none) →
      exec (.build .codeLen) s = .fault (.treeUnwritten .codeLen)) ∧
    ((∃ y, y < 288 ∧ memRead s.litlenLen y = none) →
      exec (.build .litLen) s = .fault (.treeUnwritten .litLen)) ∧
    ((∃ y, y < 32 ∧ memRead s.distLen y = none) →
      exec (.build .dist) s = .fault (.treeUnwritten .dist))) ∧
  (∀ (sel : Sel) (s : State), buildArray sel s = none → exec (.build sel) s = .fault (.treeUnwritten sel))

/-- R67: a symbol's canonical code is the first code of its length plus the number of earlier symbols of
that length, and the first codes follow `code[l+1] = (code[l] + count[l]) << 1` from 0. -/
def Obligations.CanonicalCodesAreConsecutive : Prop :=
  ∀ lens : List Nat, (∀ l ∈ lens, l ≤ 15) →
    firstCode lens 1 = 0 ∧
    (∀ l, 1 ≤ l → firstCode lens (l + 1) = (firstCode lens l + countLen lens l) * 2) ∧
    ∀ y l, lens[y]? = some l → l ≠ 0 →
      (canonCodes lens)[y]? = some (firstCode lens l + countLen (lens.take y) l)

/-- R67: the canonical codes of a complete array fit their lengths and are prefix-free. -/
def Obligations.CanonicalCodesArePrefixFree : Prop :=
  ∀ lens : List Nat, (∀ l ∈ lens, l ≤ 15) → kraftSum lens = 2 ^ 15 →
    ∀ a b la lb ca cb : Nat, lens[a]? = some la → lens[b]? = some lb → la ≠ 0 → la ≤ lb → a ≠ b →
      (canonCodes lens)[a]? = some ca → (canonCodes lens)[b]? = some cb →
      ca < 2 ^ la ∧ cb < 2 ^ lb ∧ cb >>> (lb - la) ≠ ca

/-- R72: DECODESYM consumes the length of the entry its table selects, directly or through a link, and
returns that entry; it raises UnexpectedEof when the code runs past the end. The entry goes to the
model's result register (log 4). -/
def Obligations.DecodesymFollowsTheTable : Prop :=
  ∀ (sel : Sel) (s : State) (e : Entry), Selects sel s e → PosFits s →
    (HasBits s e.len.toNat → ∃ t, exec (.decodesym sel) s = .next t ∧ CursorMoved s t e.len.toNat ∧
      t = { s with cur := t.cur, uop := { s.uop with resEntry := e } }) ∧
    (¬HasBits s e.len.toNat → ∃ t, exec (.decodesym sel) s = .next t ∧ CursorMoved s t 0 ∧
      t = { s with
        cur := t.cur, err := ⟨.unexpectedEof, bitPos s, e.len.setWidth 32⟩, state := .error })

/-- R69, R72, R38, R68: after a BUILD of a complete length array, DECODESYM on a stream whose next bits are
the canonical code of a symbol, most significant bit first, returns the entry that R68 gives that symbol,
with the extra bits and bases of R57, R59 and R60, and consumes exactly the code. -/
def Obligations.DecodesymFindsTheCode : Prop :=
  ∀ (sel : Sel) (s0 s : State) (lens : List Nat) (y l c : Nat),
    buildArray sel s0 = some lens → LengthArray sel lens → kraftSum lens = 2 ^ 15 →
    exec (.build sel) s0 = .next s → PosFits s → HasBits s l →
    lens[y]? = some l → l ≠ 0 → (canonCodes lens)[y]? = some c →
    fieldAt s s.cur.pos.toNat l = revBits l c →
    ∃ t, exec (.decodesym sel) s = .next t ∧ CursorMoved s t l ∧ IsSymEntry sel y l t.uop.resEntry ∧
      t = { s with cur := t.cur, uop := { s.uop with resEntry := t.uop.resEntry } }

/-! ## The block parser -/

/-- R79: D_HEADER initialises the cursor, clears the valid bits and the block header, and reads no bits. -/
def Obligations.HeaderInitialisesTheCursor : Prop :=
  ∀ s : State, exec .dHeader s = .next { s with
    cur := ⟨0, 0, 0, 0, BitVec.ofNat 35 (8 * s.inLen.toNat)⟩
    slots := ⟨{ s.slots.codeLen with valid := false }, { s.slots.litLen with valid := false },
      { s.slots.dist with valid := false }⟩
    par := { s.par with bfinal := false, btype := 0 }
    state := .dPreamble }

/-- R80: D_PREAMBLE reads the final bit and the two type bits, clears the valid bits of slots 1 and 2, and
goes to the state of the block type; UnexpectedEof when a bit is missing, with the first read's effect
kept. -/
def Obligations.PreambleReadsTheBlockHeader : Prop :=
  ∀ s : State, PosFits s →
    let f := fieldAt s s.cur.pos.toNat 1
    let b := fieldAt s (s.cur.pos.toNat + 1) 2
    (HasBits s 3 → ∃ t, exec .dPreamble s = .next t ∧ CursorMoved s t 3 ∧
      t = { s with
        cur := t.cur
        par := { s.par with bfinal := decide (f = 1), btype := BitVec.ofNat 2 b }
        slots := ⟨s.slots.codeLen, { s.slots.litLen with valid := false },
          { s.slots.dist with valid := false }⟩
        state := if b = 0 then .dStoredHdr else if b = 2 then .dDynCounts else .dStatic }) ∧
    (¬HasBits s 1 → exec .dPreamble s = .next { s with
      err := ⟨.unexpectedEof, bitPos s, 1⟩, state := .error }) ∧
    (HasBits s 1 → ¬HasBits s 3 → ∃ t, exec .dPreamble s = .next t ∧ CursorMoved s t 1 ∧
      t = { s with
        cur := t.cur, par := { s.par with bfinal := decide (f = 1) }
        err := ⟨.unexpectedEof, if s.ctrl.mode then s.pk.ptotal else t.cur.pos, 2⟩, state := .error })

/-- R81, R78, R134: D_STORED_HDR aligns, reads the length and its complement, and goes to the copy, or to
the end of the block when the length is 0 (with END in the queue when the block is final); a wrong
complement raises StoredLengthMismatch, and a missing word UnexpectedEof(16). -/
def Obligations.StoredHeaderReadsTheLength : Prop :=
  ∀ s : State, CursorOk s →
    let p := (s.cur.pos.toNat + 7) / 8 * 8
    let len := fieldAt s p 16
    let nlen := fieldAt s (p + 16) 16
    let fails (t : State) (e : Err) (info : Word) : Prop :=
      t = { s with
        cur := t.cur, err := ⟨e, if s.ctrl.mode then s.pk.ptotal else t.cur.pos, info⟩, state := .error }
    (s.cur.inBits.toNat < p + 16 → ∃ t, exec .dStoredHdr s = .next t ∧ t.cur.pos.toNat = p ∧
      fails t .unexpectedEof 16) ∧
    (p + 16 ≤ s.cur.inBits.toNat → s.cur.inBits.toNat < p + 32 →
      ∃ t, exec .dStoredHdr s = .next t ∧ t.cur.pos.toNat = p + 16 ∧ fails t .unexpectedEof 16) ∧
    (p + 32 ≤ s.cur.inBits.toNat → nlen = len ^^^ 0xFFFF →
      (len ≠ 0 → ∃ t, exec .dStoredHdr s = .next t ∧ t.cur.pos.toNat = p + 32 ∧
        t = { s with
          cur := t.cur, par := { s.par with storedRem := BitVec.ofNat 16 len }, state := .dStoredCopy }) ∧
      (len = 0 → s.par.bfinal = false → ∃ t, exec .dStoredHdr s = .next t ∧ t.cur.pos.toNat = p + 32 ∧
        t = { s with cur := t.cur, par := { s.par with storedRem := 0 }, state := .dPreamble }) ∧
      (len = 0 → s.par.bfinal = true → s.tokenOut.length + 1 ≤ s.cfg.tokenOutDepth →
        ∃ t, exec .dStoredHdr s = .next t ∧ t.cur.pos.toNat = p + 32 ∧
          t = { s with
            cur := t.cur, par := { s.par with storedRem := 0 }
            tokenOut := s.tokenOut ++ [endWord], state := .dComplete })) ∧
    (p + 32 ≤ s.cur.inBits.toNat → nlen ≠ len ^^^ 0xFFFF →
      ∃ t, exec .dStoredHdr s = .next t ∧ t.cur.pos.toNat = p + 32 ∧
        fails t .storedLengthMismatch (BitVec.ofNat 32 (nlen * 2 ^ 16 + len)))

/-- R82, R78, R134: D_STORED_COPY passes one byte through as a literal; the last byte of a block ends it,
and the last byte of a final block also appends END, which is not counted; a missing byte raises
UnexpectedEof(8) and emits nothing. -/
def Obligations.StoredCopyPassesOneByte : Prop :=
  ∀ s : State, PosFits s →
    let b := BitVec.ofNat 8 (fieldAt s s.cur.pos.toNat 8)
    (¬HasBits s 8 → exec .dStoredCopy s = .next { s with
      err := ⟨.unexpectedEof, bitPos s, 8⟩, state := .error }) ∧
    (HasBits s 8 → s.par.storedRem ≠ 1 → s.tokenOut.length + 1 ≤ s.cfg.tokenOutDepth →
      ∃ t, exec .dStoredCopy s = .next t ∧ CursorMoved s t 8 ∧
        t = { s with
          cur := t.cur, par := { s.par with storedRem := s.par.storedRem - 1 }
          tokenOut := s.tokenOut ++ [literalWord b], tokenCount := s.tokenCount + 1 }) ∧
    (HasBits s 8 → s.par.storedRem = 1 → s.par.bfinal = false → s.tokenOut.length + 1 ≤ s.cfg.tokenOutDepth →
      ∃ t, exec .dStoredCopy s = .next t ∧ CursorMoved s t 8 ∧
        t = { s with
          cur := t.cur, par := { s.par with storedRem := 0 }
          tokenOut := s.tokenOut ++ [literalWord b], tokenCount := s.tokenCount + 1
          state := .dPreamble }) ∧
    (HasBits s 8 → s.par.storedRem = 1 → s.par.bfinal = true → s.tokenOut.length + 2 ≤ s.cfg.tokenOutDepth →
      ∃ t, exec .dStoredCopy s = .next t ∧ CursorMoved s t 8 ∧
        t = { s with
          cur := t.cur, par := { s.par with storedRem := 0 }
          tokenOut := s.tokenOut ++ [literalWord b, endWord], tokenCount := s.tokenCount + 1
          state := .dComplete })

/-- R83: D_DYN_COUNTS reads HLIT, HDIST and HCLEN and clears the meta lengths; with bits missing the reads
before the failing one keep their effect. -/
def Obligations.DynCountsReadsThreeCounts : Prop :=
  ∀ s : State, PosFits s →
    let p := s.cur.pos.toNat
    let hlit := BitVec.ofNat 9 (fieldAt s p 5 + 257)
    let hdist := BitVec.ofNat 6 (fieldAt s (p + 5) 5 + 1)
    let fails (t : State) (info : Word) : ErrRegs :=
      ⟨.unexpectedEof, if s.ctrl.mode then s.pk.ptotal else t.cur.pos, info⟩
    (HasBits s 14 → ∃ t, exec .dDynCounts s = .next t ∧ CursorMoved s t 14 ∧
      t = { s with
        cur := t.cur
        par := { s.par with
          hlit := hlit
          hdist := hdist
          hclen := BitVec.ofNat 5 (fieldAt s (p + 10) 4 + 4)
          metaLen := List.replicate 19 0
          mi := 0 }
        state := .dDynMetalen }) ∧
    (¬HasBits s 5 → exec .dDynCounts s = .next { s with err := fails s 5, state := .error }) ∧
    (HasBits s 5 → ¬HasBits s 10 → ∃ t, exec .dDynCounts s = .next t ∧ CursorMoved s t 5 ∧
      t = { s with
        cur := t.cur, par := { s.par with hlit := hlit }, err := fails t 5, state := .error }) ∧
    (HasBits s 10 → ¬HasBits s 14 → ∃ t, exec .dDynCounts s = .next t ∧ CursorMoved s t 10 ∧
      t = { s with
        cur := t.cur, par := { s.par with hlit := hlit, hdist := hdist }, err := fails t 4
        state := .error })

/-- R84, R56: D_DYN_METALEN reads the meta length of symbol PERM[mi] and moves `mi` on, to the build of the
meta table after the last one; with bits missing it raises UnexpectedEof(3). -/
def Obligations.DynMetalenReadsOneLength : Prop :=
  ∀ (s : State) (k : Nat), PosFits s → metaOrder[s.par.mi.toNat]? = some k →
    (HasBits s 3 → ∃ t, exec .dDynMetalen s = .next t ∧ CursorMoved s t 3 ∧
      t = { s with
        cur := t.cur
        par := { s.par with
          metaLen := s.par.metaLen.set k (BitVec.ofNat 3 (fieldAt s s.cur.pos.toNat 3))
          mi := s.par.mi + 1 }
        state := if s.par.mi + 1 = s.par.hclen then .dDynMetabuild else s.state }) ∧
    (¬HasBits s 3 → exec .dDynMetalen s = .next { s with
      err := ⟨.unexpectedEof, bitPos s, 3⟩, state := .error })

/-- R85, R87, R71, R69: D_DYN_METABUILD builds slot 0 from the meta lengths, D_DYN_TABLEBUILD slots 1 and 2
from the split length array, each with the decode table that DECODESYM reads; an array that is not complete raises its tree error, the literal/length table
first. -/
def Obligations.DynamicTablesAreBuilt : Prop :=
  ∀ s : State, s.par.metaLen.length = 19 → s.par.cl.length = 320 → s.par.hlit.toNat ≤ 288 →
    s.par.hdist.toNat ≤ 32 →
    let mm := s.par.metaLen.map BitVec.toNat
    let ll := (List.range 288).map fun y =>
      if y < s.par.hlit.toNat then (s.par.cl.getD y 0).toNat else 0
    let dd := (List.range 32).map fun y =>
      if y < s.par.hdist.toNat then (s.par.cl.getD (s.par.hlit.toNat + y) 0).toNat else 0
    let fails (e : Err) (sel : Nat) (t : State) : State :=
      { t with err := ⟨e, bitPos s, BitVec.ofNat 32 sel⟩, state := .error }
    (kraftSum mm < 2 ^ 15 → exec .dDynMetabuild s = .next (fails .treeIncomplete 0 s)) ∧
    (2 ^ 15 < kraftSum mm → exec .dDynMetabuild s = .next (fails .treeOversubscribed 0 s)) ∧
    (kraftSum mm = 2 ^ 15 → ∃ x, Built .codeLen mm x ∧ exec .dDynMetabuild s = .next { s with
      slots := { s.slots with codeLen := x }, par := { s.par with ci := 0 }, state := .dDynCodelen }) ∧
    (kraftSum ll < 2 ^ 15 → exec .dDynTablebuild s = .next (fails .treeIncomplete 1 s)) ∧
    (2 ^ 15 < kraftSum ll → exec .dDynTablebuild s = .next (fails .treeOversubscribed 1 s)) ∧
    (kraftSum ll = 2 ^ 15 → ∃ x, Built .litLen ll x ∧
      (kraftSum dd < 2 ^ 15 → exec .dDynTablebuild s = .next
        (fails .treeIncomplete 2 { s with slots := { s.slots with litLen := x } })) ∧
      (2 ^ 15 < kraftSum dd → exec .dDynTablebuild s = .next
        (fails .treeOversubscribed 2 { s with slots := { s.slots with litLen := x } })) ∧
      (kraftSum dd = 2 ^ 15 → ∃ z, Built .dist dd z ∧ exec .dDynTablebuild s = .next { s with
        slots := ⟨s.slots.codeLen, x, z⟩, state := .dBgLiteral }))

/-- R86, R57: D_DYN_CODELEN decodes one meta symbol and writes the code lengths it stands for; a 16 with
nothing before it and a repeat past `hlit + hdist` raise RleProtocolError, missing bits UnexpectedEof. -/
def Obligations.DynCodelenExpandsOneSymbol : Prop :=
  ∀ (s : State) (e : Entry), Selects .codeLen s e → PosFits s →
    s.par.cl.length = 320 → s.par.hlit.toNat ≤ 288 → s.par.hdist.toNat ≤ 32 →
    s.par.ci.toNat < s.par.hlit.toNat + s.par.hdist.toNat →
    let y := e.base.toNat
    let p := s.cur.pos.toNat + e.len.toNat
    let total := s.par.hlit.toNat + s.par.hdist.toNat
    let written (t : State) (n : Nat) (v : BitVec 4) (r : Nat) : Prop :=
      CursorMoved s t n ∧
      (∀ j, t.par.cl[j]? = if s.par.ci.toNat ≤ j ∧ j < s.par.ci.toNat + r then some v
        else s.par.cl[j]?) ∧
      t.par.ci.toNat = s.par.ci.toNat + r ∧
      t = { s with
        cur := t.cur, par := { s.par with cl := t.par.cl, ci := t.par.ci }
        state := if s.par.ci.toNat + r = total then .dDynTablebuild else s.state }
    let fails (t : State) (n : Nat) (x : Err) (info : Nat) : Prop :=
      CursorMoved s t n ∧
      t = { s with
        cur := t.cur
        err := ⟨x, if s.ctrl.mode then s.pk.ptotal else t.cur.pos, BitVec.ofNat 32 info⟩
        state := .error }
    (¬HasBits s e.len.toNat →
      ∃ t, exec .dDynCodelen s = .next t ∧ fails t 0 .unexpectedEof e.len.toNat) ∧
    (HasBits s e.len.toNat → y ≤ 15 → ∃ t, exec .dDynCodelen s = .next t ∧ written t e.len.toNat (BitVec.ofNat 4 y) 1) ∧
    (HasBits s e.len.toNat → y = 16 → s.par.ci = 0 →
      ∃ t, exec .dDynCodelen s = .next t ∧ fails t e.len.toNat .rleProtocolError 0) ∧
    (∀ n low, (y = 16 ∧ s.par.ci ≠ 0 ∧ n = 2 ∧ low = 3) ∨ (y = 17 ∧ n = 3 ∧ low = 3) ∨
        (y = 18 ∧ n = 7 ∧ low = 11) →
      (HasBits s e.len.toNat → ¬HasBits s (e.len.toNat + n) →
        ∃ t, exec .dDynCodelen s = .next t ∧ fails t e.len.toNat .unexpectedEof n) ∧
      let r := low + fieldAt s p n
      let v := if y = 16 then s.par.cl.getD (s.par.ci.toNat - 1) 0 else 0
      (HasBits s (e.len.toNat + n) → s.par.ci.toNat + r ≤ total →
        ∃ t, exec .dDynCodelen s = .next t ∧ written t (e.len.toNat + n) v r) ∧
      (HasBits s (e.len.toNat + n) → total < s.par.ci.toNat + r →
        ∃ t, exec .dDynCodelen s = .next t ∧
          fails t (e.len.toNat + n) .rleProtocolError (0x10000 + s.par.ci.toNat)))

/-! ## ByteGen -/

/-- R90, R78, R134: D_BG_LITERAL on each kind of entry; a kind its table never holds is an invalid code
(log 15), and a code that runs past the end raises UnexpectedEof. -/
def Obligations.LiteralStageFollowsTheEntry : Prop :=
  ∀ (s : State) (e : Entry), Selects .litLen s e → PosFits s →
    let fails (t : State) (n : Nat) (x : Err) (info : Word) : Prop :=
      CursorMoved s t n ∧
      t = { s with
        cur := t.cur, err := ⟨x, if s.ctrl.mode then s.pk.ptotal else t.cur.pos, info⟩, state := .error }
    (¬HasBits s e.len.toNat →
      ∃ t, exec .dBgLiteral s = .next t ∧ fails t 0 .unexpectedEof (e.len.setWidth 32)) ∧
    (HasBits s e.len.toNat → e.kind = .literal → s.tokenOut.length + 1 ≤ s.cfg.tokenOutDepth →
      ∃ t, exec .dBgLiteral s = .next t ∧ CursorMoved s t e.len.toNat ∧
        t = { s with
          cur := t.cur, tokenOut := s.tokenOut ++ [literalWord (e.base.setWidth 8)]
          tokenCount := s.tokenCount + 1 }) ∧
    (HasBits s e.len.toNat → e.kind = .length → ∃ t, exec .dBgLiteral s = .next t ∧ CursorMoved s t e.len.toNat ∧
      t = { s with
        cur := t.cur, bg := { s.bg with lbase := e.base.setWidth 9, lext := e.extra.setWidth 3 }
        state := .dBgMlen }) ∧
    (HasBits s e.len.toNat → e.kind = .endOfBlock → s.par.bfinal = false →
      ∃ t, exec .dBgLiteral s = .next t ∧ CursorMoved s t e.len.toNat ∧
        t = { s with cur := t.cur, state := .dPreamble }) ∧
    (HasBits s e.len.toNat → e.kind = .endOfBlock → s.par.bfinal = true → s.tokenOut.length + 1 ≤ s.cfg.tokenOutDepth →
      ∃ t, exec .dBgLiteral s = .next t ∧ CursorMoved s t e.len.toNat ∧
        t = { s with cur := t.cur, tokenOut := s.tokenOut ++ [endWord], state := .dComplete }) ∧
    (HasBits s e.len.toNat → e.kind = .invalid ∨ e.kind = .distance ∨ e.kind = .linkToSubtable →
      ∃ t, exec .dBgLiteral s = .next t ∧ fails t e.len.toNat .invalidCode (e.base.setWidth 32))

/-- R91, R92: D_BG_MLEN adds the length's extra bits; D_BG_MDIST takes the distance class, or raises
InvalidCode on any other kind (on those its table never holds, log 15); missing bits raise UnexpectedEof. -/
def Obligations.LengthAndDistanceStages : Prop :=
  ∀ s : State, PosFits s →
    (HasBits s s.bg.lext.toNat → ∃ t, exec .dBgMlen s = .next t ∧ CursorMoved s t s.bg.lext.toNat ∧
      t = { s with
        cur := t.cur
        bg := { s.bg with
          mlen := s.bg.lbase + BitVec.ofNat 9 (fieldAt s s.cur.pos.toNat s.bg.lext.toNat) }
        state := .dBgMdist }) ∧
    (¬HasBits s s.bg.lext.toNat → exec .dBgMlen s = .next { s with
      err := ⟨.unexpectedEof, bitPos s, s.bg.lext.setWidth 32⟩, state := .error }) ∧
    (∀ e : Entry, Selects .dist s e →
      let fails (t : State) (n : Nat) (x : Err) (info : Word) : Prop :=
        CursorMoved s t n ∧
        t = { s with
          cur := t.cur, err := ⟨x, if s.ctrl.mode then s.pk.ptotal else t.cur.pos, info⟩
          state := .error }
      (¬HasBits s e.len.toNat →
        ∃ t, exec .dBgMdist s = .next t ∧ fails t 0 .unexpectedEof (e.len.setWidth 32)) ∧
      (HasBits s e.len.toNat → e.kind = .distance →
        ∃ t, exec .dBgMdist s = .next t ∧ CursorMoved s t e.len.toNat ∧
          t = { s with
            cur := t.cur, bg := { s.bg with dbase := e.base, dext := e.extra }, state := .dBgMdistwr }) ∧
      (HasBits s e.len.toNat → e.kind ≠ .distance →
        ∃ t, exec .dBgMdist s = .next t ∧ fails t e.len.toNat .invalidCode (e.base.setWidth 32)))

/-- R93, R134: D_BG_MDISTWR reads the distance's extra bits and emits the match; with bits missing it
emits none. -/
def Obligations.MatchIsEmitted : Prop :=
  ∀ s : State, PosFits s →
    (HasBits s s.bg.dext.toNat → s.tokenOut.length + 1 ≤ s.cfg.tokenOutDepth →
      ∃ t, exec .dBgMdistwr s = .next t ∧ CursorMoved s t s.bg.dext.toNat ∧
        t = { s with
          cur := t.cur
          tokenOut := s.tokenOut ++ [0x80000000#32 ||| (s.bg.mlen.setWidth 32 <<< 16) |||
            (s.bg.dbase + BitVec.ofNat 16 (fieldAt s s.cur.pos.toNat s.bg.dext.toNat)).setWidth 32]
          tokenCount := s.tokenCount + 1
          state := .dBgLiteral }) ∧
    (¬HasBits s s.bg.dext.toNat → exec .dBgMdistwr s = .next { s with
      err := ⟨.unexpectedEof, bitPos s, s.bg.dext.setWidth 32⟩, state := .error })

/-- R134: a decoder step that would append more words than are free is not taken: no register changes and
`state` keeps its value. -/
def Obligations.StepsWaitForRoom : Prop :=
  ∀ s : State, PosFits s →
    (HasBits s s.bg.dext.toNat → s.cfg.tokenOutDepth < s.tokenOut.length + 1 →
      exec .dBgMdistwr s = .next s) ∧
    (HasBits s 8 → s.cfg.tokenOutDepth < s.tokenOut.length + 1 → exec .dStoredCopy s = .next s) ∧
    (HasBits s 8 → s.par.storedRem = 1 → s.par.bfinal = true →
      s.cfg.tokenOutDepth < s.tokenOut.length + 2 → exec .dStoredCopy s = .next s) ∧
    (∀ e : Entry, Selects .litLen s e → HasBits s e.len.toNat →
      (e.kind = .literal ∨ (e.kind = .endOfBlock ∧ s.par.bfinal = true)) →
      s.cfg.tokenOutDepth < s.tokenOut.length + 1 → exec .dBgLiteral s = .next s) ∧
    (CursorOk s →
      let p := (s.cur.pos.toNat + 7) / 8 * 8
      p + 32 ≤ s.cur.inBits.toNat → fieldAt s p 16 = 0 → fieldAt s (p + 16) 16 = 0xFFFF →
      s.par.bfinal = true → s.cfg.tokenOutDepth < s.tokenOut.length + 1 → exec .dStoredHdr s = .next s)

/-! ## The RLE encoder -/

/-- R96, R94, R57: expanding the pairs of a length array gives the array back, and every pair is in the
range R57 gives its symbol. The pairs are those of the array's maximal runs, one after the other; a run of
a length other than 0 is literal below 4 and has a 16 for each window of up to 6 after its first length, a
run of zeros is literal below 3 and has a 17 for 3 to 10 and an 18 for 11 to 138 of them. -/
def Obligations.RleExpandInvertsRleEmit : Prop :=
  (∀ lens : List Nat, lens ≠ [] → (∀ l ∈ lens, l ≤ 15) →
    rleExpand (rlePairs lens) = some (lens.map (BitVec.ofNat 4)) ∧
    ∀ p ∈ rlePairs lens, p.1.toNat ≤ 18 ∧ (p.1.toNat ≤ 15 → p.2 = 0) ∧ (p.1.toNat = 16 → p.2.toNat ≤ 3) ∧
      (p.1.toNat = 17 → p.2.toNat ≤ 7)) ∧
  (∀ as bs : List Nat, as ≠ [] → bs ≠ [] → as.getLast? ≠ bs.head? →
    rlePairs (as ++ bs) = rlePairs as ++ rlePairs bs) ∧
  (∀ v n : Nat, 1 ≤ v → v ≤ 15 → 1 ≤ n → rlePairs (List.replicate n v) = lengthRunPairs v n) ∧
  (∀ n : Nat, 1 ≤ n → rlePairs (List.replicate n 0) = zeroRunPairs n)

/-- R94, R95: RLE_EMIT appends the pairs of its array to `rq`; RLE_EXPAND expands `rq`, whatever pairs it
holds, by the branches of R95, to an array or to RleProtocolError(0) on a 16 with nothing before it; the
pairs of one array, and of two arrays one after the other, give the arrays back. The operand and result of
RLE_EXPAND are the model's reading (log 7), and so is a symbol above 18 (log 29). -/
def Obligations.RleOperationsRun : Prop :=
  (∀ (s : State) (lens : List Nat), TreeHolds s.litlenLen lens →
    lens.length = s.enc.eHlit.toNat + 257 →
    exec (.rleEmit .litLen) s = .next { s with enc := { s.enc with rq := s.enc.rq ++ rlePairs lens } }) ∧
  (∀ (s : State) (lens : List Nat), TreeHolds s.distLen lens → lens.length = s.enc.eHdist.toNat + 1 →
    exec (.rleEmit .dist) s = .next { s with enc := { s.enc with rq := s.enc.rq ++ rlePairs lens } }) ∧
  (∀ s : State, (∃ r, Expands [] s.enc.rq r) ∧
    (∀ l, Expands [] s.enc.rq (some l) →
      exec .rleExpand s = .next { s with uop := { s.uop with resLens := l } }) ∧
    (Expands [] s.enc.rq none → exec .rleExpand s = .next { s with
      err := ⟨.rleProtocolError, bitPos s, 0⟩, state := .error })) ∧
  (∀ (s : State) (lens : List Nat), lens ≠ [] → (∀ l ∈ lens, l ≤ 15) → s.enc.rq = rlePairs lens →
    exec .rleExpand s = .next { s with uop := { s.uop with resLens := lens.map (BitVec.ofNat 4) } }) ∧
  (∀ (s : State) (lit dist : List Nat), lit ≠ [] → dist ≠ [] → (∀ l ∈ lit ++ dist, l ≤ 15) →
    s.enc.rq = rlePairs lit ++ rlePairs dist →
    exec .rleExpand s = .next { s with uop := { s.uop with
      resLens := (lit ++ dist).map (BitVec.ofNat 4) } })

/-! ## The bit packer and the token encoder -/

/-- R113, R40: PUT appends the low `n` bits of its value to the output bit stream, first bit lowest, and
changes nothing but the packer and the bytes at `optr`; the value is the issued operand (log 6). -/
def Obligations.PutAppendsItsBits : Prop :=
  ∀ (s : State) (n : BitVec 6), n.toNat ≤ 32 → PackerOk s → OutRoom s n.toNat →
    ∃ t, exec (.put n) s = .next t ∧ Appended s t (valueBits s.uop.opVal.toNat n.toNat) ∧
      t = { s with outMem := t.outMem, pk := t.pk }

/-- R114, R115, R111, R40, R44: FINALIZE writes the trailer when bits are left over or the input is empty,
and leaves the packer empty on a byte boundary; E_FINALIZE does the same and ends the job. Where OUT_MEM
has no place for the trailer, both raise OutputOverflow, in the PUT whose word has no place or in the
last bytes. -/
def Obligations.FinalizeEndsOnAByte : Prop :=
  ∀ s : State, PackerOk s →
    let pad := (8 - (s.pk.pn.toNat + 3) % 8) % 8
    let trailer := [List.replicate 3 false, List.replicate pad false, List.replicate 8 false,
      List.replicate 8 false, List.replicate 8 true, List.replicate 8 true]
    let bits := if 0 < s.pk.pn.toNat ∨ s.inLen = 0 then trailer.flatten else []
    (ByteRoom s bits.length → ∃ t, exec .finalize s = .next t ∧
      exec .eFinalize s = .next { t with state := .eDone } ∧
      Appended s t bits ∧ t.pk.pn = 0 ∧ t = { s with outMem := t.outMem, pk := t.pk }) ∧
    (s.cfg.outMemBytes < 2 ^ 32 → 0 < s.pk.pn.toNat ∨ s.inLen = 0 → ∀ i ∈ [Instr.finalize, Instr.eFinalize],
      OverflowsAt i s trailer ∧
      (OutRoom s trailer.flatten.length → ¬ByteRoom s trailer.flatten.length →
        ∃ t, exec i s = .next t ∧ Overflowed s t trailer.flatten))

/-- R113, R44, R117: a PUT whose words do not fit OUT_MEM stores the bytes of the stream up to its end,
leaves every other byte, and raises OutputOverflow with the address of the first byte that has no place;
the value is the issued operand (log 6). -/
def Obligations.OutputOverflowStopsTheJob : Prop :=
  ∀ (s : State) (n : BitVec 6), n.toNat ≤ 32 → PackerOk s → s.cfg.outMemBytes < 2 ^ 32 →
    s.pk.optr.toNat ≤ s.cfg.outMemBytes →
    s.cfg.outMemBytes < s.pk.optr.toNat + packBits s / 8 * ((s.pk.pn.toNat + n.toNat) / packBits s) →
    ∃ t, exec (.put n) s = .next t ∧ Overflowed s t (valueBits s.uop.opVal.toNat n.toNat)

/-- R112, R44: ENCODESYM writes the code of a symbol that has one, or raises OutputOverflow where OUT_MEM
has no place for it, and raises UnencodableSymbol for a symbol of length 0; the symbol is the issued
operand (log 6). -/
def Obligations.EncodesymWritesTheCode : Prop :=
  ∀ (sel : Sel) (s : State),
    (∀ e, HasCode sel s.uop.opVal.toNat s e → PackerOk s →
      (OutRoom s e.len.toNat → ∃ t, exec (.encodesym sel) s = .next t ∧
        Appended s t (valueBits e.code.toNat e.len.toNat) ∧ t = { s with outMem := t.outMem, pk := t.pk }) ∧
      (s.cfg.outMemBytes < 2 ^ 32 →
        OverflowsAt (.encodesym sel) s [valueBits e.code.toNat e.len.toNat])) ∧
    (∀ e, (slotOf sel s).valid = true → (slotOf sel s).et[s.uop.opVal.toNat]? = some e → e.len = 0 →
      exec (.encodesym sel) s = .next { s with
        err := ⟨.unencodableSymbol, bitPos s, BitVec.ofNat 32 (selNat sel <<< 16 ||| s.uop.opVal.toNat)⟩
        state := .error })

/-- R105..R110, R112, R44: the token states write their code or their extra bits and go to the next state,
or raise OutputOverflow where OUT_MEM has no place for them; a symbol of length 0 raises
UnencodableSymbol. -/
def Obligations.TokenStatesWriteTheirBits : Prop :=
  ∀ s : State,
    let writes (i : Instr) (bs : List Bool) (next : Fsm) : Prop :=
      PackerOk s →
      (OutRoom s bs.length → ∃ t, exec i s = .next t ∧ Appended s t bs ∧
        t = { s with outMem := t.outMem, pk := t.pk, state := next }) ∧
      (s.cfg.outMemBytes < 2 ^ 32 → OverflowsAt i s [bs])
    let symbol (i : Instr) (sel : Sel) (y : Nat) (next : Fsm) : Prop :=
      (∀ e, HasCode sel y s e → writes i (valueBits e.code.toNat e.len.toNat) next) ∧
      ∀ e, (slotOf sel s).valid = true → (slotOf sel s).et[y]? = some e → e.len = 0 →
        RaisesUnencodable i sel y s
    symbol .eLitRep .litLen (s.enc.tok.extractLsb' 0 8).toNat .eWriteToken ∧
    symbol .eMatchDistRep .litLen s.enc.lsym.toNat .eMatchExtra ∧
    writes .eMatchExtra (valueBits s.enc.lxv.toNat s.enc.lxn.toNat) .eDistRep ∧
    symbol .eDistRep .dist s.enc.dsym.toNat .eDistExtra ∧
    writes .eDistExtra (valueBits s.enc.dxv.toNat s.enc.dxn.toNat) .eWriteToken ∧
    symbol .eEob .litLen 256 .eFinalize

/-- R100, R101, R102, R112, R44: the block header and the three counts, one meta length, and one RLE symbol
with its extra bits, as the bits each step writes; where OUT_MEM has no place for them the step raises
OutputOverflow, and E_CODELEN raises UnencodableSymbol for an RLE symbol of length 0. -/
def Obligations.HeaderStepsWriteTheirBits : Prop :=
  ∀ s : State,
    let header := [[s.enc.isLast], [false, true], valueBits s.enc.eHlit.toNat 5,
      valueBits s.enc.eHdist.toNat 5, valueBits s.enc.eHclen.toNat 4]
    (PackerOk s →
      (OutRoom s 17 → ∃ t, exec .eHeader s = .next t ∧ Appended s t header.flatten ∧
        t = { s with outMem := t.outMem, pk := t.pk, state := .eMetalen }) ∧
      (s.cfg.outMemBytes < 2 ^ 32 → OverflowsAt .eHeader s header)) ∧
    (∀ (k : Nat) (v : BitVec 3), metaOrder[s.enc.emi.toNat]? = some k → memRead s.metaLenMem k = some v →
      PackerOk s →
      (OutRoom s 3 → ∃ t, exec .eMetalen s = .next t ∧ Appended s t (valueBits v.toNat 3) ∧
        t = { s with
          outMem := t.outMem, pk := t.pk, enc := { s.enc with emi := s.enc.emi + 1 }
          state := if s.enc.emi.toNat + 1 = s.enc.eHclen.toNat + 4 then .eCodelen else s.state }) ∧
      (s.cfg.outMemBytes < 2 ^ 32 → OverflowsAt .eMetalen s [valueBits v.toNat 3])) ∧
    (∀ (y : BitVec 5) (x : BitVec 7), s.enc.rq[s.enc.rqi.toNat]? = some (y, x) →
      let n := if y = 16#5 then 2 else if y = 17#5 then 3 else if y = 18#5 then 7 else 0
      (∀ e : EncEntry, HasCode .codeLen y.toNat s e → PackerOk s →
        (OutRoom s (e.len.toNat + n) → s.enc.rqi.toNat < 511 → ∃ t, exec .eCodelen s = .next t ∧
          Appended s t (valueBits e.code.toNat e.len.toNat ++ valueBits x.toNat n) ∧
          t = { s with
            outMem := t.outMem, pk := t.pk, enc := { s.enc with rqi := s.enc.rqi + 1 }
            state := if s.enc.rqi.toNat + 1 = s.enc.rq.length then .eWriteToken else s.state }) ∧
        (s.cfg.outMemBytes < 2 ^ 32 →
          OverflowsAt .eCodelen s [valueBits e.code.toNat e.len.toNat, valueBits x.toNat n])) ∧
      ∀ e : EncEntry, (slotOf .codeLen s).valid = true → (slotOf .codeLen s).et[y.toNat]? = some e →
        e.len = 0 → RaisesUnencodable .eCodelen .codeLen y.toNat s)

/-- R99, R98, R94, R66, R71, R121: E_BUILD on three complete trees builds the three slots, computes the
header counts from the last used entries, and queues the RLE symbols of the two arrays; a tree that is not
complete raises its error, the literal/length tree first, then the distance and the meta tree, with the
slots before it built; an entry never written faults before anything else (log 16). -/
def Obligations.EncoderBuildsItsTrees : Prop :=
  (∀ s : State,
    (∃ y, y < 288 ∧ memRead s.litlenLen y = none) ∨ (∃ y, y < 32 ∧ memRead s.distLen y = none) ∨
      (∃ y, y < 19 ∧ memRead s.metaLenMem y = none) →
    ∃ t, exec .eBuild s = .fault (.treeUnwritten t)) ∧
  ∀ (s : State) (lit dist mm : List Nat),
    lit.length = 288 → dist.length = 32 → mm.length = 19 →
    TreeHolds s.litlenLen lit → TreeHolds s.distLen dist → TreeHolds s.metaLenMem mm →
    let fails (lens : List Nat) (sel : Sel) (t : State) : Prop :=
      (kraftSum lens < 2 ^ 15 → exec .eBuild s = .next { t with
        err := ⟨.treeIncomplete, bitPos s, BitVec.ofNat 32 (selNat sel)⟩, state := .error }) ∧
      (2 ^ 15 < kraftSum lens → exec .eBuild s = .next { t with
        err := ⟨.treeOversubscribed, bitPos s, BitVec.ofNat 32 (selNat sel)⟩, state := .error })
    fails lit .litLen s ∧
    (kraftSum lit = 2 ^ 15 → ∃ y, Built .litLen lit y ∧
      fails dist .dist { s with slots := { s.slots with litLen := y } } ∧
      (kraftSum dist = 2 ^ 15 → ∃ z, Built .dist dist z ∧
        fails mm .codeLen { s with slots := { s.slots with litLen := y, dist := z } } ∧
        (kraftSum mm = 2 ^ 15 → ∃ x, Built .codeLen mm x ∧
          ∀ lastL lastD lastP : Nat,
            lit.getD lastL 0 ≠ 0 → (∀ y, lastL < y → lit.getD y 0 = 0) →
            dist.getD lastD 0 ≠ 0 → (∀ y, lastD < y → dist.getD y 0 = 0) →
            lastP < 19 → mm.getD (metaOrder.getD lastP 0) 0 ≠ 0 →
            (∀ i, lastP < i → i < 19 → mm.getD (metaOrder.getD i 0) 0 = 0) →
            exec .eBuild s = .next { s with
              slots := ⟨x, y, z⟩
              enc := { s.enc with
                eHlit := BitVec.ofNat 5 (max 257 (lastL + 1) - 257)
                eHdist := BitVec.ofNat 5 (max 1 (lastD + 1) - 1)
                eHclen := BitVec.ofNat 4 (max 4 (lastP + 1) - 4)
                rq := rlePairs (lit.take (max 257 (lastL + 1))) ++
                  rlePairs (dist.take (max 1 (lastD + 1)))
                rqi := 0
                emi := 0 }
              state := .eHeader })))

/-- R104, R53, R23, R103: E_WRITE_TOKEN takes the token at `tin` as its word says, and the three token words
as instructions do the same; a word of no form and a match out of range raise TokenRangeError, a word
never supplied faults, END is not consumed (log 8). -/
def Obligations.WriteTokenTakesTheToken : Prop :=
  ∀ s : State,
    (s.tokenIn[s.enc.tin.toNat]? = none → exec .eWriteToken s = .fault (.tokenMissing s.enc.tin.toNat)) ∧
    (∀ b : Byte, exec (.tokenLiteral b) s = .next { s with
      enc := { s.enc with tok := b.setWidth 32, tin := s.enc.tin + 1 }
      tokenCount := s.tokenCount + 1, state := .eLitRep }) ∧
    (∀ (l : BitVec 9) (d : BitVec 16),
      let w := 0x80000000#32 ||| (l.setWidth 32 <<< 16) ||| d.setWidth 32
      (3 ≤ l.toNat ∧ l.toNat ≤ 258 ∧ 1 ≤ d.toNat ∧ d.toNat ≤ 32768 →
        exec (.tokenMatch l d) s = .next { s with
          enc := { s.enc with
            tok := w, tin := s.enc.tin + 1
            lsym := BitVec.ofNat 9 (lenCode l.toNat).1
            lxv := BitVec.ofNat 5 (lenCode l.toNat).2.1
            lxn := BitVec.ofNat 3 (lenCode l.toNat).2.2
            dsym := BitVec.ofNat 5 (distCode d.toNat).1
            dxv := BitVec.ofNat 13 (distCode d.toNat).2.1
            dxn := BitVec.ofNat 4 (distCode d.toNat).2.2 }
          tokenCount := s.tokenCount + 1, state := .eMatchDistRep }) ∧
      (¬(3 ≤ l.toNat ∧ l.toNat ≤ 258 ∧ 1 ≤ d.toNat ∧ d.toNat ≤ 32768) →
        exec (.tokenMatch l d) s = .next { s with
          err := ⟨.tokenRangeError, bitPos s, w⟩, state := .error })) ∧
    exec .tokenEnd s = .next { s with state := .eEob } ∧
    (∀ w, s.tokenIn[s.enc.tin.toNat]? = some w →
      (∀ i, decodeToken w = .ok i → exec .eWriteToken s = exec i s) ∧
      (∀ r, decodeToken w = .error r → exec .eWriteToken s = .next { s with
        err := ⟨.tokenRangeError, bitPos s, w⟩, state := .error }))

/-- R103, R59, R60: the length and distance classes are the largest symbols whose base is at most the value,
and give it back with an extra value that fits its bits; 258 is symbol 285. The tables are those R59 and
R60 print (log 31). -/
def Obligations.ClassesGiveTheMatchBack : Prop :=
  lengthTable = lengthRows.map Prod.swap ∧ distTable = distRows.map Prod.swap ∧
  lenCode 258 = (285, 0, 0) ∧
  (∀ l k base extra, 3 ≤ l → l ≤ 257 → k ≤ 27 → lengthTable[k]? = some (base, extra) →
    (base ≤ l ↔ k + 257 ≤ (lenCode l).1)) ∧
  (∀ d k base extra, 1 ≤ d → d ≤ 32768 → distTable[k]? = some (base, extra) →
    (base ≤ d ↔ k ≤ (distCode d).1)) ∧
  (∀ l, 3 ≤ l → l ≤ 258 → ∃ base extra, lengthTable[(lenCode l).1 - 257]? = some (base, extra) ∧
    257 ≤ (lenCode l).1 ∧ base + (lenCode l).2.1 = l ∧ (lenCode l).2.2 = extra ∧
    (lenCode l).2.1 < 2 ^ extra) ∧
  (∀ d, 1 ≤ d → d ≤ 32768 → ∃ base extra, distTable[(distCode d).1]? = some (base, extra) ∧
    base + (distCode d).2.1 = d ∧ (distCode d).2.2 = extra ∧ (distCode d).2.1 < 2 ^ extra)
end

