-- ==== Sys2Proof/Laws/State.lean ====
section
/-! SUPPORT. What each update of the state does to each field: one rewriting lemma for a field and an update,
so that no proof unfolds a record update. -/

namespace Sys2Proof.Machine

/-- The state with another cursor: what the cursor's operations leave. -/
def withCur (c : Cursor) (s : State) : State :=
  { s with cur := c }

/-- The state with other packer registers and another OUT_MEM: what the packer's operations leave. -/
def withPacker (m : Cells 8) (p : Packer) (s : State) : State :=
  { s with outMem := m, pk := p }

@[simp] theorem withCur_self (s : State) : withCur s.cur s = s := rfl

@[simp] theorem withCur_withCur (c d : Cursor) (s : State) : withCur c (withCur d s) = withCur c s := rfl

@[simp] theorem withPacker_self (s : State) : withPacker s.outMem s.pk s = s := rfl

@[simp] theorem withPacker_withPacker (m m' : Cells 8) (p p' : Packer) (s : State) :
    withPacker m p (withPacker m' p' s) = withPacker m p s := rfl

/-! ### `withCur` -/

@[simp] theorem withCur_cfg (c : Cursor) (s : State) :
    (withCur c s).cfg = s.cfg := rfl
@[simp] theorem withCur_state (c : Cursor) (s : State) :
    (withCur c s).state = s.state := rfl
@[simp] theorem withCur_ctrl (c : Cursor) (s : State) :
    (withCur c s).ctrl = s.ctrl := rfl
@[simp] theorem withCur_inLen (c : Cursor) (s : State) :
    (withCur c s).inLen = s.inLen := rfl
@[simp] theorem withCur_tokenCount (c : Cursor) (s : State) :
    (withCur c s).tokenCount = s.tokenCount := rfl
@[simp] theorem withCur_err (c : Cursor) (s : State) :
    (withCur c s).err = s.err := rfl
@[simp] theorem withCur_inMem (c : Cursor) (s : State) :
    (withCur c s).inMem = s.inMem := rfl
@[simp] theorem withCur_outMem (c : Cursor) (s : State) :
    (withCur c s).outMem = s.outMem := rfl
@[simp] theorem withCur_litlenLen (c : Cursor) (s : State) :
    (withCur c s).litlenLen = s.litlenLen := rfl
@[simp] theorem withCur_distLen (c : Cursor) (s : State) :
    (withCur c s).distLen = s.distLen := rfl
@[simp] theorem withCur_metaLenMem (c : Cursor) (s : State) :
    (withCur c s).metaLenMem = s.metaLenMem := rfl
@[simp] theorem withCur_tokenOut (c : Cursor) (s : State) :
    (withCur c s).tokenOut = s.tokenOut := rfl
@[simp] theorem withCur_tokenIn (c : Cursor) (s : State) :
    (withCur c s).tokenIn = s.tokenIn := rfl
@[simp] theorem withCur_cur (c : Cursor) (s : State) :
    (withCur c s).cur = c := rfl
@[simp] theorem withCur_par (c : Cursor) (s : State) :
    (withCur c s).par = s.par := rfl
@[simp] theorem withCur_bg (c : Cursor) (s : State) :
    (withCur c s).bg = s.bg := rfl
@[simp] theorem withCur_slots (c : Cursor) (s : State) :
    (withCur c s).slots = s.slots := rfl
@[simp] theorem withCur_enc (c : Cursor) (s : State) :
    (withCur c s).enc = s.enc := rfl
@[simp] theorem withCur_pk (c : Cursor) (s : State) :
    (withCur c s).pk = s.pk := rfl
@[simp] theorem withCur_uop (c : Cursor) (s : State) :
    (withCur c s).uop = s.uop := rfl
@[simp] theorem withCur_host (c : Cursor) (s : State) :
    (withCur c s).host = s.host := rfl
@[simp] theorem withCur_hostData (c : Cursor) (s : State) :
    (withCur c s).hostData = s.hostData := rfl
@[simp] theorem withCur_taken (c : Cursor) (s : State) :
    (withCur c s).taken = s.taken := rfl
@[simp] theorem withCur_synced (c : Cursor) (s : State) :
    (withCur c s).synced = s.synced := rfl
@[simp] theorem withCur_draws (c : Cursor) (s : State) :
    (withCur c s).draws = s.draws := rfl

/-! ### `withPacker` -/

@[simp] theorem withPacker_cfg (m : Cells 8) (p : Packer) (s : State) :
    (withPacker m p s).cfg = s.cfg := rfl
@[simp] theorem withPacker_state (m : Cells 8) (p : Packer) (s : State) :
    (withPacker m p s).state = s.state := rfl
@[simp] theorem withPacker_ctrl (m : Cells 8) (p : Packer) (s : State) :
    (withPacker m p s).ctrl = s.ctrl := rfl
@[simp] theorem withPacker_inLen (m : Cells 8) (p : Packer) (s : State) :
    (withPacker m p s).inLen = s.inLen := rfl
@[simp] theorem withPacker_tokenCount (m : Cells 8) (p : Packer) (s : State) :
    (withPacker m p s).tokenCount = s.tokenCount := rfl
@[simp] theorem withPacker_err (m : Cells 8) (p : Packer) (s : State) :
    (withPacker m p s).err = s.err := rfl
@[simp] theorem withPacker_inMem (m : Cells 8) (p : Packer) (s : State) :
    (withPacker m p s).inMem = s.inMem := rfl
@[simp] theorem withPacker_outMem (m : Cells 8) (p : Packer) (s : State) :
    (withPacker m p s).outMem = m := rfl
@[simp] theorem withPacker_litlenLen (m : Cells 8) (p : Packer) (s : State) :
    (withPacker m p s).litlenLen = s.litlenLen := rfl
@[simp] theorem withPacker_distLen (m : Cells 8) (p : Packer) (s : State) :
    (withPacker m p s).distLen = s.distLen := rfl
@[simp] theorem withPacker_metaLenMem (m : Cells 8) (p : Packer) (s : State) :
    (withPacker m p s).metaLenMem = s.metaLenMem := rfl
@[simp] theorem withPacker_tokenOut (m : Cells 8) (p : Packer) (s : State) :
    (withPacker m p s).tokenOut = s.tokenOut := rfl
@[simp] theorem withPacker_tokenIn (m : Cells 8) (p : Packer) (s : State) :
    (withPacker m p s).tokenIn = s.tokenIn := rfl
@[simp] theorem withPacker_cur (m : Cells 8) (p : Packer) (s : State) :
    (withPacker m p s).cur = s.cur := rfl
@[simp] theorem withPacker_par (m : Cells 8) (p : Packer) (s : State) :
    (withPacker m p s).par = s.par := rfl
@[simp] theorem withPacker_bg (m : Cells 8) (p : Packer) (s : State) :
    (withPacker m p s).bg = s.bg := rfl
@[simp] theorem withPacker_slots (m : Cells 8) (p : Packer) (s : State) :
    (withPacker m p s).slots = s.slots := rfl
@[simp] theorem withPacker_enc (m : Cells 8) (p : Packer) (s : State) :
    (withPacker m p s).enc = s.enc := rfl
@[simp] theorem withPacker_pk (m : Cells 8) (p : Packer) (s : State) :
    (withPacker m p s).pk = p := rfl
@[simp] theorem withPacker_uop (m : Cells 8) (p : Packer) (s : State) :
    (withPacker m p s).uop = s.uop := rfl
@[simp] theorem withPacker_host (m : Cells 8) (p : Packer) (s : State) :
    (withPacker m p s).host = s.host := rfl
@[simp] theorem withPacker_hostData (m : Cells 8) (p : Packer) (s : State) :
    (withPacker m p s).hostData = s.hostData := rfl
@[simp] theorem withPacker_taken (m : Cells 8) (p : Packer) (s : State) :
    (withPacker m p s).taken = s.taken := rfl
@[simp] theorem withPacker_synced (m : Cells 8) (p : Packer) (s : State) :
    (withPacker m p s).synced = s.synced := rfl
@[simp] theorem withPacker_draws (m : Cells 8) (p : Packer) (s : State) :
    (withPacker m p s).draws = s.draws := rfl

/-! ### `setState` -/

@[simp] theorem setState_cfg (f : Fsm) (s : State) :
    (setState f s).cfg = s.cfg := rfl
@[simp] theorem setState_state (f : Fsm) (s : State) :
    (setState f s).state = f := rfl
@[simp] theorem setState_ctrl (f : Fsm) (s : State) :
    (setState f s).ctrl = s.ctrl := rfl
@[simp] theorem setState_inLen (f : Fsm) (s : State) :
    (setState f s).inLen = s.inLen := rfl
@[simp] theorem setState_tokenCount (f : Fsm) (s : State) :
    (setState f s).tokenCount = s.tokenCount := rfl
@[simp] theorem setState_err (f : Fsm) (s : State) :
    (setState f s).err = s.err := rfl
@[simp] theorem setState_inMem (f : Fsm) (s : State) :
    (setState f s).inMem = s.inMem := rfl
@[simp] theorem setState_outMem (f : Fsm) (s : State) :
    (setState f s).outMem = s.outMem := rfl
@[simp] theorem setState_litlenLen (f : Fsm) (s : State) :
    (setState f s).litlenLen = s.litlenLen := rfl
@[simp] theorem setState_distLen (f : Fsm) (s : State) :
    (setState f s).distLen = s.distLen := rfl
@[simp] theorem setState_metaLenMem (f : Fsm) (s : State) :
    (setState f s).metaLenMem = s.metaLenMem := rfl
@[simp] theorem setState_tokenOut (f : Fsm) (s : State) :
    (setState f s).tokenOut = s.tokenOut := rfl
@[simp] theorem setState_tokenIn (f : Fsm) (s : State) :
    (setState f s).tokenIn = s.tokenIn := rfl
@[simp] theorem setState_cur (f : Fsm) (s : State) :
    (setState f s).cur = s.cur := rfl
@[simp] theorem setState_par (f : Fsm) (s : State) :
    (setState f s).par = s.par := rfl
@[simp] theorem setState_bg (f : Fsm) (s : State) :
    (setState f s).bg = s.bg := rfl
@[simp] theorem setState_slots (f : Fsm) (s : State) :
    (setState f s).slots = s.slots := rfl
@[simp] theorem setState_enc (f : Fsm) (s : State) :
    (setState f s).enc = s.enc := rfl
@[simp] theorem setState_pk (f : Fsm) (s : State) :
    (setState f s).pk = s.pk := rfl
@[simp] theorem setState_uop (f : Fsm) (s : State) :
    (setState f s).uop = s.uop := rfl
@[simp] theorem setState_host (f : Fsm) (s : State) :
    (setState f s).host = s.host := rfl
@[simp] theorem setState_hostData (f : Fsm) (s : State) :
    (setState f s).hostData = s.hostData := rfl
@[simp] theorem setState_taken (f : Fsm) (s : State) :
    (setState f s).taken = s.taken := rfl
@[simp] theorem setState_synced (f : Fsm) (s : State) :
    (setState f s).synced = s.synced := rfl
@[simp] theorem setState_draws (f : Fsm) (s : State) :
    (setState f s).draws = s.draws := rfl

/-! ### `raiseErr` -/

@[simp] theorem raiseErr_cfg (e : Err) (info : Word) (s : State) :
    (raiseErr e info s).cfg = s.cfg := rfl
@[simp] theorem raiseErr_state (e : Err) (info : Word) (s : State) :
    (raiseErr e info s).state = .error := rfl
@[simp] theorem raiseErr_ctrl (e : Err) (info : Word) (s : State) :
    (raiseErr e info s).ctrl = s.ctrl := rfl
@[simp] theorem raiseErr_inLen (e : Err) (info : Word) (s : State) :
    (raiseErr e info s).inLen = s.inLen := rfl
@[simp] theorem raiseErr_tokenCount (e : Err) (info : Word) (s : State) :
    (raiseErr e info s).tokenCount = s.tokenCount := rfl
@[simp] theorem raiseErr_err (e : Err) (info : Word) (s : State) :
    (raiseErr e info s).err = ⟨e, bitPos s, info⟩ := rfl
@[simp] theorem raiseErr_inMem (e : Err) (info : Word) (s : State) :
    (raiseErr e info s).inMem = s.inMem := rfl
@[simp] theorem raiseErr_outMem (e : Err) (info : Word) (s : State) :
    (raiseErr e info s).outMem = s.outMem := rfl
@[simp] theorem raiseErr_litlenLen (e : Err) (info : Word) (s : State) :
    (raiseErr e info s).litlenLen = s.litlenLen := rfl
@[simp] theorem raiseErr_distLen (e : Err) (info : Word) (s : State) :
    (raiseErr e info s).distLen = s.distLen := rfl
@[simp] theorem raiseErr_metaLenMem (e : Err) (info : Word) (s : State) :
    (raiseErr e info s).metaLenMem = s.metaLenMem := rfl
@[simp] theorem raiseErr_tokenOut (e : Err) (info : Word) (s : State) :
    (raiseErr e info s).tokenOut = s.tokenOut := rfl
@[simp] theorem raiseErr_tokenIn (e : Err) (info : Word) (s : State) :
    (raiseErr e info s).tokenIn = s.tokenIn := rfl
@[simp] theorem raiseErr_cur (e : Err) (info : Word) (s : State) :
    (raiseErr e info s).cur = s.cur := rfl
@[simp] theorem raiseErr_par (e : Err) (info : Word) (s : State) :
    (raiseErr e info s).par = s.par := rfl
@[simp] theorem raiseErr_bg (e : Err) (info : Word) (s : State) :
    (raiseErr e info s).bg = s.bg := rfl
@[simp] theorem raiseErr_slots (e : Err) (info : Word) (s : State) :
    (raiseErr e info s).slots = s.slots := rfl
@[simp] theorem raiseErr_enc (e : Err) (info : Word) (s : State) :
    (raiseErr e info s).enc = s.enc := rfl
@[simp] theorem raiseErr_pk (e : Err) (info : Word) (s : State) :
    (raiseErr e info s).pk = s.pk := rfl
@[simp] theorem raiseErr_uop (e : Err) (info : Word) (s : State) :
    (raiseErr e info s).uop = s.uop := rfl
@[simp] theorem raiseErr_host (e : Err) (info : Word) (s : State) :
    (raiseErr e info s).host = s.host := rfl
@[simp] theorem raiseErr_hostData (e : Err) (info : Word) (s : State) :
    (raiseErr e info s).hostData = s.hostData := rfl
@[simp] theorem raiseErr_taken (e : Err) (info : Word) (s : State) :
    (raiseErr e info s).taken = s.taken := rfl
@[simp] theorem raiseErr_synced (e : Err) (info : Word) (s : State) :
    (raiseErr e info s).synced = s.synced := rfl
@[simp] theorem raiseErr_draws (e : Err) (info : Word) (s : State) :
    (raiseErr e info s).draws = s.draws := rfl

/-! ### `emitToken` -/

@[simp] theorem emitToken_cfg (w : Word) (s : State) :
    (emitToken w s).cfg = s.cfg := rfl
@[simp] theorem emitToken_state (w : Word) (s : State) :
    (emitToken w s).state = s.state := rfl
@[simp] theorem emitToken_ctrl (w : Word) (s : State) :
    (emitToken w s).ctrl = s.ctrl := rfl
@[simp] theorem emitToken_inLen (w : Word) (s : State) :
    (emitToken w s).inLen = s.inLen := rfl
@[simp] theorem emitToken_tokenCount (w : Word) (s : State) :
    (emitToken w s).tokenCount = s.tokenCount + 1 := rfl
@[simp] theorem emitToken_err (w : Word) (s : State) :
    (emitToken w s).err = s.err := rfl
@[simp] theorem emitToken_inMem (w : Word) (s : State) :
    (emitToken w s).inMem = s.inMem := rfl
@[simp] theorem emitToken_outMem (w : Word) (s : State) :
    (emitToken w s).outMem = s.outMem := rfl
@[simp] theorem emitToken_litlenLen (w : Word) (s : State) :
    (emitToken w s).litlenLen = s.litlenLen := rfl
@[simp] theorem emitToken_distLen (w : Word) (s : State) :
    (emitToken w s).distLen = s.distLen := rfl
@[simp] theorem emitToken_metaLenMem (w : Word) (s : State) :
    (emitToken w s).metaLenMem = s.metaLenMem := rfl
@[simp] theorem emitToken_tokenOut (w : Word) (s : State) :
    (emitToken w s).tokenOut = s.tokenOut ++ [w] := rfl
@[simp] theorem emitToken_tokenIn (w : Word) (s : State) :
    (emitToken w s).tokenIn = s.tokenIn := rfl
@[simp] theorem emitToken_cur (w : Word) (s : State) :
    (emitToken w s).cur = s.cur := rfl
@[simp] theorem emitToken_par (w : Word) (s : State) :
    (emitToken w s).par = s.par := rfl
@[simp] theorem emitToken_bg (w : Word) (s : State) :
    (emitToken w s).bg = s.bg := rfl
@[simp] theorem emitToken_slots (w : Word) (s : State) :
    (emitToken w s).slots = s.slots := rfl
@[simp] theorem emitToken_enc (w : Word) (s : State) :
    (emitToken w s).enc = s.enc := rfl
@[simp] theorem emitToken_pk (w : Word) (s : State) :
    (emitToken w s).pk = s.pk := rfl
@[simp] theorem emitToken_uop (w : Word) (s : State) :
    (emitToken w s).uop = s.uop := rfl
@[simp] theorem emitToken_host (w : Word) (s : State) :
    (emitToken w s).host = s.host := rfl
@[simp] theorem emitToken_hostData (w : Word) (s : State) :
    (emitToken w s).hostData = s.hostData := rfl
@[simp] theorem emitToken_taken (w : Word) (s : State) :
    (emitToken w s).taken = s.taken := rfl
@[simp] theorem emitToken_synced (w : Word) (s : State) :
    (emitToken w s).synced = s.synced := rfl
@[simp] theorem emitToken_draws (w : Word) (s : State) :
    (emitToken w s).draws = s.draws := rfl

/-! ### `emitEnd` -/

@[simp] theorem emitEnd_cfg (s : State) :
    (emitEnd s).cfg = s.cfg := rfl
@[simp] theorem emitEnd_state (s : State) :
    (emitEnd s).state = s.state := rfl
@[simp] theorem emitEnd_ctrl (s : State) :
    (emitEnd s).ctrl = s.ctrl := rfl
@[simp] theorem emitEnd_inLen (s : State) :
    (emitEnd s).inLen = s.inLen := rfl
@[simp] theorem emitEnd_tokenCount (s : State) :
    (emitEnd s).tokenCount = s.tokenCount := rfl
@[simp] theorem emitEnd_err (s : State) :
    (emitEnd s).err = s.err := rfl
@[simp] theorem emitEnd_inMem (s : State) :
    (emitEnd s).inMem = s.inMem := rfl
@[simp] theorem emitEnd_outMem (s : State) :
    (emitEnd s).outMem = s.outMem := rfl
@[simp] theorem emitEnd_litlenLen (s : State) :
    (emitEnd s).litlenLen = s.litlenLen := rfl
@[simp] theorem emitEnd_distLen (s : State) :
    (emitEnd s).distLen = s.distLen := rfl
@[simp] theorem emitEnd_metaLenMem (s : State) :
    (emitEnd s).metaLenMem = s.metaLenMem := rfl
@[simp] theorem emitEnd_tokenOut (s : State) :
    (emitEnd s).tokenOut = s.tokenOut ++ [endWord] := rfl
@[simp] theorem emitEnd_tokenIn (s : State) :
    (emitEnd s).tokenIn = s.tokenIn := rfl
@[simp] theorem emitEnd_cur (s : State) :
    (emitEnd s).cur = s.cur := rfl
@[simp] theorem emitEnd_par (s : State) :
    (emitEnd s).par = s.par := rfl
@[simp] theorem emitEnd_bg (s : State) :
    (emitEnd s).bg = s.bg := rfl
@[simp] theorem emitEnd_slots (s : State) :
    (emitEnd s).slots = s.slots := rfl
@[simp] theorem emitEnd_enc (s : State) :
    (emitEnd s).enc = s.enc := rfl
@[simp] theorem emitEnd_pk (s : State) :
    (emitEnd s).pk = s.pk := rfl
@[simp] theorem emitEnd_uop (s : State) :
    (emitEnd s).uop = s.uop := rfl
@[simp] theorem emitEnd_host (s : State) :
    (emitEnd s).host = s.host := rfl
@[simp] theorem emitEnd_hostData (s : State) :
    (emitEnd s).hostData = s.hostData := rfl
@[simp] theorem emitEnd_taken (s : State) :
    (emitEnd s).taken = s.taken := rfl
@[simp] theorem emitEnd_synced (s : State) :
    (emitEnd s).synced = s.synced := rfl
@[simp] theorem emitEnd_draws (s : State) :
    (emitEnd s).draws = s.draws := rfl

/-! ### `refill` -/

@[simp] theorem refill_cfg (s : State) :
    (refill s).cfg = s.cfg := rfl
@[simp] theorem refill_state (s : State) :
    (refill s).state = s.state := rfl
@[simp] theorem refill_ctrl (s : State) :
    (refill s).ctrl = s.ctrl := rfl
@[simp] theorem refill_inLen (s : State) :
    (refill s).inLen = s.inLen := rfl
@[simp] theorem refill_tokenCount (s : State) :
    (refill s).tokenCount = s.tokenCount := rfl
@[simp] theorem refill_err (s : State) :
    (refill s).err = s.err := rfl
@[simp] theorem refill_inMem (s : State) :
    (refill s).inMem = s.inMem := rfl
@[simp] theorem refill_outMem (s : State) :
    (refill s).outMem = s.outMem := rfl
@[simp] theorem refill_litlenLen (s : State) :
    (refill s).litlenLen = s.litlenLen := rfl
@[simp] theorem refill_distLen (s : State) :
    (refill s).distLen = s.distLen := rfl
@[simp] theorem refill_metaLenMem (s : State) :
    (refill s).metaLenMem = s.metaLenMem := rfl
@[simp] theorem refill_tokenOut (s : State) :
    (refill s).tokenOut = s.tokenOut := rfl
@[simp] theorem refill_tokenIn (s : State) :
    (refill s).tokenIn = s.tokenIn := rfl
@[simp] theorem refill_par (s : State) :
    (refill s).par = s.par := rfl
@[simp] theorem refill_bg (s : State) :
    (refill s).bg = s.bg := rfl
@[simp] theorem refill_slots (s : State) :
    (refill s).slots = s.slots := rfl
@[simp] theorem refill_enc (s : State) :
    (refill s).enc = s.enc := rfl
@[simp] theorem refill_pk (s : State) :
    (refill s).pk = s.pk := rfl
@[simp] theorem refill_uop (s : State) :
    (refill s).uop = s.uop := rfl
@[simp] theorem refill_host (s : State) :
    (refill s).host = s.host := rfl
@[simp] theorem refill_hostData (s : State) :
    (refill s).hostData = s.hostData := rfl
@[simp] theorem refill_taken (s : State) :
    (refill s).taken = s.taken := rfl
@[simp] theorem refill_synced (s : State) :
    (refill s).synced = s.synced := rfl
@[simp] theorem refill_draws (s : State) :
    (refill s).draws = s.draws := rfl

/-! ### `advanceCursor` -/

@[simp] theorem advanceCursor_cfg (n : Nat) (s : State) :
    (advanceCursor n s).cfg = s.cfg := rfl
@[simp] theorem advanceCursor_state (n : Nat) (s : State) :
    (advanceCursor n s).state = s.state := rfl
@[simp] theorem advanceCursor_ctrl (n : Nat) (s : State) :
    (advanceCursor n s).ctrl = s.ctrl := rfl
@[simp] theorem advanceCursor_inLen (n : Nat) (s : State) :
    (advanceCursor n s).inLen = s.inLen := rfl
@[simp] theorem advanceCursor_tokenCount (n : Nat) (s : State) :
    (advanceCursor n s).tokenCount = s.tokenCount := rfl
@[simp] theorem advanceCursor_err (n : Nat) (s : State) :
    (advanceCursor n s).err = s.err := rfl
@[simp] theorem advanceCursor_inMem (n : Nat) (s : State) :
    (advanceCursor n s).inMem = s.inMem := rfl
@[simp] theorem advanceCursor_outMem (n : Nat) (s : State) :
    (advanceCursor n s).outMem = s.outMem := rfl
@[simp] theorem advanceCursor_litlenLen (n : Nat) (s : State) :
    (advanceCursor n s).litlenLen = s.litlenLen := rfl
@[simp] theorem advanceCursor_distLen (n : Nat) (s : State) :
    (advanceCursor n s).distLen = s.distLen := rfl
@[simp] theorem advanceCursor_metaLenMem (n : Nat) (s : State) :
    (advanceCursor n s).metaLenMem = s.metaLenMem := rfl
@[simp] theorem advanceCursor_tokenOut (n : Nat) (s : State) :
    (advanceCursor n s).tokenOut = s.tokenOut := rfl
@[simp] theorem advanceCursor_tokenIn (n : Nat) (s : State) :
    (advanceCursor n s).tokenIn = s.tokenIn := rfl
@[simp] theorem advanceCursor_par (n : Nat) (s : State) :
    (advanceCursor n s).par = s.par := rfl
@[simp] theorem advanceCursor_bg (n : Nat) (s : State) :
    (advanceCursor n s).bg = s.bg := rfl
@[simp] theorem advanceCursor_slots (n : Nat) (s : State) :
    (advanceCursor n s).slots = s.slots := rfl
@[simp] theorem advanceCursor_enc (n : Nat) (s : State) :
    (advanceCursor n s).enc = s.enc := rfl
@[simp] theorem advanceCursor_pk (n : Nat) (s : State) :
    (advanceCursor n s).pk = s.pk := rfl
@[simp] theorem advanceCursor_uop (n : Nat) (s : State) :
    (advanceCursor n s).uop = s.uop := rfl
@[simp] theorem advanceCursor_host (n : Nat) (s : State) :
    (advanceCursor n s).host = s.host := rfl
@[simp] theorem advanceCursor_hostData (n : Nat) (s : State) :
    (advanceCursor n s).hostData = s.hostData := rfl
@[simp] theorem advanceCursor_taken (n : Nat) (s : State) :
    (advanceCursor n s).taken = s.taken := rfl
@[simp] theorem advanceCursor_synced (n : Nat) (s : State) :
    (advanceCursor n s).synced = s.synced := rfl
@[simp] theorem advanceCursor_draws (n : Nat) (s : State) :
    (advanceCursor n s).draws = s.draws := rfl

/-! ### `alignCursor` -/

@[simp] theorem alignCursor_cfg (s : State) :
    (alignCursor s).cfg = s.cfg := rfl
@[simp] theorem alignCursor_state (s : State) :
    (alignCursor s).state = s.state := rfl
@[simp] theorem alignCursor_ctrl (s : State) :
    (alignCursor s).ctrl = s.ctrl := rfl
@[simp] theorem alignCursor_inLen (s : State) :
    (alignCursor s).inLen = s.inLen := rfl
@[simp] theorem alignCursor_tokenCount (s : State) :
    (alignCursor s).tokenCount = s.tokenCount := rfl
@[simp] theorem alignCursor_err (s : State) :
    (alignCursor s).err = s.err := rfl
@[simp] theorem alignCursor_inMem (s : State) :
    (alignCursor s).inMem = s.inMem := rfl
@[simp] theorem alignCursor_outMem (s : State) :
    (alignCursor s).outMem = s.outMem := rfl
@[simp] theorem alignCursor_litlenLen (s : State) :
    (alignCursor s).litlenLen = s.litlenLen := rfl
@[simp] theorem alignCursor_distLen (s : State) :
    (alignCursor s).distLen = s.distLen := rfl
@[simp] theorem alignCursor_metaLenMem (s : State) :
    (alignCursor s).metaLenMem = s.metaLenMem := rfl
@[simp] theorem alignCursor_tokenOut (s : State) :
    (alignCursor s).tokenOut = s.tokenOut := rfl
@[simp] theorem alignCursor_tokenIn (s : State) :
    (alignCursor s).tokenIn = s.tokenIn := rfl
@[simp] theorem alignCursor_par (s : State) :
    (alignCursor s).par = s.par := rfl
@[simp] theorem alignCursor_bg (s : State) :
    (alignCursor s).bg = s.bg := rfl
@[simp] theorem alignCursor_slots (s : State) :
    (alignCursor s).slots = s.slots := rfl
@[simp] theorem alignCursor_enc (s : State) :
    (alignCursor s).enc = s.enc := rfl
@[simp] theorem alignCursor_pk (s : State) :
    (alignCursor s).pk = s.pk := rfl
@[simp] theorem alignCursor_uop (s : State) :
    (alignCursor s).uop = s.uop := rfl
@[simp] theorem alignCursor_host (s : State) :
    (alignCursor s).host = s.host := rfl
@[simp] theorem alignCursor_hostData (s : State) :
    (alignCursor s).hostData = s.hostData := rfl
@[simp] theorem alignCursor_taken (s : State) :
    (alignCursor s).taken = s.taken := rfl
@[simp] theorem alignCursor_synced (s : State) :
    (alignCursor s).synced = s.synced := rfl
@[simp] theorem alignCursor_draws (s : State) :
    (alignCursor s).draws = s.draws := rfl

/-! ### `setResVal` -/

@[simp] theorem setResVal_cfg (v : Nat) (s : State) :
    (setResVal v s).cfg = s.cfg := rfl
@[simp] theorem setResVal_state (v : Nat) (s : State) :
    (setResVal v s).state = s.state := rfl
@[simp] theorem setResVal_ctrl (v : Nat) (s : State) :
    (setResVal v s).ctrl = s.ctrl := rfl
@[simp] theorem setResVal_inLen (v : Nat) (s : State) :
    (setResVal v s).inLen = s.inLen := rfl
@[simp] theorem setResVal_tokenCount (v : Nat) (s : State) :
    (setResVal v s).tokenCount = s.tokenCount := rfl
@[simp] theorem setResVal_err (v : Nat) (s : State) :
    (setResVal v s).err = s.err := rfl
@[simp] theorem setResVal_inMem (v : Nat) (s : State) :
    (setResVal v s).inMem = s.inMem := rfl
@[simp] theorem setResVal_outMem (v : Nat) (s : State) :
    (setResVal v s).outMem = s.outMem := rfl
@[simp] theorem setResVal_litlenLen (v : Nat) (s : State) :
    (setResVal v s).litlenLen = s.litlenLen := rfl
@[simp] theorem setResVal_distLen (v : Nat) (s : State) :
    (setResVal v s).distLen = s.distLen := rfl
@[simp] theorem setResVal_metaLenMem (v : Nat) (s : State) :
    (setResVal v s).metaLenMem = s.metaLenMem := rfl
@[simp] theorem setResVal_tokenOut (v : Nat) (s : State) :
    (setResVal v s).tokenOut = s.tokenOut := rfl
@[simp] theorem setResVal_tokenIn (v : Nat) (s : State) :
    (setResVal v s).tokenIn = s.tokenIn := rfl
@[simp] theorem setResVal_cur (v : Nat) (s : State) :
    (setResVal v s).cur = s.cur := rfl
@[simp] theorem setResVal_par (v : Nat) (s : State) :
    (setResVal v s).par = s.par := rfl
@[simp] theorem setResVal_bg (v : Nat) (s : State) :
    (setResVal v s).bg = s.bg := rfl
@[simp] theorem setResVal_slots (v : Nat) (s : State) :
    (setResVal v s).slots = s.slots := rfl
@[simp] theorem setResVal_enc (v : Nat) (s : State) :
    (setResVal v s).enc = s.enc := rfl
@[simp] theorem setResVal_pk (v : Nat) (s : State) :
    (setResVal v s).pk = s.pk := rfl
@[simp] theorem setResVal_uop (v : Nat) (s : State) :
    (setResVal v s).uop = { s.uop with resVal := BitVec.ofNat 32 v } := rfl
@[simp] theorem setResVal_host (v : Nat) (s : State) :
    (setResVal v s).host = s.host := rfl
@[simp] theorem setResVal_hostData (v : Nat) (s : State) :
    (setResVal v s).hostData = s.hostData := rfl
@[simp] theorem setResVal_taken (v : Nat) (s : State) :
    (setResVal v s).taken = s.taken := rfl
@[simp] theorem setResVal_synced (v : Nat) (s : State) :
    (setResVal v s).synced = s.synced := rfl
@[simp] theorem setResVal_draws (v : Nat) (s : State) :
    (setResVal v s).draws = s.draws := rfl

/-! ### `setResEntry` -/

@[simp] theorem setResEntry_cfg (e : Entry) (s : State) :
    (setResEntry e s).cfg = s.cfg := rfl
@[simp] theorem setResEntry_state (e : Entry) (s : State) :
    (setResEntry e s).state = s.state := rfl
@[simp] theorem setResEntry_ctrl (e : Entry) (s : State) :
    (setResEntry e s).ctrl = s.ctrl := rfl
@[simp] theorem setResEntry_inLen (e : Entry) (s : State) :
    (setResEntry e s).inLen = s.inLen := rfl
@[simp] theorem setResEntry_tokenCount (e : Entry) (s : State) :
    (setResEntry e s).tokenCount = s.tokenCount := rfl
@[simp] theorem setResEntry_err (e : Entry) (s : State) :
    (setResEntry e s).err = s.err := rfl
@[simp] theorem setResEntry_inMem (e : Entry) (s : State) :
    (setResEntry e s).inMem = s.inMem := rfl
@[simp] theorem setResEntry_outMem (e : Entry) (s : State) :
    (setResEntry e s).outMem = s.outMem := rfl
@[simp] theorem setResEntry_litlenLen (e : Entry) (s : State) :
    (setResEntry e s).litlenLen = s.litlenLen := rfl
@[simp] theorem setResEntry_distLen (e : Entry) (s : State) :
    (setResEntry e s).distLen = s.distLen := rfl
@[simp] theorem setResEntry_metaLenMem (e : Entry) (s : State) :
    (setResEntry e s).metaLenMem = s.metaLenMem := rfl
@[simp] theorem setResEntry_tokenOut (e : Entry) (s : State) :
    (setResEntry e s).tokenOut = s.tokenOut := rfl
@[simp] theorem setResEntry_tokenIn (e : Entry) (s : State) :
    (setResEntry e s).tokenIn = s.tokenIn := rfl
@[simp] theorem setResEntry_cur (e : Entry) (s : State) :
    (setResEntry e s).cur = s.cur := rfl
@[simp] theorem setResEntry_par (e : Entry) (s : State) :
    (setResEntry e s).par = s.par := rfl
@[simp] theorem setResEntry_bg (e : Entry) (s : State) :
    (setResEntry e s).bg = s.bg := rfl
@[simp] theorem setResEntry_slots (e : Entry) (s : State) :
    (setResEntry e s).slots = s.slots := rfl
@[simp] theorem setResEntry_enc (e : Entry) (s : State) :
    (setResEntry e s).enc = s.enc := rfl
@[simp] theorem setResEntry_pk (e : Entry) (s : State) :
    (setResEntry e s).pk = s.pk := rfl
@[simp] theorem setResEntry_uop (e : Entry) (s : State) :
    (setResEntry e s).uop = { s.uop with resEntry := e } := rfl
@[simp] theorem setResEntry_host (e : Entry) (s : State) :
    (setResEntry e s).host = s.host := rfl
@[simp] theorem setResEntry_hostData (e : Entry) (s : State) :
    (setResEntry e s).hostData = s.hostData := rfl
@[simp] theorem setResEntry_taken (e : Entry) (s : State) :
    (setResEntry e s).taken = s.taken := rfl
@[simp] theorem setResEntry_synced (e : Entry) (s : State) :
    (setResEntry e s).synced = s.synced := rfl
@[simp] theorem setResEntry_draws (e : Entry) (s : State) :
    (setResEntry e s).draws = s.draws := rfl

/-! ### `setResLens` -/

@[simp] theorem setResLens_cfg (l : List (BitVec 4)) (s : State) :
    (setResLens l s).cfg = s.cfg := rfl
@[simp] theorem setResLens_state (l : List (BitVec 4)) (s : State) :
    (setResLens l s).state = s.state := rfl
@[simp] theorem setResLens_ctrl (l : List (BitVec 4)) (s : State) :
    (setResLens l s).ctrl = s.ctrl := rfl
@[simp] theorem setResLens_inLen (l : List (BitVec 4)) (s : State) :
    (setResLens l s).inLen = s.inLen := rfl
@[simp] theorem setResLens_tokenCount (l : List (BitVec 4)) (s : State) :
    (setResLens l s).tokenCount = s.tokenCount := rfl
@[simp] theorem setResLens_err (l : List (BitVec 4)) (s : State) :
    (setResLens l s).err = s.err := rfl
@[simp] theorem setResLens_inMem (l : List (BitVec 4)) (s : State) :
    (setResLens l s).inMem = s.inMem := rfl
@[simp] theorem setResLens_outMem (l : List (BitVec 4)) (s : State) :
    (setResLens l s).outMem = s.outMem := rfl
@[simp] theorem setResLens_litlenLen (l : List (BitVec 4)) (s : State) :
    (setResLens l s).litlenLen = s.litlenLen := rfl
@[simp] theorem setResLens_distLen (l : List (BitVec 4)) (s : State) :
    (setResLens l s).distLen = s.distLen := rfl
@[simp] theorem setResLens_metaLenMem (l : List (BitVec 4)) (s : State) :
    (setResLens l s).metaLenMem = s.metaLenMem := rfl
@[simp] theorem setResLens_tokenOut (l : List (BitVec 4)) (s : State) :
    (setResLens l s).tokenOut = s.tokenOut := rfl
@[simp] theorem setResLens_tokenIn (l : List (BitVec 4)) (s : State) :
    (setResLens l s).tokenIn = s.tokenIn := rfl
@[simp] theorem setResLens_cur (l : List (BitVec 4)) (s : State) :
    (setResLens l s).cur = s.cur := rfl
@[simp] theorem setResLens_par (l : List (BitVec 4)) (s : State) :
    (setResLens l s).par = s.par := rfl
@[simp] theorem setResLens_bg (l : List (BitVec 4)) (s : State) :
    (setResLens l s).bg = s.bg := rfl
@[simp] theorem setResLens_slots (l : List (BitVec 4)) (s : State) :
    (setResLens l s).slots = s.slots := rfl
@[simp] theorem setResLens_enc (l : List (BitVec 4)) (s : State) :
    (setResLens l s).enc = s.enc := rfl
@[simp] theorem setResLens_pk (l : List (BitVec 4)) (s : State) :
    (setResLens l s).pk = s.pk := rfl
@[simp] theorem setResLens_uop (l : List (BitVec 4)) (s : State) :
    (setResLens l s).uop = { s.uop with resLens := l } := rfl
@[simp] theorem setResLens_host (l : List (BitVec 4)) (s : State) :
    (setResLens l s).host = s.host := rfl
@[simp] theorem setResLens_hostData (l : List (BitVec 4)) (s : State) :
    (setResLens l s).hostData = s.hostData := rfl
@[simp] theorem setResLens_taken (l : List (BitVec 4)) (s : State) :
    (setResLens l s).taken = s.taken := rfl
@[simp] theorem setResLens_synced (l : List (BitVec 4)) (s : State) :
    (setResLens l s).synced = s.synced := rfl
@[simp] theorem setResLens_draws (l : List (BitVec 4)) (s : State) :
    (setResLens l s).draws = s.draws := rfl

/-! ### `setBfinal` -/

@[simp] theorem setBfinal_cfg (v : Nat) (s : State) :
    (setBfinal v s).cfg = s.cfg := rfl
@[simp] theorem setBfinal_state (v : Nat) (s : State) :
    (setBfinal v s).state = s.state := rfl
@[simp] theorem setBfinal_ctrl (v : Nat) (s : State) :
    (setBfinal v s).ctrl = s.ctrl := rfl
@[simp] theorem setBfinal_inLen (v : Nat) (s : State) :
    (setBfinal v s).inLen = s.inLen := rfl
@[simp] theorem setBfinal_tokenCount (v : Nat) (s : State) :
    (setBfinal v s).tokenCount = s.tokenCount := rfl
@[simp] theorem setBfinal_err (v : Nat) (s : State) :
    (setBfinal v s).err = s.err := rfl
@[simp] theorem setBfinal_inMem (v : Nat) (s : State) :
    (setBfinal v s).inMem = s.inMem := rfl
@[simp] theorem setBfinal_outMem (v : Nat) (s : State) :
    (setBfinal v s).outMem = s.outMem := rfl
@[simp] theorem setBfinal_litlenLen (v : Nat) (s : State) :
    (setBfinal v s).litlenLen = s.litlenLen := rfl
@[simp] theorem setBfinal_distLen (v : Nat) (s : State) :
    (setBfinal v s).distLen = s.distLen := rfl
@[simp] theorem setBfinal_metaLenMem (v : Nat) (s : State) :
    (setBfinal v s).metaLenMem = s.metaLenMem := rfl
@[simp] theorem setBfinal_tokenOut (v : Nat) (s : State) :
    (setBfinal v s).tokenOut = s.tokenOut := rfl
@[simp] theorem setBfinal_tokenIn (v : Nat) (s : State) :
    (setBfinal v s).tokenIn = s.tokenIn := rfl
@[simp] theorem setBfinal_cur (v : Nat) (s : State) :
    (setBfinal v s).cur = s.cur := rfl
@[simp] theorem setBfinal_par (v : Nat) (s : State) :
    (setBfinal v s).par = { s.par with bfinal := decide (v = 1) } := rfl
@[simp] theorem setBfinal_bg (v : Nat) (s : State) :
    (setBfinal v s).bg = s.bg := rfl
@[simp] theorem setBfinal_slots (v : Nat) (s : State) :
    (setBfinal v s).slots = s.slots := rfl
@[simp] theorem setBfinal_enc (v : Nat) (s : State) :
    (setBfinal v s).enc = s.enc := rfl
@[simp] theorem setBfinal_pk (v : Nat) (s : State) :
    (setBfinal v s).pk = s.pk := rfl
@[simp] theorem setBfinal_uop (v : Nat) (s : State) :
    (setBfinal v s).uop = s.uop := rfl
@[simp] theorem setBfinal_host (v : Nat) (s : State) :
    (setBfinal v s).host = s.host := rfl
@[simp] theorem setBfinal_hostData (v : Nat) (s : State) :
    (setBfinal v s).hostData = s.hostData := rfl
@[simp] theorem setBfinal_taken (v : Nat) (s : State) :
    (setBfinal v s).taken = s.taken := rfl
@[simp] theorem setBfinal_synced (v : Nat) (s : State) :
    (setBfinal v s).synced = s.synced := rfl
@[simp] theorem setBfinal_draws (v : Nat) (s : State) :
    (setBfinal v s).draws = s.draws := rfl

/-! ### `setBtype` -/

@[simp] theorem setBtype_cfg (v : Nat) (s : State) :
    (setBtype v s).cfg = s.cfg := rfl
@[simp] theorem setBtype_state (v : Nat) (s : State) :
    (setBtype v s).state = s.state := rfl
@[simp] theorem setBtype_ctrl (v : Nat) (s : State) :
    (setBtype v s).ctrl = s.ctrl := rfl
@[simp] theorem setBtype_inLen (v : Nat) (s : State) :
    (setBtype v s).inLen = s.inLen := rfl
@[simp] theorem setBtype_tokenCount (v : Nat) (s : State) :
    (setBtype v s).tokenCount = s.tokenCount := rfl
@[simp] theorem setBtype_err (v : Nat) (s : State) :
    (setBtype v s).err = s.err := rfl
@[simp] theorem setBtype_inMem (v : Nat) (s : State) :
    (setBtype v s).inMem = s.inMem := rfl
@[simp] theorem setBtype_outMem (v : Nat) (s : State) :
    (setBtype v s).outMem = s.outMem := rfl
@[simp] theorem setBtype_litlenLen (v : Nat) (s : State) :
    (setBtype v s).litlenLen = s.litlenLen := rfl
@[simp] theorem setBtype_distLen (v : Nat) (s : State) :
    (setBtype v s).distLen = s.distLen := rfl
@[simp] theorem setBtype_metaLenMem (v : Nat) (s : State) :
    (setBtype v s).metaLenMem = s.metaLenMem := rfl
@[simp] theorem setBtype_tokenOut (v : Nat) (s : State) :
    (setBtype v s).tokenOut = s.tokenOut := rfl
@[simp] theorem setBtype_tokenIn (v : Nat) (s : State) :
    (setBtype v s).tokenIn = s.tokenIn := rfl
@[simp] theorem setBtype_cur (v : Nat) (s : State) :
    (setBtype v s).cur = s.cur := rfl
@[simp] theorem setBtype_par (v : Nat) (s : State) :
    (setBtype v s).par = { s.par with btype := BitVec.ofNat 2 v } := rfl
@[simp] theorem setBtype_bg (v : Nat) (s : State) :
    (setBtype v s).bg = s.bg := rfl
@[simp] theorem setBtype_slots (v : Nat) (s : State) :
    (setBtype v s).slots = s.slots := rfl
@[simp] theorem setBtype_enc (v : Nat) (s : State) :
    (setBtype v s).enc = s.enc := rfl
@[simp] theorem setBtype_pk (v : Nat) (s : State) :
    (setBtype v s).pk = s.pk := rfl
@[simp] theorem setBtype_uop (v : Nat) (s : State) :
    (setBtype v s).uop = s.uop := rfl
@[simp] theorem setBtype_host (v : Nat) (s : State) :
    (setBtype v s).host = s.host := rfl
@[simp] theorem setBtype_hostData (v : Nat) (s : State) :
    (setBtype v s).hostData = s.hostData := rfl
@[simp] theorem setBtype_taken (v : Nat) (s : State) :
    (setBtype v s).taken = s.taken := rfl
@[simp] theorem setBtype_synced (v : Nat) (s : State) :
    (setBtype v s).synced = s.synced := rfl
@[simp] theorem setBtype_draws (v : Nat) (s : State) :
    (setBtype v s).draws = s.draws := rfl

/-! ### `setStoredRem` -/

@[simp] theorem setStoredRem_cfg (v : Nat) (s : State) :
    (setStoredRem v s).cfg = s.cfg := rfl
@[simp] theorem setStoredRem_state (v : Nat) (s : State) :
    (setStoredRem v s).state = s.state := rfl
@[simp] theorem setStoredRem_ctrl (v : Nat) (s : State) :
    (setStoredRem v s).ctrl = s.ctrl := rfl
@[simp] theorem setStoredRem_inLen (v : Nat) (s : State) :
    (setStoredRem v s).inLen = s.inLen := rfl
@[simp] theorem setStoredRem_tokenCount (v : Nat) (s : State) :
    (setStoredRem v s).tokenCount = s.tokenCount := rfl
@[simp] theorem setStoredRem_err (v : Nat) (s : State) :
    (setStoredRem v s).err = s.err := rfl
@[simp] theorem setStoredRem_inMem (v : Nat) (s : State) :
    (setStoredRem v s).inMem = s.inMem := rfl
@[simp] theorem setStoredRem_outMem (v : Nat) (s : State) :
    (setStoredRem v s).outMem = s.outMem := rfl
@[simp] theorem setStoredRem_litlenLen (v : Nat) (s : State) :
    (setStoredRem v s).litlenLen = s.litlenLen := rfl
@[simp] theorem setStoredRem_distLen (v : Nat) (s : State) :
    (setStoredRem v s).distLen = s.distLen := rfl
@[simp] theorem setStoredRem_metaLenMem (v : Nat) (s : State) :
    (setStoredRem v s).metaLenMem = s.metaLenMem := rfl
@[simp] theorem setStoredRem_tokenOut (v : Nat) (s : State) :
    (setStoredRem v s).tokenOut = s.tokenOut := rfl
@[simp] theorem setStoredRem_tokenIn (v : Nat) (s : State) :
    (setStoredRem v s).tokenIn = s.tokenIn := rfl
@[simp] theorem setStoredRem_cur (v : Nat) (s : State) :
    (setStoredRem v s).cur = s.cur := rfl
@[simp] theorem setStoredRem_par (v : Nat) (s : State) :
    (setStoredRem v s).par = { s.par with storedRem := BitVec.ofNat 16 v } := rfl
@[simp] theorem setStoredRem_bg (v : Nat) (s : State) :
    (setStoredRem v s).bg = s.bg := rfl
@[simp] theorem setStoredRem_slots (v : Nat) (s : State) :
    (setStoredRem v s).slots = s.slots := rfl
@[simp] theorem setStoredRem_enc (v : Nat) (s : State) :
    (setStoredRem v s).enc = s.enc := rfl
@[simp] theorem setStoredRem_pk (v : Nat) (s : State) :
    (setStoredRem v s).pk = s.pk := rfl
@[simp] theorem setStoredRem_uop (v : Nat) (s : State) :
    (setStoredRem v s).uop = s.uop := rfl
@[simp] theorem setStoredRem_host (v : Nat) (s : State) :
    (setStoredRem v s).host = s.host := rfl
@[simp] theorem setStoredRem_hostData (v : Nat) (s : State) :
    (setStoredRem v s).hostData = s.hostData := rfl
@[simp] theorem setStoredRem_taken (v : Nat) (s : State) :
    (setStoredRem v s).taken = s.taken := rfl
@[simp] theorem setStoredRem_synced (v : Nat) (s : State) :
    (setStoredRem v s).synced = s.synced := rfl
@[simp] theorem setStoredRem_draws (v : Nat) (s : State) :
    (setStoredRem v s).draws = s.draws := rfl

/-! ### `appendLens` -/

@[simp] theorem appendLens_cfg (v : BitVec 4) (n : Nat) (s : State) :
    (appendLens v n s).cfg = s.cfg := rfl
@[simp] theorem appendLens_state (v : BitVec 4) (n : Nat) (s : State) :
    (appendLens v n s).state = s.state := rfl
@[simp] theorem appendLens_ctrl (v : BitVec 4) (n : Nat) (s : State) :
    (appendLens v n s).ctrl = s.ctrl := rfl
@[simp] theorem appendLens_inLen (v : BitVec 4) (n : Nat) (s : State) :
    (appendLens v n s).inLen = s.inLen := rfl
@[simp] theorem appendLens_tokenCount (v : BitVec 4) (n : Nat) (s : State) :
    (appendLens v n s).tokenCount = s.tokenCount := rfl
@[simp] theorem appendLens_err (v : BitVec 4) (n : Nat) (s : State) :
    (appendLens v n s).err = s.err := rfl
@[simp] theorem appendLens_inMem (v : BitVec 4) (n : Nat) (s : State) :
    (appendLens v n s).inMem = s.inMem := rfl
@[simp] theorem appendLens_outMem (v : BitVec 4) (n : Nat) (s : State) :
    (appendLens v n s).outMem = s.outMem := rfl
@[simp] theorem appendLens_litlenLen (v : BitVec 4) (n : Nat) (s : State) :
    (appendLens v n s).litlenLen = s.litlenLen := rfl
@[simp] theorem appendLens_distLen (v : BitVec 4) (n : Nat) (s : State) :
    (appendLens v n s).distLen = s.distLen := rfl
@[simp] theorem appendLens_metaLenMem (v : BitVec 4) (n : Nat) (s : State) :
    (appendLens v n s).metaLenMem = s.metaLenMem := rfl
@[simp] theorem appendLens_tokenOut (v : BitVec 4) (n : Nat) (s : State) :
    (appendLens v n s).tokenOut = s.tokenOut := rfl
@[simp] theorem appendLens_tokenIn (v : BitVec 4) (n : Nat) (s : State) :
    (appendLens v n s).tokenIn = s.tokenIn := rfl
@[simp] theorem appendLens_cur (v : BitVec 4) (n : Nat) (s : State) :
    (appendLens v n s).cur = s.cur := rfl
@[simp] theorem appendLens_bg (v : BitVec 4) (n : Nat) (s : State) :
    (appendLens v n s).bg = s.bg := rfl
@[simp] theorem appendLens_slots (v : BitVec 4) (n : Nat) (s : State) :
    (appendLens v n s).slots = s.slots := rfl
@[simp] theorem appendLens_enc (v : BitVec 4) (n : Nat) (s : State) :
    (appendLens v n s).enc = s.enc := rfl
@[simp] theorem appendLens_pk (v : BitVec 4) (n : Nat) (s : State) :
    (appendLens v n s).pk = s.pk := rfl
@[simp] theorem appendLens_uop (v : BitVec 4) (n : Nat) (s : State) :
    (appendLens v n s).uop = s.uop := rfl
@[simp] theorem appendLens_host (v : BitVec 4) (n : Nat) (s : State) :
    (appendLens v n s).host = s.host := rfl
@[simp] theorem appendLens_hostData (v : BitVec 4) (n : Nat) (s : State) :
    (appendLens v n s).hostData = s.hostData := rfl
@[simp] theorem appendLens_taken (v : BitVec 4) (n : Nat) (s : State) :
    (appendLens v n s).taken = s.taken := rfl
@[simp] theorem appendLens_synced (v : BitVec 4) (n : Nat) (s : State) :
    (appendLens v n s).synced = s.synced := rfl
@[simp] theorem appendLens_draws (v : BitVec 4) (n : Nat) (s : State) :
    (appendLens v n s).draws = s.draws := rfl

/-! ### `appendPairs` -/

@[simp] theorem appendPairs_cfg (lens : List Nat) (s : State) :
    (appendPairs lens s).cfg = s.cfg := rfl
@[simp] theorem appendPairs_state (lens : List Nat) (s : State) :
    (appendPairs lens s).state = s.state := rfl
@[simp] theorem appendPairs_ctrl (lens : List Nat) (s : State) :
    (appendPairs lens s).ctrl = s.ctrl := rfl
@[simp] theorem appendPairs_inLen (lens : List Nat) (s : State) :
    (appendPairs lens s).inLen = s.inLen := rfl
@[simp] theorem appendPairs_tokenCount (lens : List Nat) (s : State) :
    (appendPairs lens s).tokenCount = s.tokenCount := rfl
@[simp] theorem appendPairs_err (lens : List Nat) (s : State) :
    (appendPairs lens s).err = s.err := rfl
@[simp] theorem appendPairs_inMem (lens : List Nat) (s : State) :
    (appendPairs lens s).inMem = s.inMem := rfl
@[simp] theorem appendPairs_outMem (lens : List Nat) (s : State) :
    (appendPairs lens s).outMem = s.outMem := rfl
@[simp] theorem appendPairs_litlenLen (lens : List Nat) (s : State) :
    (appendPairs lens s).litlenLen = s.litlenLen := rfl
@[simp] theorem appendPairs_distLen (lens : List Nat) (s : State) :
    (appendPairs lens s).distLen = s.distLen := rfl
@[simp] theorem appendPairs_metaLenMem (lens : List Nat) (s : State) :
    (appendPairs lens s).metaLenMem = s.metaLenMem := rfl
@[simp] theorem appendPairs_tokenOut (lens : List Nat) (s : State) :
    (appendPairs lens s).tokenOut = s.tokenOut := rfl
@[simp] theorem appendPairs_tokenIn (lens : List Nat) (s : State) :
    (appendPairs lens s).tokenIn = s.tokenIn := rfl
@[simp] theorem appendPairs_cur (lens : List Nat) (s : State) :
    (appendPairs lens s).cur = s.cur := rfl
@[simp] theorem appendPairs_par (lens : List Nat) (s : State) :
    (appendPairs lens s).par = s.par := rfl
@[simp] theorem appendPairs_bg (lens : List Nat) (s : State) :
    (appendPairs lens s).bg = s.bg := rfl
@[simp] theorem appendPairs_slots (lens : List Nat) (s : State) :
    (appendPairs lens s).slots = s.slots := rfl
@[simp] theorem appendPairs_enc (lens : List Nat) (s : State) :
    (appendPairs lens s).enc = { s.enc with rq := s.enc.rq ++ rlePairs lens } := rfl
@[simp] theorem appendPairs_pk (lens : List Nat) (s : State) :
    (appendPairs lens s).pk = s.pk := rfl
@[simp] theorem appendPairs_uop (lens : List Nat) (s : State) :
    (appendPairs lens s).uop = s.uop := rfl
@[simp] theorem appendPairs_host (lens : List Nat) (s : State) :
    (appendPairs lens s).host = s.host := rfl
@[simp] theorem appendPairs_hostData (lens : List Nat) (s : State) :
    (appendPairs lens s).hostData = s.hostData := rfl
@[simp] theorem appendPairs_taken (lens : List Nat) (s : State) :
    (appendPairs lens s).taken = s.taken := rfl
@[simp] theorem appendPairs_synced (lens : List Nat) (s : State) :
    (appendPairs lens s).synced = s.synced := rfl
@[simp] theorem appendPairs_draws (lens : List Nat) (s : State) :
    (appendPairs lens s).draws = s.draws := rfl

/-! ### `accumulate` -/

@[simp] theorem accumulate_cfg (v n : Nat) (s : State) :
    (accumulate v n s).cfg = s.cfg := rfl
@[simp] theorem accumulate_state (v n : Nat) (s : State) :
    (accumulate v n s).state = s.state := rfl
@[simp] theorem accumulate_ctrl (v n : Nat) (s : State) :
    (accumulate v n s).ctrl = s.ctrl := rfl
@[simp] theorem accumulate_inLen (v n : Nat) (s : State) :
    (accumulate v n s).inLen = s.inLen := rfl
@[simp] theorem accumulate_tokenCount (v n : Nat) (s : State) :
    (accumulate v n s).tokenCount = s.tokenCount := rfl
@[simp] theorem accumulate_err (v n : Nat) (s : State) :
    (accumulate v n s).err = s.err := rfl
@[simp] theorem accumulate_inMem (v n : Nat) (s : State) :
    (accumulate v n s).inMem = s.inMem := rfl
@[simp] theorem accumulate_outMem (v n : Nat) (s : State) :
    (accumulate v n s).outMem = s.outMem := rfl
@[simp] theorem accumulate_litlenLen (v n : Nat) (s : State) :
    (accumulate v n s).litlenLen = s.litlenLen := rfl
@[simp] theorem accumulate_distLen (v n : Nat) (s : State) :
    (accumulate v n s).distLen = s.distLen := rfl
@[simp] theorem accumulate_metaLenMem (v n : Nat) (s : State) :
    (accumulate v n s).metaLenMem = s.metaLenMem := rfl
@[simp] theorem accumulate_tokenOut (v n : Nat) (s : State) :
    (accumulate v n s).tokenOut = s.tokenOut := rfl
@[simp] theorem accumulate_tokenIn (v n : Nat) (s : State) :
    (accumulate v n s).tokenIn = s.tokenIn := rfl
@[simp] theorem accumulate_cur (v n : Nat) (s : State) :
    (accumulate v n s).cur = s.cur := rfl
@[simp] theorem accumulate_par (v n : Nat) (s : State) :
    (accumulate v n s).par = s.par := rfl
@[simp] theorem accumulate_bg (v n : Nat) (s : State) :
    (accumulate v n s).bg = s.bg := rfl
@[simp] theorem accumulate_slots (v n : Nat) (s : State) :
    (accumulate v n s).slots = s.slots := rfl
@[simp] theorem accumulate_enc (v n : Nat) (s : State) :
    (accumulate v n s).enc = s.enc := rfl
@[simp] theorem accumulate_uop (v n : Nat) (s : State) :
    (accumulate v n s).uop = s.uop := rfl
@[simp] theorem accumulate_host (v n : Nat) (s : State) :
    (accumulate v n s).host = s.host := rfl
@[simp] theorem accumulate_hostData (v n : Nat) (s : State) :
    (accumulate v n s).hostData = s.hostData := rfl
@[simp] theorem accumulate_taken (v n : Nat) (s : State) :
    (accumulate v n s).taken = s.taken := rfl
@[simp] theorem accumulate_synced (v n : Nat) (s : State) :
    (accumulate v n s).synced = s.synced := rfl
@[simp] theorem accumulate_draws (v n : Nat) (s : State) :
    (accumulate v n s).draws = s.draws := rfl

/-! ### `dropPacked` -/

@[simp] theorem dropPacked_cfg (n : Nat) (s : State) :
    (dropPacked n s).cfg = s.cfg := rfl
@[simp] theorem dropPacked_state (n : Nat) (s : State) :
    (dropPacked n s).state = s.state := rfl
@[simp] theorem dropPacked_ctrl (n : Nat) (s : State) :
    (dropPacked n s).ctrl = s.ctrl := rfl
@[simp] theorem dropPacked_inLen (n : Nat) (s : State) :
    (dropPacked n s).inLen = s.inLen := rfl
@[simp] theorem dropPacked_tokenCount (n : Nat) (s : State) :
    (dropPacked n s).tokenCount = s.tokenCount := rfl
@[simp] theorem dropPacked_err (n : Nat) (s : State) :
    (dropPacked n s).err = s.err := rfl
@[simp] theorem dropPacked_inMem (n : Nat) (s : State) :
    (dropPacked n s).inMem = s.inMem := rfl
@[simp] theorem dropPacked_outMem (n : Nat) (s : State) :
    (dropPacked n s).outMem = s.outMem := rfl
@[simp] theorem dropPacked_litlenLen (n : Nat) (s : State) :
    (dropPacked n s).litlenLen = s.litlenLen := rfl
@[simp] theorem dropPacked_distLen (n : Nat) (s : State) :
    (dropPacked n s).distLen = s.distLen := rfl
@[simp] theorem dropPacked_metaLenMem (n : Nat) (s : State) :
    (dropPacked n s).metaLenMem = s.metaLenMem := rfl
@[simp] theorem dropPacked_tokenOut (n : Nat) (s : State) :
    (dropPacked n s).tokenOut = s.tokenOut := rfl
@[simp] theorem dropPacked_tokenIn (n : Nat) (s : State) :
    (dropPacked n s).tokenIn = s.tokenIn := rfl
@[simp] theorem dropPacked_cur (n : Nat) (s : State) :
    (dropPacked n s).cur = s.cur := rfl
@[simp] theorem dropPacked_par (n : Nat) (s : State) :
    (dropPacked n s).par = s.par := rfl
@[simp] theorem dropPacked_bg (n : Nat) (s : State) :
    (dropPacked n s).bg = s.bg := rfl
@[simp] theorem dropPacked_slots (n : Nat) (s : State) :
    (dropPacked n s).slots = s.slots := rfl
@[simp] theorem dropPacked_enc (n : Nat) (s : State) :
    (dropPacked n s).enc = s.enc := rfl
@[simp] theorem dropPacked_uop (n : Nat) (s : State) :
    (dropPacked n s).uop = s.uop := rfl
@[simp] theorem dropPacked_host (n : Nat) (s : State) :
    (dropPacked n s).host = s.host := rfl
@[simp] theorem dropPacked_hostData (n : Nat) (s : State) :
    (dropPacked n s).hostData = s.hostData := rfl
@[simp] theorem dropPacked_taken (n : Nat) (s : State) :
    (dropPacked n s).taken = s.taken := rfl
@[simp] theorem dropPacked_synced (n : Nat) (s : State) :
    (dropPacked n s).synced = s.synced := rfl
@[simp] theorem dropPacked_draws (n : Nat) (s : State) :
    (dropPacked n s).draws = s.draws := rfl

/-! ### `setCounts` -/

@[simp] theorem setCounts_cfg (lit dist codeLen : List Nat) (s : State) :
    (setCounts lit dist codeLen s).cfg = s.cfg := by simp only [setCounts]
@[simp] theorem setCounts_state (lit dist codeLen : List Nat) (s : State) :
    (setCounts lit dist codeLen s).state = s.state := by simp only [setCounts]
@[simp] theorem setCounts_ctrl (lit dist codeLen : List Nat) (s : State) :
    (setCounts lit dist codeLen s).ctrl = s.ctrl := by simp only [setCounts]
@[simp] theorem setCounts_inLen (lit dist codeLen : List Nat) (s : State) :
    (setCounts lit dist codeLen s).inLen = s.inLen := by simp only [setCounts]
@[simp] theorem setCounts_tokenCount (lit dist codeLen : List Nat) (s : State) :
    (setCounts lit dist codeLen s).tokenCount = s.tokenCount := by simp only [setCounts]
@[simp] theorem setCounts_err (lit dist codeLen : List Nat) (s : State) :
    (setCounts lit dist codeLen s).err = s.err := by simp only [setCounts]
@[simp] theorem setCounts_inMem (lit dist codeLen : List Nat) (s : State) :
    (setCounts lit dist codeLen s).inMem = s.inMem := by simp only [setCounts]
@[simp] theorem setCounts_outMem (lit dist codeLen : List Nat) (s : State) :
    (setCounts lit dist codeLen s).outMem = s.outMem := by simp only [setCounts]
@[simp] theorem setCounts_litlenLen (lit dist codeLen : List Nat) (s : State) :
    (setCounts lit dist codeLen s).litlenLen = s.litlenLen := by simp only [setCounts]
@[simp] theorem setCounts_distLen (lit dist codeLen : List Nat) (s : State) :
    (setCounts lit dist codeLen s).distLen = s.distLen := by simp only [setCounts]
@[simp] theorem setCounts_metaLenMem (lit dist codeLen : List Nat) (s : State) :
    (setCounts lit dist codeLen s).metaLenMem = s.metaLenMem := by simp only [setCounts]
@[simp] theorem setCounts_tokenOut (lit dist codeLen : List Nat) (s : State) :
    (setCounts lit dist codeLen s).tokenOut = s.tokenOut := by simp only [setCounts]
@[simp] theorem setCounts_tokenIn (lit dist codeLen : List Nat) (s : State) :
    (setCounts lit dist codeLen s).tokenIn = s.tokenIn := by simp only [setCounts]
@[simp] theorem setCounts_cur (lit dist codeLen : List Nat) (s : State) :
    (setCounts lit dist codeLen s).cur = s.cur := by simp only [setCounts]
@[simp] theorem setCounts_par (lit dist codeLen : List Nat) (s : State) :
    (setCounts lit dist codeLen s).par = s.par := by simp only [setCounts]
@[simp] theorem setCounts_bg (lit dist codeLen : List Nat) (s : State) :
    (setCounts lit dist codeLen s).bg = s.bg := by simp only [setCounts]
@[simp] theorem setCounts_slots (lit dist codeLen : List Nat) (s : State) :
    (setCounts lit dist codeLen s).slots = s.slots := by simp only [setCounts]
@[simp] theorem setCounts_pk (lit dist codeLen : List Nat) (s : State) :
    (setCounts lit dist codeLen s).pk = s.pk := by simp only [setCounts]
@[simp] theorem setCounts_uop (lit dist codeLen : List Nat) (s : State) :
    (setCounts lit dist codeLen s).uop = s.uop := by simp only [setCounts]
@[simp] theorem setCounts_host (lit dist codeLen : List Nat) (s : State) :
    (setCounts lit dist codeLen s).host = s.host := by simp only [setCounts]
@[simp] theorem setCounts_hostData (lit dist codeLen : List Nat) (s : State) :
    (setCounts lit dist codeLen s).hostData = s.hostData := by simp only [setCounts]
@[simp] theorem setCounts_taken (lit dist codeLen : List Nat) (s : State) :
    (setCounts lit dist codeLen s).taken = s.taken := by simp only [setCounts]
@[simp] theorem setCounts_synced (lit dist codeLen : List Nat) (s : State) :
    (setCounts lit dist codeLen s).synced = s.synced := by simp only [setCounts]
@[simp] theorem setCounts_draws (lit dist codeLen : List Nat) (s : State) :
    (setCounts lit dist codeLen s).draws = s.draws := by simp only [setCounts]

/-! ### `countToken` -/

@[simp] theorem countToken_cfg (w : Word) (s : State) :
    (countToken w s).cfg = s.cfg := rfl
@[simp] theorem countToken_state (w : Word) (s : State) :
    (countToken w s).state = s.state := rfl
@[simp] theorem countToken_ctrl (w : Word) (s : State) :
    (countToken w s).ctrl = s.ctrl := rfl
@[simp] theorem countToken_inLen (w : Word) (s : State) :
    (countToken w s).inLen = s.inLen := rfl
@[simp] theorem countToken_tokenCount (w : Word) (s : State) :
    (countToken w s).tokenCount = s.tokenCount + 1 := rfl
@[simp] theorem countToken_err (w : Word) (s : State) :
    (countToken w s).err = s.err := rfl
@[simp] theorem countToken_inMem (w : Word) (s : State) :
    (countToken w s).inMem = s.inMem := rfl
@[simp] theorem countToken_outMem (w : Word) (s : State) :
    (countToken w s).outMem = s.outMem := rfl
@[simp] theorem countToken_litlenLen (w : Word) (s : State) :
    (countToken w s).litlenLen = s.litlenLen := rfl
@[simp] theorem countToken_distLen (w : Word) (s : State) :
    (countToken w s).distLen = s.distLen := rfl
@[simp] theorem countToken_metaLenMem (w : Word) (s : State) :
    (countToken w s).metaLenMem = s.metaLenMem := rfl
@[simp] theorem countToken_tokenOut (w : Word) (s : State) :
    (countToken w s).tokenOut = s.tokenOut := rfl
@[simp] theorem countToken_tokenIn (w : Word) (s : State) :
    (countToken w s).tokenIn = s.tokenIn := rfl
@[simp] theorem countToken_cur (w : Word) (s : State) :
    (countToken w s).cur = s.cur := rfl
@[simp] theorem countToken_par (w : Word) (s : State) :
    (countToken w s).par = s.par := rfl
@[simp] theorem countToken_bg (w : Word) (s : State) :
    (countToken w s).bg = s.bg := rfl
@[simp] theorem countToken_slots (w : Word) (s : State) :
    (countToken w s).slots = s.slots := rfl
@[simp] theorem countToken_enc (w : Word) (s : State) :
    (countToken w s).enc = { s.enc with tok := w, tin := s.enc.tin + 1 } := rfl
@[simp] theorem countToken_pk (w : Word) (s : State) :
    (countToken w s).pk = s.pk := rfl
@[simp] theorem countToken_uop (w : Word) (s : State) :
    (countToken w s).uop = s.uop := rfl
@[simp] theorem countToken_host (w : Word) (s : State) :
    (countToken w s).host = s.host := rfl
@[simp] theorem countToken_hostData (w : Word) (s : State) :
    (countToken w s).hostData = s.hostData := rfl
@[simp] theorem countToken_taken (w : Word) (s : State) :
    (countToken w s).taken = s.taken := rfl
@[simp] theorem countToken_synced (w : Word) (s : State) :
    (countToken w s).synced = s.synced := rfl
@[simp] theorem countToken_draws (w : Word) (s : State) :
    (countToken w s).draws = s.draws := rfl

/-! ### `setClasses` -/

@[simp] theorem setClasses_cfg (l d : Nat) (s : State) :
    (setClasses l d s).cfg = s.cfg := rfl
@[simp] theorem setClasses_state (l d : Nat) (s : State) :
    (setClasses l d s).state = s.state := rfl
@[simp] theorem setClasses_ctrl (l d : Nat) (s : State) :
    (setClasses l d s).ctrl = s.ctrl := rfl
@[simp] theorem setClasses_inLen (l d : Nat) (s : State) :
    (setClasses l d s).inLen = s.inLen := rfl
@[simp] theorem setClasses_tokenCount (l d : Nat) (s : State) :
    (setClasses l d s).tokenCount = s.tokenCount := rfl
@[simp] theorem setClasses_err (l d : Nat) (s : State) :
    (setClasses l d s).err = s.err := rfl
@[simp] theorem setClasses_inMem (l d : Nat) (s : State) :
    (setClasses l d s).inMem = s.inMem := rfl
@[simp] theorem setClasses_outMem (l d : Nat) (s : State) :
    (setClasses l d s).outMem = s.outMem := rfl
@[simp] theorem setClasses_litlenLen (l d : Nat) (s : State) :
    (setClasses l d s).litlenLen = s.litlenLen := rfl
@[simp] theorem setClasses_distLen (l d : Nat) (s : State) :
    (setClasses l d s).distLen = s.distLen := rfl
@[simp] theorem setClasses_metaLenMem (l d : Nat) (s : State) :
    (setClasses l d s).metaLenMem = s.metaLenMem := rfl
@[simp] theorem setClasses_tokenOut (l d : Nat) (s : State) :
    (setClasses l d s).tokenOut = s.tokenOut := rfl
@[simp] theorem setClasses_tokenIn (l d : Nat) (s : State) :
    (setClasses l d s).tokenIn = s.tokenIn := rfl
@[simp] theorem setClasses_cur (l d : Nat) (s : State) :
    (setClasses l d s).cur = s.cur := rfl
@[simp] theorem setClasses_par (l d : Nat) (s : State) :
    (setClasses l d s).par = s.par := rfl
@[simp] theorem setClasses_bg (l d : Nat) (s : State) :
    (setClasses l d s).bg = s.bg := rfl
@[simp] theorem setClasses_slots (l d : Nat) (s : State) :
    (setClasses l d s).slots = s.slots := rfl
@[simp] theorem setClasses_pk (l d : Nat) (s : State) :
    (setClasses l d s).pk = s.pk := rfl
@[simp] theorem setClasses_uop (l d : Nat) (s : State) :
    (setClasses l d s).uop = s.uop := rfl
@[simp] theorem setClasses_host (l d : Nat) (s : State) :
    (setClasses l d s).host = s.host := rfl
@[simp] theorem setClasses_hostData (l d : Nat) (s : State) :
    (setClasses l d s).hostData = s.hostData := rfl
@[simp] theorem setClasses_taken (l d : Nat) (s : State) :
    (setClasses l d s).taken = s.taken := rfl
@[simp] theorem setClasses_synced (l d : Nat) (s : State) :
    (setClasses l d s).synced = s.synced := rfl
@[simp] theorem setClasses_draws (l d : Nat) (s : State) :
    (setClasses l d s).draws = s.draws := rfl

/-! ### `setCtrl` -/

@[simp] theorem setCtrl_cfg (m l : Bool) (s : State) :
    (setCtrl m l s).cfg = s.cfg := rfl
@[simp] theorem setCtrl_state (m l : Bool) (s : State) :
    (setCtrl m l s).state = s.state := rfl
@[simp] theorem setCtrl_ctrl (m l : Bool) (s : State) :
    (setCtrl m l s).ctrl = ⟨m, l⟩ := rfl
@[simp] theorem setCtrl_inLen (m l : Bool) (s : State) :
    (setCtrl m l s).inLen = s.inLen := rfl
@[simp] theorem setCtrl_tokenCount (m l : Bool) (s : State) :
    (setCtrl m l s).tokenCount = s.tokenCount := rfl
@[simp] theorem setCtrl_err (m l : Bool) (s : State) :
    (setCtrl m l s).err = s.err := rfl
@[simp] theorem setCtrl_inMem (m l : Bool) (s : State) :
    (setCtrl m l s).inMem = s.inMem := rfl
@[simp] theorem setCtrl_outMem (m l : Bool) (s : State) :
    (setCtrl m l s).outMem = s.outMem := rfl
@[simp] theorem setCtrl_litlenLen (m l : Bool) (s : State) :
    (setCtrl m l s).litlenLen = s.litlenLen := rfl
@[simp] theorem setCtrl_distLen (m l : Bool) (s : State) :
    (setCtrl m l s).distLen = s.distLen := rfl
@[simp] theorem setCtrl_metaLenMem (m l : Bool) (s : State) :
    (setCtrl m l s).metaLenMem = s.metaLenMem := rfl
@[simp] theorem setCtrl_tokenOut (m l : Bool) (s : State) :
    (setCtrl m l s).tokenOut = s.tokenOut := rfl
@[simp] theorem setCtrl_tokenIn (m l : Bool) (s : State) :
    (setCtrl m l s).tokenIn = s.tokenIn := rfl
@[simp] theorem setCtrl_cur (m l : Bool) (s : State) :
    (setCtrl m l s).cur = s.cur := rfl
@[simp] theorem setCtrl_par (m l : Bool) (s : State) :
    (setCtrl m l s).par = s.par := rfl
@[simp] theorem setCtrl_bg (m l : Bool) (s : State) :
    (setCtrl m l s).bg = s.bg := rfl
@[simp] theorem setCtrl_slots (m l : Bool) (s : State) :
    (setCtrl m l s).slots = s.slots := rfl
@[simp] theorem setCtrl_enc (m l : Bool) (s : State) :
    (setCtrl m l s).enc = s.enc := rfl
@[simp] theorem setCtrl_pk (m l : Bool) (s : State) :
    (setCtrl m l s).pk = s.pk := rfl
@[simp] theorem setCtrl_uop (m l : Bool) (s : State) :
    (setCtrl m l s).uop = s.uop := rfl
@[simp] theorem setCtrl_host (m l : Bool) (s : State) :
    (setCtrl m l s).host = s.host := rfl
@[simp] theorem setCtrl_hostData (m l : Bool) (s : State) :
    (setCtrl m l s).hostData = s.hostData := rfl
@[simp] theorem setCtrl_taken (m l : Bool) (s : State) :
    (setCtrl m l s).taken = s.taken := rfl
@[simp] theorem setCtrl_synced (m l : Bool) (s : State) :
    (setCtrl m l s).synced = s.synced := rfl
@[simp] theorem setCtrl_draws (m l : Bool) (s : State) :
    (setCtrl m l s).draws = s.draws := rfl

/-! ### `answer` -/

@[simp] theorem answer_cfg (v : Word) (s : State) :
    (answer v s).cfg = s.cfg := rfl
@[simp] theorem answer_state (v : Word) (s : State) :
    (answer v s).state = s.state := rfl
@[simp] theorem answer_ctrl (v : Word) (s : State) :
    (answer v s).ctrl = s.ctrl := rfl
@[simp] theorem answer_inLen (v : Word) (s : State) :
    (answer v s).inLen = s.inLen := rfl
@[simp] theorem answer_tokenCount (v : Word) (s : State) :
    (answer v s).tokenCount = s.tokenCount := rfl
@[simp] theorem answer_err (v : Word) (s : State) :
    (answer v s).err = s.err := rfl
@[simp] theorem answer_inMem (v : Word) (s : State) :
    (answer v s).inMem = s.inMem := rfl
@[simp] theorem answer_outMem (v : Word) (s : State) :
    (answer v s).outMem = s.outMem := rfl
@[simp] theorem answer_litlenLen (v : Word) (s : State) :
    (answer v s).litlenLen = s.litlenLen := rfl
@[simp] theorem answer_distLen (v : Word) (s : State) :
    (answer v s).distLen = s.distLen := rfl
@[simp] theorem answer_metaLenMem (v : Word) (s : State) :
    (answer v s).metaLenMem = s.metaLenMem := rfl
@[simp] theorem answer_tokenOut (v : Word) (s : State) :
    (answer v s).tokenOut = s.tokenOut := rfl
@[simp] theorem answer_tokenIn (v : Word) (s : State) :
    (answer v s).tokenIn = s.tokenIn := rfl
@[simp] theorem answer_cur (v : Word) (s : State) :
    (answer v s).cur = s.cur := rfl
@[simp] theorem answer_par (v : Word) (s : State) :
    (answer v s).par = s.par := rfl
@[simp] theorem answer_bg (v : Word) (s : State) :
    (answer v s).bg = s.bg := rfl
@[simp] theorem answer_slots (v : Word) (s : State) :
    (answer v s).slots = s.slots := rfl
@[simp] theorem answer_enc (v : Word) (s : State) :
    (answer v s).enc = s.enc := rfl
@[simp] theorem answer_pk (v : Word) (s : State) :
    (answer v s).pk = s.pk := rfl
@[simp] theorem answer_uop (v : Word) (s : State) :
    (answer v s).uop = s.uop := rfl
@[simp] theorem answer_host (v : Word) (s : State) :
    (answer v s).host = s.host := rfl
@[simp] theorem answer_hostData (v : Word) (s : State) :
    (answer v s).hostData = some v := rfl
@[simp] theorem answer_taken (v : Word) (s : State) :
    (answer v s).taken = s.taken := rfl
@[simp] theorem answer_synced (v : Word) (s : State) :
    (answer v s).synced = s.synced := rfl
@[simp] theorem answer_draws (v : Word) (s : State) :
    (answer v s).draws = s.draws := rfl

/-! ### `setSlot` -/

@[simp] theorem setSlot_cfg (sel : Sel) (x : Slot) (s : State) :
    (setSlot sel x s).cfg = s.cfg := by cases sel <;> rfl
@[simp] theorem setSlot_state (sel : Sel) (x : Slot) (s : State) :
    (setSlot sel x s).state = s.state := by cases sel <;> rfl
@[simp] theorem setSlot_ctrl (sel : Sel) (x : Slot) (s : State) :
    (setSlot sel x s).ctrl = s.ctrl := by cases sel <;> rfl
@[simp] theorem setSlot_inLen (sel : Sel) (x : Slot) (s : State) :
    (setSlot sel x s).inLen = s.inLen := by cases sel <;> rfl
@[simp] theorem setSlot_tokenCount (sel : Sel) (x : Slot) (s : State) :
    (setSlot sel x s).tokenCount = s.tokenCount := by cases sel <;> rfl
@[simp] theorem setSlot_err (sel : Sel) (x : Slot) (s : State) :
    (setSlot sel x s).err = s.err := by cases sel <;> rfl
@[simp] theorem setSlot_inMem (sel : Sel) (x : Slot) (s : State) :
    (setSlot sel x s).inMem = s.inMem := by cases sel <;> rfl
@[simp] theorem setSlot_outMem (sel : Sel) (x : Slot) (s : State) :
    (setSlot sel x s).outMem = s.outMem := by cases sel <;> rfl
@[simp] theorem setSlot_litlenLen (sel : Sel) (x : Slot) (s : State) :
    (setSlot sel x s).litlenLen = s.litlenLen := by cases sel <;> rfl
@[simp] theorem setSlot_distLen (sel : Sel) (x : Slot) (s : State) :
    (setSlot sel x s).distLen = s.distLen := by cases sel <;> rfl
@[simp] theorem setSlot_metaLenMem (sel : Sel) (x : Slot) (s : State) :
    (setSlot sel x s).metaLenMem = s.metaLenMem := by cases sel <;> rfl
@[simp] theorem setSlot_tokenOut (sel : Sel) (x : Slot) (s : State) :
    (setSlot sel x s).tokenOut = s.tokenOut := by cases sel <;> rfl
@[simp] theorem setSlot_tokenIn (sel : Sel) (x : Slot) (s : State) :
    (setSlot sel x s).tokenIn = s.tokenIn := by cases sel <;> rfl
@[simp] theorem setSlot_cur (sel : Sel) (x : Slot) (s : State) :
    (setSlot sel x s).cur = s.cur := by cases sel <;> rfl
@[simp] theorem setSlot_par (sel : Sel) (x : Slot) (s : State) :
    (setSlot sel x s).par = s.par := by cases sel <;> rfl
@[simp] theorem setSlot_bg (sel : Sel) (x : Slot) (s : State) :
    (setSlot sel x s).bg = s.bg := by cases sel <;> rfl
@[simp] theorem setSlot_enc (sel : Sel) (x : Slot) (s : State) :
    (setSlot sel x s).enc = s.enc := by cases sel <;> rfl
@[simp] theorem setSlot_pk (sel : Sel) (x : Slot) (s : State) :
    (setSlot sel x s).pk = s.pk := by cases sel <;> rfl
@[simp] theorem setSlot_uop (sel : Sel) (x : Slot) (s : State) :
    (setSlot sel x s).uop = s.uop := by cases sel <;> rfl
@[simp] theorem setSlot_host (sel : Sel) (x : Slot) (s : State) :
    (setSlot sel x s).host = s.host := by cases sel <;> rfl
@[simp] theorem setSlot_hostData (sel : Sel) (x : Slot) (s : State) :
    (setSlot sel x s).hostData = s.hostData := by cases sel <;> rfl
@[simp] theorem setSlot_taken (sel : Sel) (x : Slot) (s : State) :
    (setSlot sel x s).taken = s.taken := by cases sel <;> rfl
@[simp] theorem setSlot_synced (sel : Sel) (x : Slot) (s : State) :
    (setSlot sel x s).synced = s.synced := by cases sel <;> rfl
@[simp] theorem setSlot_draws (sel : Sel) (x : Slot) (s : State) :
    (setSlot sel x s).draws = s.draws := by cases sel <;> rfl

/-! ### `clearValid` -/

@[simp] theorem clearValid_cfg (sel : Sel) (s : State) :
    (clearValid sel s).cfg = s.cfg := by cases sel <;> rfl
@[simp] theorem clearValid_state (sel : Sel) (s : State) :
    (clearValid sel s).state = s.state := by cases sel <;> rfl
@[simp] theorem clearValid_ctrl (sel : Sel) (s : State) :
    (clearValid sel s).ctrl = s.ctrl := by cases sel <;> rfl
@[simp] theorem clearValid_inLen (sel : Sel) (s : State) :
    (clearValid sel s).inLen = s.inLen := by cases sel <;> rfl
@[simp] theorem clearValid_tokenCount (sel : Sel) (s : State) :
    (clearValid sel s).tokenCount = s.tokenCount := by cases sel <;> rfl
@[simp] theorem clearValid_err (sel : Sel) (s : State) :
    (clearValid sel s).err = s.err := by cases sel <;> rfl
@[simp] theorem clearValid_inMem (sel : Sel) (s : State) :
    (clearValid sel s).inMem = s.inMem := by cases sel <;> rfl
@[simp] theorem clearValid_outMem (sel : Sel) (s : State) :
    (clearValid sel s).outMem = s.outMem := by cases sel <;> rfl
@[simp] theorem clearValid_litlenLen (sel : Sel) (s : State) :
    (clearValid sel s).litlenLen = s.litlenLen := by cases sel <;> rfl
@[simp] theorem clearValid_distLen (sel : Sel) (s : State) :
    (clearValid sel s).distLen = s.distLen := by cases sel <;> rfl
@[simp] theorem clearValid_metaLenMem (sel : Sel) (s : State) :
    (clearValid sel s).metaLenMem = s.metaLenMem := by cases sel <;> rfl
@[simp] theorem clearValid_tokenOut (sel : Sel) (s : State) :
    (clearValid sel s).tokenOut = s.tokenOut := by cases sel <;> rfl
@[simp] theorem clearValid_tokenIn (sel : Sel) (s : State) :
    (clearValid sel s).tokenIn = s.tokenIn := by cases sel <;> rfl
@[simp] theorem clearValid_cur (sel : Sel) (s : State) :
    (clearValid sel s).cur = s.cur := by cases sel <;> rfl
@[simp] theorem clearValid_par (sel : Sel) (s : State) :
    (clearValid sel s).par = s.par := by cases sel <;> rfl
@[simp] theorem clearValid_bg (sel : Sel) (s : State) :
    (clearValid sel s).bg = s.bg := by cases sel <;> rfl
@[simp] theorem clearValid_enc (sel : Sel) (s : State) :
    (clearValid sel s).enc = s.enc := by cases sel <;> rfl
@[simp] theorem clearValid_pk (sel : Sel) (s : State) :
    (clearValid sel s).pk = s.pk := by cases sel <;> rfl
@[simp] theorem clearValid_uop (sel : Sel) (s : State) :
    (clearValid sel s).uop = s.uop := by cases sel <;> rfl
@[simp] theorem clearValid_host (sel : Sel) (s : State) :
    (clearValid sel s).host = s.host := by cases sel <;> rfl
@[simp] theorem clearValid_hostData (sel : Sel) (s : State) :
    (clearValid sel s).hostData = s.hostData := by cases sel <;> rfl
@[simp] theorem clearValid_taken (sel : Sel) (s : State) :
    (clearValid sel s).taken = s.taken := by cases sel <;> rfl
@[simp] theorem clearValid_synced (sel : Sel) (s : State) :
    (clearValid sel s).synced = s.synced := by cases sel <;> rfl
@[simp] theorem clearValid_draws (sel : Sel) (s : State) :
    (clearValid sel s).draws = s.draws := by cases sel <;> rfl

@[simp] theorem slotOf_setSlot (sel : Sel) (x : Slot) (s : State) : slotOf sel (setSlot sel x s) = x := by
  cases sel <;> rfl

/-- The slot `a` selects is left alone by a write to another slot (R28). -/
theorem slotOf_setSlot_of_ne (a b : Sel) (x : Slot) (s : State) (h : a ≠ b) :
    slotOf a (setSlot b x s) = slotOf a s := by
  cases a <;> cases b <;> first | rfl | exact absurd rfl h

/-- Clearing the three valid bits, as one update (R79, R132). -/
theorem clearAllValid_eq (s : State) : clearAllValid s = { s with
    slots := ⟨{ s.slots.codeLen with valid := false }, { s.slots.litLen with valid := false },
      { s.slots.dist with valid := false }⟩ } := rfl

/-- The end of a block, as one update (R78). -/
theorem endOfBlock_eq (s : State) : endOfBlock s = { s with
    state := if s.par.bfinal then .dComplete else .dPreamble
    tokenOut := if s.par.bfinal then s.tokenOut ++ [endWord] else s.tokenOut } := by
  unfold endOfBlock
  split <;> simp_all [setState, emitEnd]

end Sys2Proof.Machine
end

