-- ==== Sys2Proof/Laws/Results.lean ====
section
/-! SUPPORT. Results of operations (R6): how a sequence of statements ends, and what back-pressure answers
(R134). -/

namespace Sys2Proof.Machine

@[simp] theorem Res.bind_ok {α β : Type} (a : α) (s : State) (f : α → State → Res β) :
    (Res.ok a s).bind f = f a s := rfl

@[simp] theorem Res.bind_raised {α β : Type} (s : State) (f : α → State → Res β) :
    (Res.raised s : Res α).bind f = Res.raised s := rfl

@[simp] theorem Res.state_ok {α : Type} (a : α) (s : State) : (Res.ok a s).state = s := rfl

@[simp] theorem Res.state_raised {α : Type} (s : State) : (Res.raised s : Res α).state = s := rfl

@[simp] theorem Res.out_ok {α : Type} (a : α) (s : State) : (Res.ok a s).out = .next s := rfl

@[simp] theorem Res.out_raised {α : Type} (s : State) : (Res.raised s : Res α).out = .next s := rfl

theorem Res.bind_assoc {α β γ : Type} (r : Res α) (f : α → State → Res β) (g : β → State → Res γ) :
    (r.bind f).bind g = r.bind fun a s => (f a s).bind g := by
  cases r <;> rfl

/-- A property of the final state of a sequence: it holds when the first statement raises, or after the
rest. -/
theorem Res.bind_post {α β : Type} {P : State → Prop} (r : Res α) (f : α → State → Res β)
    (raised : ∀ t, r = .raised t → P t) (ok : ∀ a t, r = .ok a t → P (f a t).state) :
    P (r.bind f).state := by
  cases r with
  | ok a t => exact ok a t rfl
  | raised t => exact raised t rfl

/-- A sequence that ends without a raise: both parts did. -/
theorem Res.bind_eq_ok {α β : Type} {r : Res α} {f : α → State → Res β} {b : β} {u : State}
    (h : r.bind f = .ok b u) : ∃ a t, r = .ok a t ∧ f a t = .ok b u := by
  cases r with
  | ok a t => exact ⟨a, t, rfl, h⟩
  | raised t => cases h

/-- A sequence that ends by a raise: the first part raised, or the rest did. -/
theorem Res.bind_eq_raised {α β : Type} {r : Res α} {f : α → State → Res β} {u : State}
    (h : r.bind f = .raised u) : r = .raised u ∨ ∃ a t, r = .ok a t ∧ f a t = .raised u := by
  cases r with
  | ok a t => exact .inr ⟨a, t, rfl, h⟩
  | raised t => cases h; exact .inl rfl

@[simp] theorem raise_eq {α : Type} (e : Err) (info : Word) (s : State) :
    (raise e info s : Res α) = .raised (raiseErr e info s) := rfl

/-- Back-pressure takes the step or leaves everything as it was (R134). -/
theorem takeIfRoom_cases (s t : State) :
    takeIfRoom s t = s ∧ t.tokenOut.length ≠ s.tokenOut.length ∧ s.cfg.tokenOutDepth < t.tokenOut.length ∨
    takeIfRoom s t = t ∧ (t.tokenOut.length = s.tokenOut.length ∨
      t.tokenOut.length ≤ s.cfg.tokenOutDepth) := by
  unfold takeIfRoom
  split
  · exact .inr ⟨rfl, .inl ‹_›⟩
  · split
    · exact .inr ⟨rfl, .inr ‹_›⟩
    · exact .inl ⟨rfl, ‹_›, by omega⟩

/-- A step that appends nothing is never held (R134). -/
theorem takeIfRoom_of_no_token (s t : State) (h : t.tokenOut = s.tokenOut) : takeIfRoom s t = t := by
  simp [takeIfRoom, h]

/-- A step is taken when the queue has room for its words (R134). -/
theorem takeIfRoom_of_room (s t : State) (h : t.tokenOut.length ≤ s.cfg.tokenOutDepth) :
    takeIfRoom s t = t := by
  unfold takeIfRoom
  split <;> rfl

/-- A step that appends words waits without room for them (R134). -/
theorem takeIfRoom_of_full (s t : State) (h1 : s.tokenOut.length < t.tokenOut.length)
    (h2 : s.cfg.tokenOutDepth < t.tokenOut.length) : takeIfRoom s t = s := by
  unfold takeIfRoom
  rw [if_neg (by omega), if_neg (by omega)]

end Sys2Proof.Machine
end

