-- ==== Sys2Proof/Laws/Cursor.lean ====
section
/-! SUPPORT. The bit cursor (R36, R37, R73..R77): stream fields as the rules give them, and what refill,
consume and read answer. -/

namespace Sys2Proof.Machine

/-! ## Stream fields -/

theorem sum_range_map_succ (f : Nat → Nat) (n : Nat) :
    ((List.range (n + 1)).map f).sum = f 0 + ((List.range n).map fun i => f (i + 1)).sum := by
  rw [List.range_succ_eq_map]
  simp [List.map_map, Function.comp_def]

/-- The recursive field is the sum R37 and R74 write. -/
theorem streamField_eq_padded (s : State) (p n : Nat) : streamField s p n = paddedFieldAt s p n := by
  induction n generalizing p with
  | zero => rfl
  | succ n ih =>
    simp only [streamField, ih, paddedFieldAt]
    rw [sum_range_map_succ]
    congr 1
    · simp only [streamBit, Nat.add_zero, Nat.pow_zero]
      by_cases h : p < s.cur.inBits.toNat <;> by_cases h2 : inBit s p = true <;> simp [h, h2]
    · rw [← List.sum_map_mul_left]
      congr 1
      refine List.map_congr_left fun i _ => ?_
      rw [show p + 1 + i = p + (i + 1) by omega]
      split <;> simp [Nat.pow_succ, Nat.mul_comm]

/-- Inside the input nothing is padded (R74). -/
theorem paddedFieldAt_eq_fieldAt (s : State) (p n : Nat) (h : p + n ≤ s.cur.inBits.toNat) :
    paddedFieldAt s p n = fieldAt s p n := by
  unfold paddedFieldAt fieldAt
  congr 1
  refine List.map_congr_left fun i hi => ?_
  rw [List.mem_range] at hi
  simp [show p + i < s.cur.inBits.toNat by omega]

/-- The stream is the same in states with the same input and IN_LEN, drawing the same free bytes. -/
theorem streamField_congr (s t : State) (h1 : t.inMem = s.inMem) (hl : t.inLen = s.inLen)
    (h2 : t.draws = s.draws) (h3 : t.cur.inBits = s.cur.inBits) (p n : Nat) :
    streamField t p n = streamField s p n := by
  induction n generalizing p with
  | zero => rfl
  | succ n ih => simp [streamField, streamBit, inBit, inByte, h1, hl, h2, h3, ih]

theorem inBit_congr (s t : State) (h1 : t.inMem = s.inMem) (hl : t.inLen = s.inLen)
    (h2 : t.draws = s.draws) (p : Nat) : inBit t p = inBit s p := by
  simp [inBit, inByte, h1, hl, h2]

theorem fieldAt_congr (s t : State) (h1 : t.inMem = s.inMem) (hl : t.inLen = s.inLen)
    (h2 : t.draws = s.draws) (p n : Nat) : fieldAt t p n = fieldAt s p n := by
  simp [fieldAt, inBit_congr s t h1 hl h2]

/-- A field of `n` bits is below 2^n. -/
theorem streamField_lt (s : State) (p n : Nat) : streamField s p n < 2 ^ n := by
  induction n generalizing p with
  | zero => simp [streamField]
  | succ n ih =>
    have := ih (p + 1)
    have hb : (streamBit s p).toNat ≤ 1 := Bool.toNat_le _
    simp only [streamField, Nat.pow_succ]
    omega

/-- A field splits at any bit. -/
theorem streamField_add (s : State) (p n m : Nat) :
    streamField s p (n + m) = streamField s p n + 2 ^ n * streamField s (p + n) m := by
  induction n generalizing p with
  | zero => simp [streamField]
  | succ n ih =>
    rw [show n + 1 + m = n + m + 1 by omega]
    simp only [streamField, ih (p + 1)]
    rw [show p + 1 + n = p + (n + 1) by omega]
    ring

/-- The low bits of a field are the shorter field. -/
theorem streamField_mod (s : State) (p n m : Nat) :
    streamField s p (n + m) % 2 ^ n = streamField s p n := by
  rw [streamField_add, Nat.add_mul_mod_self_left, Nat.mod_eq_of_lt (streamField_lt s p n)]

/-- The high bits of a field are the field that follows. -/
theorem streamField_shiftRight (s : State) (p n m : Nat) :
    streamField s p (n + m) >>> n = streamField s (p + n) m := by
  rw [streamField_add, Nat.shiftRight_eq_div_pow, Nat.add_mul_div_left _ _ (Nat.two_pow_pos n),
    Nat.div_eq_of_lt (streamField_lt s p n), Nat.zero_add]

/-! ## Refill, consume, read -/

theorem fetchBytes_pos (s : State) (g : Nat) (c : Cursor) :
    (fetchBytes s g c).pos = c.pos ∧ (fetchBytes s g c).inBits = c.inBits := by
  induction g generalizing c with
  | zero => exact ⟨rfl, rfl⟩
  | succ g ih => simp [fetchBytes, ih, fetchByte]

theorem refillLoop_pos (s : State) (k : Nat) (c : Cursor) :
    (refillLoop s k c).pos = c.pos ∧ (refillLoop s k c).inBits = c.inBits := by
  induction k generalizing c with
  | zero => exact ⟨rfl, rfl⟩
  | succ k ih =>
    simp only [refillLoop]
    split
    · exact ⟨(ih _).1.trans (fetchBytes_pos _ _ _).1, (ih _).2.trans (fetchBytes_pos _ _ _).2⟩
    · exact ⟨rfl, rfl⟩

/-- A refill does not move the cursor (R73). -/
@[simp] theorem refill_pos (s : State) : (refill s).cur.pos = s.cur.pos := (refillLoop_pos s 4 s.cur).1

@[simp] theorem refill_inBits (s : State) : (refill s).cur.inBits = s.cur.inBits :=
  (refillLoop_pos s 4 s.cur).2

@[simp] theorem pastEnd_refill (s : State) (n : Nat) : pastEnd (refill s) n = pastEnd s n := by
  simp [pastEnd]

@[simp] theorem bitPos_refill (s : State) : bitPos (refill s) = bitPos s := by
  simp [bitPos]

@[simp] theorem peekVal_refill (s : State) (n : Nat) : peekVal (refill s) n = peekVal s n := by
  simp only [peekVal, refill_pos]
  exact streamField_congr s (refill s) (by simp) (by simp) (by simp) (by simp) _ _

theorem pastEnd_eq_false (s : State) (n : Nat) : pastEnd s n = false ↔ HasBits s n := by
  simp [pastEnd, HasBits]

theorem pastEnd_eq_true (s : State) (n : Nat) : pastEnd s n = true ↔ ¬HasBits s n := by
  simp [pastEnd, HasBits]

/-- `peekVal` is the padded field at `pos` (R74). -/
theorem peekVal_eq (s : State) (n : Nat) : peekVal s n = paddedFieldAt s s.cur.pos.toNat n :=
  streamField_eq_padded s _ n

/-- With enough bits left `peekVal` is the field at `pos` (R37). -/
theorem peekVal_eq_fieldAt (s : State) (n : Nat) (h : HasBits s n) :
    peekVal s n = fieldAt s s.cur.pos.toNat n := by
  rw [peekVal_eq, paddedFieldAt_eq_fieldAt s _ n h]

/-- Only the cursor changes in an advance. -/
theorem advanceCursor_eq (n : Nat) (s : State) :
    advanceCursor n s = { s with cur := (advanceCursor n s).cur } := rfl

/-- An advance by bits that are left moves `pos` by them. -/
theorem advanceCursor_moved (s : State) (n : Nat) (hp : PosFits s) (h : HasBits s n) :
    CursorMoved s (advanceCursor n (refill s)) n := by
  constructor
  · simp only [advanceCursor, refill_pos, BitVec.toNat_add, BitVec.toNat_ofNat]
    simp only [HasBits, PosFits] at *
    rw [Nat.add_mod_mod]
    exact Nat.mod_eq_of_lt (by omega)
  · simp [advanceCursor]

/-- `Consume(n)` with `n` bits left (R75). -/
theorem consume_of_hasBits (s : State) (n : Nat) (h : HasBits s n) :
    consume n s = .ok () (advanceCursor n (refill s)) := by
  simp [consume, (pastEnd_eq_false s n).2 h]

/-- `Consume(n)` past the end (R75). -/
theorem consume_of_not_hasBits (s : State) (n : Nat) (h : ¬HasBits s n) :
    consume n s = .raised (raiseErr .unexpectedEof (BitVec.ofNat 32 n) (refill s)) := by
  simp [consume, (pastEnd_eq_true s n).2 h]

/-- `Read(n)` with `n` bits left (R76). -/
theorem readBits_of_hasBits (s : State) (n : Nat) (h : HasBits s n) :
    readBits n s = .ok (fieldAt s s.cur.pos.toNat n) (advanceCursor n (refill (refill s))) := by
  have h' : HasBits (refill s) n := by simpa [HasBits] using h
  simp only [readBits, (pastEnd_eq_false s n).2 h, Bool.false_eq_true, if_false,
    consume_of_hasBits _ n h', Res.bind_ok, peekVal_eq_fieldAt s n h]

/-- `Read(n)` past the end (R76). -/
theorem readBits_of_not_hasBits (s : State) (n : Nat) (h : ¬HasBits s n) :
    readBits n s = .raised (raiseErr .unexpectedEof (BitVec.ofNat 32 n) s) := by
  simp [readBits, (pastEnd_eq_true s n).2 h]

/-- `Read(n)` with `n` bits left, as what it changes: the value is the field at `pos`, and only the cursor
moves, by `n` (R37, R76). -/
theorem readBits_ok (s : State) (n : Nat) (hp : PosFits s) (h : HasBits s n) :
    ∃ c : Cursor, readBits n s = .ok (fieldAt s s.cur.pos.toNat n) (withCur c s) ∧
      c.pos.toNat = s.cur.pos.toNat + n ∧ c.inBits = s.cur.inBits := by
  have hm : CursorMoved (refill s) (advanceCursor n (refill (refill s))) n :=
    advanceCursor_moved (refill s) n (by simpa [PosFits] using hp) (by simpa [HasBits] using h)
  exact ⟨(advanceCursor n (refill (refill s))).cur, readBits_of_hasBits s n h,
    by simpa using hm.pos, by simpa using hm.inBits⟩

/-- `Consume(n)` with `n` bits left, as what it changes (R75). -/
theorem consume_ok (s : State) (n : Nat) (hp : PosFits s) (h : HasBits s n) :
    ∃ c : Cursor, consume n s = .ok () (withCur c s) ∧
      c.pos.toNat = s.cur.pos.toNat + n ∧ c.inBits = s.cur.inBits :=
  ⟨(advanceCursor n (refill s)).cur, consume_of_hasBits s n h,
    (advanceCursor_moved s n hp h).pos, (advanceCursor_moved s n hp h).inBits⟩

/-- Everything `Read(n)` can do (R76). -/
theorem readBits_cases (s : State) (n : Nat) :
    (HasBits s n ∧ ∃ c : Cursor, readBits n s = .ok (fieldAt s s.cur.pos.toNat n) (withCur c s)) ∨
    (¬HasBits s n ∧ readBits n s = .raised (raiseErr .unexpectedEof (BitVec.ofNat 32 n) s)) := by
  by_cases h : HasBits s n
  · exact .inl ⟨h, _, readBits_of_hasBits s n h⟩
  · exact .inr ⟨h, readBits_of_not_hasBits s n h⟩

/-- Everything `Consume(n)` can do (R75). -/
theorem consume_cases (s : State) (n : Nat) :
    (HasBits s n ∧ ∃ c : Cursor, consume n s = .ok () (withCur c s)) ∨
    (¬HasBits s n ∧ ∃ c : Cursor, c.pos = s.cur.pos ∧ c.inBits = s.cur.inBits ∧
      consume n s = .raised (raiseErr .unexpectedEof (BitVec.ofNat 32 n) (withCur c s))) := by
  by_cases h : HasBits s n
  · exact .inl ⟨h, _, consume_of_hasBits s n h⟩
  · exact .inr ⟨h, (refill s).cur, refill_pos s, refill_inBits s, consume_of_not_hasBits s n h⟩

/-- The value of `Read(n)` fits its width. -/
theorem fieldAt_lt (s : State) (p n : Nat) : fieldAt s p n < 2 ^ n := by
  induction n with
  | zero => simp [fieldAt]
  | succ n ih =>
    simp only [fieldAt, List.range_succ, List.map_append, List.sum_append, List.map_cons, List.map_nil,
      List.sum_cons, List.sum_nil, Nat.add_zero, Nat.pow_succ] at *
    split <;> omega

end Sys2Proof.Machine
end

