-- ==== Sys2Proof/Laws/Memory.lean ====
section
/-! SUPPORT. The memories (R18..R20): read after write, the canonical form, and what the readers of several
entries answer. -/

namespace Sys2Proof.Machine

/-- A read after a write: the written address gives the value written, every other one what it gave. -/
theorem memRead_memWrite {w : Nat} (m : Cells w) (a b : Nat) (v : BitVec w) :
    memRead (memWrite m a v) b = if b = a then some v else memRead m b := by
  induction m with
  | nil => simp [memWrite, memRead, eq_comm]
  | cons c rest ih =>
    obtain ⟨k, x⟩ := c
    simp only [memWrite]
    split
    · simp [memRead, eq_comm]
    · split
      · rename_i h
        subst h
        by_cases hb : b = a
        · simp [memRead, hb]
        · simp [memRead, hb, Ne.symm hb]
      · rename_i h1 h2
        simp only [memRead, ih]
        by_cases hk : k = b
        · subst hk
          simp [Ne.symm h2]
        · simp [hk]

theorem memRead_memWrite_same {w : Nat} (m : Cells w) (a : Nat) (v : BitVec w) :
    memRead (memWrite m a v) a = some v := by
  simp [memRead_memWrite]

theorem memRead_memWrite_other {w : Nat} (m : Cells w) (a b : Nat) (v : BitVec w) (h : b ≠ a) :
    memRead (memWrite m a v) b = memRead m b := by
  simp [memRead_memWrite, h]

/-- The canonical form, one entry at a time. -/
theorem Memory.wf_cons {w : Nat} (a : Nat) (x : BitVec w) (m : Cells w) :
    Memory.wf ((a, x) :: m) = true ↔
      Memory.wf m = true ∧ ∀ b y rest, m = (b, y) :: rest → a < b := by
  cases m with
  | nil => simp [Memory.wf]
  | cons c rest => obtain ⟨b, y⟩ := c; simp [Memory.wf, and_comm]

theorem memWrite_ne_nil {w : Nat} (m : Cells w) (a : Nat) (v : BitVec w) : memWrite m a v ≠ [] := by
  cases m with
  | nil => simp [memWrite]
  | cons c rest => obtain ⟨k, x⟩ := c; simp only [memWrite]; split <;> [simp; (split <;> simp)]

/-- The first address of a memory after a write. -/
theorem memWrite_head {w : Nat} (m : Cells w) (a : Nat) (v : BitVec w) (b : Nat) (y : BitVec w)
    (rest : Cells w) (h : memWrite m a v = (b, y) :: rest) :
    b = a ∨ ∃ x r, m = (b, x) :: r ∧ b < a := by
  cases m with
  | nil => simp [memWrite] at h; exact .inl h.1.1.symm
  | cons c r =>
    obtain ⟨k, x⟩ := c
    simp only [memWrite] at h
    split at h
    · simp at h; exact .inl h.1.1.symm
    · split at h
      · simp at h; exact .inl h.1.1.symm
      · simp at h
        obtain ⟨⟨rfl, rfl⟩, -⟩ := h
        exact .inr ⟨x, r, rfl, by omega⟩

/-- A write keeps the canonical form. -/
theorem memWrite_wf {w : Nat} (m : Cells w) (a : Nat) (v : BitVec w) (h : Memory.wf m = true) :
    Memory.wf (memWrite m a v) = true := by
  induction m with
  | nil => rfl
  | cons c rest ih =>
    obtain ⟨k, x⟩ := c
    have hc := (Memory.wf_cons k x rest).1 h
    simp only [memWrite]
    split
    · exact (Memory.wf_cons _ _ _).2 ⟨h, by rintro b y r ⟨⟩; assumption⟩
    · split
      · rename_i h1 h2
        subst h2
        exact (Memory.wf_cons _ _ _).2 ⟨hc.1, hc.2⟩
      · refine (Memory.wf_cons _ _ _).2 ⟨ih hc.1, fun b y r e => ?_⟩
        obtain rfl | ⟨x', r', e', -⟩ := memWrite_head rest a v b y r e
        · omega
        · exact hc.2 _ _ _ e'

theorem memory_wf_nil {w : Nat} : Memory.wf ([] : Cells w) = true := rfl

/-- Every memory of the machine after reset is in its canonical form. -/
theorem resetWith_memories_wf (c : Config) :
    Memory.wf (State.resetWith c).inMem = true ∧ Memory.wf (State.resetWith c).outMem = true ∧
    Memory.wf (State.resetWith c).litlenLen = true ∧ Memory.wf (State.resetWith c).distLen = true ∧
    Memory.wf (State.resetWith c).metaLenMem = true :=
  ⟨rfl, rfl, rfl, rfl, rfl⟩

/-- The first unwritten address below `a + n`: none exactly when every byte is there (R43). -/
theorem firstUnwritten_eq_none {w : Nat} (m : Cells w) (a n : Nat) :
    firstUnwritten m a n = none ↔ ∀ b, a ≤ b → b < a + n → (memRead m b).isSome = true := by
  induction n generalizing a with
  | zero => simp [firstUnwritten]; omega
  | succ n ih =>
    simp only [firstUnwritten]
    split
    · rename_i h
      simp only [reduceCtorEq, false_iff, not_forall]
      exact ⟨a, le_refl a, by omega, by cases hm : memRead m a <;> simp_all⟩
    · rename_i h
      rw [ih]
      constructor
      · intro hb b h1 h2
        by_cases hab : b = a
        · subst hab; cases hm : memRead m b <;> simp_all
        · exact hb b (by omega) (by omega)
      · intro hb b h1 h2
        exact hb b (by omega) (by omega)

/-- What `firstUnwritten` answers: an unwritten address with every earlier one written (R43). -/
theorem firstUnwritten_eq_some {w : Nat} (m : Cells w) (a n x : Nat) :
    firstUnwritten m a n = some x ↔
      a ≤ x ∧ x < a + n ∧ memRead m x = none ∧ ∀ b, a ≤ b → b < x → (memRead m b).isSome = true := by
  induction n generalizing a with
  | zero => simp [firstUnwritten]; omega
  | succ n ih =>
    simp only [firstUnwritten]
    split
    · rename_i h
      rw [Option.some.injEq]
      constructor
      · rintro rfl
        exact ⟨le_refl _, by omega, by simpa using h, fun b h1 h2 => absurd h1 (by omega)⟩
      · rintro ⟨h1, h2, h3, h4⟩
        by_contra hne
        have := h4 a (le_refl a) (by omega)
        simp_all
    · rename_i h
      rw [ih]
      constructor
      · rintro ⟨h1, h2, h3, h4⟩
        refine ⟨by omega, by omega, h3, fun b h5 h6 => ?_⟩
        by_cases hab : b = a
        · subst hab; cases hm : memRead m b <;> simp_all
        · exact h4 b (by omega) h6
      · rintro ⟨h1, h2, h3, h4⟩
        refine ⟨?_, by omega, h3, fun b h5 h6 => h4 b (by omega) h6⟩
        by_contra hlt
        have : a = x := by omega
        subst this
        simp_all

/-- The entries `readCells` answers, when every one of them was written (R20). -/
theorem readCells_eq_some {w : Nat} (m : Cells w) (a n : Nat) (l : List Nat) :
    readCells m a n = some l ↔
      l.length = n ∧ ∀ y, y < n → (memRead m (a + y)).map BitVec.toNat = l[y]? := by
  induction n generalizing a l with
  | zero => simp [readCells, eq_comm, List.length_eq_zero_iff]
  | succ n ih =>
    constructor
    · intro h
      simp only [readCells] at h
      split at h
      · rename_i x xs hx hxs
        cases h
        obtain ⟨h1, h2⟩ := (ih (a + 1) xs).1 hxs
        refine ⟨by simp [h1], fun y hy => ?_⟩
        cases y with
        | zero => simp [hx]
        | succ y =>
          have := h2 y (by omega)
          rw [show a + (y + 1) = a + 1 + y by omega]
          simpa using this
      · cases h
    · rintro ⟨h1, h2⟩
      cases l with
      | nil => simp at h1
      | cons x xs =>
        have h0 := h2 0 (by omega)
        simp only [Nat.add_zero, List.getElem?_cons_zero] at h0
        have hxs : readCells m (a + 1) n = some xs := (ih (a + 1) xs).2 ⟨by simpa using h1, fun y hy => by
          have := h2 (y + 1) (by omega)
          rw [show a + (y + 1) = a + 1 + y by omega] at this
          simpa using this⟩
        cases hm : memRead m a with
        | none => simp [hm] at h0
        | some v => simp [hm] at h0; simp [readCells, hm, hxs, h0]

/-- A tree memory that holds a length array gives it back (R20). -/
theorem readCells_of_treeHolds {w : Nat} (m : Cells w) (lens : List Nat) (h : TreeHolds m lens) :
    readCells m 0 lens.length = some lens :=
  (readCells_eq_some m 0 lens.length lens).2 ⟨rfl, fun y hy => by simpa using h y hy⟩

end Sys2Proof.Machine
end

