-- ==== Sys2Proof/Laws/Tables.lean ====
section
/-! SUPPORT. The table builder (R65..R72): what BUILD and DECODESYM can do, and what the arrays they take
are. -/

namespace Sys2Proof.Machine

/-! ## BUILD -/

/-- BUILD on an oversubscribed array (R66). -/
theorem build_oversubscribed (sel : Sel) (lens : List Nat) (s : State) (h : 2 ^ 15 < kraftSum lens) :
    build sel lens s = .raised (raiseErr .treeOversubscribed (BitVec.ofNat 32 (selNat sel)) s) := by
  simp only [build, if_pos h, raise_eq]

/-- BUILD on an incomplete array (R66). -/
theorem build_incomplete (sel : Sel) (lens : List Nat) (s : State) (h : kraftSum lens < 2 ^ 15) :
    build sel lens s = .raised (raiseErr .treeIncomplete (BitVec.ofNat 32 (selNat sel)) s) := by
  simp only [build, if_neg (by omega : ¬2 ^ 15 < kraftSum lens), if_pos h, raise_eq]

/-- BUILD on a complete array (R71). -/
theorem build_complete (sel : Sel) (lens : List Nat) (s : State) (h : kraftSum lens = 2 ^ 15) :
    build sel lens s = .ok () (setSlot sel (builtSlot sel lens) s) := by
  simp only [build, h, lt_irrefl, if_false]

/-- Everything BUILD can do (R66, R71). -/
theorem build_cases (sel : Sel) (lens : List Nat) (s : State) :
    (kraftSum lens = 2 ^ 15 ∧ build sel lens s = .ok () (setSlot sel (builtSlot sel lens) s)) ∨
    ∃ e : Err, build sel lens s = .raised (raiseErr e (BitVec.ofNat 32 (selNat sel)) s) := by
  rcases Nat.lt_trichotomy (kraftSum lens) (2 ^ 15) with h | h | h
  · exact .inr ⟨_, build_incomplete sel lens s h⟩
  · exact .inl ⟨h, build_complete sel lens s h⟩
  · exact .inr ⟨_, build_oversubscribed sel lens s h⟩

/-! ## Symbol entries -/

/-- The entry BUILD writes for a symbol of the alphabet is the one its row of R68 gives. -/
theorem symEntry_isSymEntry (sel : Sel) (y l : Nat) (h : y < nsym sel) :
    IsSymEntry sel y l (symEntry sel y l) := by
  cases sel with
  | codeLen =>
    have hy : y < 19 := h
    by_cases h15 : y ≤ 15
    · refine ⟨_, _, _, .codeLength y h15, ?_⟩
      simp [symEntry, symEntry.entryOf, metaExtra, show y ≠ 16 by omega, show y ≠ 17 by omega,
        show y ≠ 18 by omega]
    · obtain rfl | rfl | rfl : y = 16 ∨ y = 17 ∨ y = 18 := by omega
      · exact ⟨_, _, _, .repeatLast, rfl⟩
      · exact ⟨_, _, _, .shortZeros, rfl⟩
      · exact ⟨_, _, _, .longZeros, rfl⟩
  | litLen =>
    have hy : y < 288 := h
    by_cases h255 : y ≤ 255
    · exact ⟨_, _, _, .literal y h255, by simp [symEntry, symEntry.entryOf, h255]⟩
    · by_cases h256 : y = 256
      · subst h256; exact ⟨_, _, _, .endOfBlock, rfl⟩
      · obtain ⟨k, rfl, hk⟩ : ∃ k, y = 257 + k ∧ k < 31 := ⟨y - 257, by omega, by omega⟩
        by_cases h29 : k < 29
        · refine ⟨_, (lengthRows.getD k (0, 0)).1, (lengthRows.getD k (0, 0)).2, .length k _ _ ?_, ?_⟩ <;>
            interval_cases k <;> rfl
        · refine ⟨_, _, _, .noLength _ (by omega), ?_⟩
          interval_cases k <;> first | omega | rfl
  | dist =>
    have hy : y < 32 := h
    by_cases h30 : y < 30
    · refine ⟨_, (distRows.getD y (0, 0)).1, (distRows.getD y (0, 0)).2, .distance y _ _ ?_, ?_⟩ <;>
        interval_cases y <;> rfl
    · refine ⟨_, _, _, .noDistance y (by omega), ?_⟩
      interval_cases y <;> first | omega | rfl

/-! ## Table reads and DECODESYM -/

/-- A read of an entry the table holds (R28). -/
theorem dtRead_of_entry (sel : Sel) (a : Nat) (site : TableRead) (s : State) (e : Entry)
    (hv : (slotOf sel s).valid = true) (h : (slotOf sel s).dt[a]? = some e) :
    dtRead sel a site s = e := by
  simp [dtRead, hv, h]

/-- A read of an encode entry the table holds (R28). -/
theorem etRead_of_entry (sel : Sel) (y : Nat) (s : State) (e : EncEntry)
    (hv : (slotOf sel s).valid = true) (h : (slotOf sel s).et[y]? = some e) : etRead sel y s = e := by
  simp [etRead, hv, h]

/-- Table reads do not look at the cursor. -/
@[simp] theorem dtRead_refill (sel : Sel) (a : Nat) (site : TableRead) (s : State) :
    dtRead sel a site (refill s) = dtRead sel a site s := by
  cases sel <;> rfl

@[simp] theorem slotOf_refill (sel : Sel) (s : State) : slotOf sel (refill s) = slotOf sel s := by
  cases sel <;> rfl

/-- The entry a lookup selects (R72). -/
theorem lookup_of_selects (sel : Sel) (s : State) (e : Entry) (h : Selects sel s e) :
    lookup sel s = e := by
  obtain ⟨hv, ⟨hk, he⟩ | ⟨l, hl, hr, he⟩⟩ := h
  · have hd := dtRead_of_entry sel _ .root s e hv he
    simp only [lookup, peekVal_eq, hd, if_neg hk]
  · have hd := dtRead_of_entry sel _ .root s l hv hr
    have hd2 := dtRead_of_entry sel _ .subtable s e hv he
    simp only [lookup, peekVal_eq, hd, if_pos hl, hd2]

/-- Everything DECODESYM can do (R72): the entry its lookup selects with the cursor moved, or
UnexpectedEof. -/
theorem decodeSym_cases (sel : Sel) (s : State) :
    (HasBits s (lookup sel s).len.toNat ∧
      ∃ c : Cursor, decodeSym sel s = .ok (lookup sel s) (withCur c s)) ∨
    (¬HasBits s (lookup sel s).len.toNat ∧ ∃ c : Cursor, c.pos = s.cur.pos ∧ c.inBits = s.cur.inBits ∧
      decodeSym sel s = .raised
        (raiseErr .unexpectedEof (BitVec.ofNat 32 (lookup sel s).len.toNat) (withCur c s))) := by
  have hi : HasBits (refill s) (lookup sel s).len.toNat ↔ HasBits s (lookup sel s).len.toNat := by
    simp [HasBits]
  by_cases h : HasBits s (lookup sel s).len.toNat
  · refine .inl ⟨h, (advanceCursor (lookup sel s).len.toNat (refill (refill s))).cur, ?_⟩
    rw [decodeSym, consume_of_hasBits _ _ (hi.2 h)]
    rfl
  · refine .inr ⟨h, (refill (refill s)).cur, by simp, by simp, ?_⟩
    rw [decodeSym, consume_of_not_hasBits _ _ (fun x => h (hi.1 x))]
    rfl

/-- DECODESYM with the code's bits left, as what it changes (R72). -/
theorem decodeSym_ok (sel : Sel) (s : State) (hp : PosFits s)
    (h : HasBits s (lookup sel s).len.toNat) :
    ∃ c : Cursor, decodeSym sel s = .ok (lookup sel s) (withCur c s) ∧
      c.pos.toNat = s.cur.pos.toNat + (lookup sel s).len.toNat ∧ c.inBits = s.cur.inBits := by
  have h' : HasBits (refill s) (lookup sel s).len.toNat := by simpa [HasBits] using h
  have hp' : PosFits (refill s) := by simpa [PosFits] using hp
  have hm := advanceCursor_moved (refill s) _ hp' h'
  refine ⟨(advanceCursor (lookup sel s).len.toNat (refill (refill s))).cur, ?_,
    by simpa using hm.pos, by simpa using hm.inBits⟩
  rw [decodeSym, consume_of_hasBits _ _ h']
  rfl

/-! ## Length arrays -/

/-- A list of the right length, entry by entry (R85, R87). -/
theorem map_range_getElem {α : Type} (l : List α) (f : α → Nat) (d : Nat → α) (n : Nat)
    (h : l.length = n) :
    ((List.range n).map fun y => f ((l[y]?).getD (d y))) = l.map f := by
  subst h
  refine List.ext_getElem (by simp) fun i h1 h2 => ?_
  have : i < l.length := by simpa using h2
  simp [this]

/-- The meta array of a decode job (R85). -/
theorem metaArray_eq (s : State) (h : s.par.metaLen.length = 19) :
    metaArray s = s.par.metaLen.map BitVec.toNat := by
  simp only [metaArray, metaLenAt, metaSymbols]
  exact map_range_getElem _ _ _ _ h

/-- The array a tree memory gives BUILD (R99). -/
theorem treeLens_litLen (s : State) (lens : List Nat) (h : TreeHolds s.litlenLen lens) :
    treeLens .litLen lens.length s = some lens :=
  readCells_of_treeHolds _ _ h

theorem treeLens_dist (s : State) (lens : List Nat) (h : TreeHolds s.distLen lens) :
    treeLens .dist lens.length s = some lens :=
  readCells_of_treeHolds _ _ h

theorem treeLens_codeLen (s : State) (lens : List Nat) (h : TreeHolds s.metaLenMem lens) :
    treeLens .codeLen lens.length s = some lens :=
  readCells_of_treeHolds _ _ h

/-- One more than the last index in use (R98). -/
theorem usedLength_eq (lens : List Nat) (k : Nat) (h1 : lens.getD k 0 ≠ 0)
    (h2 : ∀ y, k < y → lens.getD y 0 = 0) : usedLength lens = k + 1 := by
  have zero : ∀ l : List Nat, (∀ y, l.getD y 0 = 0) → usedLength l = 0 := by
    intro l
    induction l with
    | nil => simp [usedLength]
    | cons x rest ih =>
      intro h
      have h0 : x = 0 := by simpa using h 0
      have hr := ih fun y => by simpa using h (y + 1)
      simp [usedLength, h0, hr]
  induction lens generalizing k with
  | nil => simp at h1
  | cons x rest ih =>
    cases k with
    | zero =>
      have hr := zero rest fun y => by simpa using h2 (y + 1) (by omega)
      have h0 : x ≠ 0 := by simpa using h1
      simp [usedLength, hr, h0]
    | succ k =>
      have hr := ih k (by simpa using h1) fun y hy => by simpa using h2 (y + 1) (by omega)
      simp [usedLength, hr]

/-! ## The three slots -/

theorem setSlot_codeLen (x : Slot) (s : State) :
    setSlot .codeLen x s = { s with slots := { s.slots with codeLen := x } } := rfl

theorem setSlot_litLen (x : Slot) (s : State) :
    setSlot .litLen x s = { s with slots := { s.slots with litLen := x } } := rfl

theorem setSlot_dist (x : Slot) (s : State) :
    setSlot .dist x s = { s with slots := { s.slots with dist := x } } := rfl

end Sys2Proof.Machine
end

