-- ==== Sys2Proof/Laws/Packer.lean ====
section
/-! SUPPORT. The bit packer (R113..R115): what its operations can change. Each ends with only the packer
and OUT_MEM written, or in ERROR with OutputOverflow. -/

namespace Sys2Proof.Machine

/-- What the packer's operations can do: write OUT_MEM and the packer's registers, and, when OUT_MEM is
full, raise OutputOverflow at the pointer (R44). -/
def PackerWrites (s : State) (r : Res Unit) : Prop :=
  (∃ (m : Cells 8) (p : Packer), r = .ok () (withPacker m p s)) ∨
  ∃ (m : Cells 8) (p : Packer), s.cfg.outMemBytes ≤ p.optr.toNat ∧
    r = .raised (raiseErr .outputOverflow p.optr (withPacker m p s))

/-- A write of one byte (R44). -/
theorem outByte_of_room (v : Byte) (s : State) (h : s.pk.optr.toNat < s.cfg.outMemBytes) :
    outByte v s = .ok () { s with
      outMem := memWrite s.outMem s.pk.optr.toNat v, pk := { s.pk with optr := s.pk.optr + 1 } } := by
  simp [outByte, Nat.not_le.2 h]

/-- A write with OUT_MEM full (R44). -/
theorem outByte_of_full (v : Byte) (s : State) (h : s.cfg.outMemBytes ≤ s.pk.optr.toNat) :
    outByte v s = .raised (raiseErr .outputOverflow s.pk.optr s) := by
  simp [outByte, h]

theorem packerWrites_ok (s : State) (m : Cells 8) (p : Packer) :
    PackerWrites s (.ok () (withPacker m p s)) :=
  .inl ⟨m, p, rfl⟩

theorem packerWrites_self (s : State) : PackerWrites s (.ok () s) :=
  .inl ⟨s.outMem, s.pk, rfl⟩

/-- Packer operations in sequence. -/
theorem packerWrites_bind {s : State} {r : Res Unit} {f : Unit → State → Res Unit} (h : PackerWrites s r)
    (hf : ∀ m p, PackerWrites (withPacker m p s) (f () (withPacker m p s))) :
    PackerWrites s (r.bind f) := by
  obtain ⟨m, p, rfl⟩ | ⟨m, p, hp, rfl⟩ := h
  · obtain ⟨m', p', e⟩ | ⟨m', p', hp', e⟩ := hf m p
    · exact .inl ⟨m', p', by simp [e]⟩
    · exact .inr ⟨m', p', hp', by simp [e]⟩
  · exact .inr ⟨m, p, hp, rfl⟩

theorem packerWrites_outByte (v : Byte) (s : State) : PackerWrites s (outByte v s) := by
  by_cases h : s.cfg.outMemBytes ≤ s.pk.optr.toNat
  · exact .inr ⟨s.outMem, s.pk, h, outByte_of_full v s h⟩
  · exact .inl ⟨_, _, outByte_of_room v s (by omega)⟩

theorem packerWrites_outBytes (acc : BitVec 64) (j k : Nat) (s : State) :
    PackerWrites s (outBytes acc j k s) := by
  induction k generalizing j s with
  | zero => exact packerWrites_self s
  | succ k ih => exact packerWrites_bind (packerWrites_outByte _ s) fun m p => ih (j + 1) _

theorem packerWrites_flushWords (k : Nat) (s : State) : PackerWrites s (flushWords k s) := by
  induction k generalizing s with
  | zero => exact packerWrites_self s
  | succ k ih =>
    simp only [flushWords]
    split
    · refine packerWrites_bind (packerWrites_outBytes _ _ _ s) fun m p => ?_
      exact ih (dropPacked _ (withPacker m p s))
    · exact packerWrites_self s

/-- Everything PUT can change (R113). -/
theorem packerWrites_putBits (v n : Nat) (s : State) : PackerWrites s (putBits v n s) :=
  packerWrites_flushWords 16 (accumulate v n s)

theorem packerWrites_putTrailer (s : State) : PackerWrites s (putTrailer s) := by
  refine packerWrites_bind (packerWrites_putBits _ _ s) fun m p => ?_
  refine packerWrites_bind (packerWrites_putBits _ _ _) fun m p => ?_
  refine packerWrites_bind (packerWrites_putBits _ _ _) fun m p => ?_
  refine packerWrites_bind (packerWrites_putBits _ _ _) fun m p => ?_
  exact packerWrites_bind (packerWrites_putBits _ _ _) fun m p => packerWrites_putBits _ _ _

theorem packerWrites_flushBytes (k : Nat) (s : State) : PackerWrites s (flushBytes k s) := by
  induction k generalizing s with
  | zero => exact packerWrites_self s
  | succ k ih =>
    simp only [flushBytes]
    split
    · refine packerWrites_bind (packerWrites_outByte _ s) fun m p => ?_
      exact ih (dropPacked _ (withPacker m p s))
    · exact packerWrites_self s

/-- Everything FINALIZE can change (R115). -/
theorem packerWrites_finalizePacker (s : State) : PackerWrites s (finalizePacker s) := by
  refine packerWrites_bind (r := if 0 < s.pk.pn.toNat ∨ s.inLen = 0 then putTrailer s else .ok () s) ?_
    fun m p => packerWrites_flushBytes 16 _
  split
  · exact packerWrites_putTrailer s
  · exact packerWrites_self s

/-- Everything ENCODESYM can do (R112): write a code, or raise UnencodableSymbol. -/
theorem encodeSym_cases (sel : Sel) (y : Nat) (s : State) :
    PackerWrites s (encodeSym sel y s) ∨
    encodeSym sel y s = .raised
      (raiseErr .unencodableSymbol (BitVec.ofNat 32 (selNat sel <<< 16 ||| y)) s) := by
  simp only [encodeSym]
  split
  · exact .inr rfl
  · exact .inl (packerWrites_putBits _ _ s)

/-- The code ENCODESYM writes for a symbol that has one (R112). -/
theorem encodeSym_of_hasCode (sel : Sel) (y : Nat) (s : State) (e : EncEntry) (h : HasCode sel y s e) :
    encodeSym sel y s = putBits e.code.toNat e.len.toNat s := by
  simp only [encodeSym, etRead_of_entry sel y s e h.valid h.entry, if_neg h.used]

/-- ENCODESYM of a symbol without a code (R112). -/
theorem encodeSym_of_no_code (sel : Sel) (y : Nat) (s : State) (e : EncEntry)
    (hv : (slotOf sel s).valid = true) (he : (slotOf sel s).et[y]? = some e) (h : e.len = 0) :
    encodeSym sel y s = .raised
      (raiseErr .unencodableSymbol (BitVec.ofNat 32 (selNat sel <<< 16 ||| y)) s) := by
  simp [encodeSym, etRead_of_entry sel y s e hv he, h]

end Sys2Proof.Machine
end

