-- ==== Sys2Proof/Laws/Parser.lean ====
section
/-! SUPPORT. The block parser and the token encoder (R78..R112): what their shared operations answer. -/

namespace Sys2Proof.Machine

/-! ## Length arrays being filled (R86) -/

theorem setRun_length (i : Nat) (v : BitVec 4) (n : Nat) (l : List (BitVec 4)) :
    (setRun i v n l).length = l.length := by
  induction n generalizing i l with
  | zero => rfl
  | succ n ih => simp [setRun, ih]

/-- `cl` after a run of `n` lengths `v` from index `i` on. -/
theorem setRun_getElem (i : Nat) (v : BitVec 4) (n : Nat) (l : List (BitVec 4)) (j : Nat)
    (h : i + n ≤ l.length) :
    (setRun i v n l)[j]? = if i ≤ j ∧ j < i + n then some v else l[j]? := by
  induction n generalizing i l with
  | zero => simp [setRun]
  | succ n ih =>
    rw [setRun, ih (i + 1) (l.set i v) (by simp; omega)]
    by_cases hj : j = i
    · subst hj
      simp [show j < l.length by omega]
    · rw [List.getElem?_set_ne (Ne.symm hj)]
      by_cases h1 : i + 1 ≤ j ∧ j < i + 1 + n
      · rw [if_pos h1, if_pos (by omega)]
      · rw [if_neg h1, if_neg (by omega)]

theorem appendLens_cl (v : BitVec 4) (n : Nat) (s : State) :
    (appendLens v n s).par.cl = setRun s.par.ci.toNat v n s.par.cl := rfl

/-- `ci` after a run that stays inside its 9 bits. -/
theorem appendLens_ci (v : BitVec 4) (n : Nat) (s : State) (h : s.par.ci.toNat + n < 512) :
    (appendLens v n s).par.ci.toNat = s.par.ci.toNat + n := by
  simp only [appendLens, BitVec.toNat_add, BitVec.toNat_ofNat]
  omega

/-- Everything a repeat can do (R86): append its lengths, or raise RleProtocolError. -/
theorem repeatLens_cases (v : BitVec 4) (r : Nat) (s : State) :
    (s.par.ci.toNat + r ≤ declaredLens s ∧
      repeatLens v r s = .ok () (codelenDone (appendLens v r s))) ∨
    (declaredLens s < s.par.ci.toNat + r ∧ repeatLens v r s =
      .raised (raiseErr .rleProtocolError (BitVec.ofNat 32 (2 ^ 16 + s.par.ci.toNat)) s)) := by
  by_cases h : declaredLens s < s.par.ci.toNat + r
  · exact .inr ⟨h, by rw [repeatLens, if_pos h, raise_eq]⟩
  · exact .inl ⟨by omega, by rw [repeatLens, if_neg h]⟩

/-- Only `state` can change when the last length is there (R86). -/
theorem codelenDone_eq (s : State) :
    codelenDone s = { s with state := if s.par.ci.toNat = declaredLens s then .dDynTablebuild else s.state } := by
  unfold codelenDone
  split <;> rfl

/-! ## Reads of the register arrays inside their bounds (R25, R29) -/

theorem clAt_of_lt (s : State) (i : Nat) (v : BitVec 4) (h : s.par.cl[i]? = some v) : clAt s i = v := by
  simp [clAt, h]

theorem metaLenAt_of_lt (s : State) (i : Nat) (v : BitVec 3) (h : s.par.metaLen[i]? = some v) :
    metaLenAt s i = v := by
  simp [metaLenAt, h]

theorem rqAt_of_lt (s : State) (i : Nat) (p : Pair) (h : s.enc.rq[i]? = some p) : rqAt s i = p := by
  simp [rqAt, h]

theorem permAt_of_lt (s : State) (i k : Nat) (h : perm[i]? = some k) : permAt s i = k := by
  simp [permAt, h]

/-! ## Tokens (R104) -/

/-- Everything E_WRITE_TOKEN can do with a word (R104). -/
theorem takeWord_cases (w : Word) (s : State) :
    (∃ b, decodeToken w = .ok (.tokenLiteral b) ∧ takeWord w s = takeLiteral b s) ∨
    (∃ l d, decodeToken w = .ok (.tokenMatch l d) ∧ takeWord w s = takeMatch l d s) ∨
    (decodeToken w = .ok .tokenEnd ∧ takeWord w s = takeEnd s) ∨
    (∃ r, decodeToken w = .error r ∧ takeWord w s = raiseErr .tokenRangeError w s) := by
  unfold takeWord decodeToken
  split_ifs
  · exact .inr (.inr (.inl ⟨rfl, rfl⟩))
  · exact .inl ⟨_, rfl, rfl⟩
  · exact .inr (.inl ⟨_, _, rfl, rfl⟩)
  · exact .inr (.inr (.inr ⟨_, rfl, rfl⟩))

/-- Everything the encoder can do with a match (R104). -/
theorem takeMatch_cases (l : BitVec 9) (d : BitVec 16) (s : State) :
    (matchInRange l d = true ∧ takeMatch l d s =
      setState .eMatchDistRep (setClasses l.toNat d.toNat (countToken (matchWord l d) s))) ∨
    (matchInRange l d = false ∧ takeMatch l d s = raiseErr .tokenRangeError (matchWord l d) s) := by
  unfold takeMatch
  cases h : matchInRange l d <;> simp

end Sys2Proof.Machine
end

