-- ==== Sys2Proof/Laws/PerInstr.lean ====
section
/-! SUPPORT. For each instruction: its encoded word lies in its row of spec/opcode_table.json. -/

namespace Sys2Proof.Laws.MatchesTableRow

/-- The word of a well-formed instruction is presented at its row's port and matches the row's pattern. -/
def Statement (i : Instr) : Prop :=
  i.wellFormed = true → (encode i).port = i.row.port ∧ (encode i).word &&& i.row.mask = i.row.bits

theorem build (sel : Sel) : Statement (.build sel) := fun _ => by cases sel <;> exact ⟨rfl, rfl⟩

theorem decodesym (sel : Sel) : Statement (.decodesym sel) := fun _ => by cases sel <;> exact ⟨rfl, rfl⟩

theorem encodesym (sel : Sel) : Statement (.encodesym sel) := fun _ => by cases sel <;> exact ⟨rfl, rfl⟩

theorem peek (n : BitVec 6) : Statement (.peek n) := fun _ => ⟨rfl, by revert n; decide⟩

theorem consume (n : BitVec 6) : Statement (.consume n) := fun _ => ⟨rfl, by revert n; decide⟩

theorem read (n : BitVec 6) : Statement (.read n) := fun _ => ⟨rfl, by revert n; decide⟩

theorem align : Statement .align := fun _ => ⟨rfl, rfl⟩

theorem refill : Statement .refill := fun _ => ⟨rfl, rfl⟩

theorem rleEmit (sel : RleSel) : Statement (.rleEmit sel) := fun _ => by cases sel <;> exact ⟨rfl, rfl⟩

theorem put (n : BitVec 6) : Statement (.put n) := fun _ => ⟨rfl, by revert n; decide⟩

theorem finalize : Statement .finalize := fun _ => ⟨rfl, rfl⟩

theorem rleExpand : Statement .rleExpand := fun _ => ⟨rfl, rfl⟩

theorem dHeader : Statement .dHeader := fun _ => ⟨rfl, rfl⟩

theorem dPreamble : Statement .dPreamble := fun _ => ⟨rfl, rfl⟩

theorem dStoredHdr : Statement .dStoredHdr := fun _ => ⟨rfl, rfl⟩

theorem dStoredCopy : Statement .dStoredCopy := fun _ => ⟨rfl, rfl⟩

theorem dDynCounts : Statement .dDynCounts := fun _ => ⟨rfl, rfl⟩

theorem dDynMetalen : Statement .dDynMetalen := fun _ => ⟨rfl, rfl⟩

theorem dDynMetabuild : Statement .dDynMetabuild := fun _ => ⟨rfl, rfl⟩

theorem dDynCodelen : Statement .dDynCodelen := fun _ => ⟨rfl, rfl⟩

theorem dDynTablebuild : Statement .dDynTablebuild := fun _ => ⟨rfl, rfl⟩

theorem dStatic : Statement .dStatic := fun _ => ⟨rfl, rfl⟩

theorem dBgLiteral : Statement .dBgLiteral := fun _ => ⟨rfl, rfl⟩

theorem dBgMlen : Statement .dBgMlen := fun _ => ⟨rfl, rfl⟩

theorem dBgMdist : Statement .dBgMdist := fun _ => ⟨rfl, rfl⟩

theorem dBgMdistwr : Statement .dBgMdistwr := fun _ => ⟨rfl, rfl⟩

theorem eBuild : Statement .eBuild := fun _ => ⟨rfl, rfl⟩

theorem eHeader : Statement .eHeader := fun _ => ⟨rfl, rfl⟩

theorem eMetalen : Statement .eMetalen := fun _ => ⟨rfl, rfl⟩

theorem eCodelen : Statement .eCodelen := fun _ => ⟨rfl, rfl⟩

theorem eWriteToken : Statement .eWriteToken := fun _ => ⟨rfl, rfl⟩

theorem eLitRep : Statement .eLitRep := fun _ => ⟨rfl, rfl⟩

theorem eMatchDistRep : Statement .eMatchDistRep := fun _ => ⟨rfl, rfl⟩

theorem eMatchExtra : Statement .eMatchExtra := fun _ => ⟨rfl, rfl⟩

theorem eDistRep : Statement .eDistRep := fun _ => ⟨rfl, rfl⟩

theorem eDistExtra : Statement .eDistExtra := fun _ => ⟨rfl, rfl⟩

theorem eEob : Statement .eEob := fun _ => ⟨rfl, rfl⟩

theorem eFinalize : Statement .eFinalize := fun _ => ⟨rfl, rfl⟩

theorem startDecode (l : Bool) : Statement (.startDecode l) := fun _ => by cases l <;> exact ⟨rfl, rfl⟩

theorem startEncode (l : Bool) : Statement (.startEncode l) := fun _ => by cases l <;> exact ⟨rfl, rfl⟩

theorem softReset : Statement .softReset := fun _ => ⟨rfl, rfl⟩

theorem setMode (m l : Bool) : Statement (.setMode m l) := fun _ => by cases m <;> cases l <;> exact ⟨rfl, rfl⟩

theorem tokenLiteral (b : Byte) : Statement (.tokenLiteral b) := fun _ => ⟨rfl, by revert b; decide⟩

theorem tokenMatch (l : BitVec 9) (d : BitVec 16) : Statement (.tokenMatch l d) := by
  intro _
  refine ⟨rfl, ?_⟩
  refine BitVec.eq_of_getLsbD_eq fun i hi => ?_
  simp only [encode, matchWord, Instr.row, BitVec.getLsbD_and, BitVec.getLsbD_append]
  interval_cases i <;> simp

theorem tokenEnd : Statement .tokenEnd := fun _ => ⟨rfl, rfl⟩

end Sys2Proof.Laws.MatchesTableRow
end

