-- ==== Sys2Proof/Laws/Step.lean ====
section
/-! SUPPORT. The step (R7, R8): which instruction the engine fetches, and what one step is. -/

namespace Sys2Proof.Machine

/-- The step of each state (R8, R50); a terminal state has none. -/
theorem fetchInstr_eq (f : Fsm) : fetchInstr f = match f with
    | .idle => none
    | .dHeader => some .dHeader
    | .dPreamble => some .dPreamble
    | .dStoredHdr => some .dStoredHdr
    | .dStoredCopy => some .dStoredCopy
    | .dDynCounts => some .dDynCounts
    | .dDynMetalen => some .dDynMetalen
    | .dDynMetabuild => some .dDynMetabuild
    | .dDynCodelen => some .dDynCodelen
    | .dDynTablebuild => some .dDynTablebuild
    | .dStatic => some .dStatic
    | .dBgLiteral => some .dBgLiteral
    | .dBgMlen => some .dBgMlen
    | .dBgMdist => some .dBgMdist
    | .dBgMdistwr => some .dBgMdistwr
    | .dComplete => none
    | .eBuild => some .eBuild
    | .eHeader => some .eHeader
    | .eMetalen => some .eMetalen
    | .eCodelen => some .eCodelen
    | .eWriteToken => some .eWriteToken
    | .eLitRep => some .eLitRep
    | .eMatchDistRep => some .eMatchDistRep
    | .eMatchExtra => some .eMatchExtra
    | .eDistRep => some .eDistRep
    | .eDistExtra => some .eDistExtra
    | .eEob => some .eEob
    | .eFinalize => some .eFinalize
    | .eDone => none
    | .error => none := by
  cases f <;> rfl

/-- The word of a state's step (R50). -/
theorem stepWord_eq (f : Fsm) : stepWord f = BitVec.ofNat 16 (0x20 + (fsmCode f).toNat) := by
  cases f <;> rfl

/-- The state codes are distinct (R8). -/
theorem fsmCode_injective (f g : Fsm) (h : fsmCode f = fsmCode g) : f = g := by
  cases f <;> cases g <;> first | rfl | (exact absurd h (by decide))

/-- The engine fetches exactly in the states that are not terminal (R8, R11). -/
theorem fetchInstr_isSome (s : State) : (fetchInstr s.state).isSome = busy s := by
  simp only [busy, fetchInstr_eq]
  cases s.state <;> rfl

/-- The engine's turn in a state that has a step. -/
theorem engineTurn_of_fetch (s : State) (i : Instr) (h : fetchInstr s.state = some i) :
    engineTurn s = exec i s := by
  simp [engineTurn, h]

/-- The engine's turn in a terminal state (R8). -/
theorem engineTurn_of_terminal (s : State) (h : terminal s.state = true) : engineTurn s = .next s := by
  have : fetchInstr s.state = none := by
    simpa [Option.isSome_iff_ne_none, busy, h] using congrArg Bool.not (fetchInstr_isSome s)
  simp [engineTurn, this]

/-- A step with a host action pending (log 3). -/
theorem step_of_host (s : State) (e : HostEvent) (rest : List HostEvent) (h : s.host = e :: rest) :
    step s = countDraw (hostTurn e { s with host := rest }) := by
  simp [step, stepOnce, h]

/-- A step of the engine (R7, R8). -/
theorem step_of_engine (s : State) (h : s.host = []) (hb : busy s = true) :
    step s = countDraw (engineTurn s) := by
  simp [step, stepOnce, h, hb]

/-- A step that waits (R8). -/
theorem step_of_waiting (s : State) (h : s.host = []) (hb : busy s = false) : step s = .next s := by
  simp [step, stepOnce, h, hb]

/-- A counted step answers a next state exactly when what it ran did. -/
theorem countDraw_eq_next (o : Out) (t : State) :
    countDraw o = .next t ↔ ∃ u, o = .next u ∧ t = { u with draws := u.draws + 1 } := by
  cases o with
  | next s =>
    constructor
    · intro h; cases h; exact ⟨s, rfl, rfl⟩
    · rintro ⟨u, h, rfl⟩; cases h; rfl
  | fault f => constructor <;> intro h <;> simp [countDraw] at h
  | refused r => constructor <;> intro h <;> simp [countDraw] at h

/-- What a step to a next state is: waiting, the engine's turn, or the host's action. -/
theorem step_cases (s t : State) (h : step s = .next t) :
    (s.host = [] ∧ busy s = false ∧ t = s) ∨
    (s.host = [] ∧ busy s = true ∧
      ∃ u, engineTurn s = .next u ∧ t = { u with draws := u.draws + 1 }) ∨
    ∃ e rest u, s.host = e :: rest ∧ hostTurn e { s with host := rest } = .next u ∧
      t = { u with draws := u.draws + 1 } := by
  cases hh : s.host with
  | nil =>
    cases hb : busy s with
    | true =>
      rw [step_of_engine s hh hb] at h
      exact .inr (.inl ⟨rfl, rfl, (countDraw_eq_next _ _).1 h⟩)
    | false =>
      rw [step_of_waiting s hh hb] at h
      cases h
      exact .inl ⟨rfl, rfl, rfl⟩
  | cons e rest =>
    rw [step_of_host s e rest hh] at h
    obtain ⟨u, h1, h2⟩ := (countDraw_eq_next _ _).1 h
    exact .inr (.inr ⟨e, rest, u, rfl, h1, h2⟩)

/-- What the issue of a micro-operation word is when it answers a next state (R51; log 4, log 26, log 36):
its instruction's effect, or nothing in ERROR. -/
theorem issueUop_cases (w : BitVec 16) (v : Word) (s t : State) (h : issueUop w v s = .next t) :
    ∃ i, decodeUop w = .ok i ∧
      ((((isStepWord w = false ∧ takesPrimitives s = true) ∨ w = stepWord s.state) ∧
          exec i { s with uop := { s.uop with opVal := v } } = .next t) ∨
        (isStepWord w = false ∧ s.state = .error ∧ t = s)) := by
  unfold issueUop at h
  split at h
  · cases h
  · rename_i i hi
    refine ⟨i, hi, ?_⟩
    cases hw : isStepWord w with
    | true =>
      by_cases he : w = stepWord s.state
      · have he' : (w != stepWord s.state) = false := by rw [← he]; simp
        simp only [hw, he', Bool.and_false, Bool.false_eq_true, if_false, Bool.true_or, if_true] at h
        exact .inl ⟨.inr he, h⟩
      · simp [hw, he] at h
    | false =>
      cases hp : takesPrimitives s with
      | true =>
        simp only [hw, hp, Bool.false_and, Bool.false_eq_true, if_false, Bool.false_or, if_true] at h
        exact .inl ⟨.inl ⟨rfl, rfl⟩, h⟩
      | false =>
        cases hb : busy s with
        | true => simp [hw, hp, hb] at h
        | false =>
          simp only [hw, hp, hb, Bool.false_and, Bool.false_eq_true, if_false, Bool.false_or] at h
          cases h
          exact .inr ⟨rfl, by simpa [takesPrimitives, hb, failed] using hp, rfl⟩

/-- The parts of the state a poll of STATUS touches (R46, R64). -/
theorem pollStatus_eq (s : State) : pollStatus s = { s with
    hostData := some (readStatus s), synced := s.synced || done s || failed s } := by
  unfold pollStatus answer noteStatusRead
  cases hd : done s <;> cases hf : failed s <;> simp

/-- The parts of the state the consumer touches (R21). -/
theorem consumeToken_eq (s : State) : consumeToken s = { s with
    tokenOut := s.tokenOut.tail, taken := s.taken ++ s.tokenOut.take 1 } := by
  unfold consumeToken
  split <;> rename_i h
  · cases s
    cases h
    simp
  · simp [h]

/-- What the host's waiting is when it answers a next state (R64): the last poll, or a poll with a turn of
the consumer and of the engine. -/
theorem hostWait_cases (ready : Bool) (s t : State) (h : hostWait ready s = .next t) :
    (busy s = false ∧ t = pollStatus s) ∨
    (busy s = true ∧
      engineTurn (consumerTurn ready { pollStatus s with host := .wait ready :: s.host }) = .next t) := by
  cases hb : busy s with
  | true => exact .inr ⟨rfl, by simpa [hostWait, hb] using h⟩
  | false =>
    rw [hostWait, hb] at h
    cases h
    exact .inl ⟨rfl, rfl⟩

/-- A host access at the address of an entry reaches that entry (R35; log 24). -/
theorem atAddress_address (p : Placement) (i : Nat) (access : Nat → Out) (h : 1 ≤ p.stride) :
    atAddress p (p.address i) access = access i := by
  have : p.indexOf (p.address i) = some i := by
    simp [Placement.indexOf, Placement.address, Nat.mul_div_cancel i h]
  simp [atAddress, this]

/-- A host access that answers a next state reached an entry (R35; log 24). -/
theorem atAddress_cases (p : Placement) (addr : Nat) (access : Nat → Out) (t : State)
    (h : atAddress p addr access = .next t) : ∃ i, addr = p.address i ∧ access i = .next t := by
  unfold atAddress Placement.indexOf at h
  simp only at h
  split at h
  · cases h
  · rename_i i hi
    split at hi
    · rename_i ha
      cases hi
      exact ⟨_, ha.symm, h⟩
    · cases hi

/-- A write to a register that is neither CTRL nor IN_LEN changes nothing (R17). -/
theorem writeReg_cases (off : Nat) (v : Word) (s t : State) (h : writeReg off v s = .next t) :
    t = s ∨ (off = 0 ∧ exec (decodeCtrl v) s = .next t) ∨ (busy s = false ∧ t = { s with inLen := v }) := by
  unfold writeReg at h
  split at h
  · cases h; exact .inl rfl
  · split at h
    · cases h
    · split at h
      · exact .inr (.inl ⟨‹_›, h⟩)
      · split at h
        · cases hb : busy s with
          | true => simp [hb] at h; exact .inl h.symm
          | false => simp [hb] at h; exact .inr (.inr ⟨rfl, h.symm⟩)
        · cases h; exact .inl rfl

end Sys2Proof.Machine
end

