-- ==== Sys2Proof/Tests/Slice0.lean ====
section
/-! SUPPORT. The model's own tests: ill-formed terms, decoding from words written out from the spec's
encodings, single steps with the results of spec/95_test_vectors.md, and a witness for the hypotheses of
each statement. -/

namespace Sys2Proof.Tests

open Sys2Proof.Machine

/-! ## Small states -/

/-- Small open parameters. -/
def cfgT : Config := { Config.reference with inMemBytes := 64, outMemBytes := 64, tokenOutDepth := 4 }

/-- A machine after reset with small parameters. -/
def blank : State := State.resetWith cfgT

/-- The bytes of a memory from address `a` on. -/
def cells (a : Nat) : List Byte → Cells 8
  | [] => []
  | b :: rest => (a, b) :: cells (a + 1) rest

/-- In state `f` with the input `bytes`, the cursor at bit `p` with the current byte's bits held. -/
def reading (f : Fsm) (bytes : List Byte) (p : Nat) : State := { blank with
  state := f
  inMem := cells 0 bytes
  inLen := BitVec.ofNat 32 bytes.length
  cur := {
    pos := BitVec.ofNat 32 p
    held := BitVec.ofNat 7 ((8 - p % 8) % 8)
    fetch := BitVec.ofNat 32 ((p + 7) / 8)
    acc := if p % 8 = 0 then 0 else (bytes.getD (p / 8) 0).setWidth 64 >>> (p % 8)
    inBits := BitVec.ofNat 35 (8 * bytes.length) } }

/-- A slot of root width 1 that gives `e0` for a next stream bit 0 and `e1` for a 1. -/
def slotT (e0 e1 : Entry) : Slot := ⟨true, 1, 2, 2, [e0, e1], [⟨0, 1⟩, ⟨1, 1⟩]⟩

/-- The encode side of a slot: symbol `y` has entry `et[y]`. -/
def slotE (et : List EncEntry) : Slot := ⟨true, 1, 2, 2, [], et⟩

/-- A packer in state `f`, empty. -/
def writing (f : Fsm) : State := { blank with state := f, ctrl := ⟨true, true⟩, inLen := 10 }

/-- The next state an outcome gives. -/
def ans (o : Out) : Option State :=
  match o with
  | .next s => some s
  | .fault _ => none
  | .refused _ => none

/-- A cursor that meets R24, checked bit by bit. -/
theorem cursorOk_of (s : State) (h1 : s.cur.pos.toNat + s.cur.held.toNat = 8 * s.cur.fetch.toNat)
    (h2 : s.cur.fetch.toNat ≤ s.inLen.toNat) (h3 : s.cur.inBits.toNat = 8 * s.inLen.toNat)
    (h4 : s.inLen.toNat ≤ 2 ^ 28) (h5 : s.cur.held.toNat ≤ 64)
    (h6 : ∀ i, i < 64 → s.cur.acc.getLsbD i =
      (decide (i < s.cur.held.toNat) && inBit s (s.cur.pos.toNat + i))) : CursorOk s :=
  ⟨h1, h2, h3, h4, h5, fun i => by
    by_cases h : i < 64
    · exact h6 i h
    · rw [BitVec.getLsbD_of_ge _ _ (by omega)]
      simp [show ¬i < s.cur.held.toNat by omega]⟩

/-! ## Ill-formed terms (R49, R51, R53) -/

theorem test_wf_peek_33 : (Instr.peek 33).wellFormed = false := by decide
theorem test_wf_consume_33 : (Instr.consume 33).wellFormed = false := by decide
theorem test_wf_read_33 : (Instr.read 33).wellFormed = false := by decide
theorem test_wf_put_63 : (Instr.put 63).wellFormed = false := by decide
theorem test_wf_match_length_2 : (Instr.tokenMatch 2 1).wellFormed = false := by decide
theorem test_wf_match_length_259 : (Instr.tokenMatch 259 1).wellFormed = false := by decide
theorem test_wf_match_distance_0 : (Instr.tokenMatch 3 0).wellFormed = false := by decide
theorem test_wf_match_distance_32769 : (Instr.tokenMatch 3 32769).wellFormed = false := by decide
theorem test_wf_bounds : (Instr.peek 32).wellFormed = true ∧ (Instr.tokenMatch 3 1).wellFormed = true ∧
    (Instr.tokenMatch 258 32768).wellFormed = true := by decide

/-! ## Decoding, from words written out from R49, R50, R52, R53 -/

/-- R50, first table: reserved 15:14, SEL 13:12, N 11:6, OP 5:0. -/
theorem test_decode_primitive :
    decodeUop 0b0000000000000001#16 = .ok (.build .codeLen) ∧
    decodeUop 0b0010000000000001#16 = .ok (.build .dist) ∧
    decodeUop 0b0001000000000010#16 = .ok (.decodesym .litLen) ∧
    decodeUop 0b0010000000000011#16 = .ok (.encodesym .dist) ∧
    decodeUop 0b0000100000000100#16 = .ok (.peek 32) ∧
    decodeUop 0b0000000001000101#16 = .ok (.consume 1) ∧
    decodeUop 0b0000010000000110#16 = .ok (.read 16) ∧
    decodeUop 0b0000000000000111#16 = .ok .align ∧
    decodeUop 0b0000000000001000#16 = .ok .refill ∧
    decodeUop 0b0001000000001001#16 = .ok (.rleEmit .litLen) ∧
    decodeUop 0b0000000011001010#16 = .ok (.put 3) ∧
    decodeUop 0b0000000000001011#16 = .ok .finalize ∧
    decodeUop 0b0000000000001100#16 = .ok .rleExpand :=
  ⟨rfl, rfl, rfl, rfl, rfl, rfl, rfl, rfl, rfl, rfl, rfl, rfl, rfl⟩

/-- R50, second table, decoder: OP is 0x20 plus the state code of R8. -/
theorem test_decode_decoder_steps :
    decodeUop 0x0021#16 = .ok .dHeader ∧ decodeUop 0x0022#16 = .ok .dPreamble ∧
    decodeUop 0x0023#16 = .ok .dStoredHdr ∧ decodeUop 0x0024#16 = .ok .dStoredCopy ∧
    decodeUop 0x0025#16 = .ok .dDynCounts ∧ decodeUop 0x0026#16 = .ok .dDynMetalen ∧
    decodeUop 0x0027#16 = .ok .dDynMetabuild ∧ decodeUop 0x0028#16 = .ok .dDynCodelen ∧
    decodeUop 0x0029#16 = .ok .dDynTablebuild ∧ decodeUop 0x002A#16 = .ok .dStatic ∧
    decodeUop 0x002B#16 = .ok .dBgLiteral ∧ decodeUop 0x002C#16 = .ok .dBgMlen ∧
    decodeUop 0x002D#16 = .ok .dBgMdist ∧ decodeUop 0x002E#16 = .ok .dBgMdistwr :=
  ⟨rfl, rfl, rfl, rfl, rfl, rfl, rfl, rfl, rfl, rfl, rfl, rfl, rfl, rfl⟩

/-- R50, second table, encoder. -/
theorem test_decode_encoder_steps :
    decodeUop 0x0030#16 = .ok .eBuild ∧ decodeUop 0x0031#16 = .ok .eHeader ∧
    decodeUop 0x0032#16 = .ok .eMetalen ∧ decodeUop 0x0033#16 = .ok .eCodelen ∧
    decodeUop 0x0034#16 = .ok .eWriteToken ∧ decodeUop 0x0035#16 = .ok .eLitRep ∧
    decodeUop 0x0036#16 = .ok .eMatchDistRep ∧ decodeUop 0x0037#16 = .ok .eMatchExtra ∧
    decodeUop 0x0038#16 = .ok .eDistRep ∧ decodeUop 0x0039#16 = .ok .eDistExtra ∧
    decodeUop 0x003A#16 = .ok .eEob ∧ decodeUop 0x003B#16 = .ok .eFinalize :=
  ⟨rfl, rfl, rfl, rfl, rfl, rfl, rfl, rfl, rfl, rfl, rfl, rfl⟩

/-- R52: the commands as values; bits 31:4 are ignored, SOFT_RESET wins (R10). -/
theorem test_decode_ctrl :
    decodeCtrl 0x00000001#32 = .startDecode false ∧ decodeCtrl 0x00000003#32 = .startEncode false ∧
    decodeCtrl 0x00000007#32 = .startEncode true ∧ decodeCtrl 0x00000008#32 = .softReset ∧
    decodeCtrl 0xFFFFFFFF#32 = .softReset ∧ decodeCtrl 0x00000006#32 = .setMode true true :=
  ⟨rfl, rfl, rfl, rfl, rfl, rfl⟩

/-- R53: `L(0x41)`, `M(9,1)`, `M(14,5)`, `M(258,32768)` (R104), END. -/
theorem test_decode_token :
    decodeToken 0x00000041#32 = .ok (.tokenLiteral 0x41) ∧
    decodeToken 0x80090001#32 = .ok (.tokenMatch 9 1) ∧
    decodeToken 0x800E0005#32 = .ok (.tokenMatch 14 5) ∧
    decodeToken 0x81028000#32 = .ok (.tokenMatch 258 32768) ∧
    decodeToken 0x40000000#32 = .ok .tokenEnd :=
  ⟨rfl, rfl, rfl, rfl, rfl⟩

/-- R51: one word of each reserved kind. -/
theorem test_decode_reserved :
    decodeUop 0x0000#16 = .error .reservedOp ∧ decodeUop 0x000D#16 = .error .reservedOp ∧
    decodeUop 0x0020#16 = .error .reservedOp ∧ decodeUop 0x002F#16 = .error .reservedOp ∧
    decodeUop 0x003F#16 = .error .reservedOp ∧ decodeUop 0x0844#16 = .error .countOutOfRange ∧
    decodeUop 0x0047#16 = .error .countNotZero ∧ decodeUop 0x3001#16 = .error .selReserved ∧
    decodeUop 0x0009#16 = .error .selReserved ∧ decodeUop 0x1004#16 = .error .selNotZero ∧
    decodeUop 0x4007#16 = .error .reservedBits :=
  ⟨rfl, rfl, rfl, rfl, rfl, rfl, rfl, rfl, rfl, rfl, rfl⟩

/-- The opcode table's own numbering, one row of each format. -/
theorem test_table_words :
    decodeTableWord 16 0x2001 = some (.build .dist) ∧ decodeTableWord 32 0x80090001 = some (.tokenMatch 9 1) ∧
    decodeTableWord 32 3 = some (.startEncode false) ∧ decodeTableWord 32 0x41 = some (.tokenLiteral 0x41) ∧
    decodeTableWord 8 0 = none :=
  ⟨rfl, rfl, rfl, rfl, rfl⟩

/-- A placed word is what the next step runs (log 27): a step of the engine, a primitive, a command, a
token. -/
theorem test_placed_words_run :
    (ans (step (State.reset.withFetchWord 16 0x0021))).map (fun t => (t.state, t.draws)) =
      some (.dPreamble, 1) ∧
    (ans (step (State.reset.withFetchWord 16 0x00CA))).map (fun t => t.pk.ptotal) = some 3 ∧
    (ans (step (State.reset.withFetchWord 32 3))).map (fun t => t.state) = some .eFinalize ∧
    (ans (step (State.reset.withFetchWord 32 0x80090001))).map (fun t => t.state) =
      some .eMatchDistRep := by
  decide

/-! ## Single steps (spec/95_test_vectors.md) -/

/-- 2.2: `B5 01`; `READ N=1` at 0 gives 1, `READ N=16` gives 0x01B5. -/
theorem test_read :
    (ans (exec (.read 1) (reading .idle [0xB5, 0x01] 0))).map
      (fun t => (t.uop.resVal, t.cur.pos)) = some (1, 1) ∧
    (ans (exec (.read 16) (reading .idle [0xB5, 0x01] 0))).map
      (fun t => (t.uop.resVal, t.cur.pos)) = some (0x01B5, 16) := by decide

/-- 2.2: `READ N=8` at 9 raises UnexpectedEof(8) with `pos` unchanged. -/
theorem test_read_past_end :
    (ans (exec (.read 8) (reading .idle [0xB5, 0x01] 9))).map
      (fun t => (t.state, t.err, t.cur.pos)) = some (.error, ⟨.unexpectedEof, 9, 8⟩, 9) := by decide

/-- 2.2: `PEEK N=9` and `PEEK N=20` at 3 give 0x036, bits past the end as 0. -/
theorem test_peek :
    (ans (exec (.peek 9) (reading .idle [0xB5, 0x01] 3))).map
      (fun t => (t.uop.resVal, t.cur.pos)) = some (0x036, 3) ∧
    (ans (exec (.peek 20) (reading .idle [0xB5, 0x01] 3))).map
      (fun t => (t.uop.resVal, t.cur.pos)) = some (0x036, 3) := by decide

/-- 2.2: `CONSUME N=6` at 10 reaches the end; `CONSUME N=1` at 16 raises. -/
theorem test_consume :
    (ans (exec (.consume 6) (reading .idle [0xB5, 0x01] 10))).map
      (fun t => (t.state, t.cur.pos)) = some (.idle, 16) ∧
    (ans (exec (.consume 1) (reading .idle [0xB5, 0x01] 16))).map
      (fun t => (t.err, t.cur.pos)) = some (⟨.unexpectedEof, 16, 1⟩, 16) := by decide

/-- 2.2: ALIGN at 3 gives 8, at 8 changes nothing. -/
theorem test_align :
    (ans (exec .align (reading .idle [0xB5, 0x01] 3))).map (fun t => t.cur.pos) = some 8 ∧
    (ans (exec .align (reading .idle [0xB5, 0x01] 8))).map (fun t => t.cur.pos) = some 8 := by decide

/-- 2.2: REFILL with `IN_LEN = 3` holds 24 bits, with `IN_LEN = 8` stops at the threshold. -/
theorem test_refill :
    (ans (exec .refill (reading .idle [1, 2, 3] 0))).map
      (fun t => (t.cur.held, t.cur.fetch, t.cur.acc)) = some (24, 3, 0x030201) ∧
    (ans (exec .refill (reading .idle [1, 2, 3, 4, 5, 6, 7, 8] 0))).map
      (fun t => (t.cur.held, t.cur.fetch)) = some (32, 4) := by decide

/-- Meta lengths of the symbols 16, 17, 18 only. -/
def metaT (a b c : BitVec 3) : List (BitVec 3) := List.replicate 16 0 ++ [a, b, c]

/-- 2.1: meta lengths 16:1, 17:2, 18:2 are complete; 16:1 alone is not; three codes of length 1 are too
many. -/
theorem test_build :
    (ans (exec (.build .codeLen) { blank with par := { blank.par with metaLen := metaT 1 2 2 } })).map
      (fun t => (t.slots.codeLen.valid, t.slots.codeLen.rw, t.slots.codeLen.nused)) = some (true, 2, 3) ∧
    (ans (exec (.build .codeLen) { blank with par := { blank.par with metaLen := metaT 1 0 0 } })).map
      (fun t => (t.err.code, t.err.info)) = some (.treeIncomplete, 0) ∧
    (ans (exec (.build .codeLen) { blank with par := { blank.par with metaLen := metaT 1 1 1 } })).map
      (fun t => (t.err.code, t.err.info)) = some (.treeOversubscribed, 0) := by decide

/-- 2.1: the canonical codes of 3,3,3,3,3,2,4,4 and their reversals. -/
theorem test_canonical_codes :
    canonCodes [3, 3, 3, 3, 3, 2, 4, 4] = [0b010, 0b011, 0b100, 0b101, 0b110, 0b00, 0b1110, 0b1111] ∧
    (encodeTable [3, 3, 3, 3, 3, 2, 4, 4]).map (fun e => e.code) =
      [0b010, 0b110, 0b001, 0b101, 0b011, 0b00, 0b0111, 0b1111] := by decide

/-- 2.1: with 65:1 and two codes of length 2, the last stream bit 0 is symbol 65, a last bit 1 raises
UnexpectedEof(2) at bit 7. -/
theorem test_decodesym :
    let t := { reading .idle [0x00] 7 with
      slots := { Slots.empty with litLen := ⟨true, 2, 4, 3, [⟨.literal, 0, 65, 1⟩, ⟨.endOfBlock, 0, 256, 2⟩,
        ⟨.literal, 0, 65, 1⟩, ⟨.length, 0, 9, 2⟩], []⟩ } }
    (ans (exec (.decodesym .litLen) t)).map (fun u => (u.uop.resEntry, u.cur.pos)) =
      some (⟨.literal, 0, 65, 1⟩, 8) ∧
    (ans (exec (.decodesym .litLen) { t with inMem := [(0, 0x80)] })).map (fun u => u.err) =
      some ⟨.unexpectedEof, 7, 2⟩ := by decide

/-- 2.3: the byte 0x05 is a final dynamic block, 0x03 a static one. -/
theorem test_d_preamble :
    (ans (exec .dPreamble (reading .dPreamble [0x05] 0))).map
      (fun t => (t.par.bfinal, t.par.btype, t.state, t.cur.pos)) = some (true, 2, .dDynCounts, 3) ∧
    (ans (exec .dPreamble (reading .dPreamble [0x03] 0))).map
      (fun t => (t.par.btype, t.state)) = some (1, .dStatic) := by decide

/-- 2.3: `01 03 00 FC FF` declares 3 bytes; `01 03 00 FE FF` is a wrong complement. -/
theorem test_d_stored_hdr :
    (ans (exec .dStoredHdr (reading .dStoredHdr [0x01, 0x03, 0x00, 0xFC, 0xFF] 3))).map
      (fun t => (t.par.storedRem, t.state, t.cur.pos)) = some (3, .dStoredCopy, 40) ∧
    (ans (exec .dStoredHdr (reading .dStoredHdr [0x01, 0x03, 0x00, 0xFE, 0xFF] 3))).map
      (fun t => t.err) = some ⟨.storedLengthMismatch, 40, 0xFFFE0003⟩ := by decide

/-- 2.3: the last byte of a final stored block emits its literal and END. -/
theorem test_d_stored_copy :
    (ans (exec .dStoredCopy { reading .dStoredCopy [0x43] 0 with
      par := { Parser.zero with bfinal := true, storedRem := 1 } })).map
      (fun t => (t.tokenOut, t.tokenCount, t.state)) =
      some ([0x43, 0x40000000], 1, .dComplete) := by decide

/-- R83's example: HLIT = 7, HDIST = 1, HCLEN = 14. -/
theorem test_d_dyn_counts :
    (ans (exec .dDynCounts (reading .dDynCounts [0x27, 0x38] 0))).map
      (fun t => (t.par.hlit, t.par.hdist, t.par.hclen, t.state)) =
      some (264, 2, 18, .dDynMetalen) := by decide

/-- R84's example: the first of four fields `1, 2, 2, 0` goes to symbol 16, the last to symbol 0. -/
theorem test_d_dyn_metalen :
    (ans (exec .dDynMetalen { reading .dDynMetalen [0x91, 0x00] 0 with
      par := { Parser.zero with hclen := 4 } })).map (fun t => (t.par.metaLen[16]?, t.par.mi, t.state)) =
      some (some 1, 1, .dDynMetalen) ∧
    (ans (exec .dDynMetalen { reading .dDynMetalen [0x91, 0x00] 9 with
      par := { Parser.zero with hclen := 4, mi := 3 } })).map (fun t => (t.par.metaLen[0]?, t.state)) =
      some (some 0, .dDynMetabuild) := by decide

/-- 2.3: a 16 with nothing before it, and a repeat of 138 at 138 of 258 lengths. -/
theorem test_d_dyn_codelen :
    let s := { reading .dDynCodelen [0xFE, 0x01] 0 with
      slots := { Slots.empty with codeLen := slotT ⟨.literal, 2, 16, 1⟩ ⟨.literal, 7, 18, 1⟩ }
      par := { Parser.zero with hlit := 257, hdist := 1 } }
    (ans (exec .dDynCodelen s)).map (fun t => t.err) = some ⟨.rleProtocolError, 1, 0⟩ ∧
    (ans (exec .dDynCodelen { s with
      inMem := [(0, 0xFF), (1, 0x01)], par := { s.par with ci := 138 } })).map (fun t => t.err) =
      some ⟨.rleProtocolError, 8, 0x1008A⟩ := by decide

/-- R88's example: byte 0x03 ends in UnsupportedBlockType(1) at bit 3. -/
theorem test_d_static :
    (ans (exec .dStatic { reading .dStatic [0x03] 3 with par := { Parser.zero with btype := 1 } })).map
      (fun t => (t.err, t.state)) = some (⟨.unsupportedBlockType, 3, 1⟩, .error) := by decide

/-- 2.4: symbol 266 (base 13, one extra bit 1) gives length 14. -/
theorem test_d_bg_mlen :
    (ans (exec .dBgMlen { reading .dBgMlen [0x01] 0 with bg := { ByteGen.zero with lbase := 13, lext := 1 } })).map
      (fun t => (t.bg.mlen, t.state)) = some (14, .dBgMdist) := by decide

/-- R93's example: `mlen = 9`, `dbase = 1`, `dext = 0` emits 0x8009_0001. -/
theorem test_d_bg_mdistwr :
    (ans (exec .dBgMdistwr { reading .dBgMdistwr [] 0 with
      bg := { ByteGen.zero with mlen := 9, dbase := 1 } })).map (fun t => (t.tokenOut, t.tokenCount, t.state)) =
      some ([0x80090001], 1, .dBgLiteral) := by decide

/-- R90: a literal is emitted, an end-of-block in a final block emits END, an Invalid entry raises. -/
theorem test_d_bg_literal :
    let s := { reading .dBgLiteral [0x02] 0 with
      slots := { Slots.empty with litLen := slotT ⟨.literal, 0, 65, 1⟩ ⟨.endOfBlock, 0, 256, 1⟩ }
      par := { Parser.zero with bfinal := true } }
    (ans (exec .dBgLiteral s)).map (fun t => (t.tokenOut, t.state)) = some ([0x41], .dBgLiteral) ∧
    (ans (exec .dBgLiteral { s with cur := { s.cur with pos := 1 } })).map (fun t => (t.tokenOut, t.state)) =
      some ([0x40000000], .dComplete) := by decide

/-- R92: a distance class is taken; an Invalid entry raises InvalidCode. -/
theorem test_d_bg_mdist :
    let s := { reading .dBgMdist [0x02] 0 with
      slots := { Slots.empty with dist := slotT ⟨.distance, 1, 5, 1⟩ ⟨.invalid, 0, 30, 1⟩ } }
    (ans (exec .dBgMdist s)).map (fun t => (t.bg.dbase, t.bg.dext, t.state)) = some (5, 1, .dBgMdistwr) ∧
    (ans (exec .dBgMdist { s with cur := { s.cur with pos := 1 } })).map (fun t => t.err) =
      some ⟨.invalidCode, 2, 30⟩ := by decide

/-- 1.9: 138 zeros are one 18 with extra 127; 139 leave a tail of one. -/
theorem test_rle_138_139 :
    rlePairs (List.replicate 138 0) = [(18, 127)] ∧
    rlePairs (List.replicate 139 0) = [(18, 127), (0, 0)] := by decide

/-- R95's example: `(3,0), (16,2), (18,3)` are six 3s and 14 zeros. -/
theorem test_rle_expand :
    (ans (exec .rleExpand { blank with enc := { Encoder.zero with rq := [(3, 0), (16, 2), (18, 3)] } })).map
      (fun t => t.uop.resLens) = some (List.replicate 6 3 ++ List.replicate 14 0) := by decide

/-- RLE_EMIT walks the distance lengths `1, 1` (R94). -/
theorem test_rle_emit :
    (ans (exec (.rleEmit .dist) { blank with
      distLen := [(0, 1), (1, 1)], enc := { Encoder.zero with eHdist := 1 } })).map (fun t => t.enc.rq) =
      some [(1, 0), (1, 0)] := by decide

/-- R113's example: after `Put(0b101, 3)`, `Put(0x1FFF, 13)` fills the word FD FF. -/
theorem test_put :
    (ans (exec (.put 13) { writing .idle with
      pk := ⟨0b101, 3, 0, 3⟩, uop := { UopRegs.zero with opVal := 0x1FFF } })).map
      (fun t => (t.outMem, t.pk)) = some ([(0, 0xFD), (1, 0xFF)], ⟨0, 0, 2, 16⟩) := by decide

/-- 1.7: an empty input gives 00 00 00 FF FF. -/
theorem test_e_finalize_empty :
    (ans (exec .eFinalize { writing .eFinalize with inLen := 0 })).map
      (fun t => (t.outMem, t.pk.optr, t.pk.ptotal, t.state)) =
      some ([(0, 0), (1, 0), (2, 0), (3, 0xFF), (4, 0xFF)], 5, 40, .eDone) := by decide

/-- R115: a full word with input left gives no trailer. -/
theorem test_finalize_nothing_left :
    (ans (exec .finalize (writing .idle))).map (fun t => (t.outMem, t.pk.ptotal)) = some ([], 0) := by decide

/-- R112's example: canonical `110` is stored reversed and goes out as the bits 1, 1, 0; a symbol of length
0 raises UnencodableSymbol. -/
theorem test_encodesym :
    let s := { writing .idle with
      slots := { Slots.empty with litLen := slotE [⟨0b011, 3⟩, ⟨0, 0⟩] } }
    (ans (exec (.encodesym .litLen) s)).map (fun t => (t.pk.pacc, t.pk.pn)) = some (0b011, 3) ∧
    (ans (exec (.encodesym .litLen) { s with uop := { UopRegs.zero with opVal := 1 } })).map
      (fun t => t.err) = some ⟨.unencodableSymbol, 0, 0x10001⟩ := by decide

/-- R100's example: `is_last = 0`, counts 7, 1, 14 are the 17 bits `0 | 01 | 11100 | 10000 | 0111`. -/
theorem test_e_header :
    (ans (exec .eHeader { writing .eHeader with
      enc := { Encoder.zero with eHlit := 7, eHdist := 1, eHclen := 14 } })).map
      (fun t => (t.outMem, t.pk, t.state)) =
      some ([(0, 0x3C), (1, 0xC1)], ⟨1, 1, 2, 17⟩, .eMetalen) := by decide

/-- R101: one meta length, in the order of PERM: index 1 is symbol 17. -/
theorem test_e_metalen :
    (ans (exec .eMetalen { writing .eMetalen with
      metaLenMem := [(17, 2)], enc := { Encoder.zero with emi := 1, eHclen := 14 } })).map
      (fun t => (t.pk.pacc, t.pk.pn, t.enc.emi, t.state)) = some (2, 3, 2, .eMetalen) := by decide

/-- R102's example: the code of 18 (canonical `11`) and the extra value 54. -/
theorem test_e_codelen :
    (ans (exec .eCodelen { writing .eCodelen with
      slots := { Slots.empty with codeLen := slotE (List.replicate 18 ⟨0, 0⟩ ++ [⟨3, 2⟩]) }
      enc := { Encoder.zero with rq := [(18, 54)] } })).map (fun t => (t.pk.pacc, t.pk.pn, t.state)) =
      some (0b011011011, 9, .eWriteToken) := by decide

/-- R104's example: `M(9,1)` is symbol 263 and distance symbol 0; END is not consumed. -/
theorem test_e_write_token :
    (ans (exec .eWriteToken { writing .eWriteToken with tokenIn := [0x80090001] })).map
      (fun t => (t.enc.lsym, t.enc.dsym, t.enc.tin, t.state)) = some (263, 0, 1, .eMatchDistRep) ∧
    (ans (exec .eWriteToken { writing .eWriteToken with tokenIn := [0x40000000] })).map
      (fun t => (t.enc.tin, t.tokenCount, t.state)) = some (0, 0, .eEob) := by decide

/-- R104: `M(2,1)` is out of range. -/
theorem test_e_write_token_range :
    (ans (exec .eWriteToken { writing .eWriteToken with tokenIn := [0x80020001] })).map (fun t => t.err) =
      some ⟨.tokenRangeError, 0, 0x80020001⟩ := by decide

/-- R104's example: `Match(258, 32768)` is symbol 285 and distance symbol 29 with extra 8191. -/
theorem test_classes :
    lenCode 258 = (285, 0, 0) ∧ lenCode 257 = (284, 30, 5) ∧ lenCode 3 = (257, 0, 0) ∧
    distCode 32768 = (29, 8191, 13) ∧ distCode 1 = (0, 0, 0) := by decide

/-- R105..R110: the states of one token. -/
theorem test_e_token_states :
    let s := { writing .eLitRep with
      slots := { Slots.empty with
        litLen := slotE (List.replicate 256 ⟨0, 1⟩ ++ [⟨1, 2⟩]), dist := slotE [⟨1, 1⟩] }
      enc := { Encoder.zero with lxv := 5, lxn := 3, dxv := 8191, dxn := 13 } }
    (ans (exec .eLitRep s)).map (fun t => (t.pk.pn, t.state)) = some (1, .eWriteToken) ∧
    (ans (exec .eMatchDistRep s)).map (fun t => (t.pk.pn, t.state)) = some (1, .eMatchExtra) ∧
    (ans (exec .eMatchExtra s)).map (fun t => (t.pk.pacc, t.state)) = some (5, .eDistRep) ∧
    (ans (exec .eDistRep s)).map (fun t => (t.pk.pacc, t.state)) = some (1, .eDistExtra) ∧
    (ans (exec .eDistExtra s)).map (fun t => (t.pk.pacc, t.state)) = some (8191, .eWriteToken) ∧
    (ans (exec .eEob s)).map (fun t => (t.pk.pacc, t.pk.pn, t.state)) = some (1, 2, .eFinalize) := by decide

/-- R132: a START while a job runs changes nothing; R97: an encode START of an empty input goes to
E_FINALIZE. -/
theorem test_start :
    exec (.startDecode false) (writing .eHeader) = .next (writing .eHeader) ∧
    (ans (exec (.startEncode true) blank)).map (fun t => (t.state, t.enc.isLast, t.ctrl)) =
      some (.eFinalize, true, ⟨true, true⟩) :=
  ⟨rfl, by decide⟩

/-- R24, R32: a START in either mode latches `in_bits`; a decode START clears `is_last`. -/
theorem test_start_latches :
    (ans (exec (.startDecode true) { blank with
      inLen := 2, inMem := [(0, 1), (1, 2)], enc := { Encoder.zero with isLast := true } })).map
        (fun t => (t.cur.inBits, t.enc.isLast, t.ctrl)) = some (16, false, ⟨false, true⟩) ∧
    (ans (exec (.startEncode true) { blank with inLen := 3 })).map
      (fun t => (t.cur.inBits, t.enc.isLast)) = some (24, true) := by decide

/-- R77 where R24's invariant fails (log 41): the `held mod 8` form, `pos` 0 moved to 5. -/
theorem test_align_outside_invariant :
    (ans (exec .align { blank with cur := { Cursor.zero with held := 5 } })).map
      (fun t => (t.cur.pos, t.cur.held)) = some (5, 0) := by decide

/-- R131: SOFT_RESET in a running job empties everything. -/
theorem test_soft_reset :
    (ans (exec .softReset { writing .eHeader with inMem := [(0, 1)], tokenOut := [1] })).map
      (fun t => (t.state, t.inMem, t.tokenOut, statusWord t)) = some (.idle, [], [], 0) := by decide

/-- R11: STATUS in D_COMPLETE is DONE with FSM_STATE 15; in ERROR it carries the code. -/
theorem test_status :
    statusWord { blank with state := .dComplete } = 0x000F0002 ∧
    statusWord { blank with state := .error, err := ⟨.invalidCode, 0, 0⟩ } = 0x001F0404 := by decide

/-- The lengths `f y` of the symbols below `n`, as a tree memory. -/
def treeT (w n : Nat) (f : Nat → Nat) : Cells w :=
  (List.range n).map fun y => (y, BitVec.ofNat w (f y))

/-- The running example's trees (1.6). -/
def litT (y : Nat) : Nat := if y = 65 then 1 else if y = 256 ∨ y = 263 then 2 else 0
def distT (y : Nat) : Nat := if y ≤ 1 then 1 else 0
def codeLenT (y : Nat) : Nat := if y = 1 ∨ y = 2 ∨ y = 17 ∨ y = 18 then 2 else 0

/-- The running example with its trees in memory, about to build. -/
def building : State := { writing .eBuild with
  litlenLen := treeT 4 288 litT, distLen := treeT 4 32 distT, metaLenMem := treeT 3 19 codeLenT }

theorem memRead_map {w : Nat} (g : Nat → BitVec w) (l : List Nat) (a : Nat) (h : a ∈ l) :
    memRead (l.map fun y => (y, g y)) a = some (g a) := by
  induction l with
  | nil => simp at h
  | cons x rest ih =>
    by_cases hx : x = a
    · simp [memRead, hx]
    · have : a ∈ rest := by simpa [Ne.symm hx] using h
      simpa [memRead, hx] using ih this

theorem treeHolds_treeT (w n : Nat) (f : Nat → Nat) (h : ∀ y, f y < 2 ^ w) :
    TreeHolds (treeT w n f) ((List.range n).map f) := by
  intro y hy
  have hy' : y < n := by simpa using hy
  rw [treeT, memRead_map _ _ _ (List.mem_range.2 hy')]
  simp [hy', Nat.mod_eq_of_lt (h y)]

theorem litT_lt (y : Nat) : litT y < 2 ^ 4 := by unfold litT; split <;> [decide; (split <;> decide)]
theorem distT_lt (y : Nat) : distT y < 2 ^ 4 := by unfold distT; split <;> decide
theorem codeLenT_lt (y : Nat) : codeLenT y < 2 ^ 3 := by unfold codeLenT; split <;> decide

/-- 1.6, R98, R102: the running example's counts are 7, 1, 14, and its two arrays take nine RLE symbols. -/
theorem test_e_build_counts :
    let lit := List.replicate 65 0 ++ [1] ++ List.replicate 190 0 ++ [2] ++ List.replicate 6 0 ++ [2] ++
      List.replicate 24 0
    let dist := [1, 1] ++ List.replicate 30 0
    let t := queueLens lit dist (setCounts lit dist ((List.range 19).map codeLenT) (writing .eBuild))
    (t.enc.eHlit, t.enc.eHdist, t.enc.eHclen, t.enc.rq.length) = (7, 1, 14, 9) := by
  decide +kernel

/-! ## Witnesses: states and operands that meet the hypotheses of the statements, clause by clause -/

/-- MicroOpWordsHaveOneMeaning: a word that decodes, with N at its bound. -/
theorem test_meets_micro_op_word : decodeUop 0b0000100000000100#16 = .ok (.peek 32) := rfl

/-- ReservedMicroOpWordsAreRefused: a reserved word at the host's port is refused by a step. -/
theorem test_meets_reserved_word :
    step { blank with host := [.uop 0x000D 0] } = .refused (.reservedMicroOp 0x000D) := rfl

/-- CtrlValuesAreTheFourCommands: a word for each clause. -/
theorem test_meets_ctrl_values :
    (0x0000000F#32).getLsbD 3 = true ∧
    ((0xFFFFFFF5#32).getLsbD 3 = false ∧ (0xFFFFFFF5#32).getLsbD 0 = true ∧
      (0xFFFFFFF5#32).getLsbD 1 = false) ∧
    ((0x00000007#32).getLsbD 3 = false ∧ (0x00000007#32).getLsbD 0 = true ∧
      (0x00000007#32).getLsbD 1 = true) ∧
    ((0x00000006#32).getLsbD 3 = false ∧ (0x00000006#32).getLsbD 0 = false) := by decide

/-- StepRunsTheDecodedInstruction: the engine's fetch, an issued primitive in IDLE, while busy and in ERROR,
an issued step in its state and in another, a command, a token. -/
theorem test_meets_step_runs :
    ((reading .dPreamble [5] 0).host = [] ∧
      decodeUop (BitVec.ofNat 16 (0x20 + (fsmCode (reading .dPreamble [5] 0).state).toNat)) =
        .ok .dPreamble) ∧
    ((decodeUop 0x0007#16 = .ok .align) ∧ (0x0007#16).toNat % 64 < 0x20 ∧ blank.state = .idle ∧
      busy (reading .dPreamble [5] 0) = true ∧ { blank with state := .error }.state = .error) ∧
    ((decodeUop 0x0023#16 = .ok .dStoredHdr) ∧ 0x20 ≤ (0x0023#16).toNat % 64 ∧
      0x0023#16 ≠ BitVec.ofNat 16 (0x20 + (fsmCode (reading .dPreamble [5] 0).state).toNat)) ∧
    ((decodeUop 0x0022#16 = .ok .dPreamble) ∧
      0x0022#16 = BitVec.ofNat 16 (0x20 + (fsmCode (reading .dPreamble [5] 0).state).toNat)) ∧
    ({ blank with host := [.regWrite 0 1] }.host = .regWrite blank.cfg.regBase 1 :: []) ∧
    (({ writing .eWriteToken with tokenIn := [0x41] }.tokenIn)[
        { writing .eWriteToken with tokenIn := [0x41] }.enc.tin.toNat]? = some 0x41#32 ∧
      decodeToken 0x41#32 = .ok (.tokenLiteral 0x41)) :=
  ⟨⟨rfl, rfl⟩, ⟨rfl, by decide⟩, ⟨rfl, by decide⟩, ⟨rfl, rfl⟩, rfl, rfl, rfl⟩

/-- TerminalStatesTakeNoStep: a terminal state with nothing pending waits. -/
theorem test_meets_terminal : blank.state = .idle ∧ blank.host = [] ∧ step blank = .next blank :=
  ⟨rfl, rfl, rfl⟩

/-- SoftResetRestoresTheResetState: START and SOFT_RESET together. -/
theorem test_meets_soft_reset : (0x00000009#32).getLsbD 3 = true := by decide

/-- StartFollowsItsRule: one byte too long; the last byte unwritten; all 64 bytes written. -/
theorem test_meets_start :
    terminal (writing .eHeader).state = false ∧ terminal blank.state = true ∧
    ({ blank with inLen := 65 }.cfg.inMemBytes < { blank with inLen := 65 }.inLen.toNat) ∧
    (let s := { blank with inLen := 64, inMem := cells 0 (List.replicate 63 0) }
     s.inLen.toNat ≤ s.cfg.inMemBytes ∧ 63 < s.inLen.toNat ∧ memRead s.inMem 63 = none ∧
      ∀ b, b < 63 → (memRead s.inMem b).isSome = true) ∧
    (let s := { blank with inLen := 64, inMem := cells 0 (List.replicate 64 0) }
     s.inLen.toNat ≤ s.cfg.inMemBytes ∧ InputWritten s) := by decide

/-- SetModeWritesModeAndIsLast: a terminal state and a running job. -/
theorem test_meets_set_mode :
    terminal Fsm.eDone = true ∧ terminal Fsm.dStatic = false := by decide

/-- HostReadsGiveTheRegisters: no job and the terminal STATUS read; a job; the end of a job before that
read; the last byte below OUT_SIZE and the last address; a word in the queue, and none. -/
theorem test_meets_host_reads :
    busy blank = false ∧ blank.synced = true ∧ blank.tokenOut = [] ∧
    busy (reading .dPreamble [5] 0) = true ∧
    (let s := { writing .eDone with outMem := [(4, 0xFF)], pk := ⟨0, 0, 5, 40⟩ }
     busy s = false ∧ s.synced = true ∧ 4 < s.cfg.outMemBytes ∧ 4 < s.pk.optr.toNat ∧
      memRead s.outMem 4 = some 0xFF#8) ∧
    (63 < blank.cfg.outMemBytes ∧ blank.cfg.outMemBytes ≤ 64) ∧
    { blank with tokenOut := [0x41] }.tokenOut = [0x41] ∧
    { writing .eDone with synced := false }.synced = false ∧
    hostRegRead 0x0C { blank with pk := ⟨0, 0, 5, 0⟩ } =
      .next { blank with pk := ⟨0, 0, 5, 0⟩, hostData := some 5 } ∧
    hostRegRead 0xFFF blank = .next { blank with hostData := some 0 } :=
  ⟨rfl, rfl, rfl, rfl, by decide, by decide, rfl, rfl, rfl, rfl⟩

/-- R46, R64: the first terminal STATUS read, and the last poll of WAIT, make the results exact; while a job
runs each poll lets the consumer take a word and the engine a step. -/
theorem test_wait :
    let s := { writing .eDone with pk := ⟨0, 0, 5, 40⟩, synced := false }
    (ans (hostTurn (.wait false) s)).map (fun t => (t.hostData, t.synced)) = some (some 0x001C0002, true) ∧
    (let t := { reading .dStoredCopy [0x43] 0 with
        tokenOut := [1, 2, 3, 4], par := { Parser.zero with storedRem := 2 } }
     (ans (hostTurn (.wait true) t)).map (fun u => (u.taken, u.tokenOut, u.host)) =
       some ([1], [2, 3, 4, 0x43], [.wait true]) ∧
     (ans (hostTurn (.wait false) t)).map (fun u => (u.taken, u.tokenOut)) = some ([], [1, 2, 3, 4])) := by
  decide

/-- R31, R120: a primitive is refused while a job runs, and has no effect in ERROR. -/
theorem test_primitive_issue :
    issueUop 0x0045 0 (reading .dPreamble [5] 0) = .refused (.uopWhileBusy 0x0045) ∧
    issueUop 0x0045 0 { blank with state := .error, err := ⟨.invalidCode, 7, 9⟩ } =
      .next { blank with state := .error, err := ⟨.invalidCode, 7, 9⟩ } :=
  ⟨rfl, rfl⟩

/-- HostWritesFollowTheirRules: a running job, and none; the last entries and lengths of each memory. -/
theorem test_meets_host_writes :
    busy (writing .eHeader) = true ∧ busy blank = false ∧
    63 < blank.cfg.inMemBytes ∧
    hostTreeWrite .litLen 287 15 blank = .next { blank with litlenLen := [(287, 15)] } ∧
    hostTreeWrite .dist 31 15 blank = .next { blank with distLen := [(31, 15)] } ∧
    hostTreeWrite .codeLen 18 7 blank = .next { blank with metaLenMem := [(18, 7)] } ∧
    hostTreeWrite .codeLen 18 8 blank = .refused .lengthOutOfRange ∧
    (1 ≤ blank.cfg.inMemAt.stride ∧ 1 ≤ blank.cfg.outMemAt.stride ∧ 1 ≤ blank.cfg.litlenAt.stride ∧
      1 ≤ blank.cfg.distAt.stride ∧ 1 ≤ blank.cfg.metaLenAt.stride) ∧
    (∀ i, 0 ≠ blank.cfg.inMemAt.base + i * blank.cfg.inMemAt.stride) :=
  ⟨rfl, rfl, by decide, rfl, rfl, rfl, rfl, by decide, fun i => by
    simp only [blank, cfgT, State.resetWith, Config.reference]
    omega⟩

/-- R35: with entries four addresses apart, the last entry stands at base + 4 * 31, and none between. -/
theorem test_placement :
    let s := { blank with cfg := { cfgT with distAt := ⟨0x100, 4⟩ } }
    (ans (hostTurn (.treeWrite .dist 0x17C 15) s)).map (fun t => t.distLen) = some [(31, 15)] ∧
    hostTurn (.treeWrite .dist 0x17D 15) s = .fault (.addressOutside 0x17D) :=
  ⟨by decide, rfl⟩

/-- EveryStepKeepsMemoriesCanonical: a state with memory in it takes a step that stores. -/
theorem test_meets_memory_invariant :
    let s := { writing .eFinalize with inLen := 0, outMem := [(1, 1), (9, 9)] }
    MemInv s ∧ ∃ t, step s = .next t :=
  ⟨⟨rfl, rfl, rfl, rfl, rfl⟩, _, rfl⟩

/-- EngineStoresOnlyAtTheOutputPointer: a PUT that stores a word. -/
theorem test_meets_engine_stores :
    (Instr.put 16).isCommand = false ∧ (writing .idle).cfg.outMemBytes < 2 ^ 32 ∧
    ∃ t, exec (.put 16) (writing .idle) = .next t :=
  ⟨rfl, by decide, _, rfl⟩

/-- A cursor in the middle of a byte meets R24. -/
theorem test_cursor_mid_byte : CursorOk (reading .dPreamble [0x05, 0x00, 0x22] 3) :=
  cursorOk_of _ (by decide) (by decide) (by decide) (by decide) (by decide) (by decide)

/-- EveryStepKeepsTheCursorInvariant: a decode job in D_PREAMBLE, and one in D_HEADER. -/
theorem test_meets_decoder_invariant :
    (DecoderInv (reading .dPreamble [0x05, 0x00, 0x22] 3) ∧
      ∃ t, step (reading .dPreamble [0x05, 0x00, 0x22] 3) = .next t) ∧
    (DecoderInv (reading .dHeader [0x05] 0) ∧ ∃ t, step (reading .dHeader [0x05] 0) = .next t) :=
  ⟨⟨⟨by decide, fun _ => by decide, fun _ => test_cursor_mid_byte⟩, _, rfl⟩,
    ⟨by decide, fun _ => by decide, fun h => absurd h (by decide)⟩, _, rfl⟩

/-- EveryStepKeepsThePackerInvariant: a full word less one bit is held. -/
theorem test_meets_packer_invariant :
    let s := { writing .eHeader with pk := ⟨0x7FFF, 15, 0, 15⟩ }
    PackerInv s ∧ ∃ t, step s = .next t :=
  ⟨fun _ => ⟨by decide, by decide⟩, _, rfl⟩

/-- EveryStepKeepsTheQueueBounded: a full queue, and a step that waits. -/
theorem test_meets_queue_invariant :
    let s := { reading .dStoredCopy [0x41] 0 with tokenOut := [1, 2, 3, 4] }
    QueueInv s ∧ ∃ t, step s = .next t :=
  ⟨by unfold QueueInv; decide, _, rfl⟩

/-- EveryStepKeepsTheParserRanges: the last meta length, and the last code length but one. -/
theorem test_meets_parser_invariant :
    (let s := { reading .dDynMetalen [0x05] 0 with
        par := { Parser.zero with hlit := 257, hdist := 1, hclen := 19, mi := 18 } }
     ParserInv s ∧ ∃ t, step s = .next t) ∧
    (let s := { reading .dDynCodelen [0x05] 0 with
        slots := { Slots.empty with codeLen := slotT ⟨.literal, 0, 1, 1⟩ ⟨.literal, 0, 2, 1⟩ }
        par := { Parser.zero with hlit := 288, hdist := 32, hclen := 4, ci := 319 } }
     ParserInv s ∧ ∃ t, step s = .next t) :=
  ⟨⟨⟨by decide +kernel, by decide +kernel, by decide, by decide, by decide⟩, _, rfl⟩,
    ⟨by decide +kernel, by decide +kernel, by decide, by decide, by decide⟩, _, rfl⟩

/-- InvariantsHoldAtReset: the least parameters R2 allows. -/
theorem test_meets_reset : Config.wf { Config.reference with
    inMemBytes := 1, outMemBytes := 5, tokenOutDepth := 2, packWord := .bits8 } = true := by decide

/-- EngineFollowsTheStateSequence, TokensAreNeverWithdrawn: a step that moves on, and one that raises. -/
theorem test_meets_engine_turn :
    (∃ t, engineTurn (reading .dPreamble [5] 0) = .next t ∧ t.state = .dDynCounts) ∧
    (∃ t, engineTurn (reading .dPreamble [] 0) = .next t ∧ t.state = .error) :=
  ⟨⟨_, rfl, rfl⟩, _, rfl, rfl⟩

/-- ErrorRegistersChangeOnlyByRaiseOrStart: a raise in a job, one of a primitive issued by itself, and a
START after an error. -/
theorem test_meets_error_registers :
    (let s := reading .dPreamble [] 0
     ∃ t, step s = .next t ∧ t.err ≠ s.err) ∧
    (let s := { reading .idle [] 0 with host := [.uop 0x0045 0] }
     ∃ t, step s = .next t ∧ t.err ≠ s.err) ∧
    (let s := { blank with state := .error, err := ⟨.invalidCode, 7, 9⟩, host := [.regWrite 0 3] }
     ∃ t, step s = .next t ∧ t.err ≠ s.err) :=
  ⟨⟨_, rfl, by decide⟩, ⟨_, rfl, by decide⟩, _, rfl, by decide⟩

/-- EngineOperationsKeepTheirFrame: an operation of each side. -/
theorem test_meets_frame :
    ((Instr.read 3).isCommand = false ∧ (Instr.read 3).isDecoder = true ∧
      ∃ t, exec (.read 3) (reading .idle [5] 0) = .next t) ∧
    ((Instr.put 16).isCommand = false ∧ (Instr.put 16).isEncoder = true ∧
      ∃ t, exec (.put 16) (writing .idle) = .next t) :=
  ⟨⟨rfl, rfl, _, rfl⟩, rfl, rfl, _, rfl⟩

/-- The cursor's statements: exactly enough bits, and one too few (2.2). -/
theorem test_meets_cursor_bounds :
    let s := reading .idle [0xB5, 0x01] 10
    PosFits s ∧ HasBits s 6 ∧ ¬HasBits s 7 ∧ (32#6).toNat ≤ 32 ∧ HasBits s 0 := by decide

/-- AlignRoundsUpToAByte, RefillTopsUpTheAccumulator, AccumulatorHoldsThePeekedBits. -/
theorem test_meets_cursor_ok :
    CursorOk (reading .dPreamble [0x05, 0x00, 0x22] 3) ∧
    (reading .dPreamble [0x05, 0x00, 0x22] 3).cur.held.toNat ≤ 47 ∧
    ∃ t, exec .refill (reading .dPreamble [0x05, 0x00, 0x22] 3) = .next t :=
  ⟨test_cursor_mid_byte, by decide, _, rfl⟩

/-- A decode-mode state whose meta lengths are given. -/
def metaState (l : List (BitVec 3)) : State :=
  { reading .idle [0x02] 1 with par := { Parser.zero with metaLen := l } }

/-- The same as an array for BUILD. -/
def metaLens (a b c : Nat) : List Nat := List.replicate 16 0 ++ [a, b, c]

/-- BuildChecksAndFillsTheSlot: a code word too many, one too few, and a complete array. -/
theorem test_meets_build :
    (buildArray .codeLen (metaState (metaT 1 1 1)) = some (metaLens 1 1 1) ∧
      2 ^ 15 < kraftSum (metaLens 1 1 1)) ∧
    (buildArray .codeLen (metaState (metaT 1 2 0)) = some (metaLens 1 2 0) ∧
      kraftSum (metaLens 1 2 0) < 2 ^ 15) ∧
    (buildArray .codeLen (metaState (metaT 1 2 2)) = some (metaLens 1 2 2) ∧
      kraftSum (metaLens 1 2 2) = 2 ^ 15 ∧ LengthArray .codeLen (metaLens 1 2 2)) :=
  ⟨⟨by decide, by decide⟩, ⟨by decide, by decide⟩, by decide, by decide, by decide, by decide⟩

/-- BuildChecksAndFillsTheSlot: the ranges in decode mode, a tree in memory in encode mode, and none. -/
theorem test_meets_build_arrays :
    (let s := metaState (metaT 1 2 2)
     s.ctrl.mode = false ∧ s.par.metaLen.length = 19 ∧ s.par.cl.length = 320 ∧ s.par.hlit.toNat ≤ 288 ∧
      s.par.hdist.toNat ≤ 32) ∧
    (building.ctrl.mode = true ∧ ((List.range 19).map codeLenT).length = 19 ∧
      TreeHolds building.metaLenMem ((List.range 19).map codeLenT) ∧
      ((List.range 288).map litT).length = 288 ∧ TreeHolds building.litlenLen ((List.range 288).map litT) ∧
      ((List.range 32).map distT).length = 32 ∧ TreeHolds building.distLen ((List.range 32).map distT)) ∧
    buildArray .dist (writing .idle) = none ∧
    ((writing .idle).ctrl.mode = true ∧ memRead (writing .idle).metaLenMem 18 = none ∧
      memRead (writing .idle).litlenLen 287 = none ∧ memRead (writing .idle).distLen 31 = none) :=
  ⟨by decide +kernel, ⟨rfl, by simp, treeHolds_treeT 3 19 codeLenT codeLenT_lt, by simp,
    treeHolds_treeT 4 288 litT litT_lt, by simp, treeHolds_treeT 4 32 distT distT_lt⟩, by decide, by decide⟩

/-- R72's example: distance lengths 1, 2, 3, 4, 5, 6, 8, 8, 7 take 68 entries; the link stands at index 63
and symbol 6 at entry 65. -/
theorem test_table_layout :
    let lens := [1, 2, 3, 4, 5, 6, 8, 8, 7] ++ List.replicate 23 0
    (subtableOffset lens 6 64, codesUnder lens 6 63) = (68, [2, 2, 1]) ∧
    TableHolds .dist lens (decodeTable .dist lens) 6 6 8 0xFE := by
  refine ⟨by decide +kernel, fun h => absurd h (by decide), fun _ => by decide +kernel, fun _ j hj hm => ?_⟩
  refine ⟨symEntry .dist 6 8, ?_, symEntry_isSymEntry .dist 6 8 (by decide)⟩
  revert j
  have : subtableSize ([1, 2, 3, 4, 5, 6, 8, 8, 7] ++ List.replicate 23 0) 6 (0xFE >>> (8 - 6)) = 4 := by
    decide +kernel
  rw [this]
  decide +kernel

/-- CanonicalCodesAreConsecutive, CanonicalCodesArePrefixFree: a code of length 1 and one of length 15. -/
theorem test_meets_codes :
    let lens := [1, 2, 3, 4, 5, 6, 7, 8, 9, 10, 11, 12, 13, 14, 15, 15]
    (∀ l ∈ lens, l ≤ 15) ∧ kraftSum lens = 2 ^ 15 ∧ lens[0]? = some 1 ∧ lens[15]? = some 15 ∧
    (canonCodes lens)[0]? = some 0 ∧ (canonCodes lens)[15]? = some 0x7FFF := by decide

/-- A state whose three slots have a direct entry for bit 0 and a link for bit 1. -/
def linked (f : Fsm) (bytes : List Byte) (p : Nat) (e0 e10 e11 : Entry) : State :=
  let x : Slot := ⟨true, 1, 4, 3, [e0, ⟨.linkToSubtable, 1, 2, 1⟩, e10, e11], []⟩
  { reading f bytes p with slots := ⟨x, x, x⟩ }

/-- DecodesymFollowsTheTable: an entry direct, and one through a link; the last code of the input, and one
that runs past the end. -/
theorem test_meets_decodesym :
    (let s := linked .idle [0x00] 7 ⟨.literal, 0, 65, 1⟩ ⟨.literal, 0, 1, 2⟩ ⟨.literal, 0, 2, 2⟩
     Selects .litLen s ⟨.literal, 0, 65, 1⟩ ∧ PosFits s ∧ HasBits s 1) ∧
    (let s := linked .idle [0xC0] 6 ⟨.literal, 0, 65, 1⟩ ⟨.literal, 0, 1, 2⟩ ⟨.literal, 0, 2, 2⟩
     Selects .litLen s ⟨.literal, 0, 2, 2⟩ ∧ PosFits s ∧ HasBits s 2) ∧
    (let s := linked .idle [0x80] 7 ⟨.literal, 0, 65, 1⟩ ⟨.literal, 0, 1, 2⟩ ⟨.literal, 0, 2, 2⟩
     Selects .litLen s ⟨.literal, 0, 1, 2⟩ ∧ PosFits s ∧ ¬HasBits s 2) := by
  refine ⟨⟨⟨rfl, .inl ⟨by decide, by decide⟩⟩, by decide, by decide⟩,
    ⟨⟨rfl, .inr ⟨⟨.linkToSubtable, 1, 2, 1⟩, rfl, by decide, by decide⟩⟩, by decide, by decide⟩,
    ⟨⟨rfl, .inr ⟨⟨.linkToSubtable, 1, 2, 1⟩, rfl, by decide, by decide⟩⟩, by decide, by decide⟩⟩

/-- DecodesymFindsTheCode: the meta lengths 16:1, 17:2, 18:2; the stream bit 1, 0 is the code of 17. -/
theorem test_meets_decodesym_finds :
    let s0 := metaState (metaT 1 2 2)
    let s := { s0 with slots := { s0.slots with codeLen := builtSlot .codeLen (metaLens 1 2 2) } }
    buildArray .codeLen s0 = some (metaLens 1 2 2) ∧ LengthArray .codeLen (metaLens 1 2 2) ∧
    kraftSum (metaLens 1 2 2) = 2 ^ 15 ∧ exec (.build .codeLen) s0 = .next s ∧ PosFits s ∧ HasBits s 2 ∧
    (metaLens 1 2 2)[17]? = some 2 ∧ (canonCodes (metaLens 1 2 2))[17]? = some 2 ∧
    fieldAt s s.cur.pos.toNat 2 = revBits 2 2 := by
  have h : buildArray .codeLen (metaState (metaT 1 2 2)) = some (metaLens 1 2 2) := by decide
  have hk : kraftSum (metaLens 1 2 2) = 2 ^ 15 := by decide
  refine ⟨h, ⟨by decide, by decide⟩, hk, ?_, by decide, by decide, by decide, by decide, by decide⟩
  show (match buildArray .codeLen (metaState (metaT 1 2 2)) with
    | none => Host.Outcome.fault (Fault.treeUnwritten .codeLen)
    | some lens => (build .codeLen lens (metaState (metaT 1 2 2))).out) = _
  rw [h]
  show (build .codeLen (metaLens 1 2 2) _).out = _
  rw [build_complete _ _ _ hk]
  rfl

/-- PreambleReadsTheBlockHeader: exactly three bits, none, and one. -/
theorem test_meets_preamble :
    HasBits (reading .dPreamble [0xA0] 5) 3 ∧ ¬HasBits (reading .dPreamble [0xA0] 8) 1 ∧
    (HasBits (reading .dPreamble [0xA0] 7) 1 ∧ ¬HasBits (reading .dPreamble [0xA0] 7) 3) ∧
    PosFits (reading .dPreamble [0xA0] 5) := by decide

/-- A cursor at a byte boundary in state D_STORED_HDR. -/
theorem cursorOk_stored (bytes : List Byte) (h : bytes.length ≤ 8) :
    CursorOk (reading .dStoredHdr bytes 0) := by
  refine cursorOk_of _ (by simp [reading]) (by simp [reading]) ?_ ?_ (by simp [reading]) ?_
  · simp only [reading, BitVec.toNat_ofNat]
    rw [Nat.mod_eq_of_lt (by omega), Nat.mod_eq_of_lt (by omega)]
  · simp only [reading, BitVec.toNat_ofNat]
    omega
  · intro i _
    simp [reading]

/-- StoredHeaderReadsTheLength: no length, no complement, a length of 3, of 0, and a wrong complement. -/
theorem test_meets_stored_header :
    (let s := reading .dStoredHdr [0x03] 0
     CursorOk s ∧ s.cur.inBits.toNat < 16) ∧
    (let s := reading .dStoredHdr [0x03, 0x00, 0xFC] 0
     CursorOk s ∧ 16 ≤ s.cur.inBits.toNat ∧ s.cur.inBits.toNat < 32) ∧
    (let s := reading .dStoredHdr [0x03, 0x00, 0xFC, 0xFF] 0
     CursorOk s ∧ s.cur.inBits.toNat = 32 ∧ fieldAt s 16 16 = fieldAt s 0 16 ^^^ 0xFFFF ∧
      fieldAt s 0 16 ≠ 0) ∧
    (let s := reading .dStoredHdr [0x00, 0x00, 0xFF, 0xFF] 0
     CursorOk s ∧ s.cur.inBits.toNat = 32 ∧ fieldAt s 16 16 = fieldAt s 0 16 ^^^ 0xFFFF ∧
      fieldAt s 0 16 = 0 ∧ s.par.bfinal = false ∧ s.tokenOut.length + 1 ≤ s.cfg.tokenOutDepth) ∧
    (let s := reading .dStoredHdr [0x03, 0x00, 0xFE, 0xFF] 0
     CursorOk s ∧ s.cur.inBits.toNat = 32 ∧ fieldAt s 16 16 ≠ fieldAt s 0 16 ^^^ 0xFFFF) :=
  ⟨⟨cursorOk_stored _ (by decide), by decide⟩, ⟨cursorOk_stored _ (by decide), by decide⟩,
    ⟨cursorOk_stored _ (by decide), by decide⟩, ⟨cursorOk_stored _ (by decide), by decide⟩,
    cursorOk_stored _ (by decide), by decide⟩

/-- StoredCopyPassesOneByte: the last byte of the input, of a block, and no byte. -/
theorem test_meets_stored_copy :
    let s := { reading .dStoredCopy [0x43] 0 with par := { Parser.zero with storedRem := 1 } }
    PosFits s ∧ HasBits s 8 ∧ s.par.storedRem = 1 ∧ s.par.bfinal = false ∧
    s.tokenOut.length + 1 ≤ s.cfg.tokenOutDepth ∧
    (let t := { s with tokenOut := [1, 2], par := { Parser.zero with storedRem := 1, bfinal := true } }
     t.par.bfinal = true ∧ t.tokenOut.length + 2 = t.cfg.tokenOutDepth) ∧
    (reading .dStoredCopy [0x43] 0).par.storedRem ≠ 1 ∧ ¬HasBits (reading .dStoredCopy [0x43] 1) 8 := by
  decide

/-- DynCountsReadsThreeCounts: exactly 14 bits, and too few for each read. -/
theorem test_meets_dyn_counts :
    HasBits (reading .dDynCounts [0, 0] 2) 14 ∧ ¬HasBits (reading .dDynCounts [0] 4) 5 ∧
    (HasBits (reading .dDynCounts [0] 3) 5 ∧ ¬HasBits (reading .dDynCounts [0] 3) 10) ∧
    (HasBits (reading .dDynCounts [0, 0] 3) 10 ∧ ¬HasBits (reading .dDynCounts [0, 0] 3) 14) ∧
    PosFits (reading .dDynCounts [0, 0] 2) := by decide

/-- DynMetalenReadsOneLength: the last of 19, with three bits and with two. -/
theorem test_meets_dyn_metalen :
    let s := { reading .dDynMetalen [0xE0] 5 with par := { Parser.zero with hclen := 19, mi := 18 } }
    PosFits s ∧ metaOrder[s.par.mi.toNat]? = some 15 ∧ HasBits s 3 ∧
    ¬HasBits (reading .dDynMetalen [0xE0] 6) 3 := by decide

/-- A state with code lengths at the symbols 65 and 256, and at the distance symbols 0 and 1. -/
def dynState (a b c d : BitVec 4) : State := { reading .dDynTablebuild [] 0 with
  par := { Parser.zero with
    hlit := 257, hdist := 2
    cl := List.replicate 65 0 ++ [a] ++ List.replicate 190 0 ++ [b, c, d] ++ List.replicate 61 0 } }

/-- The two arrays of such a state, as DynamicTablesAreBuilt gives them. -/
def dynLit (s : State) : List Nat :=
  (List.range 288).map fun y => if y < s.par.hlit.toNat then (s.par.cl.getD y 0).toNat else 0
def dynDist (s : State) : List Nat :=
  (List.range 32).map fun y =>
    if y < s.par.hdist.toNat then (s.par.cl.getD (s.par.hlit.toNat + y) 0).toNat else 0

/-- The literal/length array, written out. -/
def litList (a b : Nat) : List Nat :=
  List.replicate 65 0 ++ [a] ++ List.replicate 190 0 ++ [b] ++ List.replicate 31 0

/-- The distance array, written out. -/
def distList (c d : Nat) : List Nat := [c, d] ++ List.replicate 30 0

theorem dynLit_one_one : dynLit (dynState 1 1 1 1) = litList 1 1 := by decide +kernel
theorem dynLit_one_two : dynLit (dynState 1 2 1 0) = litList 1 2 := by decide +kernel
theorem dynLit_again : dynLit (dynState 1 1 1 0) = litList 1 1 := by decide +kernel
theorem dynDist_one_one : dynDist (dynState 1 1 1 1) = distList 1 1 := by decide +kernel
theorem dynDist_one_zero : dynDist (dynState 1 1 1 0) = distList 1 0 := by decide +kernel

/-- DynamicTablesAreBuilt: the ranges, and the cases of the three sums up to 2^15. -/
theorem test_meets_dynamic_tables :
    (let s := dynState 1 1 1 1
     s.par.metaLen.length = 19 ∧ s.par.cl.length = 320 ∧ s.par.hlit.toNat ≤ 288 ∧ s.par.hdist.toNat ≤ 32) ∧
    (kraftSum (dynLit (dynState 1 1 1 1)) = 2 ^ 15 ∧ kraftSum (dynDist (dynState 1 1 1 1)) = 2 ^ 15) ∧
    kraftSum (dynLit (dynState 1 2 1 0)) < 2 ^ 15 ∧
    (kraftSum (dynLit (dynState 1 1 1 0)) = 2 ^ 15 ∧ kraftSum (dynDist (dynState 1 1 1 0)) < 2 ^ 15) ∧
    kraftSum ((metaT 1 2 0).map BitVec.toNat) < 2 ^ 15 ∧
    2 ^ 15 < kraftSum ((metaT 1 1 1).map BitVec.toNat) ∧
    kraftSum ((metaT 1 2 2).map BitVec.toNat) = 2 ^ 15 := by
  rw [dynLit_one_one, dynLit_one_two, dynLit_again, dynDist_one_one, dynDist_one_zero]
  decide +kernel

/-- Three code lengths of 1 in the literal/length array, or in the distance array. -/
def overLit : State := { dynState 1 1 1 1 with
  par := { (dynState 1 1 1 1).par with cl := List.replicate 3 1 ++ List.replicate 317 0 } }
def overDist : State := { dynState 1 1 1 1 with
  par := { (dynState 1 1 1 1).par with
    hdist := 3, cl := List.replicate 2 1 ++ List.replicate 255 0 ++ List.replicate 3 1 ++ List.replicate 60 0 } }

theorem dynLit_overLit : dynLit overLit = List.replicate 3 1 ++ List.replicate 285 0 := by decide +kernel
theorem dynLit_overDist : dynLit overDist = List.replicate 2 1 ++ List.replicate 286 0 := by decide +kernel
theorem dynDist_overDist : dynDist overDist = List.replicate 3 1 ++ List.replicate 29 0 := by decide +kernel

/-- DynamicTablesAreBuilt: sums above 2^15 in the literal/length and in the distance part. -/
theorem test_meets_dynamic_oversubscribed :
    2 ^ 15 < kraftSum (dynLit overLit) ∧
    (kraftSum (dynLit overDist) = 2 ^ 15 ∧ 2 ^ 15 < kraftSum (dynDist overDist)) := by
  rw [dynLit_overLit, dynLit_overDist, dynDist_overDist]
  decide +kernel

/-- A state in D_DYN_CODELEN whose table gives `y0` for a bit 0 and `y1` for a bit 1. -/
def codelenState (bytes : List Byte) (p : Nat) (y0 y1 : BitVec 16) (hlit ci : BitVec 9) : State :=
  { reading .dDynCodelen bytes p with
    slots := { Slots.empty with codeLen := slotT ⟨.literal, 0, y0, 1⟩ ⟨.literal, 0, y1, 1⟩ }
    par := { Parser.zero with hlit := hlit, hdist := 1, ci := ci } }

/-- Bit 0 selects the first entry, bit 1 the second. -/
theorem codelen_selects (bytes : List Byte) (p : Nat) (y0 y1 : BitVec 16) (hlit ci : BitVec 9) (e : Entry)
    (hk : e.kind ≠ .linkToSubtable)
    (h : (slotT ⟨.literal, 0, y0, 1⟩ ⟨.literal, 0, y1, 1⟩).dt[paddedFieldAt
        (codelenState bytes p y0 y1 hlit ci) (codelenState bytes p y0 y1 hlit ci).cur.pos.toNat 1]? = some e) :
    Selects .codeLen (codelenState bytes p y0 y1 hlit ci) e :=
  ⟨rfl, .inl ⟨hk, h⟩⟩

/-- DynCodelenExpandsOneSymbol: a length as the last one declared; a 16 first; a 17 that fits exactly and
an 18 that runs one past; a code and extra bits that are missing. -/
theorem test_meets_dyn_codelen :
    (let s := codelenState [0x00] 7 15 18 257 257
     Selects .codeLen s ⟨.literal, 0, 15, 1⟩ ∧ PosFits s ∧ s.par.cl.length = 320 ∧
      s.par.hlit.toNat ≤ 288 ∧ s.par.hdist.toNat ≤ 32 ∧
      s.par.ci.toNat < s.par.hlit.toNat + s.par.hdist.toNat ∧ HasBits s 1) ∧
    (let s := codelenState [0x00] 7 16 18 257 0
     Selects .codeLen s ⟨.literal, 0, 16, 1⟩ ∧ HasBits s 1 ∧ s.par.ci = 0) ∧
    (let s := codelenState [0x00] 4 17 18 257 255
     Selects .codeLen s ⟨.literal, 0, 17, 1⟩ ∧ HasBits s 4 ∧
      s.par.ci.toNat + (3 + fieldAt s 5 3) = s.par.hlit.toNat + s.par.hdist.toNat) ∧
    (let s := codelenState [0x01] 0 17 18 257 248
     Selects .codeLen s ⟨.literal, 0, 18, 1⟩ ∧ HasBits s 8 ∧
      s.par.hlit.toNat + s.par.hdist.toNat < s.par.ci.toNat + (11 + fieldAt s 1 7)) ∧
    (let s := codelenState [0x00] 8 17 18 257 0
     Selects .codeLen s ⟨.literal, 0, 17, 1⟩ ∧ ¬HasBits s 1) ∧
    (let s := codelenState [0x00] 6 16 18 257 1
     Selects .codeLen s ⟨.literal, 0, 16, 1⟩ ∧ s.par.ci ≠ 0 ∧ HasBits s 1 ∧ ¬HasBits s 3) :=
  ⟨⟨codelen_selects _ _ _ _ _ _ _ (by decide) (by decide), by decide +kernel⟩,
    ⟨codelen_selects _ _ _ _ _ _ _ (by decide) (by decide), by decide⟩,
    ⟨codelen_selects _ _ _ _ _ _ _ (by decide) (by decide), by decide⟩,
    ⟨codelen_selects _ _ _ _ _ _ _ (by decide) (by decide), by decide⟩,
    ⟨codelen_selects _ _ _ _ _ _ _ (by decide) (by decide), by decide⟩,
    codelen_selects _ _ _ _ _ _ _ (by decide) (by decide), by decide⟩

/-- A state whose literal/length and distance tables give `e` for a bit 0. -/
def stageState (f : Fsm) (bytes : List Byte) (e : Entry) : State :=
  { reading f bytes 0 with slots := { Slots.empty with litLen := slotT e e, dist := slotT e e } }

/-- LiteralStageFollowsTheEntry, LengthAndDistanceStages: an entry of each kind, with its bit there and
with no bit left; the literal with one place free in the queue. -/
theorem test_meets_stages :
    (∀ e ∈ [Entry.mk .literal 0 65 1, Entry.mk .length 5 227 1, Entry.mk .endOfBlock 0 256 1,
        Entry.mk .invalid 0 286 1, Entry.mk .distance 13 24577 1],
      Selects .litLen (stageState .dBgLiteral [0] e) e ∧ Selects .dist (stageState .dBgMdist [0] e) e ∧
      PosFits (stageState .dBgLiteral [0] e) ∧ HasBits (stageState .dBgLiteral [0] e) 1 ∧
      Selects .litLen (stageState .dBgLiteral [] e) e ∧ ¬HasBits (stageState .dBgLiteral [] e) 1 ∧
      Selects .dist (stageState .dBgMdist [] e) e ∧ ¬HasBits (stageState .dBgMdist [] e) 1) ∧
    (let s := { stageState .dBgLiteral [0] ⟨.literal, 0, 65, 1⟩ with tokenOut := [1, 2, 3] }
     s.tokenOut.length + 1 = s.cfg.tokenOutDepth ∧ s.par.bfinal = false) := by
  refine ⟨fun e he => ?_, by decide⟩
  have h : ∀ f bytes, ∃ x : Nat, x < 2 ∧ paddedFieldAt (stageState f bytes e)
      (stageState f bytes e).cur.pos.toNat 1 = x := by
    intro f bytes
    refine ⟨_, ?_, rfl⟩
    simp only [paddedFieldAt, List.range_one, List.map_cons, List.map_nil, List.sum_cons, List.sum_nil]
    split <;> decide
  have hk : e.kind ≠ .linkToSubtable := by
    simp only [List.mem_cons, List.not_mem_nil, or_false] at he
    rcases he with rfl | rfl | rfl | rfl | rfl <;> decide
  have h1 : ∀ f bytes, Selects .litLen (stageState f bytes e) e := fun f bytes => by
    obtain ⟨x, hx, hp⟩ := h f bytes
    refine ⟨rfl, .inl ⟨hk, ?_⟩⟩
    show (slotT e e).dt[paddedFieldAt (stageState f bytes e) _ 1]? = some e
    rw [hp]
    interval_cases x <;> rfl
  have h2 : ∀ f bytes, Selects .dist (stageState f bytes e) e := fun f bytes => by
    obtain ⟨x, hx, hp⟩ := h f bytes
    refine ⟨rfl, .inl ⟨hk, ?_⟩⟩
    show (slotT e e).dt[paddedFieldAt (stageState f bytes e) _ 1]? = some e
    rw [hp]
    interval_cases x <;> rfl
  exact ⟨h1 _ _, h2 _ _, by simp [PosFits, stageState, reading], by simp [HasBits, stageState, reading],
    h1 _ _, by simp [HasBits, stageState, reading], h2 _ _, by simp [HasBits, stageState, reading]⟩

/-- LengthAndDistanceStages, MatchIsEmitted: exactly the extra bits, and one too few. -/
theorem test_meets_extra_bits :
    (let s := { reading .dBgMlen [0xFF] 3 with bg := { ByteGen.zero with lbase := 227, lext := 5 } }
     PosFits s ∧ HasBits s s.bg.lext.toNat) ∧
    (let s := { reading .dBgMlen [0xFF] 4 with bg := { ByteGen.zero with lbase := 227, lext := 5 } }
     ¬HasBits s s.bg.lext.toNat) ∧
    (let s := { reading .dBgMdistwr [0xFF, 0xFF] 3 with
        bg := { ByteGen.zero with mlen := 258, dbase := 24577, dext := 13 } }
     PosFits s ∧ HasBits s s.bg.dext.toNat ∧ s.tokenOut.length + 1 ≤ s.cfg.tokenOutDepth) ∧
    (let s := { reading .dBgMdistwr [0xFF, 0xFF] 4 with
        bg := { ByteGen.zero with mlen := 258, dbase := 24577, dext := 13 } }
     ¬HasBits s s.bg.dext.toNat) := by decide

/-- StepsWaitForRoom: a full queue for each step that appends, and one place for the two words. -/
theorem test_meets_no_room :
    (let s := { reading .dBgMdistwr [] 0 with tokenOut := [1, 2, 3, 4] }
     PosFits s ∧ HasBits s s.bg.dext.toNat ∧ s.cfg.tokenOutDepth < s.tokenOut.length + 1) ∧
    (let s := { reading .dStoredCopy [0x43] 0 with
        tokenOut := [1, 2, 3], par := { Parser.zero with storedRem := 1, bfinal := true } }
     HasBits s 8 ∧ s.par.storedRem = 1 ∧ s.par.bfinal = true ∧
      s.cfg.tokenOutDepth < s.tokenOut.length + 2) ∧
    (let s := { reading .dStoredHdr [0x00, 0x00, 0xFF, 0xFF] 0 with
        tokenOut := [1, 2, 3, 4], par := { Parser.zero with bfinal := true } }
     32 ≤ s.cur.inBits.toNat ∧ fieldAt s 0 16 = 0 ∧ fieldAt s 16 16 = 0xFFFF ∧
      s.cfg.tokenOutDepth < s.tokenOut.length + 1) := by decide

/-- RleExpandInvertsRleEmit: one length of 15, and two runs that meet. -/
theorem test_meets_rle : ([15] : List Nat) ≠ [] ∧ (∀ l ∈ ([15] : List Nat), l ≤ 15) ∧
    [3, 3].getLast? ≠ [0, 3].head? := by decide

/-- R94's examples: 8 and 14 fives, 138 and 139 zeros, as the runs of the statement give them. -/
theorem test_rle_runs :
    lengthRunPairs 5 8 = [(5, 0), (16, 3), (5, 0)] ∧
    lengthRunPairs 5 14 = [(5, 0), (16, 3), (16, 3), (5, 0)] ∧ lengthRunPairs 5 3 = [(5, 0), (5, 0), (5, 0)] ∧
    zeroRunPairs 138 = [(18, 127)] ∧ zeroRunPairs 139 = [(18, 127), (0, 0)] ∧
    zeroRunPairs 10 = [(17, 7)] ∧ zeroRunPairs 11 = [(18, 0)] := by decide

/-- RleOperationsRun: the arrays of RLE_EMIT at their least lengths, and a queue RLE_EMIT fills. -/
theorem test_meets_rle_operations :
    (let s := { blank with litlenLen := treeT 4 257 litT }
     let lens := (List.range 257).map litT
     TreeHolds s.litlenLen lens ∧ lens.length = s.enc.eHlit.toNat + 257) ∧
    (let s := { blank with distLen := [(0, 1)] }
     TreeHolds s.distLen [1] ∧ [1].length = s.enc.eHdist.toNat + 1) ∧
    rlePairs [0, 0, 0] = [(17, 0)] ∧ rlePairs [0, 0, 0] ++ rlePairs [5] = [(17, 0), (5, 0)] ∧
    Expands [] [(17, 0), (16, 1)] (some (List.replicate 7 0)) ∧ Expands [] [(16, 1)] none := by
  refine ⟨?_, ?_, by decide, by decide, .shortZeros [] 0 _ _ (.repeatLast [0, 0] 0 1 [] _ (.done _)),
    .nothingToRepeat 1 []⟩
  · exact ⟨treeHolds_treeT 4 257 litT litT_lt, by simp [blank, cfgT, State.resetWith, Encoder.zero]⟩
  · exact ⟨treeHolds_treeT 4 1 distT distT_lt, by decide⟩

/-- PutAppendsItsBits, OutputOverflowStopsTheJob: 32 bits that just fit, and that do not, over a word less
one bit. -/
theorem test_meets_put :
    (let s := { writing .idle with pk := ⟨0x7FFF, 15, 60, 495⟩ }
     PackerOk s ∧ OutRoom s 17) ∧
    (let s := { writing .idle with pk := ⟨0x7FFF, 15, 62, 511⟩ }
     PackerOk s ∧ s.cfg.outMemBytes < 2 ^ 32 ∧ s.pk.optr.toNat ≤ s.cfg.outMemBytes ∧
      s.cfg.outMemBytes < s.pk.optr.toNat + packBits s / 8 * ((s.pk.pn.toNat + 17) / packBits s)) :=
  ⟨⟨⟨by decide, by decide⟩, by decide⟩, ⟨by decide, by decide⟩, by decide⟩

/-- FinalizeEndsOnAByte: seven bits held, and none with input left; no place for the trailer in a PUT, and
in the last byte. -/
theorem test_meets_finalize :
    (let s := { writing .eFinalize with pk := ⟨0x7F, 7, 62, 503⟩ }
     PackerOk s ∧ s.cfg.outMemBytes < 2 ^ 32 ∧ 0 < s.pk.pn.toNat ∧ OutRoom s 17 ∧ ¬OutRoom s 25) ∧
    (let s := { writing .eFinalize with inLen := 0, pk := ⟨0, 0, 60, 480⟩ }
     PackerOk s ∧ s.inLen = 0 ∧ OutRoom s 40 ∧ ¬ByteRoom s 40) ∧
    (let s := { writing .eFinalize with pk := ⟨0x7F, 7, 0, 7⟩ }
     PackerOk s ∧ ByteRoom s 41) ∧
    (PackerOk (writing .eFinalize) ∧ ByteRoom (writing .eFinalize) 0) :=
  ⟨⟨⟨by decide, by decide⟩, by decide⟩, ⟨⟨by decide, by decide⟩, by decide⟩,
    ⟨⟨by decide, by decide⟩, by decide⟩, ⟨by decide, by decide⟩, by decide⟩

/-- The overflow clauses: one place less than the word a code, a header or an RLE symbol completes. -/
theorem test_meets_overflow :
    let s := { writing .eHeader with pk := ⟨0x7FFF, 15, 62, 511⟩ }
    let t := { writing .eCodelen with pk := ⟨0x7FFF, 15, 63, 519⟩ }
    PackerOk s ∧ s.cfg.outMemBytes < 2 ^ 32 ∧ OutRoom s 1 ∧ OutRoom s 13 ∧ ¬OutRoom s 17 ∧
    PackerOk t ∧ OutRoom t 0 ∧ ¬OutRoom t 1 ∧
    (ans (exec .eHeader s)).map (fun u => (u.err, u.outMem, u.pk.ptotal)) =
      some (⟨.outputOverflow, 528, 64⟩, [(62, 0xFF), (63, 0x7F)], 528) := by
  exact ⟨⟨by decide, by decide⟩, by decide, by decide, by decide, by decide, ⟨by decide, by decide⟩,
    by decide⟩

/-- EncoderBuildsItsTrees: each tree in its turn one code short, and one too many. -/
theorem test_meets_tree_errors :
    (kraftSum ([1] ++ List.replicate 31 0) < 2 ^ 15 ∧ 2 ^ 15 < kraftSum ([1, 1, 1] ++ List.replicate 29 0)) ∧
    (kraftSum (List.replicate 287 0 ++ [1]) < 2 ^ 15 ∧
      2 ^ 15 < kraftSum (List.replicate 285 0 ++ [1, 1, 1])) ∧
    (kraftSum (metaLens 1 2 0) < 2 ^ 15 ∧ 2 ^ 15 < kraftSum (metaLens 1 1 1)) := by
  decide +kernel

/-- EncodesymWritesTheCode, TokenStatesWriteTheirBits, HeaderStepsWriteTheirBits: symbols with codes in
the three slots, one without, and room. -/
theorem test_meets_codes_and_room :
    let s := { writing .eCodelen with
      slots := ⟨slotE (List.replicate 18 ⟨0, 0⟩ ++ [⟨3, 2⟩]),
        slotE (List.replicate 256 ⟨0, 1⟩ ++ [⟨0x7FFF, 15⟩]), slotE [⟨1, 1⟩]⟩
      enc := { Encoder.zero with rq := [(18, 54)] }
      metaLenMem := [(16, 7)] }
    PackerOk s ∧ HasCode .litLen 256 s ⟨0x7FFF, 15⟩ ∧ OutRoom s 15 ∧
    HasCode .litLen (s.enc.tok.extractLsb' 0 8).toNat s ⟨0, 1⟩ ∧ HasCode .litLen s.enc.lsym.toNat s ⟨0, 1⟩ ∧
    HasCode .dist s.enc.dsym.toNat s ⟨1, 1⟩ ∧ HasCode .codeLen 18 s ⟨3, 2⟩ ∧ OutRoom s (2 + 7) ∧
    s.enc.rq[s.enc.rqi.toNat]? = some (18, 54) ∧ s.enc.rqi.toNat < 511 ∧ OutRoom s 17 ∧
    metaOrder[s.enc.emi.toNat]? = some 16 ∧ memRead s.metaLenMem 16 = some 7 ∧
    ((slotOf .codeLen s).valid = true ∧ (slotOf .codeLen s).et[0]? = some ⟨0, 0⟩) :=
  ⟨⟨by decide, by decide⟩, ⟨rfl, by decide +kernel, by decide⟩, by decide, ⟨rfl, rfl, by decide⟩,
    ⟨rfl, rfl, by decide⟩, ⟨rfl, rfl, by decide⟩, ⟨rfl, rfl, by decide⟩, by decide, rfl, by decide, by decide,
    rfl, rfl, rfl, rfl⟩

/-- EncoderBuildsItsTrees: the running example's trees (1.6), and an empty tree memory. -/
theorem test_meets_encoder_build :
    let lit := (List.range 288).map litT
    let dist := (List.range 32).map distT
    let mm := (List.range 19).map codeLenT
    TreeHolds building.litlenLen lit ∧ TreeHolds building.distLen dist ∧
    TreeHolds building.metaLenMem mm ∧
    (kraftSum lit = 2 ^ 15 ∧ kraftSum dist = 2 ^ 15 ∧ kraftSum mm = 2 ^ 15) ∧
    (lit.getD 263 0 ≠ 0 ∧ ∀ y, y < 288 → 263 < y → lit.getD y 0 = 0) ∧
    (dist.getD 1 0 ≠ 0 ∧ ∀ y, y < 32 → 1 < y → dist.getD y 0 = 0) ∧
    (mm.getD (metaOrder.getD 17 0) 0 ≠ 0 ∧ ∀ i, i < 19 → 17 < i → mm.getD (metaOrder.getD i 0) 0 = 0) ∧
    memRead blank.litlenLen 287 = none := by
  exact ⟨treeHolds_treeT 4 288 litT litT_lt, treeHolds_treeT 4 32 distT distT_lt,
    treeHolds_treeT 3 19 codeLenT codeLenT_lt, by decide +kernel⟩

/-- WriteTokenTakesTheToken: no word, a literal, the bounds of a match and beyond, END, and no form. -/
theorem test_meets_write_token :
    (writing .eWriteToken).tokenIn[(writing .eWriteToken).enc.tin.toNat]? = none ∧
    (3 ≤ (258#9).toNat ∧ (258#9).toNat ≤ 258 ∧ 1 ≤ (32768#16).toNat ∧ (32768#16).toNat ≤ 32768) ∧
    ¬(3 ≤ (2#9).toNat ∧ (2#9).toNat ≤ 258 ∧ 1 ≤ (1#16).toNat ∧ (1#16).toNat ≤ 32768) ∧
    decodeToken 0xC0000000#32 = .error .notAToken :=
  ⟨rfl, by decide, by decide, rfl⟩

end Sys2Proof.Tests
end

section
/-! PROOF. A step runs the instruction that its state or its port's word decodes to (R7, R8, R50, R52,
R104). -/

namespace Sys2Proof.Machine

/-! ## Which words name a step of the engine -/

/-- Bit 5 of a micro-operation word is the top bit of its field OP (R49, R50). -/
theorem isStepWord_eq_decide (w : BitVec 16) : isStepWord w = decide (0x20 ≤ w.toNat % 64) := by
  rw [isStepWord, ← BitVec.testBit_toNat, Nat.testBit_eq_decide_div_mod_eq]
  exact decide_eq_decide.2 (by omega)

@[simp] theorem isStepWord_stepWord (f : Fsm) : isStepWord (stepWord f) = true := by
  cases f <;> rfl

/-- The engine fetches what the word of its state decodes to (R8). -/
theorem fetchInstr_of_decode (f : Fsm) (i : Instr) (h : decodeUop (stepWord f) = .ok i) :
    fetchInstr f = some i := by
  simp [fetchInstr, h]

/-! ## Issuing a word that decodes -/

section
variable {w : BitVec 16} {s : State} {i : Instr}

/-- A primitive's word in a state that takes it, and a step's word in its state (R8; log 26, log 36). -/
theorem issueUop_runs (v : Word) (hi : decodeUop w = .ok i)
    (h : (isStepWord w = false ∧ takesPrimitives s = true) ∨ w = stepWord s.state) :
    issueUop w v s = exec i { s with uop := { s.uop with opVal := v } } := by
  obtain ⟨hw, hp⟩ | rfl := h
  · simp [issueUop, hi, hw, hp]
  · simp [issueUop, hi]

/-- A primitive's word while a job runs (R120; log 36). -/
theorem issueUop_of_busy (v : Word) (hi : decodeUop w = .ok i) (hw : isStepWord w = false)
    (hb : busy s = true) : issueUop w v s = .refused (.uopWhileBusy w) := by
  simp [issueUop, hi, hw, takesPrimitives, hb]

/-- A primitive's word in ERROR (R31, R122, R123; log 36). -/
theorem issueUop_of_error (v : Word) (hi : decodeUop w = .ok i) (hw : isStepWord w = false)
    (he : s.state = .error) : issueUop w v s = .next s := by
  simp [issueUop, hi, hw, takesPrimitives, busy, terminal, failed, he]

/-- A step's word outside its state (R8; log 26). -/
theorem issueUop_of_other_state (v : Word) (hi : decodeUop w = .ok i) (hw : isStepWord w = true)
    (hne : w ≠ stepWord s.state) : issueUop w v s = .refused (.stepOutOfState w) := by
  simp [issueUop, hi, hw, hne]

end

/-- The states that take a primitive are the terminal ones without an error (R8; log 36). -/
theorem takesPrimitives_iff (s : State) :
    takesPrimitives s = true ↔ s.state = .idle ∨ s.state = .dComplete ∨ s.state = .eDone := by
  simp only [takesPrimitives, busy, failed]
  cases s.state <;> decide

/-! ## CTRL writes and tokens -/

/-- A write at the base of the register block is the command its value decodes to (R35, R52). -/
theorem hostRegWrite_regBase (w : Word) (s : State) :
    hostRegWrite s.cfg.regBase w s = exec (decodeCtrl w) s := by
  simp [hostRegWrite, regOffset, writeReg]

/-- What decodes at the token port is a literal, a match or END (R53). -/
theorem decodeToken_cases (w : Word) (i : Instr) (h : decodeToken w = .ok i) :
    (∃ b, i = .tokenLiteral b) ∨ (∃ l d, i = .tokenMatch l d) ∨ i = .tokenEnd := by
  unfold decodeToken at h
  split at h
  · cases h; exact .inr (.inr rfl)
  · split at h
    · cases h; exact .inl ⟨_, rfl⟩
    · split at h
      · cases h; exact .inr (.inl ⟨_, _, rfl⟩)
      · cases h

/-- E_WRITE_TOKEN does what the token at `tin` does as an instruction (R104; log 8). -/
theorem exec_eWriteToken_of_token (s : State) (w : Word) (i : Instr)
    (hw : s.tokenIn[s.enc.tin.toNat]? = some w) (hi : decodeToken w = .ok i) :
    exec .eWriteToken s = exec i s := by
  have htake : exec .eWriteToken s = .next (takeWord w s) := by
    simp [exec, execEWriteToken, hw]
  rw [htake, takeWord, hi]
  obtain ⟨b, rfl⟩ | ⟨l, d, rfl⟩ | rfl := decodeToken_cases w i hi <;> rfl

/-! ## Steps -/

/-- A step with nothing pending runs the instruction the engine fetches (R7, R8). -/
theorem step_of_fetch (s : State) (i : Instr) (h : s.host = []) (hf : fetchInstr s.state = some i) :
    step s = countDraw (exec i s) := by
  have hb : busy s = true := by rw [← fetchInstr_isSome, hf]; rfl
  rw [step_of_engine s h hb, engineTurn_of_fetch s i hf]

/-- A step that issues a micro-operation word answers what the issue does (log 4). -/
theorem step_of_issueUop {s : State} {w : BitVec 16} {v : Word} {rest : List HostEvent} {o : Out}
    (h : s.host = .uop w v :: rest) (ho : issueUop w v { s with host := rest } = o) :
    step s = countDraw o :=
  (step_of_host s _ rest h).trans (congrArg countDraw ho)

end Sys2Proof.Machine

open Sys2Proof Sys2Proof.Machine

/-- Settles O7: each port's step is the issue, the write or the fetch of its word, and each of these runs
what the word decodes to. -/
theorem stepRunsTheDecodedInstruction : Obligations.StepRunsTheDecodedInstruction := by
  unfold Obligations.StepRunsTheDecodedInstruction
  simp only [← stepWord_eq]
  have primitive {w : BitVec 16} (hw : w.toNat % 64 < 0x20) : isStepWord w = false := by
    simp [isStepWord_eq_decide, hw]
  refine ⟨fun s i hh hi => ?engine, fun s w v rest i hh hi hw => ?issued,
    fun s w v rest i hh hi => ⟨fun hw hb => ?whileBusy, fun hw he => ?inError, fun hw hne => ?outOfState⟩,
    fun s w rest hh => ?command, fun s w i hh hs hw hi => ?token, fun s => rfl⟩
  case engine => exact step_of_fetch s i hh (fetchInstr_of_decode _ i hi)
  case issued =>
    exact step_of_issueUop hh <| issueUop_runs v hi <|
      hw.imp_left fun ⟨hp, hs⟩ => ⟨primitive hp, (takesPrimitives_iff _).2 hs⟩
  case whileBusy => exact step_of_issueUop hh (issueUop_of_busy v hi (primitive hw) hb)
  case inError => exact step_of_issueUop hh (issueUop_of_error v hi (primitive hw) he)
  case outOfState =>
    have hstep : isStepWord w = true := by simp [isStepWord_eq_decide, hw]
    exact step_of_issueUop hh (issueUop_of_other_state v hi hstep hne)
  case command =>
    rw [step_of_host s _ rest hh]
    exact congrArg countDraw (hostRegWrite_regBase w { s with host := rest })
  case token =>
    have hf : fetchInstr s.state = some .eWriteToken := by rw [hs]; rfl
    rw [step_of_fetch s _ hh hf, exec_eWriteToken_of_token s w i hw hi]
end

section
/-! PROOF. The bit cursor keeps its invariant (R24) under refill, consume, read and align (R73..R77). -/

namespace Sys2Proof.Machine

/-- R24's invariant speaks of the cursor and the input only. -/
theorem CursorOk.of_same {s t : State} (h : CursorOk s) (hc : t.cur = s.cur) (hl : t.inLen = s.inLen)
    (hm : t.inMem = s.inMem) (hd : t.draws = s.draws) : CursorOk t := by
  obtain ⟨aligned, fetched, total, bound, held, bits⟩ := h
  refine ⟨hc ▸ aligned, hc ▸ hl ▸ fetched, hc ▸ hl ▸ total, hl ▸ bound, hc ▸ held, fun i => ?_⟩
  rw [hc, bits i, inBit_congr s t hm hl hd]

/-- Where the input is written, R24's invariant reads no free byte, so that no draw matters. -/
theorem CursorOk.congr {s t : State} (h : CursorOk s) (hw : InputWritten s) (hc : t.cur = s.cur)
    (hl : t.inLen = s.inLen) (hm : t.inMem = s.inMem) : CursorOk t := by
  obtain ⟨aligned, fetched, total, bound, held, bits⟩ := h
  refine ⟨hc ▸ aligned, hc ▸ hl ▸ fetched, hc ▸ hl ▸ total, hl ▸ bound, hc ▸ held, fun i => ?_⟩
  rw [hc, bits i]
  by_cases hi : i < s.cur.held.toNat
  swap
  · simp [hi]
  have hlt : (s.cur.pos.toNat + i) / 8 < s.inLen.toNat := by omega
  obtain ⟨b, hb⟩ := Option.isSome_iff_exists.1 (hw _ hlt)
  simp [inBit, inByte, hl, hm, hlt, hb]

section
variable {s : State} {c : Cursor}

/-- Fetching a byte that is there (R73). -/
theorem fetchByte_cursorOk (h : CursorOk (withCur c s)) (hh : c.held.toNat + 8 ≤ 64)
    (hf : c.fetch.toNat < s.inLen.toNat) : CursorOk (withCur (fetchByte s c) s) := by
  obtain ⟨aligned, fetched, total, bound, -, bits⟩ := h
  simp only [withCur_cur, withCur_inLen] at aligned fetched total bound bits
  have heldAfter : (c.held + 8).toNat = c.held.toNat + 8 := by
    rw [BitVec.toNat_add]
    exact Nat.mod_eq_of_lt (by simp; omega)
  have fetchAfter : (c.fetch + 1).toNat = c.fetch.toNat + 1 := by
    rw [BitVec.toNat_add]
    exact Nat.mod_eq_of_lt (by simp; omega)
  constructor <;> simp only [withCur_cur, withCur_inLen, fetchByte, heldAfter, fetchAfter]
  case aligned => omega
  case fetched => omega
  case total => exact total
  case bound => exact bound
  case held => omega
  case bits =>
    intro i
    have same : inBit (withCur (fetchByte s c) s) (c.pos.toNat + i) = inBit (withCur c s) (c.pos.toNat + i) :=
      rfl
    rw [BitVec.getLsbD_or, bits i, BitVec.getLsbD_shiftLeft, BitVec.getLsbD_setWidth]
    change _ = (_ && inBit (withCur c s) (c.pos.toNat + i))
    by_cases hlt : i < c.held.toNat
    · simp [hlt, show i < c.held.toNat + 8 by omega]
    · by_cases hin : i < c.held.toNat + 8
      · have hbit : inBit (withCur c s) (c.pos.toNat + i) = (inByte s c.fetch.toNat).getLsbD (i - c.held.toNat) := by
          rw [inBit, show (c.pos.toNat + i) / 8 = c.fetch.toNat by omega,
            show (c.pos.toNat + i) % 8 = i - c.held.toNat by omega]
          rfl
        simp [hlt, hin, hbit, show i < 64 by omega, show i - c.held.toNat < 64 by omega]
      · simp [hlt, hin, BitVec.getLsbD_of_ge _ (i - c.held.toNat) (by omega : 8 ≤ i - c.held.toNat)]

/-- Fetching `g` bytes that are there (R73). -/
theorem fetchBytes_cursorOk (g : Nat) (h : CursorOk (withCur c s)) (hh : c.held.toNat + 8 * g ≤ 64)
    (hf : c.fetch.toNat + g ≤ s.inLen.toNat) :
    CursorOk (withCur (fetchBytes s g c) s) ∧
    (fetchBytes s g c).held.toNat = c.held.toNat + 8 * g ∧
    (fetchBytes s g c).fetch.toNat = c.fetch.toNat + g := by
  induction g generalizing c with
  | zero => exact ⟨h, rfl, rfl⟩
  | succ g ih =>
    have hbound := h.bound
    simp only [withCur_inLen] at hbound
    have heldAfter : (fetchByte s c).held.toNat = c.held.toNat + 8 := by
      rw [fetchByte, BitVec.toNat_add]
      exact Nat.mod_eq_of_lt (by simp; omega)
    have fetchAfter : (fetchByte s c).fetch.toNat = c.fetch.toNat + 1 := by
      rw [fetchByte, BitVec.toNat_add]
      exact Nat.mod_eq_of_lt (by simp; omega)
    obtain ⟨hok, hheld, hfetch⟩ := ih (fetchByte_cursorOk h (by omega) (by omega)) (by omega) (by omega)
    exact ⟨hok, by rw [fetchBytes]; omega, by rw [fetchBytes]; omega⟩

/-- The accumulator is full enough for every read, or all of the input is in it (R73). -/
def Filled (s : State) : Prop :=
  32 ≤ s.cur.held.toNat ∨ s.cur.fetch.toNat = s.inLen.toNat

/-- The loop of REFILL keeps R24's invariant, and `k` rounds reach the threshold or the end of the input
when `k` granules are enough for one of the two (R73). -/
theorem refillLoop_cursorOk (k : Nat) (h : CursorOk (withCur c s)) :
    CursorOk (withCur (refillLoop s k c) s) ∧
    (32 ≤ c.held.toNat + 16 * k ∨ s.inLen.toNat ≤ c.fetch.toNat + 2 * k →
      Filled (withCur (refillLoop s k c) s)) := by
  have hle : c.fetch.toNat ≤ s.inLen.toNat := h.fetched
  induction k generalizing c with
  | zero => exact ⟨h, Or.imp id (by simp [refillLoop]; omega)⟩
  | succ k ih =>
    rw [refillLoop, refillThreshold, refillGranule]
    split_ifs with hc
    · obtain ⟨hok, hheld, hfetch⟩ :=
        fetchBytes_cursorOk (min (16 / 8) (s.inLen.toNat - c.fetch.toNat)) h (by omega) (by omega)
      obtain ⟨hloop, hfilled⟩ := ih hok (by omega)
      exact ⟨hloop, fun hk => hfilled (by omega)⟩
    · exact ⟨h, fun _ => by simp only [Filled, withCur_cur, withCur_inLen]; omega⟩

end

section
variable {s : State}

theorem refill_cursorOk (h : CursorOk s) : CursorOk (refill s) :=
  (refillLoop_cursorOk 4 (c := s.cur) h).1

theorem refill_filled (h : CursorOk s) : Filled (refill s) :=
  (refillLoop_cursorOk 4 (c := s.cur) h).2 (.inl (by omega))

/-- Dropping bits that are held (R75, R77). -/
theorem advanceCursor_cursorOk {n : Nat} (h : CursorOk s) (hn : n ≤ s.cur.held.toNat) :
    CursorOk (advanceCursor n s) := by
  obtain ⟨aligned, fetched, total, bound, held, bits⟩ := h
  have posAfter : (s.cur.pos + BitVec.ofNat 32 n).toNat = s.cur.pos.toNat + n := by
    rw [BitVec.toNat_add, BitVec.toNat_ofNat, Nat.add_mod_mod]
    exact Nat.mod_eq_of_lt (by omega)
  have heldAfter : (s.cur.held - BitVec.ofNat 7 n).toNat = s.cur.held.toNat - n := by
    rw [BitVec.toNat_sub, BitVec.toNat_ofNat]
    omega
  constructor <;> simp only [advanceCursor, posAfter, heldAfter]
  case aligned => omega
  case fetched => exact fetched
  case total => exact total
  case bound => exact bound
  case held => omega
  case bits =>
    intro i
    rw [BitVec.getLsbD_ushiftRight, bits (n + i), ← Nat.add_assoc]
    congr 1
    exact decide_eq_decide.2 (by omega)

/-- After a refill every field of at most 32 bits that the input still has is held (R73, R75). -/
theorem held_of_hasBits {n : Nat} (h : CursorOk s) (hf : Filled s) (hn : n ≤ 32) (hb : HasBits s n) :
    n ≤ s.cur.held.toNat := by
  obtain ⟨aligned, fetched, total, bound, held, bits⟩ := h
  obtain hf | hf := hf
  · omega
  · simp only [HasBits] at hb
    omega

/-- A refill and an advance keep R24's invariant when the bits are there (R75). -/
theorem consumed_cursorOk {n : Nat} (hn : n ≤ 32) (hb : HasBits s n) (h : CursorOk s) :
    CursorOk (advanceCursor n (refill s)) :=
  advanceCursor_cursorOk (refill_cursorOk h) <|
    held_of_hasBits (refill_cursorOk h) (refill_filled h) hn (by simpa [HasBits] using hb)

/-- ALIGN keeps R24's invariant (R77). -/
theorem alignCursor_cursorOk (h : CursorOk s) : CursorOk (alignCursor s) :=
  advanceCursor_cursorOk (n := s.cur.held.toNat % 8) h (Nat.mod_le _ _)

/-- The bits of a stream field (R37, R74). -/
theorem testBit_streamField (p n i : Nat) :
    (streamField s p n).testBit i = (decide (i < n) && streamBit s (p + i)) := by
  induction n generalizing p i with
  | zero => simp [streamField]
  | succ n ih =>
    cases i with
    | zero => cases hb : streamBit s p <;> simp [streamField, Nat.testBit_zero, hb]
    | succ i =>
      have hdiv : ((streamBit s p).toNat + 2 * streamField s (p + 1) n) / 2 = streamField s (p + 1) n := by
        have := Bool.toNat_le (streamBit s p)
        omega
      rw [streamField, Nat.testBit_succ, hdiv, ih, show p + 1 + i = p + (i + 1) by omega]
      simp

/-- The low bits of a filled accumulator are the stream's next bits, past its end 0 (R34, R74). -/
theorem acc_mod_eq_peekVal {n : Nat} (h : CursorOk s) (hf : Filled s) (hn : n ≤ 32) :
    s.cur.acc.toNat % 2 ^ n = peekVal s n := by
  obtain ⟨aligned, fetched, total, bound, held, bits⟩ := h
  refine Nat.eq_of_testBit_eq fun i => ?_
  rw [Nat.testBit_mod_two_pow, BitVec.testBit_toNat, bits i, peekVal, testBit_streamField, streamBit]
  by_cases hi : i < n
  · have : i < s.cur.held.toNat ↔ s.cur.pos.toNat + i < s.cur.inBits.toNat := by
      obtain hf | hf := hf <;> omega
    simp [hi, this]
  · simp [hi]

end
end Sys2Proof.Machine

open Sys2Proof Sys2Proof.Machine

/-- Settles O32: a refill leaves the accumulator filled, and keeps R24's invariant. -/
theorem accumulatorHoldsThePeekedBits : Obligations.AccumulatorHoldsThePeekedBits := by
  unfold Obligations.AccumulatorHoldsThePeekedBits
  intro s t n h hn he
  cases he
  rw [acc_mod_eq_peekVal (refill_cursorOk h) (refill_filled h) hn, peekVal_refill, peekVal_eq]
end

section
/-! PROOF. The bit packer (R113..R115): what is true of every write it makes, and that it holds less than a
word after an operation that has not failed (R30). -/

namespace Sys2Proof.Machine

/-! ## Facts about every write of the packer -/

/-- A predicate that every elementary write of the packer and the raise of an error keep. -/
structure PackerClosed (P : State → Prop) : Prop where
  byte       : ∀ v s, P s → P (outByte v s).state
  drop       : ∀ n s, P s → P (dropPacked n s)
  accumulate : ∀ v n s, P s → P (accumulate v n s)
  raised     : ∀ e info s, P s → P (raiseErr e info s)

namespace PackerClosed

variable {P : State → Prop} (hP : PackerClosed P)
include hP

theorem outBytes (acc : BitVec 64) (j k : Nat) (s : State) (h : P s) : P (outBytes acc j k s).state := by
  induction k generalizing j s with
  | zero => exact h
  | succ k ih =>
    have hb := hP.byte (acc.extractLsb' (8 * j) 8) s h
    exact Res.bind_post _ _ (fun t e => by simpa [e] using hb) fun _ t e => ih (j + 1) t (by simpa [e] using hb)

theorem flushWords (k : Nat) (s : State) (h : P s) : P (flushWords k s).state := by
  induction k generalizing s with
  | zero => exact h
  | succ k ih =>
    rw [Machine.flushWords]
    split
    · have hw := hP.outBytes s.pk.pacc 0 (packBits s / 8) s h
      exact Res.bind_post _ _ (fun t e => by simpa [e] using hw) fun _ t e =>
        ih _ (hP.drop _ t (by simpa [e] using hw))
    · exact h

theorem putBits (v n : Nat) (s : State) (h : P s) : P (putBits v n s).state :=
  hP.flushWords 16 _ (hP.accumulate v n s h)

/-- A PUT and what follows it. -/
theorem putBits_bind {α : Type} (v n : Nat) (s : State) (f : Unit → State → Res α) (h : P s)
    (hf : ∀ t, P t → P (f () t).state) : P ((Machine.putBits v n s).bind f).state := by
  have hput := hP.putBits v n s h
  exact Res.bind_post _ _ (fun t e => by simpa [e] using hput) fun _ t e => hf t (by simpa [e] using hput)

theorem putTrailer (s : State) (h : P s) : P (putTrailer s).state :=
  hP.putBits_bind _ _ s _ h fun _ h => hP.putBits_bind _ _ _ _ h fun _ h => hP.putBits_bind _ _ _ _ h
    fun _ h => hP.putBits_bind _ _ _ _ h fun _ h => hP.putBits_bind _ _ _ _ h fun _ h => hP.putBits _ _ _ h

theorem flushBytes (k : Nat) (s : State) (h : P s) : P (flushBytes k s).state := by
  induction k generalizing s with
  | zero => exact h
  | succ k ih =>
    rw [Machine.flushBytes]
    split
    · have hb := hP.byte (s.pk.pacc.extractLsb' 0 8) s h
      exact Res.bind_post _ _ (fun t e => by simpa [e] using hb) fun _ t e =>
        ih _ (hP.drop _ t (by simpa [e] using hb))
    · exact h

theorem finalizePacker (s : State) (h : P s) : P (finalizePacker s).state := by
  have ht : P (if 0 < s.pk.pn.toNat ∨ s.inLen = 0 then Machine.putTrailer s else .ok () s).state := by
    split
    · exact hP.putTrailer s h
    · exact h
  exact Res.bind_post _ _ (fun t e => by rw [e] at ht; exact ht) fun _ t e =>
    hP.flushBytes 16 t (by rw [e] at ht; exact ht)

theorem encodeSym (sel : Sel) (y : Nat) (s : State) (h : P s) : P (encodeSym sel y s).state := by
  rw [Machine.encodeSym]
  split
  · exact hP.raised _ _ s h
  · exact hP.putBits _ _ s h

end PackerClosed

/-- The packer writes OUT_MEM by MemWrite only, which keeps the canonical form (R19, R44). -/
theorem outMem_wf_packerClosed : PackerClosed fun s => Memory.wf s.outMem = true where
  byte v s h := by
    by_cases hf : s.cfg.outMemBytes ≤ s.pk.optr.toNat
    · simpa [outByte_of_full v s hf] using h
    · simpa [outByte_of_room v s (by omega)] using memWrite_wf _ _ v h
  drop _ _ h := h
  accumulate _ _ _ h := h
  raised _ _ _ h := h

/-! ## Less than a word is held (R30, R113) -/

/-- The accumulator holds nothing above `pn` (R30). -/
abbrev Clean (s : State) : Prop :=
  s.pk.pacc.toNat < 2 ^ s.pk.pn.toNat

/-- The packer's invariant speaks of the packer and the word size only. -/
theorem PackerOk.congr {s t : State} (h : PackerOk s) (hc : t.cfg = s.cfg) (hp : t.pk = s.pk) :
    PackerOk t := by
  obtain ⟨partialWord, clean⟩ := h
  rw [packBits] at partialWord
  exact ⟨by rw [packBits, hc, hp]; exact partialWord, by rw [hp]; exact clean⟩

/-- The word sizes R2 allows. -/
theorem packBits_cases (s : State) : packBits s = 8 ∨ packBits s = 16 ∨ packBits s = 32 := by
  unfold packBits
  cases s.cfg.packWord <;> simp [PackWord.bits]

/-- A byte written leaves the accumulator (R44). -/
theorem outByte_ok {v : Byte} {s t : State} (h : outByte v s = .ok () t) :
    t.cfg = s.cfg ∧ t.pk.pacc = s.pk.pacc ∧ t.pk.pn = s.pk.pn := by
  by_cases hf : s.cfg.outMemBytes ≤ s.pk.optr.toNat
  · rw [outByte_of_full v s hf] at h
    cases h
  · rw [outByte_of_room v s (by omega)] at h
    cases h
    exact ⟨rfl, rfl, rfl⟩

theorem outBytes_ok {acc : BitVec 64} {j k : Nat} {s t : State} (h : outBytes acc j k s = .ok () t) :
    t.cfg = s.cfg ∧ t.pk.pacc = s.pk.pacc ∧ t.pk.pn = s.pk.pn := by
  induction k generalizing j s with
  | zero => cases h; exact ⟨rfl, rfl, rfl⟩
  | succ k ih =>
    obtain ⟨_, u, hu, ht⟩ := Res.bind_eq_ok h
    obtain ⟨hc, hp, hn⟩ := outByte_ok hu
    obtain ⟨hc', hp', hn'⟩ := ih ht
    exact ⟨hc'.trans hc, hp'.trans hp, hn'.trans hn⟩

/-- Dropping bits that are held (R113, R115). -/
theorem dropPacked_clean {s : State} {n : Nat} (h : Clean s) (hn : n ≤ s.pk.pn.toNat) :
    Clean (dropPacked n s) ∧ (dropPacked n s).pk.pn.toNat = s.pk.pn.toNat - n := by
  have pnAfter : (s.pk.pn - BitVec.ofNat 7 n).toNat = s.pk.pn.toNat - n := by
    rw [BitVec.toNat_sub, BitVec.toNat_ofNat]
    omega
  refine ⟨?_, pnAfter⟩
  simp only [Clean, dropPacked, pnAfter, BitVec.toNat_ushiftRight, Nat.shiftRight_eq_div_pow]
  exact Nat.div_lt_of_lt_mul (by rwa [← Nat.pow_add, Nat.add_sub_cancel' hn])

/-- Bits appended above those held (R113). -/
theorem accumulate_clean {s : State} {v n : Nat} (h : Clean s) (hn : s.pk.pn.toNat + n < 128) :
    Clean (accumulate v n s) ∧ (accumulate v n s).pk.pn.toNat = s.pk.pn.toNat + n := by
  have pnAfter : (s.pk.pn + BitVec.ofNat 7 n).toNat = s.pk.pn.toNat + n := by
    rw [BitVec.toNat_add, BitVec.toNat_ofNat, Nat.add_mod_mod]
    exact Nat.mod_eq_of_lt hn
  refine ⟨?_, pnAfter⟩
  simp only [Clean, accumulate, pnAfter, BitVec.toNat_or, BitVec.toNat_shiftLeft, BitVec.toNat_ofNat]
  have hheld : s.pk.pacc.toNat < 2 ^ (s.pk.pn.toNat + n) :=
    h.trans_le (Nat.pow_le_pow_right (by decide) (Nat.le_add_right _ _))
  refine Nat.or_lt_two_pow hheld ((Nat.mod_le _ _).trans_lt ?_)
  rw [Nat.shiftLeft_eq, Nat.add_comm, Nat.pow_add]
  exact Nat.mul_lt_mul_of_pos_right
    ((Nat.mod_le _ _).trans_lt (Nat.mod_lt _ (Nat.two_pow_pos n))) (Nat.two_pow_pos _)

/-- The flush loop of PUT leaves less than a word (R113); the bits left are those above the whole words. -/
theorem flushWords_ok {k : Nat} {s t : State} (hc : Clean s) (hk : s.pk.pn.toNat < packBits s * (k + 1))
    (h : flushWords k s = .ok () t) : PackerOk t ∧ t.pk.pn.toNat % 8 = s.pk.pn.toNat % 8 := by
  induction k generalizing s with
  | zero => cases h; exact ⟨⟨by omega, hc⟩, rfl⟩
  | succ k ih =>
    rw [flushWords] at h
    split at h
    · rename_i hw
      obtain ⟨_, u, hu, ht⟩ := Res.bind_eq_ok h
      obtain ⟨hcfg, hpacc, hpn⟩ := outBytes_ok hu
      have hsame : packBits u = packBits s := by rw [packBits, hcfg, packBits]
      simp only [hsame] at ht
      obtain ⟨hclean, hdrop⟩ := dropPacked_clean (s := u) (n := packBits s)
        (by rwa [Clean, hpacc, hpn]) (by rwa [hpn])
      have hbits : packBits (dropPacked (packBits s) u) = packBits s := hsame
      obtain ⟨hok, hmod⟩ := ih hclean (by rw [hbits, hdrop, hpn]; rw [Nat.mul_add] at hk; omega) ht
      refine ⟨hok, ?_⟩
      rw [hmod, hdrop, hpn]
      obtain h8 | h16 | h32 := packBits_cases s <;> omega
    · rename_i hw
      cases h
      exact ⟨⟨by omega, hc⟩, rfl⟩

/-- PUT of a value of less than 64 bits leaves less than a word (R113). -/
theorem putBits_ok {v n : Nat} {s t : State} (hn : n ≤ 63) (hp : PackerOk s)
    (h : putBits v n s = .ok () t) : PackerOk t ∧ t.pk.pn.toNat % 8 = (s.pk.pn.toNat + n) % 8 := by
  obtain ⟨hpartial, hclean⟩ := hp
  have hbits := packBits_cases s
  obtain ⟨hacc, hpn⟩ := accumulate_clean (v := v) (n := n) hclean (by omega)
  have hsame : packBits (accumulate v n s) = packBits s := rfl
  rw [← hpn]
  exact flushWords_ok hacc (by rw [hsame, hpn]; omega) h

/-- The trailer ends on a byte boundary (R114). -/
theorem putTrailer_ok {s t : State} (hp : PackerOk s) (h : putTrailer s = .ok () t) :
    PackerOk t ∧ t.pk.pn.toNat % 8 = 0 := by
  obtain ⟨_, s1, h1, h⟩ := Res.bind_eq_ok h
  obtain ⟨_, s2, h2, h⟩ := Res.bind_eq_ok h
  obtain ⟨_, s3, h3, h⟩ := Res.bind_eq_ok h
  obtain ⟨_, s4, h4, h⟩ := Res.bind_eq_ok h
  obtain ⟨_, s5, h5, h⟩ := Res.bind_eq_ok h
  obtain ⟨p1, -⟩ := putBits_ok (by decide) hp h1
  obtain ⟨p2, m2⟩ := putBits_ok (by omega) p1 h2
  obtain ⟨p3, m3⟩ := putBits_ok (by decide) p2 h3
  obtain ⟨p4, m4⟩ := putBits_ok (by decide) p3 h4
  obtain ⟨p5, m5⟩ := putBits_ok (by decide) p4 h5
  obtain ⟨p6, m6⟩ := putBits_ok (by decide) p5 h
  exact ⟨p6, by omega⟩

/-- The byte loop of FINALIZE empties a packer that holds whole bytes (R115). -/
theorem flushBytes_ok {k : Nat} {s t : State} (hc : Clean s) (hm : s.pk.pn.toNat % 8 = 0)
    (hk : s.pk.pn.toNat < 8 * (k + 1)) (h : flushBytes k s = .ok () t) : PackerOk t := by
  have empty {u : State} (hc : Clean u) (hn : u.pk.pn.toNat = 0) : PackerOk u :=
    ⟨by obtain h8 | h16 | h32 := packBits_cases u <;> omega, hc⟩
  induction k generalizing s with
  | zero => cases h; exact empty hc (by omega)
  | succ k ih =>
    rw [flushBytes] at h
    split at h
    · obtain ⟨_, u, hu, ht⟩ := Res.bind_eq_ok h
      obtain ⟨-, hpacc, hpn⟩ := outByte_ok hu
      obtain ⟨hclean, hdrop⟩ := dropPacked_clean (s := u) (n := 8) (by rwa [Clean, hpacc, hpn]) (by rw [hpn]; omega)
      rw [hpn] at hdrop
      exact ih hclean (by omega) (by omega) ht
    · cases h
      exact empty hc (by omega)

/-- FINALIZE leaves less than a word (R115). -/
theorem finalizePacker_ok {s t : State} (hp : PackerOk s) (h : finalizePacker s = .ok () t) :
    PackerOk t := by
  obtain ⟨_, u, hu, ht⟩ := Res.bind_eq_ok h
  have hbytes : PackerOk u ∧ u.pk.pn.toNat % 8 = 0 := by
    split at hu
    · exact putTrailer_ok hp hu
    · rename_i hn
      cases hu
      exact ⟨hp, by omega⟩
  obtain ⟨⟨hpartial, hclean⟩, hmod⟩ := hbytes
  have hbits := packBits_cases u
  exact flushBytes_ok hclean hmod (by omega) ht

/-- ENCODESYM leaves less than a word (R112, R113). -/
theorem encodeSym_ok {sel : Sel} {y : Nat} {s t : State} (hp : PackerOk s)
    (h : encodeSym sel y s = .ok () t) : PackerOk t := by
  rw [encodeSym] at h
  split at h
  · cases h
  · exact (putBits_ok (by omega) hp h).1

end Sys2Proof.Machine
end

section
/-! PROOF. What one operation of the engine can do (R6, R117): go on with the state confined to its frame and
its invariants kept, or raise an error. Every step and every primitive is such operations in sequence and one
last move of `state`, with at most one word appended to TOKEN_OUT (R22). -/

namespace Sys2Proof.Machine

/-! ## Operations inside a step -/

/-- What every operation of the engine keeps, also one that raises an error (R35, R118). -/
structure Confined (s t : State) : Prop where
  frame    : EngineFrame s t
  tokenOut : t.tokenOut = s.tokenOut
  outMem   : Memory.wf s.outMem = true → Memory.wf t.outMem = true
  metaLen  : s.par.metaLen.length = 19 → t.par.metaLen.length = 19
  cl       : s.par.cl.length = 320 → t.par.cl.length = 320

/-- What an operation keeps after which the step goes on (R6, R24, R30). -/
structure Keeps (s t : State) : Prop extends Confined s t where
  state  : t.state = s.state
  err    : t.err = s.err
  cursor : CursorOk s → CursorOk t
  packer : PackerOk s → PackerOk t

theorem EngineFrame.refl (s : State) : EngineFrame s s :=
  ⟨rfl, rfl, rfl, rfl, rfl, rfl, rfl, rfl, rfl, rfl, rfl, rfl, rfl⟩

theorem EngineFrame.trans {s t u : State} (h : EngineFrame s t) (h' : EngineFrame t u) : EngineFrame s u := by
  constructor
  exacts [h'.cfg.trans h.cfg, h'.ctrl.trans h.ctrl, h'.inLen.trans h.inLen, h'.inMem.trans h.inMem,
    h'.litlenLen.trans h.litlenLen, h'.distLen.trans h.distLen, h'.metaLenMem.trans h.metaLenMem,
    h'.tokenIn.trans h.tokenIn, h'.host.trans h.host, h'.hostData.trans h.hostData,
    h'.taken.trans h.taken, h'.synced.trans h.synced, h'.draws.trans h.draws]

theorem Confined.trans {s t u : State} (h : Confined s t) (h' : Confined t u) : Confined s u :=
  ⟨h.frame.trans h'.frame, h'.tokenOut.trans h.tokenOut, h'.outMem ∘ h.outMem, h'.metaLen ∘ h.metaLen,
    h'.cl ∘ h.cl⟩

theorem Keeps.refl (s : State) : Keeps s s :=
  ⟨⟨EngineFrame.refl s, rfl, id, id, id⟩, rfl, rfl, id, id⟩

theorem Keeps.trans {s t u : State} (h : Keeps s t) (h' : Keeps t u) : Keeps s u :=
  ⟨h.toConfined.trans h'.toConfined, h'.state.trans h.state, h'.err.trans h.err, h'.cursor ∘ h.cursor,
    h'.packer ∘ h.packer⟩

/-- Registers that neither the frame nor the cursor's and the packer's invariants speak of. -/
theorem keeps_registers (s : State) {par : Parser} {bg : ByteGen} {slots : Slots} {enc : Encoder}
    {uop : UopRegs} {tokenCount : Word}
    (hm : s.par.metaLen.length = 19 → par.metaLen.length = 19)
    (hc : s.par.cl.length = 320 → par.cl.length = 320) :
    Keeps s { s with
      par := par, bg := bg, slots := slots, enc := enc, uop := uop, tokenCount := tokenCount } :=
  ⟨⟨by constructor <;> rfl, rfl, id, hm, hc⟩, rfl, rfl,
    fun h => h.of_same rfl rfl rfl rfl, fun h => h.congr rfl rfl⟩

theorem confined_withCur (c : Cursor) (s : State) : Confined s (withCur c s) :=
  ⟨by constructor <;> rfl, rfl, id, id, id⟩

theorem keeps_withCur {c : Cursor} {s : State} (h : CursorOk s → CursorOk (withCur c s)) :
    Keeps s (withCur c s) :=
  ⟨confined_withCur c s, rfl, rfl, h, fun hp => hp.congr rfl rfl⟩

theorem keeps_refill (s : State) : Keeps s (refill s) := keeps_withCur refill_cursorOk

theorem keeps_alignCursor (s : State) : Keeps s (alignCursor s) := keeps_withCur alignCursor_cursorOk

theorem keeps_setSlot (sel : Sel) (x : Slot) (s : State) : Keeps s (setSlot sel x s) := by
  cases sel <;> exact keeps_registers s id id

theorem keeps_clearValid (sel : Sel) (s : State) : Keeps s (clearValid sel s) := keeps_setSlot sel _ s

/-- How an operation ends: with a value and a state it kept, or by an error raised in a confined one. -/
inductive Runs {α : Type} (s : State) : Res α → Prop
  | ok (a : α) {u : State} (h : Keeps s u) : Runs s (.ok a u)
  | raised (e : Err) (info : Word) {u : State} (h : Confined s u) : Runs s (.raised (raiseErr e info u))

/-- An operation that follows what was kept. -/
theorem Keeps.runs {α : Type} {s u : State} {r : Res α} (h : Keeps s u) (hr : Runs u r) : Runs s r := by
  cases hr with
  | ok a hv => exact .ok a (h.trans hv)
  | raised e info hv => exact .raised e info (h.toConfined.trans hv)

/-- Operations in sequence. -/
theorem Runs.bind {α β : Type} {s : State} {r : Res α} {f : α → State → Res β} (h : Runs s r)
    (hf : ∀ a u, Runs u (f a u)) : Runs s (r.bind f) := by
  cases h with
  | ok a hu => exact hu.runs (hf a _)
  | raised e info hu => exact .raised e info hu

theorem consume_runs (n : Nat) (s : State) (hn : n ≤ 32) : Runs s (consume n s) := by
  by_cases h : HasBits s n
  · rw [consume_of_hasBits s n h]
    exact .ok () (keeps_withCur (c := (advanceCursor n (refill s)).cur) (consumed_cursorOk hn h))
  · rw [consume_of_not_hasBits s n h]
    exact .raised _ _ (confined_withCur _ s)

theorem readBits_runs (n : Nat) (s : State) (hn : n ≤ 32) : Runs s (readBits n s) := by
  by_cases h : HasBits s n
  · rw [readBits_of_hasBits s n h]
    have hcur := consumed_cursorOk (s := refill s) hn (by simpa [HasBits] using h)
    exact .ok _ (keeps_withCur (c := (advanceCursor n (refill (refill s))).cur) fun hs =>
      hcur (refill_cursorOk hs))
  · rw [readBits_of_not_hasBits s n h]
    exact .raised _ _ (Keeps.refl s).toConfined

theorem decodeSym_runs (sel : Sel) (s : State) : Runs s (decodeSym sel s) :=
  (keeps_refill s).runs <| (consume_runs _ _ (by omega)).bind fun _ u => .ok _ (Keeps.refl u)

theorem build_runs (sel : Sel) (lens : List Nat) (s : State) : Runs s (build sel lens s) := by
  obtain ⟨-, hb⟩ | ⟨e, hb⟩ := build_cases sel lens s <;> rw [hb]
  · exact .ok () (keeps_setSlot sel _ s)
  · exact .raised _ _ (Keeps.refl s).toConfined

/-- What the packer's operations write is inside the frame. -/
theorem packerWrites_runs {s : State} {r : Res Unit} (h : PackerWrites s r)
    (hwf : Memory.wf s.outMem = true → Memory.wf r.state.outMem = true)
    (hok : ∀ {t}, PackerOk s → r = .ok () t → PackerOk t) : Runs s r := by
  have confined (m p) (hm : Memory.wf s.outMem = true → Memory.wf m = true) :
      Confined s (withPacker m p s) := ⟨by constructor <;> rfl, rfl, hm, id, id⟩
  obtain ⟨m, p, rfl⟩ | ⟨m, p, -, rfl⟩ := h
  · exact .ok () ⟨confined m p hwf, rfl, rfl,
      fun h => h.of_same rfl rfl rfl rfl, fun hp => hok hp rfl⟩
  · exact .raised _ _ (confined m p hwf)

theorem putBits_runs (v n : Nat) (s : State) (hn : n ≤ 63) : Runs s (putBits v n s) :=
  packerWrites_runs (packerWrites_putBits v n s) (outMem_wf_packerClosed.putBits v n s)
    fun hp ht => (putBits_ok hn hp ht).1

theorem finalizePacker_runs (s : State) : Runs s (finalizePacker s) :=
  packerWrites_runs (packerWrites_finalizePacker s) (outMem_wf_packerClosed.finalizePacker s)
    finalizePacker_ok

theorem encodeSym_runs (sel : Sel) (y : Nat) (s : State) : Runs s (encodeSym sel y s) := by
  obtain h | h := encodeSym_cases sel y s
  · exact packerWrites_runs h (outMem_wf_packerClosed.encodeSym sel y s) encodeSym_ok
  · rw [h]
    exact .raised _ _ (Keeps.refl s).toConfined

theorem putExtra_runs (y x : Nat) (s : State) : Runs s (putExtra y x s) := by
  unfold putExtra
  split_ifs
  · exact putBits_runs _ _ s (by decide)
  · exact putBits_runs _ _ s (by decide)
  · exact putBits_runs _ _ s (by decide)
  · exact .ok () (Keeps.refl s)

/-! ## The end of a step -/

/-- How a step or a primitive ends: in ERROR with an error raised, or in one of the states `fs`, with words
appended to a queue that has `room` for its new length, or with none (R8, R22, R117, R134). -/
inductive Ends (room : Nat → Prop) (fs : List Fsm) (s : State) : State → Prop
  | failed (e : Err) (info : Word) {u : State} (h : Confined s u) : Ends room fs s (raiseErr e info u)
  | moved {f : Fsm} {u : State} (h : Keeps s u) (hf : f ∈ fs) : Ends room fs s (setState f u)
  | appended {f : Fsm} {u : State} {q : List Word} (h : Keeps s u) (hf : f ∈ fs) (hq : s.tokenOut <+: q)
      (hr : room q.length) : Ends room fs s { u with state := f, tokenOut := q }

section
variable {room : Nat → Prop} {fs : List Fsm} {s u : State}

/-- A step that stays in its state. -/
theorem Ends.stayed (h : Keeps s u) (hf : s.state ∈ fs) : Ends room fs s u :=
  .moved (f := u.state) h (h.state ▸ hf)

/-- A step whose last statement writes registers and `state`. -/
theorem Ends.updated {f : Fsm} {par : Parser} {bg : ByteGen} {slots : Slots} {enc : Encoder}
    {uop : UopRegs} {tokenCount : Word} (h : Keeps s u) (hf : f ∈ fs)
    (hm : u.par.metaLen.length = 19 → par.metaLen.length = 19)
    (hc : u.par.cl.length = 320 → par.cl.length = 320) :
    Ends room fs s { u with
      state := f, par := par, bg := bg, slots := slots, enc := enc, uop := uop, tokenCount := tokenCount } :=
  .moved (h.trans (keeps_registers u hm hc)) hf

/-- The last operation of a step, after which `state` stays. -/
theorem Ends.of_runs {α : Type} {r : Res α} (h : Runs s r) (hf : s.state ∈ fs) : Ends room fs s r.state := by
  cases h with
  | ok a hu => exact .stayed hu hf
  | raised e info hu => exact .failed e info hu

/-- A step goes on with an operation, and ends there or with what follows it. -/
theorem Keeps.bind {α β : Type} {r : Res α} {f : α → State → Res β} (h : Keeps s u)
    (hr : Runs u r) (hf : ∀ a v, Keeps s v → Ends room fs s (f a v).state) :
    Ends room fs s (r.bind f).state := by
  cases h.runs hr with
  | ok a hv => exact hf a _ hv
  | raised e info hv => exact .failed e info hv

theorem Keeps.tokenOut_prefix (h : Keeps s u) : s.tokenOut <+: u.tokenOut :=
  h.tokenOut ▸ List.prefix_rfl

/-- A step whose last statements append a word, count it and write `state` (R22). -/
theorem Ends.emitted {f : Fsm} {w : Word} {tokenCount : Word} (h : Keeps s u) (hf : f ∈ fs) :
    Ends (fun _ => True) fs s { u with
      state := f, tokenOut := u.tokenOut ++ [w], tokenCount := tokenCount } :=
  .appended (u := { u with tokenCount := tokenCount }) (h.trans (keeps_registers u id id)) hf
    (h.tokenOut_prefix.trans (List.prefix_append _ _)) trivial

/-- EndOfBlock ends a step that may have appended words before (R78). -/
theorem Ends.endOfBlock {q : List Word} (h : Keeps s u) (hq : s.tokenOut <+: q) (hc : .dComplete ∈ fs)
    (hp : .dPreamble ∈ fs) : Ends (fun _ => True) fs s (endOfBlock { u with tokenOut := q }) := by
  unfold Machine.endOfBlock
  split
  · exact .appended (u := u) h hc (hq.trans (List.prefix_append _ _)) trivial
  · exact .appended (u := u) h hp hq trivial

/-- Back-pressure (R134): a step that may append words, and may stay in its state, ends with room for them. -/
theorem Ends.takeIfRoom {t : State} (h : Ends (fun _ => True) fs s t) (hf : s.state ∈ fs) :
    Ends (· ≤ s.cfg.tokenOutDepth) fs s (takeIfRoom s t) := by
  obtain ⟨ht, -, -⟩ | ⟨ht, hroom⟩ := takeIfRoom_cases s t <;> rw [ht]
  · exact .stayed (Keeps.refl s) hf
  · cases h with
    | failed e info hu => exact .failed e info hu
    | moved hu hf => exact .moved hu hf
    | appended hu hf hq hr =>
      obtain hlen | hroom := hroom
      · obtain rfl := hq.eq_of_length hlen.symm
        rw [← hu.tokenOut]
        exact .moved hu hf
      · exact .appended hu hf hq hroom

end

/-! ## The decoder's steps (R79..R93) -/

/-- The cursor as D_HEADER starts it meets R24's invariant (R79). -/
theorem cursorOk_of_start {s : State} (hc : s.cur = ⟨0, 0, 0, 0, BitVec.ofNat 35 (8 * s.inLen.toNat)⟩)
    (hl : s.inLen.toNat ≤ 2 ^ 28) : CursorOk s := by
  refine ⟨by simp [hc], by simp [hc], ?_, hl, by simp [hc], fun i => by simp [hc]⟩
  rw [hc, BitVec.toNat_ofNat]
  exact Nat.mod_eq_of_lt (by omega)

section
variable {room : Nat → Prop} {s u : State}

theorem dHeaderStep_ends (s : State) : Ends room (successors .dHeader) s (dHeaderStep s) := by
  refine .moved (f := .dPreamble) (u := { dHeaderStep s with state := s.state }) ?_ (by decide)
  exact ⟨⟨by constructor <;> rfl, rfl, id, id, id⟩, rfl, rfl, fun h => cursorOk_of_start rfl h.bound,
    fun h => h.congr rfl rfl⟩

theorem blockState_mem (b : Nat) : blockState b ∈ successors .dPreamble := by
  unfold blockState
  split_ifs <;> decide

theorem dPreambleStep_ends (s : State) : Ends room (successors .dPreamble) s (dPreambleStep s).state := by
  refine (Keeps.refl s).bind (readBits_runs 1 s (by decide)) fun f u hu => ?_
  have hf : Keeps s (setBfinal f u) := hu.trans (keeps_registers u id id)
  refine hf.bind (readBits_runs 2 _ (by decide)) fun b v hv => ?_
  have hb : Keeps s (setBtype b v) := hv.trans (keeps_registers v id id)
  exact .moved ((hb.trans (keeps_clearValid _ _)).trans (keeps_clearValid _ _)) (blockState_mem b)

theorem dStoredHdrStep_ends (s : State) :
    Ends (fun _ => True) (successors .dStoredHdr) s (dStoredHdrStep s).state := by
  refine (keeps_alignCursor s).bind (readBits_runs 16 _ (by decide)) fun len u hu => ?_
  refine hu.bind (readBits_runs 16 u (by decide)) fun nlen v hv => ?_
  have hrem : Keeps s (setStoredRem len v) := hv.trans (keeps_registers v id id)
  split_ifs
  · exact .endOfBlock hrem hrem.tokenOut_prefix (by decide) (by decide)
  · exact .moved hrem (by decide)
  · exact .failed _ _ hv.toConfined

theorem dStoredCopyStep_ends (hs : s.state = .dStoredCopy) :
    Ends (fun _ => True) (successors .dStoredCopy) s (dStoredCopyStep s).state := by
  refine (Keeps.refl s).bind (readBits_runs 8 s (by decide)) fun b u hu => ?_
  have hrem : Keeps s { u with
      tokenCount := u.tokenCount + 1, par := { u.par with storedRem := u.par.storedRem - 1 } } :=
    hu.trans (keeps_registers u id id)
  rw [Res.state_ok]
  split_ifs
  · exact .endOfBlock hrem (hu.tokenOut_prefix.trans (List.prefix_append _ _)) (by decide) (by decide)
  · exact .appended (f := u.state) hrem (by rw [hu.state, hs]; decide)
      (hu.tokenOut_prefix.trans (List.prefix_append _ _)) trivial

theorem dDynCountsStep_ends (s : State) : Ends room (successors .dDynCounts) s (dDynCountsStep s).state := by
  refine (Keeps.refl s).bind (readBits_runs 5 s (by decide)) fun v u hu => ?_
  have hlit : Keeps s { u with par := { u.par with hlit := BitVec.ofNat 9 (v + 257) } } :=
    hu.trans (keeps_registers u id id)
  refine hlit.bind (readBits_runs 5 _ (by decide)) fun v u hu => ?_
  have hdist : Keeps s { u with par := { u.par with hdist := BitVec.ofNat 6 (v + 1) } } :=
    hu.trans (keeps_registers u id id)
  refine hdist.bind (readBits_runs 4 _ (by decide)) fun v u hu => ?_
  exact .updated hu (by decide) (fun _ => List.length_replicate) id

theorem dDynMetalenStep_ends (hs : s.state = .dDynMetalen) :
    Ends room (successors .dDynMetalen) s (dDynMetalenStep s).state := by
  refine (Keeps.refl s).bind (readBits_runs 3 s (by decide)) fun v u hu => ?_
  have hset : Keeps s { u with par := { u.par with
      metaLen := u.par.metaLen.set (permAt u u.par.mi.toNat) (BitVec.ofNat 3 v), mi := u.par.mi + 1 } } :=
    hu.trans (keeps_registers u (by simp) id)
  rw [Res.state_ok]
  split_ifs
  · exact .moved hset (by decide)
  · exact .stayed hset (by rw [hs]; decide)

theorem dDynMetabuildStep_ends (s : State) :
    Ends room (successors .dDynMetabuild) s (dDynMetabuildStep s).state :=
  (Keeps.refl s).bind (build_runs _ _ s) fun _ u hu =>
    .updated hu (by decide) id id

theorem keeps_appendLens (v : BitVec 4) (n : Nat) (s : State) : Keeps s (appendLens v n s) :=
  keeps_registers s id (setRun_length _ _ _ _).trans

theorem codelenDone_ends (hs : s.state = .dDynCodelen) (h : Keeps s u) :
    Ends room (successors .dDynCodelen) s (codelenDone u) := by
  unfold codelenDone
  split
  · exact .moved h (by decide)
  · exact .stayed h (by rw [hs]; decide)

theorem repeatLens_ends (v : BitVec 4) (r : Nat) (hs : s.state = .dDynCodelen) (h : Keeps s u) :
    Ends room (successors .dDynCodelen) s (repeatLens v r u).state := by
  obtain ⟨-, hr⟩ | ⟨-, hr⟩ := repeatLens_cases v r u <;> rw [hr]
  · exact codelenDone_ends hs (h.trans (keeps_appendLens v r u))
  · exact .failed _ _ h.toConfined

theorem expandSymbol_ends (y : Nat) (hs : s.state = .dDynCodelen) (h : Keeps s u) :
    Ends room (successors .dDynCodelen) s (expandSymbol y u).state := by
  unfold expandSymbol
  split_ifs
  · exact codelenDone_ends hs (h.trans (keeps_appendLens _ _ u))
  · exact .failed _ _ h.toConfined
  · exact h.bind (readBits_runs 2 u (by decide)) fun _ _ hv => repeatLens_ends _ _ hs hv
  · exact h.bind (readBits_runs 3 u (by decide)) fun _ _ hv => repeatLens_ends _ _ hs hv
  · exact h.bind (readBits_runs 7 u (by decide)) fun _ _ hv => repeatLens_ends _ _ hs hv
  · exact repeatLens_ends _ _ hs h

theorem dDynCodelenStep_ends (hs : s.state = .dDynCodelen) :
    Ends room (successors .dDynCodelen) s (dDynCodelenStep s).state :=
  (Keeps.refl s).bind (decodeSym_runs _ s) fun _ _ hu => expandSymbol_ends _ hs hu

theorem dDynTablebuildStep_ends (s : State) :
    Ends room (successors .dDynTablebuild) s (dDynTablebuildStep s).state :=
  (Keeps.refl s).bind (build_runs _ _ s) fun _ u hu =>
    hu.bind (build_runs _ _ u) fun _ _ hv => .moved hv (by decide)

theorem dStaticStep_ends (fs : List Fsm) (s : State) : Ends room fs s (dStaticStep s).state :=
  .failed _ _ (Keeps.refl s).toConfined

theorem literalStage_ends (e : Entry) (hs : s.state = .dBgLiteral) (h : Keeps s u) :
    Ends (fun _ => True) (successors .dBgLiteral) s (literalStage e u).state := by
  unfold literalStage
  cases e.kind with
  | literal => exact .emitted (f := u.state) h (by rw [h.state, hs]; decide)
  | length => exact .updated h (by decide) id id
  | endOfBlock => exact .endOfBlock h h.tokenOut_prefix (by decide) (by decide)
  | distance => exact .failed _ _ h.toConfined
  | linkToSubtable => exact .failed _ _ h.toConfined
  | invalid => exact .failed _ _ h.toConfined

theorem dBgLiteralStep_ends (hs : s.state = .dBgLiteral) :
    Ends (fun _ => True) (successors .dBgLiteral) s (dBgLiteralStep s).state :=
  (Keeps.refl s).bind (decodeSym_runs _ s) fun e _ hu => literalStage_ends e hs hu

theorem dBgMlenStep_ends (s : State) : Ends room (successors .dBgMlen) s (dBgMlenStep s).state :=
  (Keeps.refl s).bind (readBits_runs _ s (by omega)) fun _ u hu =>
    .updated hu (by decide) id id

theorem distanceStage_ends (e : Entry) (h : Keeps s u) :
    Ends room (successors .dBgMdist) s (distanceStage e u).state := by
  unfold distanceStage
  cases e.kind with
  | distance => exact .updated h (by decide) id id
  | literal => exact .failed _ _ h.toConfined
  | length => exact .failed _ _ h.toConfined
  | endOfBlock => exact .failed _ _ h.toConfined
  | linkToSubtable => exact .failed _ _ h.toConfined
  | invalid => exact .failed _ _ h.toConfined

theorem dBgMdistStep_ends (s : State) : Ends room (successors .dBgMdist) s (dBgMdistStep s).state :=
  (Keeps.refl s).bind (decodeSym_runs _ s) fun e _ hu => distanceStage_ends e hu

theorem dBgMdistwrStep_ends (s : State) :
    Ends (fun _ => True) (successors .dBgMdistwr) s (dBgMdistwrStep s).state :=
  (Keeps.refl s).bind (readBits_runs _ s (by omega)) fun _ u hu =>
    .emitted hu (by decide)

end
end Sys2Proof.Machine
end

section
/-! PROOF. How every step of the encoder (R97..R111), every turn of the engine (R7, R8) and every primitive
issued by its word (log 36) ends. -/

namespace Sys2Proof.Machine

/-! ## The encoder's steps -/

section
variable {room : Nat → Prop} {fs : List Fsm} {s u : State}

/-- An operation and then a move of `state`, the shape of the token encoder's steps. -/
theorem Runs.then_moved {r : Res Unit} (f : Fsm) (hr : Runs s r) (hf : f ∈ fs) :
    Ends room fs s (r.bind fun _ s => Res.ok () (setState f s)).state :=
  (Keeps.refl s).bind hr fun _ _ hu => .moved hu hf

theorem keeps_queueLens (lit dist : List Nat) (s : State) : Keeps s (queueLens lit dist s) :=
  keeps_registers s id id

theorem keeps_setCounts (lit dist codeLen : List Nat) (s : State) :
    Keeps s (setCounts lit dist codeLen s) :=
  keeps_registers s id id

theorem eBuildStep_ends (lit dist codeLen : List Nat) (s : State) :
    Ends room (successors .eBuild) s (eBuildStep lit dist codeLen s).state := by
  refine (Keeps.refl s).bind (build_runs _ _ s) fun _ u hu => ?_
  refine hu.bind (build_runs _ _ u) fun _ u hu => ?_
  refine hu.bind (build_runs _ _ u) fun _ u hu => ?_
  exact .moved ((hu.trans (keeps_setCounts lit dist codeLen u)).trans (keeps_queueLens lit dist _))
    (by decide)

theorem eHeaderStep_ends (s : State) : Ends room (successors .eHeader) s (eHeaderStep s).state := by
  refine (Keeps.refl s).bind (putBits_runs _ _ s (by decide)) fun _ u hu => ?_
  refine hu.bind (putBits_runs _ _ u (by decide)) fun _ u hu => ?_
  refine hu.bind (putBits_runs _ _ u (by decide)) fun _ u hu => ?_
  refine hu.bind (putBits_runs _ _ u (by decide)) fun _ u hu => ?_
  refine hu.bind (putBits_runs _ _ u (by decide)) fun _ u hu => ?_
  exact .moved hu (by decide)

theorem eMetalenStep_ends (v : Nat) (hs : s.state = .eMetalen) :
    Ends room (successors .eMetalen) s (eMetalenStep v s).state := by
  refine (Keeps.refl s).bind (putBits_runs _ _ s (by decide)) fun _ u hu => ?_
  have hnext : Keeps s { u with enc := { u.enc with emi := u.enc.emi + 1 } } :=
    hu.trans (keeps_registers u id id)
  rw [Res.state_ok]
  split_ifs
  · exact .moved hnext (by decide)
  · exact .stayed hnext (by rw [hs]; decide)

theorem eCodelenStep_ends (hs : s.state = .eCodelen) :
    Ends room (successors .eCodelen) s (eCodelenStep s).state := by
  refine (Keeps.refl s).bind (encodeSym_runs _ _ s) fun _ u hu => ?_
  refine hu.bind (putExtra_runs _ _ u) fun _ u hu => ?_
  have hnext : Keeps s { u with enc := { u.enc with rqi := u.enc.rqi + 1 } } :=
    hu.trans (keeps_registers u id id)
  rw [Res.state_ok]
  split_ifs
  · exact .moved hnext (by decide)
  · exact .stayed hnext (by rw [hs]; decide)

theorem keeps_countToken (w : Word) (s : State) : Keeps s (countToken w s) :=
  keeps_registers s id id

theorem takeWord_ends (w : Word) (s : State) : Ends room (successors .eWriteToken) s (takeWord w s) := by
  obtain ⟨b, -, ht⟩ | ⟨l, d, -, ht⟩ | ⟨-, ht⟩ | ⟨r, -, ht⟩ := takeWord_cases w s <;> rw [ht]
  · exact .moved (keeps_countToken _ s) (by decide)
  · obtain ⟨-, hm⟩ | ⟨-, hm⟩ := takeMatch_cases l d s <;> rw [hm]
    · exact .moved ((keeps_countToken _ s).trans (keeps_registers _ id id)) (by decide)
    · exact .failed _ _ (Keeps.refl s).toConfined
  · exact .moved (Keeps.refl s) (by decide)
  · exact .failed _ _ (Keeps.refl s).toConfined

end

/-! ## The engine's turn -/

theorem Ends.of_next {room : Nat → Prop} {fs : List Fsm} {s u t : State}
    (h : (Host.Outcome.next u : Out) = .next t) (hu : Ends room fs s u) : Ends room fs s t :=
  Host.Outcome.next.inj h ▸ hu

theorem Ends.of_out {room : Nat → Prop} {fs : List Fsm} {s t : State} {r : Res Unit}
    (h : r.out = .next t) (hr : Ends room fs s r.state) : Ends room fs s t :=
  .of_next h hr

/-- How the step of a state ends (R8, R9, R134). -/
theorem step_ends {i : Instr} {s t : State} (hf : fetchInstr s.state = some i) (h : exec i s = .next t) :
    Ends (· ≤ s.cfg.tokenOutDepth) (successors s.state) s t := by
  rw [fetchInstr_eq] at hf
  cases hs : s.state <;> rw [hs] at hf <;> cases hf
  case dHeader => exact .of_next h (dHeaderStep_ends s)
  case dPreamble => exact .of_out h (dPreambleStep_ends s)
  case dStoredHdr => exact .of_next h ((dStoredHdrStep_ends s).takeIfRoom (by rw [hs]; decide))
  case dStoredCopy => exact .of_next h ((dStoredCopyStep_ends hs).takeIfRoom (by rw [hs]; decide))
  case dDynCounts => exact .of_out h (dDynCountsStep_ends s)
  case dDynMetalen => exact .of_out h (dDynMetalenStep_ends hs)
  case dDynMetabuild => exact .of_out h (dDynMetabuildStep_ends s)
  case dDynCodelen => exact .of_out h (dDynCodelenStep_ends hs)
  case dDynTablebuild => exact .of_out h (dDynTablebuildStep_ends s)
  case dStatic => exact .of_out h (dStaticStep_ends _ s)
  case dBgLiteral => exact .of_next h ((dBgLiteralStep_ends hs).takeIfRoom (by rw [hs]; decide))
  case dBgMlen => exact .of_out h (dBgMlenStep_ends s)
  case dBgMdist => exact .of_out h (dBgMdistStep_ends s)
  case dBgMdistwr => exact .of_next h ((dBgMdistwrStep_ends s).takeIfRoom (by rw [hs]; decide))
  case eBuild =>
    simp only [exec, execEBuild] at h
    split at h
    · exact .of_out h (eBuildStep_ends _ _ _ s)
    all_goals cases h
  case eHeader => exact .of_out h (eHeaderStep_ends s)
  case eMetalen =>
    simp only [exec, execEMetalen] at h
    split at h
    · cases h
    · exact .of_out h (eMetalenStep_ends _ hs)
  case eCodelen => exact .of_out h (eCodelenStep_ends hs)
  case eWriteToken =>
    simp only [exec, execEWriteToken] at h
    split at h
    · cases h
    · exact .of_next h (takeWord_ends _ s)
  case eLitRep => exact .of_out h ((encodeSym_runs _ _ s).then_moved _ (by decide))
  case eMatchDistRep => exact .of_out h ((encodeSym_runs _ _ s).then_moved _ (by decide))
  case eMatchExtra => exact .of_out h ((putBits_runs _ _ s (by omega)).then_moved _ (by decide))
  case eDistRep => exact .of_out h ((encodeSym_runs _ _ s).then_moved _ (by decide))
  case eDistExtra => exact .of_out h ((putBits_runs _ _ s (by omega)).then_moved _ (by decide))
  case eEob => exact .of_out h ((encodeSym_runs _ _ s).then_moved _ (by decide))
  case eFinalize => exact .of_out h ((finalizePacker_runs s).then_moved _ (by decide))

/-- How a turn of the engine ends (R7, R8); in a terminal state it takes no step. -/
theorem engineTurn_ends {s t : State} (h : engineTurn s = .next t) :
    Ends (· ≤ s.cfg.tokenOutDepth) (successors s.state) s t := by
  rw [engineTurn] at h
  split at h
  · rename_i hf
    cases h
    refine .stayed (Keeps.refl s) ?_
    rw [fetchInstr_eq] at hf
    cases hs : s.state <;> rw [hs] at hf <;> cases hf <;> exact List.mem_singleton_self _
  · exact step_ends ‹_› h

/-! ## The primitives -/

/-- The primitives as their words give them (R49, R50). -/
inductive Primitive : Instr → Prop
  | build (sel : Sel) : Primitive (.build sel)
  | decodesym (sel : Sel) : Primitive (.decodesym sel)
  | encodesym (sel : Sel) : Primitive (.encodesym sel)
  | peek (n : BitVec 6) : Primitive (.peek n)
  | consume (n : BitVec 6) (h : n.toNat ≤ 32) : Primitive (.consume n)
  | read (n : BitVec 6) (h : n.toNat ≤ 32) : Primitive (.read n)
  | align : Primitive .align
  | refill : Primitive .refill
  | rleEmit (sel : RleSel) : Primitive (.rleEmit sel)
  | put (n : BitVec 6) : Primitive (.put n)
  | finalize : Primitive .finalize
  | rleExpand : Primitive .rleExpand

theorem primitive_of_selOp {op sel : Nat} {i : Instr} (h : selOp op sel = some i) : Primitive i := by
  unfold selOp at h
  split at h <;> cases h <;> constructor

theorem primitive_of_countOp {op : Nat} {n : BitVec 6} {i : Instr} (h : countOp op n = some i)
    (hn : countOk n = true) : Primitive i := by
  have hn : n.toNat ≤ 32 := of_decide_eq_true hn
  unfold countOp at h
  split at h <;> cases h
  exacts [.peek n, .consume n hn, .read n hn, .put n]

theorem primitive_of_plainOp {op : Nat} {i : Instr} (h : plainOp op = some i) (ho : op < 0x20) :
    Primitive i := by
  unfold plainOp at h
  split at h <;> cases h
  case h_1 | h_2 | h_3 | h_4 => constructor
  all_goals omega

/-- A micro-operation word that decodes is in one of the three tables of operations (R49, R50). -/
theorem decodeUop_cases {w : BitVec 16} {i : Instr} (h : decodeUop w = .ok i) :
    selOp (w.extractLsb' 0 6).toNat (w.extractLsb' 12 2).toNat = some i ∨
    (countOp (w.extractLsb' 0 6).toNat (w.extractLsb' 6 6) = some i ∧
      countOk (w.extractLsb' 6 6) = true) ∨
    plainOp (w.extractLsb' 0 6).toNat = some i := by
  simp only [decodeUop] at h
  split at h
  · cases h
  split at h
  · split at h
    · cases h
    · split at h <;> cases h
      exact .inl ‹_›
  split at h
  · split at h <;> cases h
  split at h
  · split at h <;> cases h
    exact .inr (.inl ⟨‹_›, ‹_›⟩)
  · split at h
    · cases h
    · split at h <;> cases h
      exact .inr (.inr ‹_›)

/-- A word that decodes and names no step of the engine is a primitive's (R50). -/
theorem primitive_of_decode {w : BitVec 16} {i : Instr} (h : decodeUop w = .ok i)
    (hw : isStepWord w = false) : Primitive i := by
  have ho : (w.extractLsb' 0 6).toNat < 0x20 := by
    rw [isStepWord_eq_decide, decide_eq_false_iff_not] at hw
    simpa using hw
  obtain h | ⟨h, hn⟩ | h := decodeUop_cases h
  · exact primitive_of_selOp h
  · exact primitive_of_countOp h hn
  · exact primitive_of_plainOp h ho

/-- How a primitive ends (R6). -/
theorem primitive_ends {room : Nat → Prop} {i : Instr} {s t : State} (hi : Primitive i)
    (h : exec i s = .next t) : Ends room [s.state] s t := by
  have stay : s.state ∈ [s.state] := List.mem_singleton_self _
  cases hi with
  | build sel =>
    simp only [exec, execBuild] at h
    split at h
    · cases h
    · exact .of_out h (.of_runs (build_runs _ _ s) stay)
  | decodesym sel =>
    exact .of_out h <| .of_runs ((decodeSym_runs sel s).bind fun _ u => .ok () (keeps_registers u id id)) stay
  | encodesym sel => exact .of_out h (.of_runs (encodeSym_runs _ _ s) stay)
  | peek n => exact .of_next h (.stayed ((keeps_refill s).trans (keeps_registers _ id id)) stay)
  | consume n hn => exact .of_out h (.of_runs (consume_runs _ s hn) stay)
  | read n hn =>
    exact .of_out h <| .of_runs ((readBits_runs _ s hn).bind fun _ u => .ok () (keeps_registers u id id)) stay
  | align => exact .of_next h (.stayed (keeps_alignCursor s) stay)
  | refill => exact .of_next h (.stayed (keeps_refill s) stay)
  | rleEmit sel =>
    simp only [exec, execRleEmit] at h
    split at h
    · cases h
    · exact .of_next h (.stayed (keeps_registers s id id) stay)
  | put n => exact .of_out h (.of_runs (putBits_runs _ _ s (by omega)) stay)
  | finalize => exact .of_out h (.of_runs (finalizePacker_runs s) stay)
  | rleExpand =>
    cases h
    split
    · exact .failed _ _ (Keeps.refl s).toConfined
    · exact .stayed (keeps_registers s id id) stay

end Sys2Proof.Machine
end

section
/-! PROOF. What the end of a step or a primitive says of each part of the state (R8, R22, R24, R30, R31). -/

namespace Sys2Proof.Machine

section
variable {room : Nat → Prop} {fs : List Fsm} {s t : State}

theorem Ends.frame (h : Ends room fs s t) : EngineFrame s t := by
  cases h with
  | failed e info h => exact h.frame.trans (by constructor <;> rfl)
  | moved h hf => exact h.frame.trans (by constructor <;> rfl)
  | appended h hf hq hr => exact h.frame.trans (by constructor <;> rfl)

theorem Ends.outMem_wf (h : Ends room fs s t) (hm : Memory.wf s.outMem = true) :
    Memory.wf t.outMem = true := by
  cases h with
  | failed e info h => exact h.outMem hm
  | moved h hf => exact h.outMem hm
  | appended h hf hq hr => exact h.outMem hm

theorem Ends.metaLen_length (h : Ends room fs s t) (hm : s.par.metaLen.length = 19) :
    t.par.metaLen.length = 19 := by
  cases h with
  | failed e info h => exact h.metaLen hm
  | moved h hf => exact h.metaLen hm
  | appended h hf hq hr => exact h.metaLen hm

theorem Ends.cl_length (h : Ends room fs s t) (hc : s.par.cl.length = 320) : t.par.cl.length = 320 := by
  cases h with
  | failed e info h => exact h.cl hc
  | moved h hf => exact h.cl hc
  | appended h hf hq hr => exact h.cl hc

/-- No word is withdrawn (R22). -/
theorem Ends.tokenOut_prefix (h : Ends room fs s t) : s.tokenOut <+: t.tokenOut := by
  cases h with
  | failed e info h => exact h.tokenOut ▸ List.prefix_rfl
  | moved h hf => exact h.tokenOut_prefix
  | appended h hf hq hr => exact hq

/-- The queue stays as long as it was, or has room (R134). -/
theorem Ends.length_or_room (h : Ends room fs s t) :
    t.tokenOut.length = s.tokenOut.length ∨ room t.tokenOut.length := by
  cases h with
  | failed e info h => exact .inl (congrArg _ h.tokenOut)
  | moved h hf => exact .inl (congrArg _ h.tokenOut)
  | appended h hf hq hr => exact .inr hr

/-- An error stops the engine with no word appended (R117, R118); otherwise the state is one of `fs`, the
error registers stay, and the cursor's and the packer's invariants are kept. -/
theorem Ends.failed_or_done (h : Ends room fs s t) :
    (t.state = .error ∧ t.tokenOut = s.tokenOut) ∨
    (t.state ∈ fs ∧ t.err = s.err ∧ (CursorOk s → CursorOk t) ∧ (PackerOk s → PackerOk t)) := by
  cases h with
  | failed e info h => exact .inl ⟨rfl, h.tokenOut⟩
  | moved h hf =>
    exact .inr ⟨hf, h.err, fun hs => (h.cursor hs).of_same rfl rfl rfl rfl,
      fun hs => (h.packer hs).congr rfl rfl⟩
  | appended h hf hq hr =>
    exact .inr ⟨hf, h.err, fun hs => (h.cursor hs).of_same rfl rfl rfl rfl,
      fun hs => (h.packer hs).congr rfl rfl⟩

end

/-- ERROR follows no other state but by an error (R9). -/
theorem error_mem_successors (f : Fsm) (h : .error ∈ successors f) : f = .error := by
  revert h
  cases f <;> decide

end Sys2Proof.Machine

open Sys2Proof Sys2Proof.Machine

/-- Settles O22: every turn of the engine ends in ERROR or in a state R9 lets follow. -/
theorem engineFollowsTheStateSequence : Obligations.EngineFollowsTheStateSequence := by
  unfold Obligations.EngineFollowsTheStateSequence
  intro s t h
  exact (engineTurn_ends h).failed_or_done.imp And.left And.left

/-- Settles O23: a turn of the engine only appends to the queue, and nothing when it raises an error. -/
theorem tokensAreNeverWithdrawn : Obligations.TokensAreNeverWithdrawn := by
  unfold Obligations.TokensAreNeverWithdrawn
  intro s t h
  refine ⟨(engineTurn_ends h).tokenOut_prefix, fun he => ?_⟩
  obtain ⟨-, hq⟩ | ⟨hf, -, -, -⟩ := (engineTurn_ends h).failed_or_done
  · exact hq
  · have hs : terminal s.state = true := by rw [error_mem_successors s.state (he ▸ hf)]; rfl
    rw [engineTurn_of_terminal s hs] at h
    cases h
    rfl
end

section
/-! PROOF. What the host, the consumer and the four commands can change (R10..R23, R97, R131, R132), and the
induction over every step of the machine. -/

namespace Sys2Proof.Machine

/-! ## The host's moves -/

/-- The model's own fields, which the host's reads and the count of draws write, and words that the consumer
took (R21; log 2, log 3). -/
inductive Aside (s : State) : State → Prop
  | mk {host : List HostEvent} {hostData : Option Word} {taken : List Word} {synced : Bool} {draws : Nat}
      {uop : UopRegs} {q : List Word} (hq : q.length ≤ s.tokenOut.length) :
      Aside s { s with
        host := host, hostData := hostData, taken := taken, synced := synced, draws := draws
        uop := uop, tokenOut := q }

theorem Aside.refl (s : State) : Aside s s := .mk le_rfl

theorem Aside.trans {s t u : State} (h : Aside s t) (h' : Aside t u) : Aside s u := by
  cases h with | mk hq => cases h' with | mk hq' => exact .mk (hq'.trans hq)

/-- What the host writes while no job runs (R12, R18, R20, R23). -/
inductive InputWrite (s : State) : State → Prop
  | inLen (v : Word) : InputWrite s { s with inLen := v }
  | inMem (a : Nat) (b : Byte) : InputWrite s { s with inMem := memWrite s.inMem a b }
  | tree (t : Sel) (i : Nat) (v : Word) : InputWrite s (setTree t i v s)
  | tokenIn (ws : List Word) : InputWrite s { s with tokenIn := ws }

/-- The host writes inputs only: the parameters, the engine's position and its registers stay. -/
theorem InputWrite.same {s t : State} (h : InputWrite s t) : t.cfg = s.cfg ∧ t.state = s.state ∧
    t.err = s.err ∧ t.par = s.par ∧ t.pk = s.pk ∧ t.tokenOut = s.tokenOut := by
  cases h with
  | tree x i v => cases x <;> exact ⟨rfl, rfl, rfl, rfl, rfl, rfl⟩
  | inLen v => exact ⟨rfl, rfl, rfl, rfl, rfl, rfl⟩
  | inMem a b => exact ⟨rfl, rfl, rfl, rfl, rfl, rfl⟩
  | tokenIn ws => exact ⟨rfl, rfl, rfl, rfl, rfl, rfl⟩

/-- What an action of the host or the consumer is when it answers a next state (log 3): the engine's turn, a
primitive, a command at CTRL, an input write while no job runs, or nothing but the model's own fields. -/
inductive HostMoves (s : State) : HostEvent → State → Prop
  | turn {e : HostEvent} {u t : State} (hu : Aside s u) (he : ∀ a v, e ≠ .regWrite a v)
      (h : engineTurn u = .next t) : HostMoves s e t
  | primitive {w : BitVec 16} {v : Word} {u t : State} (hu : Aside s u) (hp : takesPrimitives u = true)
      (h : Ends (· ≤ u.cfg.tokenOutDepth) [u.state] u t) : HostMoves s (.uop w v) t
  | command {v : Word} {t : State} (h : exec (decodeCtrl v) s = .next t) :
      HostMoves s (.regWrite s.cfg.regBase v) t
  | input {e : HostEvent} {t : State} (hb : busy s = false) (h : InputWrite s t) : HostMoves s e t
  | aside {e : HostEvent} {t : State} (h : Aside s t) : HostMoves s e t

section
variable {s t : State}

theorem issueUop_moves {w : BitVec 16} {v : Word} (h : issueUop w v s = .next t) :
    HostMoves s (.uop w v) t := by
  have operand : Aside s { s with uop := { s.uop with opVal := v } } := .mk le_rfl
  obtain ⟨i, hi, ⟨⟨hw, hp⟩ | rfl, hx⟩ | ⟨-, -, rfl⟩⟩ := issueUop_cases w v s t h
  · exact .primitive operand hp (primitive_ends (primitive_of_decode hi hw) hx)
  · have hf : fetchInstr s.state = some i := fetchInstr_of_decode s.state i hi
    exact .turn operand (by simp) <|
      (engineTurn_of_fetch { s with uop := { s.uop with opVal := v } } i hf).trans hx
  · exact .aside (.refl _)

theorem hostRegWrite_moves {addr : Nat} {v : Word} (h : hostRegWrite addr v s = .next t) :
    HostMoves s (.regWrite addr v) t := by
  unfold hostRegWrite regOffset at h
  split at h
  · cases h
  · rename_i off hoff
    split at hoff
    · cases hoff
      obtain rfl | ⟨h0, hx⟩ | ⟨hb, rfl⟩ := writeReg_cases _ v s t h
      · exact .aside (.refl _)
      · obtain rfl : addr = s.cfg.regBase := by omega
        exact .command hx
      · exact .input hb (.inLen v)
    · cases hoff

theorem aside_answer_noteStatusRead (off : Nat) (v : Word) : Aside s (answer v (noteStatusRead off s)) := by
  unfold noteStatusRead
  split <;> exact .mk le_rfl

theorem aside_consumeToken : Aside s (consumeToken s) := by
  rw [consumeToken_eq]
  exact .mk (by simp)

theorem hostRegRead_moves {addr : Nat} (h : hostRegRead addr s = .next t) : Aside s t := by
  unfold hostRegRead at h
  split at h
  · cases h
  · split at h <;> cases h
    exact aside_answer_noteStatusRead _ _

theorem hostInMemWrite_moves {a : Nat} {b : Byte} (h : hostInMemWrite a b s = .next t) :
    busy s = false ∧ InputWrite s t := by
  unfold hostInMemWrite at h
  split_ifs at h with hb
  cases h
  exact ⟨by simpa using hb, .inMem a b⟩

theorem hostTreeWrite_moves {x : Sel} {i : Nat} {v : Word} (h : hostTreeWrite x i v s = .next t) :
    busy s = false ∧ InputWrite s t := by
  unfold hostTreeWrite at h
  split_ifs at h with hb
  cases h
  exact ⟨by simpa using hb, .tree x i v⟩

theorem hostWait_moves {ready : Bool} (h : hostWait ready s = .next t) : HostMoves s (.wait ready) t := by
  have poll : Aside s (pollStatus s) := aside_answer_noteStatusRead _ _
  obtain ⟨-, rfl⟩ | ⟨-, h⟩ := hostWait_cases ready s t h
  · exact .aside poll
  · refine .turn ?_ (by simp) h
    have pending : Aside s { pollStatus s with host := .wait ready :: s.host } := poll.trans (.mk le_rfl)
    cases ready with
    | false => exact pending
    | true => exact pending.trans aside_consumeToken

/-- What the host's turn is. -/
theorem hostTurn_moves {e : HostEvent} (h : hostTurn e s = .next t) : HostMoves s e t := by
  cases e with
  | uop w v => exact issueUop_moves h
  | regWrite addr v => exact hostRegWrite_moves h
  | regRead addr => exact .aside (hostRegRead_moves h)
  | regNarrow addr =>
    simp only [hostTurn, hostRegNarrow] at h
    split at h <;> cases h
  | inMemWrite addr b =>
    obtain ⟨a, -, h⟩ := atAddress_cases _ _ _ _ h
    obtain ⟨hb, hw⟩ := hostInMemWrite_moves h
    exact .input hb hw
  | treeWrite x addr v =>
    obtain ⟨i, -, h⟩ := atAddress_cases _ _ _ _ h
    obtain ⟨hb, hw⟩ := hostTreeWrite_moves h
    exact .input hb hw
  | tokenInWrite ws =>
    simp only [hostTurn, hostTokenInWrite] at h
    split_ifs at h with hb
    cases h
    exact .input (by simpa using hb) (.tokenIn ws)
  | outMemRead addr =>
    obtain ⟨a, -, h⟩ := atAddress_cases _ _ _ _ h
    unfold hostOutMemRead at h
    split_ifs at h
    cases h
    exact .aside (.mk le_rfl)
  | drain => cases h; exact .aside aside_consumeToken
  | engine => exact .turn (.refl s) (by simp) h
  | wait ready => exact hostWait_moves h

end

/-! ## The four commands -/

/-- What CTRL holds, by the bits of the value written (R10, R52). -/
theorem decodeCtrl_cases (w : Word) :
    (w.getLsbD 3 = true ∧ decodeCtrl w = .softReset) ∨
    (w.getLsbD 0 = true ∧
      (decodeCtrl w = .startDecode (w.getLsbD 2) ∨ decodeCtrl w = .startEncode (w.getLsbD 2))) ∨
    decodeCtrl w = .setMode (w.getLsbD 1) (w.getLsbD 2) := by
  unfold decodeCtrl
  split
  · exact .inl ⟨‹_›, rfl⟩
  · split
    · refine .inr (.inl ⟨‹_›, ?_⟩)
      split
      · exact .inr rfl
      · exact .inl rfl
    · exact .inr (.inr rfl)

/-- What a command is when it answers a next state: ignored while a job runs, or its writes (R10, R97, R131,
R132). -/
inductive CommandMoves (s : State) : Instr → State → Prop
  | ignored {c : Instr} (hb : busy s = true) : CommandMoves s c s
  | setMode (m l : Bool) (hb : busy s = false) : CommandMoves s (.setMode m l) (setCtrl m l s)
  | startDecode (l : Bool) (hb : busy s = false) (hl : s.inLen.toNat ≤ s.cfg.inMemBytes)
      (hw : InputWritten s) :
      CommandMoves s (.startDecode l) (setState .dHeader (startJob (setCtrl false l s)))
  | startEncode (l : Bool) (hb : busy s = false) :
      CommandMoves s (.startEncode l) (startEncoder (startJob (setCtrl true l s)))
  | softReset : CommandMoves s .softReset { State.resetWith s.cfg with
      host := s.host, hostData := s.hostData, taken := s.taken, draws := s.draws }

section
variable {s t : State}

theorem execSetMode_moves {m l : Bool} (h : exec (.setMode m l) s = .next t) :
    CommandMoves s (.setMode m l) t := by
  simp only [exec, execSetMode] at h
  cases hb : busy s <;> simp only [hb, Bool.false_eq_true, if_true, if_false] at h <;> cases h
  · exact .setMode m l hb
  · exact .ignored hb

theorem execStartEncode_moves {l : Bool} (h : exec (.startEncode l) s = .next t) :
    CommandMoves s (.startEncode l) t := by
  simp only [exec, execStartEncode] at h
  cases hb : busy s <;> simp only [hb, Bool.false_eq_true, if_true, if_false] at h <;> cases h
  · exact .startEncode l hb
  · exact .ignored hb

theorem execStartDecode_moves {l : Bool} (h : exec (.startDecode l) s = .next t) :
    CommandMoves s (.startDecode l) t := by
  simp only [exec, execStartDecode] at h
  split_ifs at h with hb hl
  · cases h
    exact .ignored hb
  · split at h
    · cases h
    · rename_i hw
      cases h
      exact .startDecode l (by simpa using hb) (by omega) fun a ha =>
        (firstUnwritten_eq_none _ _ _).1 hw a (Nat.zero_le a) (by omega)

/-- What a CTRL write is when it answers a next state (R10, R52). -/
theorem command_moves {w : Word} (h : exec (decodeCtrl w) s = .next t) :
    CommandMoves s (decodeCtrl w) t := by
  obtain ⟨-, hw⟩ | ⟨-, hw | hw⟩ | hw := decodeCtrl_cases w <;> rw [hw] at h ⊢
  · cases h
    exact .softReset
  · exact execStartDecode_moves h
  · exact execStartEncode_moves h
  · exact execSetMode_moves h

end

/-! ## Every step -/

/-- A predicate that the engine's turns, a primitive issued by its word, the commands, the host's writes and
the model's own fields keep. -/
structure Invariant (P : State → Prop) : Prop where
  turn      : ∀ {s t}, engineTurn s = .next t → P s → P t
  primitive : ∀ {s t}, takesPrimitives s = true → Ends (· ≤ s.cfg.tokenOutDepth) [s.state] s t → P s → P t
  command   : ∀ {c s t}, CommandMoves s c t → P s → P t
  input     : ∀ {s t}, busy s = false → InputWrite s t → P s → P t
  aside     : ∀ {s t}, Aside s t → P s → P t

/-- Every step keeps an invariant. -/
theorem Invariant.step {P : State → Prop} (hP : Invariant P) (s t : State) (h : P s)
    (hs : Machine.step s = .next t) : P t := by
  obtain ⟨-, -, rfl⟩ | ⟨-, -, u, hu, rfl⟩ | ⟨e, rest, u, -, hu, rfl⟩ := step_cases s t hs
  · exact h
  · exact hP.aside (.mk le_rfl) (hP.turn hu h)
  · have taken : P { s with host := rest } := hP.aside (.mk le_rfl) h
    refine hP.aside (.mk le_rfl) (s := u) ?_
    cases hostTurn_moves hu with
    | turn hu' he hx => exact hP.turn hx (hP.aside hu' taken)
    | primitive hu' hp hx => exact hP.primitive hp hx (hP.aside hu' taken)
    | command hx => exact hP.command (command_moves hx) taken
    | input hb hx => exact hP.input hb hx taken
    | aside hx => exact hP.aside hx taken

end Sys2Proof.Machine
end

section
/-! PROOF. The invariants of the machine (R18..R21, R24, R25, R30) are kept by every step. -/

namespace Sys2Proof.Machine

/-- Every write of a memory is MemWrite, which keeps the canonical form (R18..R20). -/
theorem memInv_invariant : Invariant MemInv := by
  have ends {room fs s t} (h : Ends room fs s t) : MemInv s → MemInv t
    | ⟨inMem, outMem, litlen, dist, codeLen⟩ => by
      have hf := h.frame
      exact ⟨hf.inMem ▸ inMem, h.outMem_wf outMem, hf.litlenLen ▸ litlen, hf.distLen ▸ dist,
        hf.metaLenMem ▸ codeLen⟩
  constructor
  case turn => exact fun h => ends (engineTurn_ends h)
  case primitive => exact fun _ h => ends h
  case command =>
    rintro c s t h ⟨inMem, outMem, litlen, dist, codeLen⟩
    cases h with
    | softReset => exact ⟨rfl, rfl, rfl, rfl, rfl⟩
    | ignored hb => exact ⟨inMem, outMem, litlen, dist, codeLen⟩
    | setMode m l hb => exact ⟨inMem, outMem, litlen, dist, codeLen⟩
    | startDecode l hb hl hw => exact ⟨inMem, outMem, litlen, dist, codeLen⟩
    | startEncode l hb => exact ⟨inMem, outMem, litlen, dist, codeLen⟩
  case input =>
    rintro s t - h ⟨inMem, outMem, litlen, dist, codeLen⟩
    cases h with
    | inLen v => exact ⟨inMem, outMem, litlen, dist, codeLen⟩
    | inMem a b => exact ⟨memWrite_wf _ _ _ inMem, outMem, litlen, dist, codeLen⟩
    | tree t i v =>
      cases t with
      | codeLen => exact ⟨inMem, outMem, litlen, dist, memWrite_wf _ _ _ codeLen⟩
      | litLen => exact ⟨inMem, outMem, memWrite_wf _ _ _ litlen, dist, codeLen⟩
      | dist => exact ⟨inMem, outMem, litlen, memWrite_wf _ _ _ dist, codeLen⟩
    | tokenIn ws => exact ⟨inMem, outMem, litlen, dist, codeLen⟩
  case aside =>
    rintro s t h ⟨inMem, outMem, litlen, dist, codeLen⟩
    cases h
    exact ⟨inMem, outMem, litlen, dist, codeLen⟩

end Sys2Proof.Machine
open Sys2Proof Sys2Proof.Machine

/-- Settles O15: the canonical form is an invariant of the machine. -/
theorem everyStepKeepsMemoriesCanonical : Obligations.EveryStepKeepsMemoriesCanonical := by
  unfold Obligations.EveryStepKeepsMemoriesCanonical
  exact memInv_invariant.step
end

section
/-! PROOF. The packer, the token queue and the bit cursor of a decode job keep their invariants in every step
(R21, R24, R30, R43, R113, R134). -/

namespace Sys2Proof.Machine

/-- The packer holds less than a word between two operations, unless the job has failed (R30, R113). -/
theorem packerInv_invariant : Invariant PackerInv := by
  have start {s t : State} (h : t.pk = Packer.zero) : PackerInv s → PackerInv t := fun _ _ =>
    ⟨by have := packBits_cases t; simp [h, Packer.zero]; omega, by simp [h, Packer.zero]⟩
  constructor
  case turn =>
    intro s t h hs ht
    obtain ⟨he, -⟩ | ⟨hf, -, -, hp⟩ := (engineTurn_ends h).failed_or_done
    · exact absurd he ht
    · refine hp (hs fun he => ht ?_)
      rw [he] at hf
      exact List.mem_singleton.1 hf
  case primitive =>
    rintro s t - h hs ht
    obtain ⟨he, -⟩ | ⟨hf, -, -, hp⟩ := h.failed_or_done
    · exact absurd he ht
    · exact hp (hs (List.mem_singleton.1 hf ▸ ht))
  case command =>
    intro c s t h hs
    cases h with
    | softReset => exact start rfl hs
    | startDecode l hb hl hw => exact start rfl hs
    | startEncode l hb => exact start rfl hs
    | ignored hb => exact hs
    | setMode m l hb => exact fun he => (hs he).congr rfl rfl
  case input =>
    rintro s t - h hs he
    obtain ⟨cfg, state, -, -, pk, -⟩ := h.same
    exact (hs (state ▸ he)).congr cfg pk
  case aside =>
    rintro s t ⟨hq⟩ hs he
    exact (hs he).congr rfl rfl

/-- The queue never holds more words than it has places (R21, R134). -/
theorem queueInv_invariant : Invariant QueueInv := by
  have ends {fs s t} (h : Ends (· ≤ s.cfg.tokenOutDepth) fs s t) (hs : QueueInv s) : QueueInv t := by
    rw [QueueInv, h.frame.cfg]
    exact h.length_or_room.elim (fun he => he ▸ hs) id
  constructor
  case turn => exact fun h => ends (engineTurn_ends h)
  case primitive => exact fun _ h => ends h
  case command =>
    intro c s t h hs
    cases h with
    | softReset => exact Nat.zero_le _
    | startDecode l hb hl hw => exact Nat.zero_le _
    | startEncode l hb => exact Nat.zero_le _
    | ignored hb => exact hs
    | setMode m l hb => exact hs
  case input =>
    rintro s t - h hs
    obtain ⟨cfg, -, -, -, -, tokenOut⟩ := h.same
    rw [QueueInv, cfg, tokenOut]
    exact hs
  case aside =>
    rintro s t ⟨hq⟩ hs
    exact hq.trans hs

/-! ## The decoder's invariant (R24, R43) -/

/-- An encode START leads to E_BUILD or, for an empty input, to E_FINALIZE (R97). -/
theorem startEncoder_state (s : State) :
    (startEncoder s).state = .eFinalize ∨ (startEncoder s).state = .eBuild := by
  rw [startEncoder]
  split
  · exact .inl rfl
  · exact .inr rfl

/-- A decode state follows a decode state or D_HEADER only, and nothing leads back to D_HEADER (R9). -/
theorem decoding_of_mem_successors (f g : Fsm) (h : g ∈ successors f) :
    g ≠ .dHeader ∧ (decoding g = true → f = .dHeader ∨ decoding f = true) := by
  revert g
  cases f <;> decide

/-- A state outside a decode job meets the decoder's invariant. -/
theorem decoderInv_of_outside {t : State} (hc : t.cfg.wf = true) (hh : t.state ≠ .dHeader)
    (hd : decoding t.state = false) : DecoderInv t :=
  ⟨hc, fun h => by simp [hh, hd] at h, fun h => by simp [hd] at h⟩

theorem not_decoding_of_terminal (f : Fsm) (h : terminal f = true) : f ≠ .dHeader ∧ decoding f = false := by
  revert h
  cases f <;> decide

/-- No decode job runs in a terminal state (R8). -/
theorem decoderInv_of_waiting {t : State} (hc : t.cfg.wf = true) (hb : busy t = false) : DecoderInv t := by
  obtain ⟨hh, hd⟩ := not_decoding_of_terminal t.state (by simpa [busy] using hb)
  exact decoderInv_of_outside hc hh hd

theorem inMemBytes_le_of_wf {c : Config} (h : c.wf = true) : c.inMemBytes ≤ 2 ^ 28 := by
  simp only [Config.wf, Bool.and_eq_true, decide_eq_true_eq] at h
  omega

/-- The engine keeps the decoder's invariant: D_HEADER starts the cursor, and every later step of the job
keeps it (R79, R24). -/
theorem engineTurn_decoderInv {s t : State} (h : engineTurn s = .next t) (hs : DecoderInv s) :
    DecoderInv t := by
  obtain ⟨config, input, cursor⟩ := hs
  have hf := (engineTurn_ends h).frame
  obtain ⟨he, -⟩ | ⟨hsucc, -, hcursor, -⟩ := (engineTurn_ends h).failed_or_done
  · exact decoderInv_of_outside (hf.cfg ▸ config) (by simp [he]) (by simp [he, decoding])
  · obtain ⟨hh, hfrom⟩ := decoding_of_mem_successors _ _ hsucc
    refine ⟨hf.cfg ▸ config, fun hd => ?_, fun hd => ?_⟩
    · obtain ⟨hl, hw⟩ := input (hfrom (hd.resolve_left hh))
      rw [InputWritten, hf.inLen, hf.cfg, hf.inMem]
      exact ⟨hl, hw⟩
    · obtain hstart | hrun := hfrom hd
      · have hfetch : fetchInstr s.state = some .dHeader := by rw [hstart]; rfl
        rw [engineTurn_of_fetch s _ hfetch] at h
        cases h
        exact cursorOk_of_start rfl ((input (.inl hstart)).1.trans (inMemBytes_le_of_wf config))
      · exact hcursor (cursor hrun)

/-- After D_HEADER a decode job keeps R24's invariant, and its input stays (R24, R43, R47). -/
theorem decoderInv_invariant : Invariant DecoderInv := by
  constructor
  case turn => exact engineTurn_decoderInv
  case primitive =>
    intro s t hp h hs
    have hc : t.cfg.wf = true := h.frame.cfg ▸ hs.config
    obtain ⟨he, -⟩ | ⟨hf, -⟩ := h.failed_or_done
    · exact decoderInv_of_waiting hc (by simp [busy, he, terminal])
    · refine decoderInv_of_waiting hc ?_
      simp only [takesPrimitives, Bool.and_eq_true, Bool.not_eq_true'] at hp
      rw [busy, List.mem_singleton.1 hf]
      exact hp.1
  case command =>
    intro c s t h hs
    have hc := hs.config
    cases h with
    | ignored hb => exact hs
    | softReset => exact decoderInv_of_waiting hc rfl
    | setMode m l hb => exact decoderInv_of_waiting hc hb
    | startDecode l hb hl hw => exact ⟨hc, fun _ => ⟨hl, hw⟩, fun h => by cases h⟩
    | startEncode l hb =>
      obtain he | he := startEncoder_state (startJob (setCtrl true l s))
      all_goals exact decoderInv_of_outside hc (by simp [he]) (by rw [he]; rfl)
  case input =>
    intro s t hb h hs
    obtain ⟨cfg, state, -⟩ := h.same
    exact decoderInv_of_waiting (cfg ▸ hs.config) (by rwa [busy, state])
  case aside =>
    rintro s t ⟨hq⟩ ⟨config, input, cursor⟩
    exact ⟨config, input, fun hd => (cursor hd).congr (input (.inr hd)).2 rfl rfl rfl⟩

end Sys2Proof.Machine
open Sys2Proof Sys2Proof.Machine

/-- Settles O17: R24's invariant of a decode job is an invariant of the machine. -/
theorem everyStepKeepsTheCursorInvariant : Obligations.EveryStepKeepsTheCursorInvariant := by
  unfold Obligations.EveryStepKeepsTheCursorInvariant
  exact decoderInv_invariant.step

/-- Settles O18: the packer's bound is an invariant of the machine. -/
theorem everyStepKeepsThePackerInvariant : Obligations.EveryStepKeepsThePackerInvariant := by
  unfold Obligations.EveryStepKeepsThePackerInvariant
  exact packerInv_invariant.step

/-- Settles O19: the queue's bound is an invariant of the machine. -/
theorem everyStepKeepsTheQueueBounded : Obligations.EveryStepKeepsTheQueueBounded := by
  unfold Obligations.EveryStepKeepsTheQueueBounded
  exact queueInv_invariant.step
end

section
/-! PROOF. The parser's counts and indexes stay in their ranges (R25, R83..R87). -/

namespace Sys2Proof.Machine

/-! ## The states that read a dynamic header -/

/-- The states in which R25 gives the counts their ranges. -/
def readsDynamicHeader (f : Fsm) : Prop :=
  f = .dDynMetalen ∨ f = .dDynMetabuild ∨ f = .dDynCodelen ∨ f = .dDynTablebuild

/-- The ranges of the three counts (R25, R83). -/
structure CountsOk (p : Parser) : Prop where
  hlit  : 257 ≤ p.hlit.toNat ∧ p.hlit.toNat ≤ 288
  hdist : 1 ≤ p.hdist.toNat ∧ p.hdist.toNat ≤ 32
  hclen : 4 ≤ p.hclen.toNat ∧ p.hclen.toNat ≤ 19

/-- What the parser's invariant says beside the sizes of its arrays. -/
structure ParserRanges (s : State) : Prop where
  counts : readsDynamicHeader s.state → CountsOk s.par
  mi     : s.state = .dDynMetalen → s.par.mi.toNat < s.par.hclen.toNat
  ci     : s.state = .dDynCodelen → s.par.ci.toNat < declaredLens s

theorem parserInv_iff (s : State) : ParserInv s ↔
    s.par.metaLen.length = 19 ∧ s.par.cl.length = 320 ∧ ParserRanges s := by
  constructor
  · rintro ⟨metaLen, cl, counts, mi, ci⟩
    refine ⟨metaLen, cl, fun h => ?_, mi, ci⟩
    obtain ⟨h1, h2, h3, h4, h5, h6⟩ := counts h
    exact ⟨⟨h1, h2⟩, ⟨h3, h4⟩, ⟨h5, h6⟩⟩
  · rintro ⟨metaLen, cl, counts, mi, ci⟩
    refine ⟨metaLen, cl, fun h => ?_, mi, ci⟩
    obtain ⟨⟨h1, h2⟩, ⟨h3, h4⟩, ⟨h5, h6⟩⟩ := counts h
    exact ⟨h1, h2, h3, h4, h5, h6⟩

section
variable {s t : State}

/-- Outside these states there is nothing to keep. -/
theorem parserRanges_of_outside (h : ¬readsDynamicHeader t.state) : ParserRanges t :=
  ⟨fun hd => absurd hd h, fun hd => absurd (.inl hd) h, fun hd => absurd (.inr (.inr (.inl hd))) h⟩

theorem parserRanges_of_error (h : t.state = .error) : ParserRanges t :=
  parserRanges_of_outside (by simp [readsDynamicHeader, h])

/-- The ranges speak of the parser and `state` only. -/
theorem ParserRanges.congr (h : ParserRanges s) (hp : t.par = s.par) (hs : t.state = s.state) :
    ParserRanges t := by
  obtain ⟨counts, mi, ci⟩ := h
  constructor <;> simp only [hp, hs, declaredLens] <;> assumption

variable {β : Type}

/-- A field read either fails, which stops the engine, or leaves all but the cursor. -/
theorem readBits_ranges (n : Nat) {f : Nat → State → Res β}
    (hf : ∀ v c, v < 2 ^ n → ParserRanges (f v (withCur c s)).state) :
    ParserRanges ((readBits n s).bind f).state := by
  obtain ⟨-, c, hr⟩ | ⟨-, hr⟩ := readBits_cases s n <;> rw [hr]
  · exact hf _ c (fieldAt_lt s _ n)
  · exact parserRanges_of_error rfl

theorem decodeSym_ranges (sel : Sel) {f : Entry → State → Res β}
    (hf : ∀ e c, ParserRanges (f e (withCur c s)).state) :
    ParserRanges ((decodeSym sel s).bind f).state := by
  obtain ⟨-, c, hr⟩ | ⟨-, c, -, -, hr⟩ := decodeSym_cases sel s <;> rw [hr]
  · exact hf _ c
  · exact parserRanges_of_error rfl

/-! ## The four steps that lead to one of them -/

/-- D_DYN_COUNTS sets the counts inside their ranges, and `mi` to 0 (R83). -/
theorem dDynCountsStep_ranges (s : State) : ParserRanges (dDynCountsStep s).state := by
  refine readBits_ranges 5 fun hlit c hl => readBits_ranges 5 fun hdist c hd =>
    readBits_ranges 4 fun hclen c hh => ?_
  have hl' : (BitVec.ofNat 9 (hlit + 257)).toNat = hlit + 257 := by
    rw [BitVec.toNat_ofNat]; exact Nat.mod_eq_of_lt (by omega)
  have hd' : (BitVec.ofNat 6 (hdist + 1)).toNat = hdist + 1 := by
    rw [BitVec.toNat_ofNat]; exact Nat.mod_eq_of_lt (by omega)
  have hh' : (BitVec.ofNat 5 (hclen + 4)).toNat = hclen + 4 := by
    rw [BitVec.toNat_ofNat]; exact Nat.mod_eq_of_lt (by omega)
  refine ⟨fun _ => ⟨?_, ?_, ?_⟩, fun _ => ?_, nofun⟩ <;>
    simp only [Res.state_ok, withCur_par, hl', hd', hh']
  case refine_4 => exact Nat.lt_add_left hclen (by decide)
  all_goals omega

/-- D_DYN_METALEN moves `mi` on, and leaves when it reaches `hclen` (R84). -/
theorem dDynMetalenStep_ranges (hs : s.state = .dDynMetalen) (h : ParserRanges s) :
    ParserRanges (dDynMetalenStep s).state := by
  have counts := h.counts (.inl hs)
  have mi := h.mi hs
  refine readBits_ranges 3 fun v c _ => ?_
  have hclen := counts.hclen
  have next : (s.par.mi + 1).toNat = s.par.mi.toNat + 1 := by
    rw [BitVec.toNat_add]; exact Nat.mod_eq_of_lt (by simp; omega)
  rw [Res.state_ok]
  split_ifs with hlast
  · exact ⟨fun _ => ⟨counts.hlit, counts.hdist, counts.hclen⟩, nofun, nofun⟩
  · refine ⟨fun _ => ⟨counts.hlit, counts.hdist, counts.hclen⟩, fun _ => ?_, fun hc => ?_⟩
    · have hne : s.par.mi.toNat + 1 ≠ s.par.hclen.toNat := fun he =>
        hlast (BitVec.eq_of_toNat_eq (next.trans he))
      change (s.par.mi + 1).toNat < s.par.hclen.toNat
      omega
    · exact absurd (hs.symm.trans hc) (by decide)

/-- D_DYN_METABUILD starts `ci` at 0 (R85). -/
theorem dDynMetabuildStep_ranges (hs : s.state = .dDynMetabuild) (h : ParserRanges s) :
    ParserRanges (dDynMetabuildStep s).state := by
  have counts := h.counts (.inr (.inl hs))
  have hlit := counts.hlit
  unfold dDynMetabuildStep
  obtain ⟨-, hb⟩ | ⟨e, hb⟩ := build_cases .codeLen (metaArray s) s <;> rw [hb]
  · refine ⟨fun _ => ⟨counts.hlit, counts.hdist, counts.hclen⟩, nofun, fun _ => ?_⟩
    change 0 < s.par.hlit.toNat + s.par.hdist.toNat
    omega
  · exact parserRanges_of_error rfl

/-- Lengths appended up to the declared number (R86). -/
theorem codelenDone_appendLens_ranges (v : BitVec 4) (n : Nat) (hs : s.state = .dDynCodelen)
    (h : ParserRanges s) (hn : s.par.ci.toNat + n ≤ declaredLens s) :
    ParserRanges (codelenDone (appendLens v n s)) := by
  have counts := h.counts (.inr (.inr (.inl hs)))
  have hlit := counts.hlit
  have hdist := counts.hdist
  have after : (appendLens v n s).par.ci.toNat = s.par.ci.toNat + n :=
    appendLens_ci v n s (by simp only [declaredLens] at hn; omega)
  unfold codelenDone
  split_ifs with hlast
  · exact ⟨fun _ => ⟨counts.hlit, counts.hdist, counts.hclen⟩, nofun, nofun⟩
  · refine ⟨fun _ => ⟨counts.hlit, counts.hdist, counts.hclen⟩,
      fun hm => absurd (hs.symm.trans hm) (by decide), fun _ => ?_⟩
    change ¬_ = declaredLens s at hlast
    change _ < declaredLens s
    omega

theorem repeatLens_ranges (v : BitVec 4) (r : Nat) (hs : s.state = .dDynCodelen) (h : ParserRanges s) :
    ParserRanges (repeatLens v r s).state := by
  obtain ⟨hn, hr⟩ | ⟨-, hr⟩ := repeatLens_cases v r s <;> rw [hr]
  · exact codelenDone_appendLens_ranges v r hs h hn
  · exact parserRanges_of_error rfl

/-- D_DYN_CODELEN appends lengths, and leaves when all are there (R86). -/
theorem dDynCodelenStep_ranges (hs : s.state = .dDynCodelen) (h : ParserRanges s) :
    ParserRanges (dDynCodelenStep s).state := by
  refine decodeSym_ranges _ fun e c => ?_
  have moved (c : Cursor) : ParserRanges (withCur c s) := h.congr rfl rfl
  unfold expandSymbol
  split_ifs
  · exact codelenDone_appendLens_ranges _ 1 hs (moved c) (h.ci hs)
  · exact parserRanges_of_error rfl
  · exact readBits_ranges 2 fun x c _ => repeatLens_ranges _ _ hs (moved c)
  · exact readBits_ranges 3 fun x c _ => repeatLens_ranges _ _ hs (moved c)
  · exact readBits_ranges 7 fun x c _ => repeatLens_ranges _ _ hs (moved c)
  · exact repeatLens_ranges _ _ hs (moved c)

/-! ## Every step -/

theorem parserRanges_of_out {r : Res Unit} (h : r.out = .next t) (hr : ParserRanges r.state) :
    ParserRanges t :=
  Host.Outcome.next.inj h ▸ hr

/-- Every other step leads out of the states that read a dynamic header (R9). -/
theorem not_readsDynamicHeader_of_mem_successors (f g : Fsm) (h : g ∈ successors f)
    (hf : f ≠ .dDynCounts ∧ f ≠ .dDynMetalen ∧ f ≠ .dDynMetabuild ∧ f ≠ .dDynCodelen) :
    ¬readsDynamicHeader g := by
  unfold readsDynamicHeader
  revert g
  cases f <;> revert hf <;> decide

theorem engineTurn_ranges (h : engineTurn s = .next t) (hr : ParserRanges s) : ParserRanges t := by
  by_cases hc : s.state = .dDynCounts
  · rw [engineTurn_of_fetch s .dDynCounts (by rw [hc]; rfl)] at h
    exact parserRanges_of_out h (dDynCountsStep_ranges s)
  by_cases hm : s.state = .dDynMetalen
  · rw [engineTurn_of_fetch s .dDynMetalen (by rw [hm]; rfl)] at h
    exact parserRanges_of_out h (dDynMetalenStep_ranges hm hr)
  by_cases hb : s.state = .dDynMetabuild
  · rw [engineTurn_of_fetch s .dDynMetabuild (by rw [hb]; rfl)] at h
    exact parserRanges_of_out h (dDynMetabuildStep_ranges hb hr)
  by_cases hl : s.state = .dDynCodelen
  · rw [engineTurn_of_fetch s .dDynCodelen (by rw [hl]; rfl)] at h
    exact parserRanges_of_out h (dDynCodelenStep_ranges hl hr)
  obtain ⟨he, -⟩ | ⟨hsucc, -⟩ := (engineTurn_ends h).failed_or_done
  · exact parserRanges_of_error he
  · exact parserRanges_of_outside (not_readsDynamicHeader_of_mem_successors _ _ hsucc ⟨hc, hm, hb, hl⟩)

/-- A terminal state reads no header (R8). -/
theorem not_readsDynamicHeader_of_waiting (hb : busy t = false) : ¬readsDynamicHeader t.state := by
  rintro (h | h | h | h) <;> simp [busy, h, terminal] at hb

end

theorem parserInv_invariant : Invariant ParserInv := by
  have sizes {room fs s t} (h : Ends room fs s t) (hs : ParserInv s) (hr : ParserRanges t) : ParserInv t :=
    (parserInv_iff t).2 ⟨h.metaLen_length hs.metaLen, h.cl_length hs.cl, hr⟩
  have waiting {s t : State} (hs : ParserInv s) (hp : t.par = s.par) (hd : ¬readsDynamicHeader t.state) :
      ParserInv t := (parserInv_iff t).2 ⟨hp ▸ hs.metaLen, hp ▸ hs.cl, parserRanges_of_outside hd⟩
  constructor
  case turn =>
    intro s t h hs
    obtain ⟨-, -, ranges⟩ := (parserInv_iff s).1 hs
    exact sizes (engineTurn_ends h) hs (engineTurn_ranges h ranges)
  case primitive =>
    intro s t hp h hs
    refine sizes h hs ?_
    obtain ⟨he, -⟩ | ⟨hf, -⟩ := h.failed_or_done
    · exact parserRanges_of_error he
    · refine parserRanges_of_outside ?_
      rw [List.mem_singleton.1 hf]
      simp only [takesPrimitives, Bool.and_eq_true, Bool.not_eq_true'] at hp
      exact not_readsDynamicHeader_of_waiting hp.1
  case command =>
    intro c s t h hs
    cases h with
    | ignored hb => exact hs
    | softReset =>
      exact (parserInv_iff _).2 ⟨List.length_replicate, List.length_replicate,
        parserRanges_of_outside (not_readsDynamicHeader_of_waiting rfl)⟩
    | setMode m l hb => exact waiting hs rfl (not_readsDynamicHeader_of_waiting hb)
    | startDecode l hb hl hw => exact waiting hs rfl (by simp [readsDynamicHeader])
    | startEncode l hb =>
      refine waiting hs rfl ?_
      obtain he | he := startEncoder_state (startJob (setCtrl true l s)) <;> simp [readsDynamicHeader, he]
  case input =>
    intro s t hb h hs
    obtain ⟨-, state, -, par, -⟩ := h.same
    exact waiting hs par (state ▸ not_readsDynamicHeader_of_waiting hb)
  case aside =>
    rintro s t ⟨hq⟩ ⟨metaLen, cl, counts, mi, ci⟩
    exact ⟨metaLen, cl, counts, mi, ci⟩

end Sys2Proof.Machine
open Sys2Proof Sys2Proof.Machine

/-- Settles O20: the parser's ranges are an invariant of the machine. -/
theorem everyStepKeepsTheParserRanges : Obligations.EveryStepKeepsTheParserRanges := by
  unfold Obligations.EveryStepKeepsTheParserRanges
  exact parserInv_invariant.step
end

section
/-! PROOF. The error registers (R31, R117, R123, R132), reset (R130), the commands (R10, R97, R132), terminal
states (R8) and the taking of a token (R104). -/

namespace Sys2Proof.Machine

section
variable {s t : State}

theorem not_error_of_busy (hb : busy s = true) : s.state ≠ .error := by
  intro h
  simp [busy, h, terminal] at hb

/-- The engine writes the error registers only by stopping a job in ERROR (R117). -/
theorem engineTurn_err (h : engineTurn s = .next t) (hne : t.err ≠ s.err) :
    busy s = true ∧ t.state = .error := by
  cases hb : busy s with
  | false =>
    rw [engineTurn_of_terminal s (by simpa [busy] using hb)] at h
    cases h
    exact absurd rfl hne
  | true =>
    obtain ⟨he, -⟩ | ⟨-, he, -⟩ := (engineTurn_ends h).failed_or_done
    · exact ⟨rfl, he⟩
    · exact absurd he hne

/-- A CTRL write that changes the error registers clears them: SOFT_RESET, or START with no job running
(R131, R132). -/
theorem command_err {w : Word} (h : exec (decodeCtrl w) s = .next t) (hne : t.err ≠ s.err) :
    t.err = ⟨.none, 0, 0⟩ ∧ t.state ≠ .error ∧
      (w.getLsbD 3 = true ∨ (w.getLsbD 0 = true ∧ busy s = false)) := by
  have moves := command_moves h
  obtain ⟨hw, hc⟩ | ⟨hw, hc | hc⟩ | hc := decodeCtrl_cases w <;> rw [hc] at moves <;> cases moves
  case inl.softReset => exact ⟨rfl, nofun, .inl hw⟩
  case inr.inl.inl.startDecode hb hl hi => exact ⟨rfl, nofun, .inr ⟨hw, hb⟩⟩
  case inr.inl.inr.startEncode hb =>
    refine ⟨rfl, ?_, .inr ⟨hw, hb⟩⟩
    obtain he | he := startEncoder_state (startJob (setCtrl true (w.getLsbD 2) s)) <;> rw [he] <;> decide
  all_goals exact absurd rfl hne

end

/-! ## Token words (R53, R104) -/

theorem matchInRange_iff (l : BitVec 9) (d : BitVec 16) : matchInRange l d = true ↔
    3 ≤ l.toNat ∧ l.toNat ≤ 258 ∧ 1 ≤ d.toNat ∧ d.toNat ≤ 32768 := by
  simp [matchInRange, and_assoc]

/-- The word of a match, as R53 puts its fields together. -/
theorem matchWord_eq (l : BitVec 9) (d : BitVec 16) :
    matchWord l d = 0x80000000#32 ||| (l.setWidth 32 <<< 16) ||| d.setWidth 32 := by
  refine BitVec.eq_of_getLsbD_eq fun i hi => ?_
  simp only [matchWord, BitVec.getLsbD_append, BitVec.getLsbD_or, BitVec.getLsbD_shiftLeft,
    BitVec.getLsbD_setWidth]
  interval_cases i <;> simp

end Sys2Proof.Machine

open Sys2Proof Sys2Proof.Machine

/-- Settles O24: of a step's moves only the engine's turn, a primitive and a command can write the error
registers. -/
theorem errorRegistersChangeOnlyByRaiseOrStart : Obligations.ErrorRegistersChangeOnlyByRaiseOrStart := by
  unfold Obligations.ErrorRegistersChangeOnlyByRaiseOrStart
  intro s t h hne
  obtain ⟨-, -, rfl⟩ | ⟨-, hb, u, hu, rfl⟩ | ⟨e, rest, u, hh, hu, rfl⟩ := step_cases s t h
  · exact absurd rfl hne
  · exact .inl ⟨not_error_of_busy hb, (engineTurn_err hu hne).2, .inl hb⟩
  · cases hostTurn_moves hu with
    | turn hv he hx =>
      cases hv
      obtain ⟨hb, herr⟩ := engineTurn_err hx hne
      exact .inl ⟨not_error_of_busy (s := s) hb, herr, .inl hb⟩
    | primitive hv hp hx =>
      cases hv
      obtain ⟨he, -⟩ | ⟨-, he, -⟩ := hx.failed_or_done
      · simp only [takesPrimitives, failed, Bool.and_eq_true, Bool.not_eq_true', beq_eq_false_iff_ne] at hp
        exact .inl ⟨hp.2, he, .inr ⟨_, _, rest, hh⟩⟩
      · exact absurd he hne
    | command hx =>
      obtain ⟨herr, hstate, hw⟩ := command_err hx hne
      exact .inr ⟨herr, hstate, _, rest, hh, hw⟩
    | input hb hx =>
      obtain ⟨-, -, err, -⟩ := hx.same
      exact absurd err hne
    | aside hx =>
      cases hx
      exact absurd rfl hne

/-- Settles O21: each invariant at its reset values. -/
theorem invariantsHoldAtReset : Obligations.InvariantsHoldAtReset := by
  unfold Obligations.InvariantsHoldAtReset
  intro c hc
  obtain ⟨inMem, outMem, litlen, dist, codeLen⟩ := resetWith_memories_wf c
  have hbits := packBits_cases (State.resetWith c)
  exact ⟨decoderInv_of_waiting hc rfl,
    fun _ => ⟨by change 0 < _; omega, by change 0 < 2 ^ 0; decide⟩,
    Nat.zero_le _,
    ⟨inMem, outMem, litlen, dist, codeLen⟩,
    (parserInv_iff _).2 ⟨List.length_replicate, List.length_replicate,
      parserRanges_of_outside (not_readsDynamicHeader_of_waiting rfl)⟩⟩

/-- Settles O4: the decoder asks for bit 3, then bit 0, then bit 1. -/
theorem ctrlValuesAreTheFourCommands : Obligations.CtrlValuesAreTheFourCommands := by
  unfold Obligations.CtrlValuesAreTheFourCommands
  refine ⟨fun w => ⟨fun h3 => ?_, fun h3 h0 h1 => ?_, fun h3 h0 h1 => ?_, fun h3 h0 => ?_⟩, rfl, rfl, rfl, rfl⟩
  · rw [decodeCtrl, if_pos h3]
  · simp only [decodeCtrl, h3, h0, h1, if_true, if_false, Bool.false_eq_true]
  · simp only [decodeCtrl, h3, h0, h1, if_true, if_false, Bool.false_eq_true]
  · simp only [decodeCtrl, h3, h0, if_false, Bool.false_eq_true]

/-- Settles O8: a terminal state names no step, and with nothing pending a step waits. -/
theorem terminalStatesTakeNoStep : Obligations.TerminalStatesTakeNoStep := by
  unfold Obligations.TerminalStatesTakeNoStep
  intro s h
  have ht : terminal s.state = true := by
    obtain h | h | h | h := h <;> rw [h] <;> rfl
  exact ⟨engineTurn_of_terminal s ht, fun hh => step_of_waiting s hh (by simp [busy, ht])⟩

/-- Settles O12: SET_MODE looks at BUSY only. -/
theorem setModeWritesModeAndIsLast : Obligations.SetModeWritesModeAndIsLast := by
  unfold Obligations.SetModeWritesModeAndIsLast
  intro s m l
  constructor <;> intro h <;> simp [exec, execSetMode, busy, h, setCtrl]

/-- Settles O11: START looks at BUSY, a decode START then at IN_LEN and the input, and START writes the
registers R132 and R97 list. -/
theorem startFollowsItsRule : Obligations.StartFollowsItsRule := by
  unfold Obligations.StartFollowsItsRule
  intro s last
  refine ⟨fun h => ?_, fun h => ⟨fun hl => ?_, fun hl a ha hn hw => ?_, fun hl hw => ?_, ?_⟩⟩
  · have hb : busy s = true := by simp [busy, h]
    simp [exec, execStartDecode, execStartEncode, hb]
  all_goals have hb : busy s = false := by simp [busy, h]
  · simp [exec, execStartDecode, hb, hl]
  · have first : firstUnwritten s.inMem 0 s.inLen.toNat = some a :=
      (firstUnwritten_eq_some _ _ _ _).2 ⟨Nat.zero_le a, by omega, hn, fun b _ => hw b⟩
    simp [exec, execStartDecode, hb, Nat.not_lt.2 hl, first]
  · have all : firstUnwritten s.inMem 0 s.inLen.toNat = none :=
      (firstUnwritten_eq_none _ _ _).2 fun b _ h => hw b (by omega)
    refine ⟨setState .dHeader (startJob (setCtrl false last s)), ?_, rfl⟩
    simp [exec, execStartDecode, hb, Nat.not_lt.2 hl, all]
  · refine ⟨startEncoder (startJob (setCtrl true last s)), ?_, rfl⟩
    simp [exec, execStartEncode, hb]

/-- Settles O59: each token form at its own instruction, and E_WRITE_TOKEN as the word at `tin` says. -/
theorem writeTokenTakesTheToken : Obligations.WriteTokenTakesTheToken := by
  unfold Obligations.WriteTokenTakesTheToken
  intro s
  refine ⟨fun h => ?missing, fun b => rfl, fun l d => ⟨fun h => ?inRange, fun h => ?outOfRange⟩, rfl,
    fun w hw => ⟨fun i hi => exec_eWriteToken_of_token s w i hw hi, fun r hr => ?noForm⟩⟩
  case missing => simp only [exec, execEWriteToken, h]
  case inRange =>
    rw [← matchWord_eq]
    simp only [exec, execTokenMatch, takeMatch, (matchInRange_iff l d).2 h, if_true]
    rfl
  case outOfRange =>
    rw [← matchWord_eq]
    have hr : matchInRange l d = false := by
      rw [← Bool.not_eq_true, matchInRange_iff]
      exact h
    simp only [exec, execTokenMatch, takeMatch, hr, Bool.false_eq_true, if_false]
    rfl
  case noForm =>
    simp only [exec, execEWriteToken, hw, takeWord, hr]
    rfl
end

section
/-! PROOF. What the host reads and writes through its port (R10..R23, R35, R46, R47, R64). -/

namespace Sys2Proof.Machine

/-! ## The register block (R10..R17) -/

section
variable {s : State} {off : Nat}

theorem regOffset_regBase_add (c : Config) (h : off ≤ 0xFFF) : regOffset c (c.regBase + off) = some off := by
  unfold regOffset
  rw [if_pos (by omega)]
  simp

/-- A word read inside the register block (R17). -/
theorem hostRegRead_of_offset (ho : off ≤ 0xFFF) (ha : 0x20 ≤ off ∨ off % 4 = 0) :
    hostRegRead (s.cfg.regBase + off) s = .next (answer (readReg off s) (noteStatusRead off s)) := by
  simp only [hostRegRead, regOffset_regBase_add s.cfg ho]
  rw [if_neg (by omega)]

/-- A read of any register but STATUS changes nothing but the host's data (R46). -/
theorem hostRegRead_of_not_status (ho : off ≤ 0xFFF) (ha : 0x20 ≤ off ∨ off % 4 = 0) (hs : off ≠ 0x04) :
    hostRegRead (s.cfg.regBase + off) s = .next { s with hostData := some (readReg off s) } := by
  rw [hostRegRead_of_offset ho ha, noteStatusRead, if_neg (fun h => hs h.1)]
  rfl

/-- A read of STATUS is a poll (R46, R64). -/
theorem hostRegRead_status : hostRegRead (s.cfg.regBase + 0x04) s = .next (pollStatus s) :=
  hostRegRead_of_offset (by decide) (by decide)

/-- Offsets from 0x20 on read 0 (R17). -/
theorem readReg_of_ge (h : 0x20 ≤ off) : readReg off s = 0#32 := by
  unfold readReg
  iterate 8 rw [if_neg (by omega)]

theorem hostRegWrite_of_offset (v : Word) (ho : off ≤ 0xFFF) :
    hostRegWrite (s.cfg.regBase + off) v s = writeReg off v s := by
  simp only [hostRegWrite, regOffset_regBase_add s.cfg ho]

/-- A poll with no job running (R11, R46). -/
theorem pollStatus_of_waiting (hb : busy s = false) : pollStatus s = { s with
    hostData := some (statusWord s), synced := s.synced || decide (s.state ≠ .idle) } := by
  have hend : (done s || failed s) = decide (s.state ≠ .idle) := by
    revert hb
    unfold busy done failed
    cases s.state <;> decide
  rw [pollStatus_eq, Bool.or_assoc, hend, readStatus, hb]
  rfl

/-- A poll while a job runs changes nothing but the host's data (R46, R127). -/
theorem pollStatus_of_busy (hb : busy s = true) :
    pollStatus s = { s with hostData := some (readStatus s) } := by
  have hend : (done s || failed s) = false := by
    revert hb
    unfold busy done failed
    cases s.state <;> decide
  rw [pollStatus_eq, Bool.or_assoc, hend, Bool.or_false]

end

/-! ## STATUS and CTRL, field by field (R10, R11) -/

/-- The bits of a STATUS word (R11). -/
theorem statusOf_getLsbD (fsm : BitVec 5) (code : BitVec 4) (e d b : Bool) (i : Nat) (h : i < 32) :
    (statusOf fsm code e d b).getLsbD i =
      if i = 0 then b else if i = 1 then d else if i = 2 then e else if i < 8 then false
      else if i < 12 then code.getLsbD (i - 8) else if i < 16 then false
      else fsm.getLsbD (i - 16) := by
  simp only [statusOf, BitVec.getLsbD_append, BitVec.getLsbD_ofBool, BitVec.getLsbD_zero]
  interval_cases i <;> simp

/-- The fields of a STATUS word of several bits (R11). -/
theorem statusOf_fields (fsm : BitVec 5) (code : BitVec 4) (e d b : Bool) :
    (statusOf fsm code e d b).extractLsb' 3 5 = 0#5 ∧
    (statusOf fsm code e d b).extractLsb' 8 4 = code ∧ (statusOf fsm code e d b).extractLsb' 12 4 = 0#4 ∧
    (statusOf fsm code e d b).extractLsb' 16 5 = fsm ∧
    (statusOf fsm code e d b).extractLsb' 21 11 = 0#11 := by
  refine ⟨?_, ?_, ?_, ?_, ?_⟩
  all_goals
    refine BitVec.eq_of_getLsbD_eq fun i hi => ?_
    rw [BitVec.getLsbD_extractLsb', statusOf_getLsbD _ _ _ _ _ _ (by omega)]
    interval_cases i <;> simp

/-- Its low three bits are the flags (R11). -/
theorem statusOf_flags (fsm : BitVec 5) (code : BitVec 4) (e d b : Bool) :
    (statusOf fsm code e d b).extractLsb' 0 3 = 0#3 ↔ e = false ∧ d = false ∧ b = false := by
  have hflags : (statusOf fsm code e d b).extractLsb' 0 3 =
      BitVec.ofBool e ++ BitVec.ofBool d ++ BitVec.ofBool b := by
    refine BitVec.eq_of_getLsbD_eq fun i hi => ?_
    rw [BitVec.getLsbD_extractLsb', statusOf_getLsbD _ _ _ _ _ _ (by omega)]
    simp only [BitVec.getLsbD_append, BitVec.getLsbD_ofBool]
    interval_cases i <;> simp
  rw [hflags]
  cases e <;> cases d <;> cases b <;> decide

/-- While a job runs the low half of STATUS is BUSY alone (R11). -/
theorem statusOf_busy (fsm : BitVec 5) : (statusOf fsm 0#4 false false true).extractLsb' 0 16 = 1#16 := by
  refine BitVec.eq_of_getLsbD_eq fun i hi => ?_
  rw [BitVec.getLsbD_extractLsb', statusOf_getLsbD _ _ _ _ _ _ (by omega)]
  interval_cases i <;> simp

/-- STATUS shows no flag in IDLE, and in no other state (R11). -/
theorem statusWord_flags (s : State) : (statusWord s).extractLsb' 0 3 = 0#3 ↔ s.state = .idle := by
  rw [statusWord, statusOf_flags]
  unfold failed done busy
  cases s.state <;> decide

/-- The fields of CTRL as the host reads it (R10). -/
theorem ctrlValue_fields (s : State) :
    (ctrlValue s).getLsbD 0 = false ∧ (ctrlValue s).getLsbD 1 = s.ctrl.mode ∧
    (ctrlValue s).getLsbD 2 = s.ctrl.isLast ∧ (ctrlValue s).extractLsb' 3 29 = 0#29 := by
  unfold ctrlValue
  cases s.ctrl.mode <;> cases s.ctrl.isLast <;> decide

/-! ## Results, OUT_MEM and the queue -/

section
variable {s : State}

/-- A result register is its value once the results are exact (R46). -/
theorem resultReg_of_exact (v : Word) (hb : busy s = false) (hs : s.synced = true) :
    resultReg v s = v := by
  simp [resultReg, resultsExact, hb, hs]

theorem hostOutMemRead_of_lt {a : Nat} (ha : a < s.cfg.outMemBytes) : hostOutMemRead a s =
    .next { s with hostData := some ((readOutByte a s).setWidth 32) } := by
  rw [hostOutMemRead, if_neg (by omega)]
  rfl

/-- A byte below OUT_SIZE once the results are exact (R19, R46). -/
theorem readOutByte_of_exact {a : Nat} {b : Byte} (hb : busy s = false) (hs : s.synced = true)
    (ha : a < s.pk.optr.toNat) (hm : memRead s.outMem a = some b) : readOutByte a s = b := by
  simp [readOutByte, resultsExact, hb, hs, ha, hm]

end

/-! ## Input writes (R12, R18, R20, R23, R35) -/

section
variable {s : State}

theorem hostTreeWrite_of_waiting {t : Sel} {i : Nat} {v : Word} (hb : busy s = false) (hi : i < nsym t)
    (hv : v.toNat ≤ maxTreeLen t) : hostTreeWrite t i v s = .next (setTree t i v s) := by
  simp [hostTreeWrite, hb, Nat.not_le.2 hi, Nat.not_lt.2 hv]

theorem hostTreeWrite_of_long {t : Sel} {i : Nat} {v : Word} (hb : busy s = false) (hi : i < nsym t)
    (hv : maxTreeLen t < v.toNat) : hostTreeWrite t i v s = .refused .lengthOutOfRange := by
  simp [hostTreeWrite, hb, Nat.not_le.2 hi, hv]

/-- Where no entry of a memory stands, an access faults (R35; log 24). -/
theorem atAddress_outside (p : Placement) (addr : Nat) (access : Nat → Out)
    (h : ∀ i, addr ≠ p.base + i * p.stride) : atAddress p addr access = .fault (.addressOutside addr) := by
  have hne (i : Nat) : p.address i ≠ addr := (h i).symm
  simp [atAddress, Placement.indexOf, hne]

/-- Writes to a read-only register change nothing (R17). -/
theorem writeReg_of_readOnly (off : Nat) (v : Word) (h : 0x20 ≤ off ∨ off % 4 = 0) (h0 : off ≠ 0)
    (h8 : off ≠ 0x08) : writeReg off v s = .next s := by
  unfold writeReg
  obtain h20 | h4 := h
  · rw [if_pos h20]
  · split_ifs
    · rfl
    · omega
    · rfl

end

end Sys2Proof.Machine

open Sys2Proof Sys2Proof.Machine

/-- Settles O13: a read of the register block by its offset, STATUS as a poll, OUT_MEM by its range, and the
consumer by the head of the queue. -/
theorem hostReadsGiveTheRegisters : Obligations.HostReadsGiveTheRegisters := by
  unfold Obligations.HostReadsGiveTheRegisters
  intro s gives
  refine ⟨⟨?ctrl, ?inLen, fun off h1 h2 => ?beyond⟩, fun hb => ?status, fun hb => ?busyStatus,
    fun hb hs => ?exact, fun h off hoff => ?free, fun a ha => ⟨?byte, fun b hb hs hp hm => ?exactByte⟩,
    fun a ha => ?outside, fun w rest h => ?drain, fun h => ?empty,
    fun ready => ⟨fun hb => ?poll, fun hb => ?waiting⟩, ?statusFields, ?ctrlFields⟩
  case ctrl => exact hostRegRead_of_not_status (by decide) (by decide) (by decide)
  case inLen => exact hostRegRead_of_not_status (by decide) (by decide) (by decide)
  case beyond =>
    have := hostRegRead_of_not_status (s := s) h2 (.inl h1) (by omega)
    rwa [readReg_of_ge h1] at this
  case status => rw [hostRegRead_status, pollStatus_of_waiting hb]
  case busyStatus =>
    refine ⟨readStatus s, ?_, ?_⟩
    · change hostRegRead _ s = _
      rw [hostRegRead_status, pollStatus_of_busy hb]
    · rw [readStatus, hb]
      obtain ⟨-, -, -, -, hhigh⟩ := statusOf_fields ((Config.freeWord s.draws).setWidth 5) 0#4 false false true
      exact ⟨statusOf_busy _, hhigh⟩
  case exact =>
    have gives_result (off : Nat) (v : Word) (h : readReg off s = resultReg v s) (ho : off ≤ 0xFFF)
        (ha : off % 4 = 0) (hne : off ≠ 0x04) : gives off v := by
      rw [← resultReg_of_exact v hb hs, ← h]
      exact hostRegRead_of_not_status ho (.inr ha) hne
    exact ⟨gives_result 0x0C _ rfl (by decide) (by decide) (by decide),
      gives_result 0x10 _ rfl (by decide) (by decide) (by decide),
      gives_result 0x14 _ rfl (by decide) (by decide) (by decide),
      gives_result 0x18 _ rfl (by decide) (by decide) (by decide),
      gives_result 0x1C _ rfl (by decide) (by decide) (by decide)⟩
  case free =>
    have ho : off ≤ 0xFFF ∧ off % 4 = 0 ∧ off ≠ 0x04 := by
      revert off; decide
    exact ⟨_, hostRegRead_of_not_status ho.1 (.inr ho.2.1) ho.2.2⟩
  case byte => exact ⟨_, hostOutMemRead_of_lt ha⟩
  case exactByte => rw [hostOutMemRead_of_lt ha, readOutByte_of_exact hb hs hp hm]
  case outside => rw [hostOutMemRead, if_pos ha]
  case drain =>
    change Host.Outcome.next (consumeToken s) = _
    rw [consumeToken_eq, h]
    rfl
  case empty =>
    change Host.Outcome.next (consumeToken s) = _
    simp only [consumeToken, h]
  case poll =>
    rw [hostRegRead_status]
    change hostWait ready s = _
    simp [hostWait, hb]
  case waiting =>
    refine ⟨readStatus s, ?_, ?_⟩
    · change hostRegRead _ s = _
      rw [hostRegRead_status, pollStatus_of_busy hb]
    · change hostWait ready s = _
      rw [hostWait, if_pos hb, pollStatus_of_busy hb]
      cases ready with
      | false => rfl
      | true => rw [consumerTurn, if_pos rfl, consumeToken_eq]; rfl
  case statusFields =>
    intro v
    obtain ⟨hlow, hcode, hmid, hfsm, hhigh⟩ := statusOf_fields (fsmCode s.state)
      (if failed s then errCode s.err.code else 0#4) (failed s) (done s) (busy s)
    refine ⟨?_, ?_, ?_, hlow, ?_, hmid, hfsm, hhigh, statusWord_flags s⟩
    · exact statusOf_getLsbD _ _ _ _ _ 0 (by decide)
    · exact statusOf_getLsbD _ _ _ _ _ 1 (by decide)
    · exact statusOf_getLsbD _ _ _ _ _ 2 (by decide)
    · refine hcode.trans ?_
      simp only [failed, beq_iff_eq]
  case ctrlFields => exact ctrlValue_fields s

/-- Settles O14: each kind of write by BUSY and its range, the register block by its offset, and every
memory by its placement. -/
theorem hostWritesFollowTheirRules : Obligations.HostWritesFollowTheirRules := by
  unfold Obligations.HostWritesFollowTheirRules
  intro s
  refine ⟨fun hb => ⟨fun a b => ?_, fun t i v => ?_, fun ws => ?_, fun v => ?_⟩,
    fun hb => ⟨fun a b ha => ?inMem, fun i v hi hv => ?litLen, fun i v hi hv => ?dist,
      fun i v hi hv => ?codeLen, fun i v => ?long, fun ws => ?tokens, fun v => ?inLen⟩,
    fun off hoff v => ?readOnly, fun off h1 h2 v => ?beyond, fun off ho => ?narrow, ?placed⟩
  · rw [hostInMemWrite, if_pos hb]
  · rw [hostTreeWrite, if_pos hb]
  · rw [hostTokenInWrite, if_pos hb]
  · rw [hostRegWrite_of_offset v (by decide)]
    simp [writeReg, hb]
  case inMem =>
    refine ⟨_, ?_, fun x => memRead_memWrite s.inMem a x b⟩
    simp [hostInMemWrite, hb, Nat.not_le.2 ha]
  case litLen =>
    exact ⟨_, hostTreeWrite_of_waiting (t := .litLen) hb hi hv, fun x => memRead_memWrite s.litlenLen i x _⟩
  case dist =>
    exact ⟨_, hostTreeWrite_of_waiting (t := .dist) hb hi hv, fun x => memRead_memWrite s.distLen i x _⟩
  case codeLen =>
    exact ⟨_, hostTreeWrite_of_waiting (t := .codeLen) hb hi hv, fun x => memRead_memWrite s.metaLenMem i x _⟩
  case long =>
    exact ⟨hostTreeWrite_of_long (t := .litLen) hb, hostTreeWrite_of_long (t := .dist) hb,
      hostTreeWrite_of_long (t := .codeLen) hb⟩
  case tokens => simp [hostTokenInWrite, hb]
  case inLen =>
    rw [hostRegWrite_of_offset v (by decide)]
    simp [writeReg, hb]
  case readOnly =>
    have ho : off ≤ 0xFFF ∧ off % 4 = 0 ∧ off ≠ 0 ∧ off ≠ 0x08 := by
      revert off; decide
    rw [hostRegWrite_of_offset v ho.1, writeReg_of_readOnly off v (.inr ho.2.1) ho.2.2.1 ho.2.2.2]
  case beyond =>
    rw [hostRegWrite_of_offset v h2, writeReg_of_readOnly off v (.inl h1) (by omega) (by omega)]
  case narrow => simp only [hostRegNarrow, regOffset_regBase_add s.cfg ho]
  case placed =>
    exact ⟨fun b => ⟨fun hp i => atAddress_address s.cfg.inMemAt i _ hp, fun addr => atAddress_outside _ addr _⟩,
      fun v => ⟨fun hp i => atAddress_address s.cfg.litlenAt i _ hp, fun addr => atAddress_outside _ addr _⟩,
      fun v => ⟨fun hp i => atAddress_address s.cfg.distAt i _ hp, fun addr => atAddress_outside _ addr _⟩,
      fun v => ⟨fun hp i => atAddress_address s.cfg.metaLenAt i _ hp, fun addr => atAddress_outside _ addr _⟩,
      ⟨fun hp i => atAddress_address s.cfg.outMemAt i _ hp, fun addr => atAddress_outside _ addr _⟩⟩
end

section
/-! PROOF. Canonical codes (R5, R66, R67): reversed codes bit by bit, and the codes of a complete length array
as a tiling of the 15-bit words, in the order of their lengths: no word begins with two of them, and every
word with one. -/

namespace Sys2Proof.Machine

/-! ## Reversed codes (R5) -/

theorem revBits_lt (l c : Nat) : revBits l c < 2 ^ l := by
  induction l generalizing c with
  | zero => simp [revBits]
  | succ l ih =>
    have hrest := ih (c / 2)
    have hbit : c % 2 * 2 ^ l ≤ 1 * 2 ^ l := Nat.mul_le_mul_right _ (by omega)
    rw [revBits, Nat.pow_succ]
    omega

/-- Bit `i` of a reversed code is bit `l - 1 - i` of the code (R5). -/
theorem testBit_revBits (l c i : Nat) :
    (revBits l c).testBit i = (decide (i < l) && c.testBit (l - 1 - i)) := by
  induction l generalizing c with
  | zero => simp [revBits]
  | succ l ih =>
    rw [revBits, Nat.mul_comm, Nat.testBit_two_pow_mul_add _ (revBits_lt l _), ih]
    by_cases hi : i < l
    · have hdiv : (c / 2).testBit (l - 1 - i) = c.testBit (l - i) := by
        rw [← Nat.testBit_succ, Nat.succ_eq_add_one, show l - 1 - i + 1 = l - i by omega]
      simp [hi, hdiv, show i < l + 1 by omega]
    · by_cases he : i = l
      · subst he
        simp [Nat.testBit_zero]
      · obtain ⟨k, rfl⟩ : ∃ k, i = l + (k + 1) := ⟨i - l - 1, by omega⟩
        have hz : c % 2 / 2 = 0 := by omega
        simp [Nat.testBit_succ, hz]

/-- The low bits of a reversed code are its first bits, reversed. -/
theorem revBits_mod (l k c : Nat) (h : k ≤ l) : revBits l c % 2 ^ k = revBits k (c >>> (l - k)) := by
  refine Nat.eq_of_testBit_eq fun i => ?_
  rw [Nat.testBit_mod_two_pow, testBit_revBits, testBit_revBits, Nat.testBit_shiftRight]
  by_cases hi : i < k
  · simp [hi, show i < l by omega, show l - k + (k - 1 - i) = l - 1 - i by omega]
  · simp [hi]

/-- A code is known by its reversal. -/
theorem revBits_injective {l c d : Nat} (hc : c < 2 ^ l) (hd : d < 2 ^ l) (h : revBits l c = revBits l d) :
    c = d := by
  refine Nat.eq_of_testBit_eq fun i => ?_
  by_cases hi : i < l
  · have hbit := congrArg (Nat.testBit · (l - 1 - i)) h
    simpa [testBit_revBits, show l - 1 - i < l by omega, show l - 1 - (l - 1 - i) = i by omega] using hbit
  · have hp : 2 ^ l ≤ 2 ^ i := Nat.pow_le_pow_right (by decide) (by omega)
    rw [Nat.testBit_lt_two_pow (hc.trans_le hp), Nat.testBit_lt_two_pow (hd.trans_le hp)]

/-! ## Codes in symbol order (R67) -/

theorem countLen_cons (x l : Nat) (lens : List Nat) :
    countLen (x :: lens) l = (if x = l then 1 else 0) + countLen lens l := by
  unfold countLen
  by_cases h : x = l
  · simp [h, Nat.add_comm]
  · simp [h]

/-- Codes are given out from `next`, one for each symbol of a length (R67). -/
theorem assignCodes_getElem? (lens next : List Nat) (y l : Nat) (hn : ∀ x ∈ lens, x < next.length)
    (hy : lens[y]? = some l) (hl : l ≠ 0) :
    (assignCodes lens next)[y]? = some (next.getD l 0 + countLen (lens.take y) l) := by
  induction lens generalizing next y with
  | nil => simp at hy
  | cons x rest ih =>
    have hx : x < next.length := hn x (by simp)
    have hrest : ∀ z ∈ rest, z < next.length := fun z hz => hn z (by simp [hz])
    cases y with
    | zero =>
      obtain rfl : x = l := by simpa using hy
      simp [assignCodes, hl, countLen]
    | succ y =>
      have hy' : rest[y]? = some l := by simpa using hy
      by_cases h0 : x = 0
      · simp [assignCodes, h0, ih next y hrest hy', countLen_cons, Ne.symm hl]
      · have hset := ih (next.set x (next.getD x 0 + 1)) y (by simpa using hrest) hy'
        rw [assignCodes, if_neg h0, List.getElem?_cons_succ, hset, List.take_succ_cons, countLen_cons]
        by_cases hxl : x = l
        · subst hxl
          simp [List.getD_eq_getElem?_getD, hx]
          omega
        · simp [List.getD_eq_getElem?_getD, List.getElem?_set_ne hxl, hxl]

theorem assignCodes_length (lens next : List Nat) : (assignCodes lens next).length = lens.length := by
  induction lens generalizing next with
  | nil => rfl
  | cons x rest ih => rw [assignCodes]; split <;> simp [ih]

theorem canonCodes_length (lens : List Nat) : (canonCodes lens).length = lens.length :=
  assignCodes_length _ _

/-- A used symbol's code: the first code of its length and its rank among the symbols of that length
(R67). -/
theorem canonCodes_getElem? {lens : List Nat} (hr : ∀ l ∈ lens, l ≤ 15) {y l : Nat}
    (hy : lens[y]? = some l) (hl : l ≠ 0) :
    (canonCodes lens)[y]? = some (firstCode lens l + countLen (lens.take y) l) := by
  have h15 : l ≤ 15 := hr l (List.mem_of_getElem? hy)
  have hfirst : ((List.range 16).map (firstCode lens)).getD l 0 = firstCode lens l := by
    simp [List.getD_eq_getElem?_getD, List.getElem?_map, List.getElem?_range (by omega : l < 16)]
  rw [canonCodes, assignCodes_getElem? _ _ y l (by simpa [Nat.lt_succ_iff] using hr) hy hl, hfirst]

/-- A symbol's rank is below the number of symbols of its length. -/
theorem countLen_take_lt {lens : List Nat} {y l : Nat} (h : lens[y]? = some l) :
    countLen (lens.take y) l < countLen lens l := by
  induction lens generalizing y with
  | nil => simp at h
  | cons x rest ih =>
    cases y with
    | zero =>
      obtain rfl : x = l := by simpa using h
      rw [countLen_cons]
      simp [countLen]
    | succ y =>
      rw [List.take_succ_cons, countLen_cons, countLen_cons]
      exact Nat.add_lt_add_left (ih (by simpa using h)) _

/-- Among the symbols of a length every rank below their number occurs. -/
theorem exists_rank {lens : List Nat} {l r : Nat} (h : r < countLen lens l) :
    ∃ y, lens[y]? = some l ∧ countLen (lens.take y) l = r := by
  induction lens generalizing r with
  | nil => simp [countLen] at h
  | cons x rest ih =>
    rw [countLen_cons] at h
    by_cases hx : x = l
    · cases r with
      | zero => exact ⟨0, by simp [hx], by simp [countLen]⟩
      | succ r =>
        obtain ⟨y, hy, hrank⟩ := ih (r := r) (by rw [if_pos hx] at h; omega)
        exact ⟨y + 1, by simpa using hy, by rw [List.take_succ_cons, countLen_cons, if_pos hx, hrank]; omega⟩
    · obtain ⟨y, hy, hrank⟩ := ih (r := r) (by rw [if_neg hx] at h; omega)
      exact ⟨y + 1, by simpa using hy, by rw [List.take_succ_cons, countLen_cons, if_neg hx, hrank]; omega⟩

/-! ## The tiling -/

/-- The share of the 15-bit words that begin with a code of at most `l` bits (R66). -/
def kraftUpTo (lens : List Nat) (l : Nat) : Nat :=
  ((List.range l).map fun k => countLen lens (k + 1) * 2 ^ (14 - k)).sum

theorem kraftUpTo_succ (lens : List Nat) (l : Nat) :
    kraftUpTo lens (l + 1) = kraftUpTo lens l + countLen lens (l + 1) * 2 ^ (14 - l) := by
  simp [kraftUpTo, List.range_succ]

theorem kraftUpTo_mono (lens : List Nat) {l m : Nat} (h : l ≤ m) : kraftUpTo lens l ≤ kraftUpTo lens m := by
  induction h with
  | refl => exact le_rfl
  | step _ ih => rw [kraftUpTo_succ]; omega

/-- The length at which a word is reached. -/
theorem exists_level {lens : List Nat} {n x : Nat} (h : x < kraftUpTo lens n) :
    ∃ m, m < n ∧ kraftUpTo lens m ≤ x ∧ x < kraftUpTo lens (m + 1) := by
  induction n with
  | zero => exact absurd h (Nat.not_lt_zero x)
  | succ n ih =>
    by_cases hlow : kraftUpTo lens n ≤ x
    · exact ⟨n, n.lt_succ_self, hlow, h⟩
    · obtain ⟨m, hm, hx⟩ := ih (Nat.lt_of_not_le hlow)
      exact ⟨m, hm.trans n.lt_succ_self, hx⟩

/-- The first code of a length starts where the shorter codes end (R67). -/
theorem firstCode_mul (lens : List Nat) (l : Nat) (h : l ≤ 14) :
    firstCode lens (l + 1) * 2 ^ (14 - l) = kraftUpTo lens l := by
  induction l with
  | zero => simp [firstCode, kraftUpTo]
  | succ l ih =>
    have hpow : 2 ^ (14 - l) = 2 * 2 ^ (14 - (l + 1)) := by
      rw [← Nat.pow_succ', Nat.succ_eq_add_one, show 14 - (l + 1) + 1 = 14 - l by omega]
    rw [kraftUpTo_succ, ← ih (by omega), firstCode, if_neg (by omega), hpow]
    ring

/-- Symbol `y` is used, with code length `l` and canonical code `c`. -/
structure Coded (lens : List Nat) (y l c : Nat) : Prop where
  len  : lens[y]? = some l
  code : (canonCodes lens)[y]? = some c
  used : l ≠ 0

section
variable {lens : List Nat} (hr : ∀ l ∈ lens, l ≤ 15)
include hr

theorem Coded.le {y l c : Nat} (h : Coded lens y l c) : l ≤ 15 := hr l (List.mem_of_getElem? h.len)

theorem Coded.code_eq {y l c : Nat} (h : Coded lens y l c) :
    c = firstCode lens l + countLen (lens.take y) l :=
  Option.some.inj (h.code.symm.trans (canonCodes_getElem? hr h.len h.used))

/-- Where the words that begin with a code start (R67). -/
theorem Coded.start {y l c : Nat} (h : Coded lens y l c) :
    c * 2 ^ (15 - l) = kraftUpTo lens (l - 1) + countLen (lens.take y) l * 2 ^ (15 - l) := by
  obtain ⟨m, rfl⟩ : ∃ m, l = m + 1 := ⟨l - 1, by have := h.used; omega⟩
  have hm := h.le hr
  rw [h.code_eq hr, Nat.add_mul, show 15 - (m + 1) = 14 - m by omega, firstCode_mul lens m (by omega)]
  rfl

/-- Where the words that begin with a code end: not after those of its length. -/
theorem Coded.stop {y l c : Nat} (h : Coded lens y l c) : (c + 1) * 2 ^ (15 - l) ≤ kraftUpTo lens l := by
  obtain ⟨m, rfl⟩ : ∃ m, l = m + 1 := ⟨l - 1, by have := h.used; omega⟩
  rw [Nat.add_mul, h.start hr, kraftUpTo_succ, show 15 - (m + 1) = 14 - m by omega, Nat.add_sub_cancel]
  have hrank := Nat.mul_le_mul_right (2 ^ (14 - m)) (Nat.succ_le_of_lt (countLen_take_lt h.len))
  rw [Nat.succ_mul] at hrank
  omega

/-- Codes in the order of their words are in the order of their lengths (R67). -/
theorem Coded.stop_le_start {y z l m c d : Nat} (h : Coded lens y l c) (h' : Coded lens z m d) (hlt : l < m) :
    (c + 1) * 2 ^ (15 - l) ≤ d * 2 ^ (15 - m) := by
  calc (c + 1) * 2 ^ (15 - l) ≤ kraftUpTo lens l := h.stop hr
    _ ≤ kraftUpTo lens (m - 1) := kraftUpTo_mono lens (by omega)
    _ ≤ d * 2 ^ (15 - m) := by rw [h'.start hr]; omega

/-- Two symbols with one length and code are one symbol (R67). -/
theorem Coded.eq_of_code_eq {y z l c : Nat} (h : Coded lens y l c) (h' : Coded lens z l c) : y = z := by
  have rank_lt {y z : Nat} (hy : lens[y]? = some l) (hlt : y < z) :
      countLen (lens.take y) l < countLen (lens.take z) l := by
    have htake : (lens.take z).take y = lens.take y := by rw [List.take_take, min_eq_left hlt.le]
    rw [← htake]
    exact countLen_take_lt (by rwa [List.getElem?_take_of_lt hlt])
  have hrank := (h.code_eq hr).symm.trans (h'.code_eq hr)
  rcases Nat.lt_trichotomy y z with hlt | he | hlt
  · have := rank_lt h.len hlt
    omega
  · exact he
  · have := rank_lt h'.len hlt
    omega

/-- No code begins with another symbol's code (R67). -/
theorem Coded.eq_of_prefix {y z l m c d : Nat} (h : Coded lens y l c) (h' : Coded lens z m d) (hle : l ≤ m)
    (hp : d >>> (m - l) = c) : y = z := by
  obtain rfl | hlt := Nat.eq_or_lt_of_le hle
  · obtain rfl : d = c := by simpa using hp
    exact h.eq_of_code_eq hr h'
  · have hm := h'.le hr
    have hpow : 2 ^ (15 - l) = 2 ^ (m - l) * 2 ^ (15 - m) := by
      rw [← Nat.pow_add, show m - l + (15 - m) = 15 - l by omega]
    have horder := h.stop_le_start hr h' hlt
    rw [hpow, ← Nat.mul_assoc] at horder
    have hge : (c + 1) * 2 ^ (m - l) ≤ d := Nat.le_of_mul_le_mul_right horder (Nat.two_pow_pos _)
    have hdiv : c + 1 ≤ d / 2 ^ (m - l) := (Nat.le_div_iff_mul_le (Nat.two_pow_pos _)).2 hge
    rw [← Nat.shiftRight_eq_div_pow] at hdiv
    omega

variable (hk : kraftSum lens = 2 ^ 15)
include hk

/-- A code fits its length (R67). -/
theorem Coded.lt {y l c : Nat} (h : Coded lens y l c) : c < 2 ^ l := by
  have hl := h.le hr
  have hpow : (2 : Nat) ^ 15 = 2 ^ l * 2 ^ (15 - l) := by
    rw [← Nat.pow_add, show l + (15 - l) = 15 by omega]
  have hstop : (c + 1) * 2 ^ (15 - l) ≤ 2 ^ l * 2 ^ (15 - l) :=
    calc (c + 1) * 2 ^ (15 - l) ≤ kraftUpTo lens l := h.stop hr
      _ ≤ kraftUpTo lens 15 := kraftUpTo_mono lens hl
      _ = 2 ^ l * 2 ^ (15 - l) := hpow ▸ hk
  exact Nat.le_of_mul_le_mul_right hstop (Nat.two_pow_pos _)

/-- One stream, reversed, begins with one code only (R5, R67, R72). -/
theorem Coded.eq_of_mod {y z l m c d i : Nat} (h : Coded lens y l c) (h' : Coded lens z m d)
    (hi : i % 2 ^ l = revBits l c) (hi' : i % 2 ^ m = revBits m d) : y = z := by
  have shorter {y z l m c d : Nat} (h : Coded lens y l c) (h' : Coded lens z m d) (hle : l ≤ m)
      (hi : i % 2 ^ l = revBits l c) (hi' : i % 2 ^ m = revBits m d) : y = z := by
    refine h.eq_of_prefix hr h' hle (revBits_injective ?_ (h.lt hr hk) ?_)
    · rw [Nat.shiftRight_eq_div_pow]
      exact Nat.div_lt_of_lt_mul (by rw [← Nat.pow_add, Nat.sub_add_cancel hle]; exact h'.lt hr hk)
    · rw [← revBits_mod m l d hle, ← hi', Nat.mod_mod_of_dvd _ (Nat.pow_dvd_pow 2 hle), hi]
  obtain hle | hle := Nat.le_total l m
  · exact shorter h h' hle hi hi'
  · exact (shorter h' h hle hi' hi).symm

/-- Every 15-bit word begins with a code of a complete array (R66). -/
theorem exists_coded_prefix {x : Nat} (hx : x < 2 ^ 15) :
    ∃ y l c, Coded lens y l c ∧ x >>> (15 - l) = c := by
  have hall : x < kraftUpTo lens 15 := hx.trans_eq hk.symm
  obtain ⟨m, hm, hlow, hhigh⟩ := exists_level hall
  rw [kraftUpTo_succ] at hhigh
  obtain ⟨y, hy, hrank⟩ := exists_rank (lens := lens) (l := m + 1) (r := (x - kraftUpTo lens m) / 2 ^ (14 - m))
    ((Nat.div_lt_iff_lt_mul (Nat.two_pow_pos _)).2 (by omega))
  have hcode := canonCodes_getElem? hr hy (Nat.succ_ne_zero m)
  refine ⟨y, m + 1, _, ⟨hy, hcode, Nat.succ_ne_zero m⟩, ?_⟩
  have hfirst := firstCode_mul lens m (by omega)
  rw [hrank, Nat.shiftRight_eq_div_pow, show 15 - (m + 1) = 14 - m by omega, Nat.add_comm,
    ← Nat.add_mul_div_right _ _ (Nat.two_pow_pos _), hfirst, Nat.sub_add_cancel hlow]

/-- A word of `m` bits begins with a code of a complete array, or a code begins with it. -/
theorem exists_code_of_word {m w : Nat} (hm : m ≤ 15) (hw : w < 2 ^ m) : ∃ y l c, Coded lens y l c ∧
    (l ≤ m ∧ w >>> (m - l) = c ∨ m < l ∧ c >>> (l - m) = w) := by
  have hword : w * 2 ^ (15 - m) < 2 ^ 15 :=
    calc w * 2 ^ (15 - m) < 2 ^ m * 2 ^ (15 - m) := Nat.mul_lt_mul_of_pos_right hw (Nat.two_pow_pos _)
      _ = 2 ^ 15 := by rw [← Nat.pow_add, Nat.add_sub_cancel' hm]
  have hdrop : (w * 2 ^ (15 - m)) >>> (15 - m) = w := by
    rw [Nat.shiftRight_eq_div_pow, Nat.mul_div_cancel _ (Nat.two_pow_pos _)]
  obtain ⟨y, l, c, hc, hpre⟩ := exists_coded_prefix hr hk hword
  have hl := hc.le hr
  refine ⟨y, l, c, hc, ?_⟩
  obtain hle | hlt : l ≤ m ∨ m < l := le_or_gt l m
  · refine .inl ⟨hle, ?_⟩
    rw [← hpre, show 15 - l = 15 - m + (m - l) by omega, Nat.shiftRight_add, hdrop]
  · refine .inr ⟨hlt, ?_⟩
    rw [← hpre, ← Nat.shiftRight_add, show 15 - l + (l - m) = 15 - m by omega, hdrop]

end
end Sys2Proof.Machine
end

section
/-! PROOF. The layout of a decode table (R69): its codes by their first bits, where each subtable stands, and that a
table of a complete array fits its place (R70). -/

namespace Sys2Proof.Machine

/-! ## The longest of a list of lengths -/

theorem maxLen_cons (x : Nat) (l : List Nat) : maxLen (x :: l) = max x (maxLen l) := by
  rw [maxLen, List.foldl_cons, Nat.max_comm, List.foldl_assoc, maxLen]

theorem le_maxLen {l : List Nat} {x : Nat} (h : x ∈ l) : x ≤ maxLen l := by
  induction l with
  | nil => simp at h
  | cons y rest ih =>
    rw [maxLen_cons]
    obtain rfl | h := List.mem_cons.1 h
    · exact le_max_left _ _
    · exact (ih h).trans (le_max_right _ _)

theorem maxLen_mem {l : List Nat} (h : l ≠ []) : maxLen l ∈ l := by
  induction l with
  | nil => exact absurd rfl h
  | cons y rest ih =>
    rw [maxLen_cons]
    obtain rfl | hne := eq_or_ne rest []
    · simp [maxLen]
    · obtain hle | hle := Nat.le_total y (maxLen rest)
      · rw [max_eq_right hle]
        exact List.mem_cons_of_mem _ (ih hne)
      · rw [max_eq_left hle]
        exact List.mem_cons_self

/-! ## The used symbols with their codes -/

theorem mem_codeWordsFrom (y : Nat) (lens codes : List Nat) (x : CodeWord) :
    x ∈ codeWordsFrom y lens codes ↔
      ∃ k, x.sym = y + k ∧ lens[k]? = some x.len ∧ codes[k]? = some x.code ∧ x.len ≠ 0 := by
  induction lens generalizing y codes with
  | nil => simp [codeWordsFrom]
  | cons l lens ih =>
    cases codes with
    | nil => simp [codeWordsFrom]
    | cons c codes =>
      have later : (∃ k, x.sym = y + (k + 1) ∧ lens[k]? = some x.len ∧ codes[k]? = some x.code ∧ x.len ≠ 0) ↔
          x ∈ codeWordsFrom (y + 1) lens codes := by
        rw [ih]
        simp [Nat.add_assoc, Nat.add_comm 1]
      rw [codeWordsFrom]
      constructor
      · intro h
        have hmem : x = ⟨y, l, c⟩ ∧ l ≠ 0 ∨ x ∈ codeWordsFrom (y + 1) lens codes := by
          split at h
          · exact .inr h
          · exact (List.mem_cons.1 h).imp (fun hx => ⟨hx, ‹_›⟩) id
        obtain ⟨rfl, hl⟩ | hx := hmem
        · exact ⟨0, rfl, rfl, rfl, hl⟩
        · obtain ⟨k, hs, hlen, hcode, hused⟩ := later.2 hx
          exact ⟨k + 1, hs, hlen, hcode, hused⟩
      · rintro ⟨k, hs, hlen, hcode, hused⟩
        cases k with
        | zero =>
          obtain rfl : l = x.len := by simpa using hlen
          obtain rfl : c = x.code := by simpa using hcode
          rw [if_neg hused, show (⟨y, x.len, x.code⟩ : CodeWord) = x by rw [← Nat.add_zero y, ← hs]]
          exact List.mem_cons_self
        | succ k =>
          have hx := later.1 ⟨k, hs, by simpa using hlen, by simpa using hcode, hused⟩
          split
          · exact hx
          · exact List.mem_cons_of_mem _ hx

/-- A word of the list is a used symbol with its canonical code (R67). -/
theorem mem_codeWords {lens : List Nat} {x : CodeWord} :
    x ∈ codeWords lens ↔ Coded lens x.sym x.len x.code := by
  rw [codeWords, mem_codeWordsFrom]
  constructor
  · rintro ⟨k, hk, hlen, hcode, hused⟩
    rw [Nat.zero_add] at hk
    exact ⟨hk ▸ hlen, hk ▸ hcode, hused⟩
  · rintro ⟨hlen, hcode, hused⟩
    exact ⟨x.sym, (Nat.zero_add _).symm, hlen, hcode, hused⟩

theorem codeWordsFrom_group (y : Nat) (lens codes : List Nat) (rw p : Nat) :
    (groupOf (codeWordsFrom y lens codes) rw p).map (fun x => x.len - rw) =
      ((lens.zip codes).filter fun lc => decide (rw < lc.1) && decide (lc.2 >>> (lc.1 - rw) = p)).map
        fun lc => lc.1 - rw := by
  induction lens generalizing y codes with
  | nil => simp [codeWordsFrom, groupOf]
  | cons l lens ih =>
    cases codes with
    | nil => simp [codeWordsFrom, groupOf]
    | cons c codes =>
      have ih := ih (y + 1) codes
      rw [groupOf] at ih
      rw [codeWordsFrom, groupOf]
      split
      · simp_all
      · rw [List.filter_cons, List.zip_cons_cons, List.filter_cons]
        split <;> simp_all

/-- The group of codes with the first bits `p` is the one of R69, by how many bits each goes on. -/
theorem groupOf_map (lens : List Nat) (rw p : Nat) :
    (groupOf (codeWords lens) rw p).map (fun x => x.len - rw) = codesUnder lens rw p :=
  codeWordsFrom_group 0 lens _ rw p

theorem subWidth_eq (lens : List Nat) (rw p : Nat) :
    subWidth (codeWords lens) rw p = maxLen (codesUnder lens rw p) := by
  rw [subWidth, groupOf_map]

theorem groupOf_isEmpty (lens : List Nat) (rw p : Nat) :
    (groupOf (codeWords lens) rw p).isEmpty = decide (codesUnder lens rw p = []) := by
  rw [← groupOf_map]
  cases groupOf (codeWords lens) rw p <;> rfl

theorem mem_groupOf {lens : List Nat} {rw p : Nat} {x : CodeWord} :
    x ∈ groupOf (codeWords lens) rw p ↔
      Coded lens x.sym x.len x.code ∧ rw < x.len ∧ x.code >>> (x.len - rw) = p := by
  rw [groupOf, List.mem_filter, mem_codeWords]
  simp

/-! ## Where the subtables stand -/

/-- The prefixes below `n` that codes go on from: the set P of R69 up to `n`. -/
def prefixesBelow (lens : List Nat) (rw n : Nat) : List Nat :=
  (List.range n).filter fun p => decide (codesUnder lens rw p ≠ [])

/-- The subtable of the codes that begin with `p`, as R69 places it. -/
def subtableOf (lens : List Nat) (rw p : Nat) : Subtable :=
  ⟨p, subtableOffset lens rw p, maxLen (codesUnder lens rw p)⟩

theorem prefixes_eq (lens : List Nat) (rw : Nat) :
    prefixes (codeWords lens) rw = prefixesBelow lens rw (2 ^ rw) := by
  refine List.filter_congr fun p _ => ?_
  simp [groupOf_isEmpty]

theorem prefixesBelow_succ (lens : List Nat) (rw n : Nat) : prefixesBelow lens rw (n + 1) =
    prefixesBelow lens rw n ++ if codesUnder lens rw n = [] then [] else [n] := by
  rw [prefixesBelow, List.range_succ, List.filter_append, ← prefixesBelow]
  split <;> simp [*]

theorem subtableOffset_succ (lens : List Nat) (rw n : Nat) :
    subtableOffset lens rw (n + 1) = subtableOffset lens rw n + subtableSize lens rw n := by
  simp [subtableOffset, List.range_succ, Nat.add_assoc]

theorem subtables_append (ws : List CodeWord) (rw offset : Nat) (ps qs : List Nat) :
    subtables ws rw offset (ps ++ qs) = subtables ws rw offset ps ++
      subtables ws rw (offset + (ps.map fun p => 2 ^ subWidth ws rw p).sum) qs := by
  induction ps generalizing offset with
  | nil => simp [subtables]
  | cons p ps ih => simp [subtables, ih, Nat.add_assoc]

theorem prefixesBelow_sum (lens : List Nat) (rw n : Nat) :
    2 ^ rw + ((prefixesBelow lens rw n).map fun p => 2 ^ subWidth (codeWords lens) rw p).sum =
      subtableOffset lens rw n := by
  induction n with
  | zero => rfl
  | succ n ih =>
    rw [prefixesBelow_succ, List.map_append, List.sum_append, ← Nat.add_assoc, ih, subtableOffset_succ,
      subtableSize]
    split <;> simp [subWidth_eq]

/-- The subtables stand one after another, where R69 places them. -/
theorem subtables_prefixesBelow (lens : List Nat) (rw n : Nat) :
    subtables (codeWords lens) rw (2 ^ rw) (prefixesBelow lens rw n) =
      (prefixesBelow lens rw n).map (subtableOf lens rw) := by
  induction n with
  | zero => rfl
  | succ n ih =>
    rw [prefixesBelow_succ, subtables_append, ih, prefixesBelow_sum, List.map_append]
    split <;> simp [subtables, subtableOf, subWidth_eq]

/-! ## The table fits its place (R70) -/

/-- Splitting the elements below `n + 1` by whether they are `n`. -/
theorem filter_lt_succ_length {α : Type} (l : List α) (P : α → Bool) (f : α → Nat) (n : Nat) :
    (l.filter fun x => P x && decide (f x < n + 1)).length =
      (l.filter fun x => P x && decide (f x < n)).length + (l.filter fun x => P x && decide (f x = n)).length := by
  induction l with
  | nil => rfl
  | cons x rest ih =>
    simp only [List.filter_cons, Bool.and_eq_true, decide_eq_true_eq]
    by_cases hP : P x = true
    · simp only [hP, true_and]
      split_ifs <;> simp only [List.length_cons, ih] <;> omega
    · simpa [hP] using ih

/-- Each code has the first bits of at most one group. -/
theorem sum_codesUnder_length_le (lens : List Nat) (rw n : Nat) :
    ((List.range n).map fun p => (codesUnder lens rw p).length).sum ≤ lens.length := by
  have below : ((List.range n).map fun p => (codesUnder lens rw p).length).sum =
      ((lens.zip (canonCodes lens)).filter fun lc =>
        decide (rw < lc.1) && decide (lc.2 >>> (lc.1 - rw) < n)).length := by
    induction n with
    | zero => simp
    | succ n ih =>
      rw [List.range_succ, List.map_append, List.sum_append, ih, filter_lt_succ_length]
      simp [codesUnder]
  rw [below]
  exact (List.length_filter_le _ _).trans (by simp [canonCodes_length])

section
variable {lens : List Nat} (hr : ∀ l ∈ lens, l ≤ 15)
include hr

/-- Lengths do not fall from one group to a later one (R67). -/
theorem len_le_of_prefix_lt {rw p q : Nat} {x z : CodeWord} (hx : x ∈ groupOf (codeWords lens) rw p)
    (hz : z ∈ groupOf (codeWords lens) rw q) (hpq : p < q) : x.len ≤ z.len := by
  obtain ⟨hxc, hxl, hxp⟩ := mem_groupOf.1 hx
  obtain ⟨hzc, hzl, hzq⟩ := mem_groupOf.1 hz
  by_contra hlt
  have hprefix {c l : Nat} (hl : rw < l) (hl15 : l ≤ 15) :
      c * 2 ^ (15 - l) / 2 ^ (15 - rw) = c >>> (l - rw) := by
    rw [Nat.shiftRight_eq_div_pow, show 15 - rw = l - rw + (15 - l) by omega, Nat.pow_add,
      Nat.mul_div_mul_right _ _ (Nat.two_pow_pos _)]
  have horder : z.code * 2 ^ (15 - z.len) ≤ x.code * 2 ^ (15 - x.len) :=
    (Nat.mul_le_mul_right _ (Nat.le_succ _)).trans (hzc.stop_le_start hr hxc (Nat.lt_of_not_le hlt))
  have hshift := Nat.div_le_div_right (c := 2 ^ (15 - rw)) horder
  rw [hprefix hzl (hzc.le hr), hprefix hxl (hxc.le hr), hxp, hzq] at hshift
  omega

variable (hk : kraftSum lens = 2 ^ 15)
include hk

theorem prefix_lt {rw p : Nat} {x : CodeWord} (hx : x ∈ groupOf (codeWords lens) rw p) : p < 2 ^ rw := by
  obtain ⟨hxc, hxl, rfl⟩ := mem_groupOf.1 hx
  rw [Nat.shiftRight_eq_div_pow]
  exact Nat.div_lt_of_lt_mul (by rw [← Nat.pow_add, Nat.sub_add_cancel hxl.le]; exact hxc.lt hr hk)

/-- In a group whose codes all go on for at least `a` bits, every continuation by `a` bits occurs (R66). -/
theorem exists_group_code {rw q a w : Nat} {z : CodeWord} (hz : z ∈ groupOf (codeWords lens) rw q)
    (ha : ∀ x ∈ groupOf (codeWords lens) rw q, rw + a ≤ x.len) (hw : w >>> a = q) :
    ∃ x ∈ groupOf (codeWords lens) rw q, x.code >>> (x.len - (rw + a)) = w := by
  obtain ⟨hzc, hzl, hzq⟩ := mem_groupOf.1 hz
  have hza := ha z hz
  have hlt : w < 2 ^ (rw + a) := by
    rw [Nat.pow_add, ← Nat.div_lt_iff_lt_mul (Nat.two_pow_pos a), ← Nat.shiftRight_eq_div_pow, hw]
    exact prefix_lt hr hk hz
  obtain ⟨y, l, c, hc, ⟨hl, hpre⟩ | ⟨hl, hpre⟩⟩ := exists_code_of_word hr hk (hza.trans (hzc.le hr)) hlt
  · have hrw : rw < l := by
      by_contra hle
      have hcode : z.code >>> (z.len - l) = c := by
        rw [← hpre, show z.len - l = z.len - rw + (rw - l) by omega, Nat.shiftRight_add, hzq, ← hw,
          ← Nat.shiftRight_add, show a + (rw - l) = rw + a - l by omega]
      have hsym := hc.eq_of_prefix hr hzc (by omega) hcode
      have hlen : l = z.len := Option.some.inj (hc.len.symm.trans (hsym ▸ hzc.len))
      omega
    have hmem : (⟨y, l, c⟩ : CodeWord) ∈ groupOf (codeWords lens) rw q := by
      refine mem_groupOf.2 ⟨hc, hrw, ?_⟩
      rw [← hpre, ← Nat.shiftRight_add, show rw + a - l + (l - rw) = a by omega, hw]
    obtain rfl : l = rw + a := le_antisymm hl (ha _ hmem)
    exact ⟨_, hmem, by simpa using hpre.symm⟩
  · have hrw : rw < l := by omega
    refine ⟨⟨y, l, c⟩, mem_groupOf.2 ⟨hc, hrw, ?_⟩, hpre⟩
    rw [← hw, ← hpre, ← Nat.shiftRight_add, show l - (rw + a) + a = l - rw by omega]

/-- A group whose codes all go on for at least `a` bits has a code for each continuation by `a` bits. -/
theorem two_pow_le_group_length {rw q a : Nat} {z : CodeWord} (hz : z ∈ groupOf (codeWords lens) rw q)
    (ha : ∀ x ∈ groupOf (codeWords lens) rw q, rw + a ≤ x.len) :
    2 ^ a ≤ (groupOf (codeWords lens) rw q).length := by
  have covered : List.range (2 ^ a) ⊆
      (groupOf (codeWords lens) rw q).map fun x => x.code >>> (x.len - (rw + a)) % 2 ^ a := by
    intro j hj
    rw [List.mem_range] at hj
    have hw : (2 ^ a * q + j) >>> a = q := by
      rw [Nat.shiftRight_eq_div_pow, Nat.mul_add_div (Nat.two_pow_pos a), Nat.div_eq_of_lt hj, Nat.add_zero]
    obtain ⟨x, hx, hcode⟩ := exists_group_code hr hk hz ha hw
    exact List.mem_map.2 ⟨x, hx, by rw [hcode, Nat.mul_add_mod, Nat.mod_eq_of_lt hj]⟩
  simpa using (List.nodup_range.subperm covered).length_le

/-- A subtable has no more entries than every later group has codes (R69). -/
theorem subtable_le_codesUnder {rw p q : Nat} (hpq : p < q) (hp : codesUnder lens rw p ≠ [])
    (hq : codesUnder lens rw q ≠ []) : 2 ^ maxLen (codesUnder lens rw p) ≤ (codesUnder lens rw q).length := by
  rw [← groupOf_map] at hp hq ⊢
  obtain ⟨x, hx, hmax⟩ := List.mem_map.1 (maxLen_mem hp)
  rw [← groupOf_map lens rw q, List.length_map, ← hmax]
  obtain ⟨z, hz⟩ := List.exists_mem_of_ne_nil _ (mt List.map_eq_nil_iff.2 hq)
  refine two_pow_le_group_length hr hk hz fun y hy => ?_
  have := len_le_of_prefix_lt hr hx hy hpq
  have := (mem_groupOf.1 hx).2.1
  omega

/-- The subtables of the prefixes below `n` take no more entries than those prefixes have codes, and the
last subtable (R69, R70). -/
theorem sum_subtableSize_le (rw n : Nat) : ∃ last,
    ((List.range n).map (subtableSize lens rw)).sum ≤
      ((List.range n).map fun p => (codesUnder lens rw p).length).sum + last ∧
    (last = 0 ∨ ∃ p, p < n ∧ codesUnder lens rw p ≠ [] ∧ last = 2 ^ maxLen (codesUnder lens rw p)) := by
  induction n with
  | zero => exact ⟨0, by simp, .inl rfl⟩
  | succ n ih =>
    obtain ⟨last, hsum, hlast⟩ := ih
    simp only [List.range_succ, List.map_append, List.sum_append, List.map_cons, List.map_nil,
      List.sum_singleton]
    by_cases hn : codesUnder lens rw n = []
    · refine ⟨last, by rw [subtableSize, if_pos hn]; omega, hlast.imp_right fun ⟨p, hp, h⟩ => ⟨p, by omega, h⟩⟩
    · refine ⟨2 ^ maxLen (codesUnder lens rw n), ?_, .inr ⟨n, n.lt_succ_self, hn, rfl⟩⟩
      have hle : last ≤ (codesUnder lens rw n).length := by
        obtain rfl | ⟨p, hp, hne, rfl⟩ := hlast
        · exact Nat.zero_le _
        · exact subtable_le_codesUnder hr hk hp hne hn
      rw [subtableSize, if_neg hn]
      omega

/-- The size of a decode table: the root table, an entry for each symbol, and the largest subtable. -/
theorem subtableOffset_le (rw n : Nat) :
    subtableOffset lens rw n ≤ 2 ^ rw + lens.length + 2 ^ (15 - rw) := by
  obtain ⟨last, hsum, hlast⟩ := sum_subtableSize_le hr hk rw n
  have hcodes := sum_codesUnder_length_le lens rw n
  have hle : last ≤ 2 ^ (15 - rw) := by
    obtain rfl | ⟨p, -, hne, rfl⟩ := hlast
    · exact Nat.zero_le _
    · refine Nat.pow_le_pow_right (by decide) ?_
      rw [← groupOf_map] at hne ⊢
      obtain ⟨x, hx, hmax⟩ := List.mem_map.1 (maxLen_mem hne)
      have := (mem_groupOf.1 hx).1.le hr
      omega
  rw [subtableOffset]
  omega

end

/-- No code goes on from a root table as wide as the longest code. -/
theorem codesUnder_maxLen (lens : List Nat) (p : Nat) : codesUnder lens (maxLen lens) p = [] := by
  rw [← groupOf_map, List.map_eq_nil_iff, List.eq_nil_iff_forall_not_mem]
  intro x hx
  obtain ⟨hc, hlt, -⟩ := mem_groupOf.1 hx
  exact absurd (le_maxLen (List.mem_of_getElem? hc.len)) (by omega)

/-- Every decode table fits its place (R70). -/
theorem tsize_le {sel : Sel} {lens : List Nat} (h : LengthArray sel lens) (hk : kraftSum lens = 2 ^ 15) :
    subtableOffset lens (usedWidth sel lens) (2 ^ usedWidth sel lens) ≤ tableEntries := by
  obtain ⟨hsize, hr⟩ := h
  have hroot : rootWidth sel ≤ 9 := by cases sel <;> decide
  obtain hle | hle := Nat.le_total (rootWidth sel) (maxLen lens)
  · rw [usedWidth, min_eq_left hle]
    refine (subtableOffset_le hr hk _ _).trans ?_
    rw [hsize]
    cases sel <;> decide
  · rw [usedWidth, min_eq_right hle, subtableOffset]
    have hpow : 2 ^ maxLen lens ≤ 2 ^ 9 := Nat.pow_le_pow_right (by decide) (hle.trans hroot)
    have hnone : ((List.range (2 ^ maxLen lens)).map (subtableSize lens (maxLen lens))).sum = 0 := by
      refine List.sum_eq_zero fun x hx => ?_
      obtain ⟨p, -, rfl⟩ := List.mem_map.1 hx
      simp [subtableSize, codesUnder_maxLen]
    rw [hnone, tableEntries]
    omega

end Sys2Proof.Machine
end

section
/-! PROOF. The entries of a decode table (R68, R69): where each stands, and that each symbol of a complete array
finds its own; then BUILD (R66, R70, R71). -/

namespace Sys2Proof.Machine

/-! ## Lists -/

/-- The only element a search can find. -/
theorem find?_eq_some_of_unique {α : Type} {l : List α} {P : α → Bool} {z : α} (hz : z ∈ l) (hP : P z = true)
    (hu : ∀ x ∈ l, P x = true → x = z) : l.find? P = some z := by
  cases hf : l.find? P with
  | none => exact absurd hP (List.find?_eq_none.1 hf z hz)
  | some x => exact congrArg some (hu x (List.mem_of_find?_eq_some hf) (List.find?_some hf))

/-- Where an element of a part stands in the parts put one after another. -/
theorem flatMap_range_getElem? {α : Type} (g : Nat → List α) {n p j : Nat} (hp : p < n)
    (hj : j < (g p).length) :
    ((List.range n).flatMap g)[((List.range p).map fun q => (g q).length).sum + j]? = (g p)[j]? := by
  induction n with
  | zero => exact absurd hp (Nat.not_lt_zero p)
  | succ n ih =>
    rw [List.range_succ, List.flatMap_append, List.flatMap_singleton]
    obtain rfl | hlt := Nat.eq_or_lt_of_le (Nat.lt_succ_iff.1 hp)
    · rw [← List.length_flatMap, List.getElem?_append_right (Nat.le_add_right _ _), Nat.add_sub_cancel_left]
    · have hpart := ih hlt
      rw [List.getElem?_eq_getElem hj] at hpart ⊢
      rw [List.getElem?_append_left (List.getElem?_eq_some_iff.1 hpart).1, hpart]

/-! ## The decode table as R69 lays it out -/

/-- The entries of the subtable of the codes that begin with `p`; none where no code goes on from it. -/
def subtableEntries (sel : Sel) (lens : List Nat) (rw p : Nat) : List Entry :=
  if codesUnder lens rw p = [] then []
  else (List.range (2 ^ maxLen (codesUnder lens rw p))).map
    (subEntry sel (codeWords lens) rw (subtableOf lens rw p))

theorem subtableEntries_length (sel : Sel) (lens : List Nat) (rw p : Nat) :
    (subtableEntries sel lens rw p).length = subtableSize lens rw p := by
  unfold subtableEntries subtableSize
  split <;> simp

/-- The subtables of the prefixes, in increasing order. -/
def subtablesOf (lens : List Nat) (rw : Nat) : List Subtable :=
  (prefixesBelow lens rw (2 ^ rw)).map (subtableOf lens rw)

theorem mem_subtablesOf {lens : List Nat} {rw : Nat} {t : Subtable} :
    t ∈ subtablesOf lens rw ↔ ∃ p, p < 2 ^ rw ∧ codesUnder lens rw p ≠ [] ∧ subtableOf lens rw p = t := by
  simp [subtablesOf, prefixesBelow, and_assoc]

/-- The root table, then the subtables. -/
theorem decodeTable_eq (sel : Sel) (lens : List Nat) :
    decodeTable sel lens =
      (List.range (2 ^ usedWidth sel lens)).map
        (rootEntry sel (codeWords lens) (usedWidth sel lens) (subtablesOf lens (usedWidth sel lens))) ++
      (List.range (2 ^ usedWidth sel lens)).flatMap (subtableEntries sel lens (usedWidth sel lens)) := by
  simp only [decodeTable, prefixes_eq, subtables_prefixesBelow]
  rw [← subtablesOf]
  congr 1
  rw [subtablesOf, List.flatMap_map, prefixesBelow]
  induction List.range (2 ^ usedWidth sel lens) with
  | nil => rfl
  | cons p ps ih =>
    rw [List.filter_cons, List.flatMap_cons, ← ih, subtableEntries]
    by_cases hp : codesUnder lens (usedWidth sel lens) p = []
    · simp [hp]
    · simp [hp, subtableOf]

theorem decodeTable_length (sel : Sel) (lens : List Nat) : (decodeTable sel lens).length =
    subtableOffset lens (usedWidth sel lens) (2 ^ usedWidth sel lens) := by
  simp [decodeTable_eq, List.length_flatMap, subtableEntries_length, subtableOffset]

section
variable {sel : Sel} {lens : List Nat}

theorem decodeTable_root {i : Nat} (hi : i < 2 ^ usedWidth sel lens) : (decodeTable sel lens)[i]? =
    some (rootEntry sel (codeWords lens) (usedWidth sel lens) (subtablesOf lens (usedWidth sel lens)) i) := by
  rw [decodeTable_eq, List.getElem?_append_left (by simpa using hi)]
  simp [hi]

theorem decodeTable_sub {p j : Nat} (hp : p < 2 ^ usedWidth sel lens)
    (hj : j < subtableSize lens (usedWidth sel lens) p) :
    (decodeTable sel lens)[subtableOffset lens (usedWidth sel lens) p + j]? =
      some (subEntry sel (codeWords lens) (usedWidth sel lens) (subtableOf lens (usedWidth sel lens) p) j) := by
  have hpart := flatMap_range_getElem? (subtableEntries sel lens (usedWidth sel lens)) hp
    (by rwa [subtableEntries_length])
  simp only [subtableEntries_length] at hpart
  rw [decodeTable_eq, subtableOffset, List.getElem?_append_right (by simp; omega), List.length_map,
    List.length_range, Nat.add_assoc, Nat.add_sub_cancel_left, hpart, subtableEntries]
  unfold subtableSize at hj
  split at hj
  · exact absurd hj (Nat.not_lt_zero j)
  · simp [*]

end

/-! ## Each symbol finds its entry -/

/-- A stream that begins with the first bits `p` of a longer code begins with the code exactly when it goes on
with the rest of the code (R5, R69). -/
theorem stream_mod_eq_revBits {rw m c p j : Nat} (hm : rw ≤ m) (hp : c >>> (m - rw) = p) :
    (j * 2 ^ rw + revBits rw p) % 2 ^ m = revBits m c ↔ j % 2 ^ (m - rw) = revBits m c >>> rw := by
  have hlow : revBits m c % 2 ^ rw = revBits rw p := by rw [revBits_mod m rw c hm, hp]
  have hpow : 2 ^ m = 2 ^ rw * 2 ^ (m - rw) := by rw [← Nat.pow_add, Nat.add_sub_cancel' hm]
  have hr := revBits_lt rw p
  have hjlow : (j * 2 ^ rw + revBits rw p) % 2 ^ rw = revBits rw p := by
    rw [Nat.mul_comm, Nat.mul_add_mod, Nat.mod_eq_of_lt hr]
  have hjhigh : (j * 2 ^ rw + revBits rw p) / 2 ^ rw = j := by
    rw [Nat.mul_comm, Nat.mul_add_div (Nat.two_pow_pos _), Nat.div_eq_of_lt hr, Nat.add_zero]
  have hcode := Nat.mod_add_div (revBits m c) (2 ^ rw)
  rw [hpow, Nat.mod_mul, hjlow, hjhigh, Nat.shiftRight_eq_div_pow]
  rw [hlow] at hcode
  constructor
  · intro h
    exact Nat.eq_of_mul_eq_mul_left (Nat.two_pow_pos rw) (by omega)
  · intro h
    rw [h, hcode]

section
variable {lens : List Nat} (hr : ∀ l ∈ lens, l ≤ 15) (hk : kraftSum lens = 2 ^ 15)
include hr hk

/-- One stream begins with the code of one word only. -/
theorem codeWord_eq_of_mod {x : CodeWord} {y l c i : Nat} (hx : x ∈ codeWords lens) (h : Coded lens y l c)
    (hi : i % 2 ^ x.len = revBits x.len x.code) (hi' : i % 2 ^ l = revBits l c) : x = ⟨y, l, c⟩ := by
  have hc := mem_codeWords.1 hx
  have hsym := hc.eq_of_mod hr hk h hi hi'
  have hlen : x.len = l := Option.some.inj (hc.len.symm.trans (hsym ▸ h.len))
  have hcode : x.code = c := Option.some.inj (hc.code.symm.trans (hsym ▸ h.code))
  rw [← hsym, ← hlen, ← hcode]

/-- A short code's symbol stands at every root index that begins with it (R69). -/
theorem rootEntry_short {sel : Sel} {rw y l c i : Nat} (subs : List Subtable) (h : Coded lens y l c)
    (hl : l ≤ rw) (hi : i % 2 ^ l = revBits l c) :
    rootEntry sel (codeWords lens) rw subs i = symEntry sel y l := by
  have hfind : (codeWords lens).find? (fun x => decide (x.len ≤ rw) &&
      decide (i % 2 ^ x.len = revBits x.len x.code)) = some ⟨y, l, c⟩ := by
    refine find?_eq_some_of_unique (mem_codeWords.2 h) (by simp [hl, hi]) fun x hx hP => ?_
    simp only [Bool.and_eq_true, decide_eq_true_eq] at hP
    exact codeWord_eq_of_mod hr hk hx h hP.2 hi
  rw [rootEntry, hfind]

/-- A long code's first bits lead to its subtable (R69). -/
theorem rootEntry_link {sel : Sel} {rw y l c : Nat} (h : Coded lens y l c) (hl : rw < l) :
    rootEntry sel (codeWords lens) rw (subtablesOf lens rw) (revBits rw (c >>> (l - rw))) =
      ⟨.linkToSubtable, BitVec.ofNat 4 (maxLen (codesUnder lens rw (c >>> (l - rw)))),
        BitVec.ofNat 16 (subtableOffset lens rw (c >>> (l - rw))), BitVec.ofNat 4 rw⟩ := by
  have hgroup : (⟨y, l, c⟩ : CodeWord) ∈ groupOf (codeWords lens) rw (c >>> (l - rw)) :=
    mem_groupOf.2 ⟨h, hl, rfl⟩
  have hp := prefix_lt hr hk hgroup
  have hne : codesUnder lens rw (c >>> (l - rw)) ≠ [] := by
    rw [← groupOf_map]
    exact mt List.map_eq_nil_iff.1 (List.ne_nil_of_mem hgroup)
  have hnone : (codeWords lens).find? (fun x => decide (x.len ≤ rw) &&
      decide (revBits rw (c >>> (l - rw)) % 2 ^ x.len = revBits x.len x.code)) = none := by
    refine List.find?_eq_none.2 fun x hx hP => ?_
    simp only [Bool.and_eq_true, decide_eq_true_eq] at hP
    obtain ⟨hle, hi⟩ := hP
    rw [← revBits_mod l rw c hl.le, Nat.mod_mod_of_dvd _ (Nat.pow_dvd_pow 2 hle)] at hi
    have hx' := codeWord_eq_of_mod hr hk hx h hi (Nat.mod_eq_of_lt (revBits_lt l c))
    rw [hx'] at hle
    exact absurd hle (Nat.not_le.2 hl)
  have hsub : (subtablesOf lens rw).find?
      (fun t => decide (revBits rw t.pfx = revBits rw (c >>> (l - rw)))) =
        some (subtableOf lens rw (c >>> (l - rw))) := by
    refine find?_eq_some_of_unique (mem_subtablesOf.2 ⟨_, hp, hne, rfl⟩) (by simp [subtableOf]) fun t ht hP => ?_
    obtain ⟨q, hq, -, rfl⟩ := mem_subtablesOf.1 ht
    rw [decide_eq_true_eq] at hP
    rw [revBits_injective hq hp hP]
  rw [rootEntry, hnone]
  simp only [hsub]
  rfl

/-- A long code's symbol stands at every index of its subtable that begins with the rest of it (R69). -/
theorem subEntry_long {sel : Sel} {rw y l c j : Nat} (h : Coded lens y l c) (hl : rw < l)
    (hj : j % 2 ^ (l - rw) = revBits l c >>> rw) :
    subEntry sel (codeWords lens) rw (subtableOf lens rw (c >>> (l - rw))) j = symEntry sel y l := by
  have hfind : (groupOf (codeWords lens) rw (c >>> (l - rw))).find? (fun x =>
      decide (j % 2 ^ (x.len - rw) = revBits x.len x.code >>> rw)) = some ⟨y, l, c⟩ := by
    refine find?_eq_some_of_unique (mem_groupOf.2 ⟨h, hl, rfl⟩) (by simp [hj]) fun x hx hP => ?_
    obtain ⟨hc, hxl, hxp⟩ := mem_groupOf.1 hx
    rw [decide_eq_true_eq] at hP
    exact codeWord_eq_of_mod hr hk (mem_codeWords.2 hc) h ((stream_mod_eq_revBits hxl.le hxp).2 hP)
      ((stream_mod_eq_revBits hl.le rfl).2 hj)
  rw [subEntry, subtableOf, hfind]

end

/-- The decode table of a complete array holds what R69 says, with the entries of R68. -/
theorem decodeTable_holds {sel : Sel} {lens : List Nat} (h : LengthArray sel lens)
    (hk : kraftSum lens = 2 ^ 15) {y l c : Nat} (hc : Coded lens y l c) :
    TableHolds sel lens (decodeTable sel lens) (usedWidth sel lens) y l c := by
  obtain ⟨hsize, hr⟩ := h
  have hy : y < nsym sel := hsize ▸ (List.getElem?_eq_some_iff.1 hc.len).1
  have hentry := symEntry_isSymEntry sel y l hy
  constructor
  case short =>
    intro hl i hi hrev
    refine ⟨_, decodeTable_root hi, ?_⟩
    rwa [rootEntry_short hr hk _ hc hl hrev]
  case link =>
    intro hl
    rw [decodeTable_root (revBits_lt _ _), rootEntry_link hr hk hc hl]
  case long =>
    intro hl j hj hrev
    have hp := prefix_lt hr hk (mem_groupOf.2 ⟨hc, hl, rfl⟩ : (⟨y, l, c⟩ : CodeWord) ∈ _)
    refine ⟨_, decodeTable_sub hp hj, ?_⟩
    rwa [subEntry_long hr hk hc hl hrev]

/-- The encode table's entry of a symbol (R71). -/
theorem encodeTable_getElem? {lens : List Nat} {y l c : Nat} (hl : lens[y]? = some l)
    (hc : (canonCodes lens)[y]? = some c) : (encodeTable lens)[y]? =
      some (if l = 0 then ⟨0, 0⟩ else ⟨BitVec.ofNat 15 (revBits l c), BitVec.ofNat 4 l⟩) := by
  simp [encodeTable, List.getElem?_zipWith, hl, hc]

/-- BUILD of a complete array leaves the slot R71 describes. -/
theorem builtSlot_built {sel : Sel} {lens : List Nat} (h : LengthArray sel lens)
    (hk : kraftSum lens = 2 ^ 15) : Built sel lens (builtSlot sel lens) := by
  have hroot : usedWidth sel lens ≤ 9 :=
    (min_le_left _ _).trans (by cases sel <;> decide)
  have hrw : (builtSlot sel lens).rw.toNat = usedWidth sel lens := by
    rw [builtSlot, BitVec.toNat_ofNat]
    exact Nat.mod_eq_of_lt (by omega)
  have hfits := tsize_le h hk
  have htsize : (builtSlot sel lens).tsize.toNat = (decodeTable sel lens).length := by
    rw [builtSlot, BitVec.toNat_ofNat]
    rw [← decodeTable_length, tableEntries] at hfits
    exact Nat.mod_eq_of_lt (by omega)
  constructor
  case valid => rfl
  case rw => exact hrw
  case nused =>
    have hle : (lens.filter (· ≠ 0)).length ≤ nsym sel := h.size ▸ List.length_filter_le _ _
    have hn : nsym sel ≤ 288 := by cases sel <;> decide
    rw [builtSlot, BitVec.toNat_ofNat]
    exact Nat.mod_eq_of_lt (by omega)
  case tsize => rw [htsize, hrw, decodeTable_length]
  case fits => rw [htsize, decodeTable_length]; exact hfits
  case size => exact htsize.symm
  case dt => exact fun y l c hl hc hne => hrw ▸ decodeTable_holds h hk ⟨hl, hc, hne⟩
  case et => exact fun y l c => encodeTable_getElem?

/-! ## BUILD as an instruction -/

section
variable {sel : Sel} {s : State}

/-- BUILD runs on the array of the calling state (R71; log 5). -/
theorem exec_build_of_array {lens : List Nat} (h : buildArray sel s = some lens) :
    exec (.build sel) s = (build sel lens s).out := by
  simp only [exec, execBuild, h]

/-- Without an array BUILD faults (R20; log 35). -/
theorem exec_build_of_none (h : buildArray sel s = none) :
    exec (.build sel) s = .fault (.treeUnwritten sel) := by
  simp only [exec, execBuild, h]

/-- A memory with an unwritten entry among those read gives no array (R20). -/
theorem readCells_eq_none {w : Nat} {m : Cells w} {n y : Nat} (hy : y < n) (hm : memRead m y = none) :
    readCells m 0 n = none := by
  cases hr : readCells m 0 n with
  | none => rfl
  | some lens =>
    obtain ⟨hlen, hread⟩ := (readCells_eq_some m 0 n lens).1 hr
    have hy' := hread y hy
    rw [Nat.zero_add, hm, List.getElem?_eq_getElem (by omega)] at hy'
    cases hy'

theorem buildArray_encode (hm : s.ctrl.mode = true) : buildArray sel s = treeLens sel (nsym sel) s := by
  unfold buildArray
  exact if_pos hm

theorem clAt_eq_getD {i : Nat} (h : i < s.par.cl.length) : clAt s i = s.par.cl.getD i 0 := by
  simp [clAt, List.getD_eq_getElem?_getD, h]

/-- LL of R87, from `cl` alone. -/
theorem litLenArray_eq (hcl : s.par.cl.length = 320) : litLenArray s = (List.range 288).map fun y =>
    if y < s.par.hlit.toNat then (s.par.cl.getD y 0).toNat else 0 := by
  refine List.map_congr_left fun y hy => ?_
  rw [clAt_eq_getD (by have := List.mem_range.1 hy; simp only [litSymbols] at this; omega)]

/-- DD of R87, from `cl` alone. -/
theorem distArray_eq (hcl : s.par.cl.length = 320) (hl : s.par.hlit.toNat ≤ 288) :
    distArray s = (List.range 32).map fun y =>
      if y < s.par.hdist.toNat then (s.par.cl.getD (s.par.hlit.toNat + y) 0).toNat else 0 := by
  refine List.map_congr_left fun y hy => ?_
  rw [clAt_eq_getD (by have := List.mem_range.1 hy; simp only [distSymbols] at this; omega)]

end
end Sys2Proof.Machine

open Sys2Proof Sys2Proof.Machine

/-- Settles O33: the Kraft check comes first, a complete array gives the slot of R71, and the array is the
calling state's. -/
theorem buildChecksAndFillsTheSlot : Obligations.BuildChecksAndFillsTheSlot := by
  unfold Obligations.BuildChecksAndFillsTheSlot
  refine ⟨fun sel s lens ha => ⟨fun hk => ?oversubscribed, fun hk => ?incomplete, fun hk h => ?complete⟩,
    fun s hm hml hcl hl hd => ?decodeArrays, fun s lens hm => ?encodeArrays, fun s hm => ?unwritten,
    fun sel s => exec_build_of_none⟩
  case oversubscribed =>
    rw [exec_build_of_array ha, build_oversubscribed sel lens s hk]
    rfl
  case incomplete =>
    rw [exec_build_of_array ha, build_incomplete sel lens s hk]
    rfl
  case complete =>
    refine ⟨builtSlot sel lens, builtSlot_built h hk, ?_⟩
    rw [exec_build_of_array ha, build_complete sel lens s hk]
    rfl
  case decodeArrays =>
    simp only [buildArray, hm, Bool.false_eq_true, if_false]
    rw [metaArray_eq s hml, litLenArray_eq hcl, distArray_eq hcl hl]
    exact ⟨rfl, rfl, rfl⟩
  case encodeArrays =>
    simp only [buildArray_encode hm]
    refine ⟨fun hn ht => ?_, fun hn ht => ?_, fun hn ht => ?_⟩
    · exact (congrArg (treeLens .codeLen · s) hn).symm.trans (treeLens_codeLen s lens ht)
    · exact (congrArg (treeLens .litLen · s) hn).symm.trans (treeLens_litLen s lens ht)
    · exact (congrArg (treeLens .dist · s) hn).symm.trans (treeLens_dist s lens ht)
  case unwritten =>
    refine ⟨fun ⟨y, hy, hn⟩ => ?_, fun ⟨y, hy, hn⟩ => ?_, fun ⟨y, hy, hn⟩ => ?_⟩
    · exact exec_build_of_none ((buildArray_encode hm).trans (readCells_eq_none hy hn))
    · exact exec_build_of_none ((buildArray_encode hm).trans (readCells_eq_none hy hn))
    · exact exec_build_of_none ((buildArray_encode hm).trans (readCells_eq_none hy hn))
end

section
/-! PROOF. What the operations of the decoder's side and of the encoder's side write (R35, R43, R47), and that the
engine stores only at OUT_MEM[optr ..] (R44, R113, R115). -/

namespace Sys2Proof.Machine

/-! ## What each side writes -/

/-- Only what the operations of the decoder's side write has changed from `s` to `t`. -/
def DecoderWrites (s t : State) : Prop :=
  t = { s with
    state := t.state, tokenCount := t.tokenCount, err := t.err, tokenOut := t.tokenOut, cur := t.cur
    par := t.par, bg := t.bg, slots := t.slots, uop := t.uop }

/-- Every store from `s` to `t` is at OUT_MEM[optr ..], and `optr` has moved past it (R44). -/
structure StoresAtPointer (s t : State) : Prop where
  optr   : s.pk.optr.toNat ≤ t.pk.optr.toNat
  stored : ∀ a, a < s.pk.optr.toNat ∨ t.pk.optr.toNat ≤ a → memRead t.outMem a = memRead s.outMem a

/-- Only what the operations of the encoder's side, BUILD and RLE_EXPAND write has changed from `s` to `t`. -/
structure EncoderWrites (s t : State) : Prop where
  rest   : t = { s with
    state := t.state, tokenCount := t.tokenCount, err := t.err, outMem := t.outMem, slots := t.slots
    enc := t.enc, pk := t.pk, uop := t.uop }
  stores : s.cfg.outMemBytes < 2 ^ 32 → StoresAtPointer s t

theorem DecoderWrites.refl (s : State) : DecoderWrites s s := rfl

theorem DecoderWrites.trans {s t u : State} (h : DecoderWrites s t) (h' : DecoderWrites t u) :
    DecoderWrites s u := by
  unfold DecoderWrites at *
  rw [h']
  rw [h]

theorem DecoderWrites.frame {s t : State} (h : DecoderWrites s t) : EngineFrame s t := by
  rw [h]
  constructor <;> rfl

theorem DecoderWrites.leaves {s t : State} (h : DecoderWrites s t) :
    t.outMem = s.outMem ∧ t.enc = s.enc ∧ t.pk = s.pk := by
  rw [h]
  exact ⟨rfl, rfl, rfl⟩

theorem StoresAtPointer.of_same {s t : State} (hm : t.outMem = s.outMem) (hp : t.pk.optr = s.pk.optr) :
    StoresAtPointer s t :=
  ⟨by rw [hp], fun a _ => by rw [hm]⟩

theorem StoresAtPointer.trans {s t u : State} (h : StoresAtPointer s t) (h' : StoresAtPointer t u) :
    StoresAtPointer s u := by
  obtain ⟨ho, hs⟩ := h
  obtain ⟨ho', hs'⟩ := h'
  exact ⟨ho.trans ho', fun a ha => (hs' a (by omega)).trans (hs a (by omega))⟩

theorem EncoderWrites.trans {s t u : State} (h : EncoderWrites s t) (h' : EncoderWrites t u) :
    EncoderWrites s u := by
  refine ⟨?_, fun hc => (h.stores hc).trans (h'.stores ?_)⟩
  · rw [h'.rest]
    rw [h.rest]
  · rw [h.rest]
    exact hc

theorem EncoderWrites.frame {s t : State} (h : EncoderWrites s t) : EngineFrame s t := by
  rw [h.rest]
  constructor <;> rfl

theorem EncoderWrites.leaves {s t : State} (h : EncoderWrites s t) :
    t.cur = s.cur ∧ t.par = s.par ∧ t.bg = s.bg ∧ t.tokenOut = s.tokenOut := by
  rw [h.rest]
  exact ⟨rfl, rfl, rfl, rfl⟩

/-- Registers of the encoder's side alone. -/
theorem encoderWrites_registers (s : State) {state : Fsm} {tokenCount : Word} {err : ErrRegs} {slots : Slots}
    {enc : Encoder} {uop : UopRegs} : EncoderWrites s { s with
      state := state, tokenCount := tokenCount, err := err, slots := slots, enc := enc, uop := uop } :=
  ⟨rfl, fun _ => .of_same rfl rfl⟩

theorem EncoderWrites.refl (s : State) : EncoderWrites s s := encoderWrites_registers s

/-! ## Operations in sequence -/

/-- What every operation of a sequence may do, the sequence may do (R6). -/
theorem Res.bind_related {R : State → State → Prop} (trans : ∀ {s t u}, R s t → R t u → R s u) {α β : Type}
    {s : State} {r : Res α} {f : α → State → Res β} (h : R s r.state) (hf : ∀ a t, R t (f a t).state) :
    R s (r.bind f).state := by
  cases r with
  | ok a t => exact trans h (hf a t)
  | raised t => exact h

theorem DecoderWrites.bind {α β : Type} {s : State} {r : Res α} {f : α → State → Res β}
    (h : DecoderWrites s r.state) (hf : ∀ a t, DecoderWrites t (f a t).state) :
    DecoderWrites s (r.bind f).state :=
  Res.bind_related .trans h hf

theorem EncoderWrites.bind {α β : Type} {s : State} {r : Res α} {f : α → State → Res β}
    (h : EncoderWrites s r.state) (hf : ∀ a t, EncoderWrites t (f a t).state) :
    EncoderWrites s (r.bind f).state :=
  Res.bind_related .trans h hf

theorem DecoderWrites.of_next {s t u : State} (h : (Host.Outcome.next u : Out) = .next t)
    (hu : DecoderWrites s u) : DecoderWrites s t :=
  Host.Outcome.next.inj h ▸ hu

theorem EncoderWrites.of_next {s t u : State} (h : (Host.Outcome.next u : Out) = .next t)
    (hu : EncoderWrites s u) : EncoderWrites s t :=
  Host.Outcome.next.inj h ▸ hu

/-! ## The decoder's side -/

theorem readBits_writes (n : Nat) (s : State) : DecoderWrites s (readBits n s).state := by
  obtain ⟨-, c, h⟩ | ⟨-, h⟩ := readBits_cases s n <;> rw [h] <;> rfl

theorem consume_writes (n : Nat) (s : State) : DecoderWrites s (consume n s).state := by
  obtain ⟨-, c, h⟩ | ⟨-, c, -, -, h⟩ := consume_cases s n <;> rw [h] <;> rfl

theorem decodeSym_writes (sel : Sel) (s : State) : DecoderWrites s (decodeSym sel s).state := by
  obtain ⟨-, c, h⟩ | ⟨-, c, -, -, h⟩ := decodeSym_cases sel s <;> rw [h] <;> rfl

theorem setSlot_writes (sel : Sel) (x : Slot) (s : State) : DecoderWrites s (setSlot sel x s) := by
  cases sel <;> rfl

theorem build_writes (sel : Sel) (lens : List Nat) (s : State) : DecoderWrites s (build sel lens s).state := by
  obtain ⟨-, h⟩ | ⟨e, h⟩ := build_cases sel lens s <;> rw [h]
  · exact setSlot_writes sel _ s
  · rfl

theorem endOfBlock_writes (s : State) : DecoderWrites s (endOfBlock s) := by
  unfold endOfBlock
  split <;> rfl

theorem codelenDone_writes (s : State) : DecoderWrites s (codelenDone s) := by
  rw [codelenDone_eq]
  rfl

theorem repeatLens_writes (v : BitVec 4) (r : Nat) (s : State) : DecoderWrites s (repeatLens v r s).state := by
  obtain ⟨-, h⟩ | ⟨-, h⟩ := repeatLens_cases v r s <;> rw [h]
  · exact .trans (t := appendLens v r s) rfl (codelenDone_writes _)
  · rfl

theorem expandSymbol_writes (y : Nat) (s : State) : DecoderWrites s (expandSymbol y s).state := by
  unfold expandSymbol
  split_ifs
  · exact .trans (t := appendLens _ _ s) rfl (codelenDone_writes _)
  · rfl
  · exact (readBits_writes 2 s).bind fun _ _ => repeatLens_writes _ _ _
  · exact (readBits_writes 3 s).bind fun _ _ => repeatLens_writes _ _ _
  · exact (readBits_writes 7 s).bind fun _ _ => repeatLens_writes _ _ _
  · exact repeatLens_writes _ _ s

theorem literalStage_writes (e : Entry) (s : State) : DecoderWrites s (literalStage e s).state := by
  unfold literalStage
  cases e.kind with
  | endOfBlock => exact endOfBlock_writes s
  | literal | length | distance | linkToSubtable | invalid => rfl

theorem distanceStage_writes (e : Entry) (s : State) : DecoderWrites s (distanceStage e s).state := by
  unfold distanceStage
  cases e.kind <;> rfl

theorem dPreambleStep_writes (s : State) : DecoderWrites s (dPreambleStep s).state :=
  (readBits_writes 1 s).bind fun f t =>
    (DecoderWrites.trans (t := setBfinal f t) rfl (readBits_writes 2 _)).bind fun _ _ => rfl

theorem dStoredHdrStep_writes (s : State) : DecoderWrites s (dStoredHdrStep s).state := by
  refine (DecoderWrites.trans (t := alignCursor s) rfl (readBits_writes 16 _)).bind fun len t => ?_
  refine (readBits_writes 16 t).bind fun nlen u => ?_
  split_ifs
  · exact .trans (t := setStoredRem len u) rfl (endOfBlock_writes _)
  · rfl
  · rfl

theorem dStoredCopyStep_writes (s : State) : DecoderWrites s (dStoredCopyStep s).state := by
  refine (readBits_writes 8 s).bind fun b t => ?_
  rw [Res.state_ok]
  split_ifs
  · refine .trans ?_ (endOfBlock_writes _)
    rfl
  · rfl

theorem dDynCountsStep_writes (s : State) : DecoderWrites s (dDynCountsStep s).state :=
  (readBits_writes 5 s).bind fun v t =>
    (DecoderWrites.trans (t := { t with par := { t.par with hlit := BitVec.ofNat 9 (v + 257) } }) rfl
      (readBits_writes 5 _)).bind fun v u =>
    (DecoderWrites.trans (t := { u with par := { u.par with hdist := BitVec.ofNat 6 (v + 1) } }) rfl
      (readBits_writes 4 _)).bind fun _ _ => rfl

theorem dDynMetalenStep_writes (s : State) : DecoderWrites s (dDynMetalenStep s).state := by
  refine (readBits_writes 3 s).bind fun v t => ?_
  rw [Res.state_ok]
  split_ifs <;> rfl

/-- Back-pressure takes the step or none (R134). -/
theorem takeIfRoom_writes {s t : State} (h : DecoderWrites s t) : DecoderWrites s (takeIfRoom s t) := by
  obtain ⟨ht, -, -⟩ | ⟨ht, -⟩ := takeIfRoom_cases s t <;> rw [ht]
  · exact .refl s
  · exact h

theorem exec_decoderWrites {i : Instr} {s t : State} (hi : i.isDecoder = true) (h : exec i s = .next t) :
    DecoderWrites s t := by
  cases i with
  | decodesym sel => exact .of_next h ((decodeSym_writes sel s).bind fun _ _ => rfl)
  | peek n => exact .of_next h rfl
  | consume n => exact .of_next h (consume_writes _ s)
  | read n => exact .of_next h ((readBits_writes _ s).bind fun _ _ => rfl)
  | align => exact .of_next h rfl
  | refill => exact .of_next h rfl
  | dHeader => exact .of_next h rfl
  | dPreamble => exact .of_next h (dPreambleStep_writes s)
  | dStoredHdr => exact .of_next h (takeIfRoom_writes (dStoredHdrStep_writes s))
  | dStoredCopy => exact .of_next h (takeIfRoom_writes (dStoredCopyStep_writes s))
  | dDynCounts => exact .of_next h (dDynCountsStep_writes s)
  | dDynMetalen => exact .of_next h (dDynMetalenStep_writes s)
  | dDynMetabuild => exact .of_next h ((build_writes _ _ s).bind fun _ _ => rfl)
  | dDynCodelen => exact .of_next h ((decodeSym_writes _ s).bind fun _ _ => expandSymbol_writes _ _)
  | dDynTablebuild =>
    exact .of_next h ((build_writes _ _ s).bind fun _ t => (build_writes _ _ t).bind fun _ _ => rfl)
  | dStatic => exact .of_next h rfl
  | dBgLiteral =>
    exact .of_next h (takeIfRoom_writes ((decodeSym_writes _ s).bind fun _ _ => literalStage_writes _ _))
  | dBgMlen => exact .of_next h ((readBits_writes _ s).bind fun _ _ => rfl)
  | dBgMdist => exact .of_next h ((decodeSym_writes _ s).bind fun _ _ => distanceStage_writes _ _)
  | dBgMdistwr => exact .of_next h (takeIfRoom_writes ((readBits_writes _ s).bind fun _ _ => rfl))
  | _ => cases hi

/-! ## The encoder's side -/

/-- A byte goes to `optr`, which moves past it and does not wrap (R44). -/
theorem outByte_encoderWrites (v : Byte) (s : State) : EncoderWrites s (outByte v s).state := by
  obtain hf | hf := Nat.lt_or_ge s.pk.optr.toNat s.cfg.outMemBytes
  · rw [outByte_of_room v s hf]
    refine ⟨rfl, fun hc => ?_⟩
    have hnext : (s.pk.optr + 1).toNat = s.pk.optr.toNat + 1 := BitVec.toNat_add_of_lt (by simp; omega)
    refine ⟨hnext.symm ▸ Nat.le_succ _, fun a ha => memRead_memWrite_other _ _ _ _ ?_⟩
    simp only [Res.state_ok, hnext] at ha
    omega
  · rw [outByte_of_full v s hf]
    exact encoderWrites_registers s

/-- What the encoder's side writes is closed under the packer's elementary writes. -/
theorem encoderWrites_packerClosed (s : State) : PackerClosed (EncoderWrites s) where
  byte v t h := h.trans (outByte_encoderWrites v t)
  drop _ _ h := h.trans ⟨rfl, fun _ => .of_same rfl rfl⟩
  accumulate _ _ _ h := h.trans ⟨rfl, fun _ => .of_same rfl rfl⟩
  raised _ _ t h := h.trans (encoderWrites_registers t)

theorem putBits_encoderWrites (v n : Nat) (s : State) : EncoderWrites s (putBits v n s).state :=
  (encoderWrites_packerClosed s).putBits v n s (.refl s)

theorem encodeSym_encoderWrites (sel : Sel) (y : Nat) (s : State) : EncoderWrites s (encodeSym sel y s).state :=
  (encoderWrites_packerClosed s).encodeSym sel y s (.refl s)

theorem finalizePacker_encoderWrites (s : State) : EncoderWrites s (finalizePacker s).state :=
  (encoderWrites_packerClosed s).finalizePacker s (.refl s)

theorem putExtra_encoderWrites (y x : Nat) (s : State) : EncoderWrites s (putExtra y x s).state := by
  unfold putExtra
  split_ifs
  · exact putBits_encoderWrites _ _ s
  · exact putBits_encoderWrites _ _ s
  · exact putBits_encoderWrites _ _ s
  · exact .refl s

theorem build_encoderWrites (sel : Sel) (lens : List Nat) (s : State) :
    EncoderWrites s (build sel lens s).state := by
  obtain ⟨-, h⟩ | ⟨e, h⟩ := build_cases sel lens s <;> rw [h]
  · cases sel <;> exact encoderWrites_registers s
  · exact encoderWrites_registers s

theorem setCounts_encoderWrites (lit dist codeLen : List Nat) (s : State) :
    EncoderWrites s (setCounts lit dist codeLen s) :=
  encoderWrites_registers s

theorem queueLens_encoderWrites (lit dist : List Nat) (s : State) :
    EncoderWrites s (queueLens lit dist s) :=
  encoderWrites_registers s

theorem eBuildStep_encoderWrites (lit dist codeLen : List Nat) (s : State) :
    EncoderWrites s (eBuildStep lit dist codeLen s).state :=
  (build_encoderWrites _ _ s).bind fun _ t => (build_encoderWrites _ _ t).bind fun _ t =>
    (build_encoderWrites _ _ t).bind fun _ t => (setCounts_encoderWrites lit dist codeLen t).trans <|
      (queueLens_encoderWrites lit dist _).trans (encoderWrites_registers _)

theorem eHeaderStep_encoderWrites (s : State) : EncoderWrites s (eHeaderStep s).state :=
  (putBits_encoderWrites _ _ s).bind fun _ t => (putBits_encoderWrites _ _ t).bind fun _ t =>
    (putBits_encoderWrites _ _ t).bind fun _ t => (putBits_encoderWrites _ _ t).bind fun _ t =>
    (putBits_encoderWrites _ _ t).bind fun _ t => encoderWrites_registers t

theorem eMetalenStep_encoderWrites (v : Nat) (s : State) : EncoderWrites s (eMetalenStep v s).state := by
  refine (putBits_encoderWrites _ _ s).bind fun _ t => ?_
  rw [Res.state_ok]
  split_ifs <;> exact encoderWrites_registers t

theorem eCodelenStep_encoderWrites (s : State) : EncoderWrites s (eCodelenStep s).state := by
  refine (encodeSym_encoderWrites _ _ s).bind fun _ t => (putExtra_encoderWrites _ _ t).bind fun _ u => ?_
  rw [Res.state_ok]
  split_ifs <;> exact encoderWrites_registers u

theorem takeMatch_encoderWrites (l : BitVec 9) (d : BitVec 16) (s : State) :
    EncoderWrites s (takeMatch l d s) := by
  obtain ⟨-, h⟩ | ⟨-, h⟩ := takeMatch_cases l d s <;> rw [h] <;> exact encoderWrites_registers s

theorem takeWord_encoderWrites (w : Word) (s : State) : EncoderWrites s (takeWord w s) := by
  obtain ⟨b, -, h⟩ | ⟨l, d, -, h⟩ | ⟨-, h⟩ | ⟨r, -, h⟩ := takeWord_cases w s <;> rw [h]
  · exact encoderWrites_registers s
  · exact takeMatch_encoderWrites l d s
  · exact encoderWrites_registers s
  · exact encoderWrites_registers s

/-- An operation and then a move of `state`. -/
theorem EncoderWrites.then_moved {s : State} {r : Res Unit} (f : Fsm) (h : EncoderWrites s r.state) :
    EncoderWrites s (r.bind fun _ t => Res.ok () (setState f t)).state :=
  h.bind fun _ t => encoderWrites_registers t

theorem exec_encoderWrites {i : Instr} {s t : State} (hc : i.isCommand = false) (hd : i.isDecoder = false)
    (h : exec i s = .next t) : EncoderWrites s t := by
  cases i with
  | build sel =>
    simp only [exec, execBuild] at h
    split at h
    · cases h
    · exact .of_next h (build_encoderWrites _ _ s)
  | encodesym sel => exact .of_next h (encodeSym_encoderWrites _ _ s)
  | rleEmit sel =>
    simp only [exec, execRleEmit] at h
    split at h
    · cases h
    · exact .of_next h (encoderWrites_registers s)
  | put n => exact .of_next h (putBits_encoderWrites _ _ s)
  | finalize => exact .of_next h (finalizePacker_encoderWrites s)
  | rleExpand =>
    cases h
    split <;> exact encoderWrites_registers s
  | eBuild =>
    simp only [exec, execEBuild] at h
    split at h
    · exact .of_next h (eBuildStep_encoderWrites _ _ _ s)
    all_goals cases h
  | eHeader => exact .of_next h (eHeaderStep_encoderWrites s)
  | eMetalen =>
    simp only [exec, execEMetalen] at h
    split at h
    · cases h
    · exact .of_next h (eMetalenStep_encoderWrites _ s)
  | eCodelen => exact .of_next h (eCodelenStep_encoderWrites s)
  | eWriteToken =>
    simp only [exec, execEWriteToken] at h
    split at h
    · cases h
    · exact .of_next h (takeWord_encoderWrites _ s)
  | eLitRep => exact .of_next h ((encodeSym_encoderWrites _ _ s).then_moved _)
  | eMatchDistRep => exact .of_next h ((encodeSym_encoderWrites _ _ s).then_moved _)
  | eMatchExtra => exact .of_next h ((putBits_encoderWrites _ _ s).then_moved _)
  | eDistRep => exact .of_next h ((encodeSym_encoderWrites _ _ s).then_moved _)
  | eDistExtra => exact .of_next h ((putBits_encoderWrites _ _ s).then_moved _)
  | eEob => exact .of_next h ((encodeSym_encoderWrites _ _ s).then_moved _)
  | eFinalize => exact .of_next h ((finalizePacker_encoderWrites s).then_moved _)
  | tokenLiteral b => exact .of_next h (encoderWrites_registers s)
  | tokenMatch l d => exact .of_next h (takeMatch_encoderWrites l d s)
  | tokenEnd => exact .of_next h (encoderWrites_registers s)
  | startDecode | startEncode | softReset | setMode => cases hc
  | _ => cases hd

/-- An operation of the engine writes what its side writes. -/
theorem exec_writes {i : Instr} {s t : State} (hc : i.isCommand = false) (h : exec i s = .next t) :
    (i.isDecoder = true ∧ DecoderWrites s t) ∨ (i.isDecoder = false ∧ EncoderWrites s t) := by
  cases hd : i.isDecoder with
  | true => exact .inl ⟨rfl, exec_decoderWrites hd h⟩
  | false => exact .inr ⟨rfl, exec_encoderWrites hc hd h⟩

/-- No operation is of both sides. -/
theorem isEncoder_of_isDecoder {i : Instr} (h : i.isDecoder = true) : i.isEncoder = false := by
  revert h
  cases i <;> simp [Instr.isDecoder, Instr.isEncoder]

end Sys2Proof.Machine

open Sys2Proof Sys2Proof.Machine

/-- Settles O16: the decoder's side stores nothing, and the encoder's side through the packer only. -/
theorem engineStoresOnlyAtTheOutputPointer : Obligations.EngineStoresOnlyAtTheOutputPointer := by
  unfold Obligations.EngineStoresOnlyAtTheOutputPointer
  intro i s t hi hc h
  have hs : StoresAtPointer s t := by
    obtain ⟨-, hw⟩ | ⟨-, hw⟩ := exec_writes hi h
    · obtain ⟨hm, -, hp⟩ := hw.leaves
      exact .of_same hm (by rw [hp])
    · exact hw.stores hc
  exact ⟨hs.optr, hs.stored⟩

/-- Settles O25: what each side writes leaves the rest as it was. -/
theorem engineOperationsKeepTheirFrame : Obligations.EngineOperationsKeepTheirFrame := by
  unfold Obligations.EngineOperationsKeepTheirFrame
  intro i s t hi h
  obtain ⟨hd, hw⟩ | ⟨hd, hw⟩ := exec_writes hi h
  · exact ⟨hw.frame, fun _ => hw.leaves, fun he => absurd he (by simp [isEncoder_of_isDecoder hd])⟩
  · exact ⟨hw.frame, fun he => absurd he (by simp [hd]), fun _ => hw.leaves⟩
end

section
/-! PROOF. READ as an instruction (R76), and that a stream which begins with a symbol's code selects the symbol's
entry (R69, R72). -/

namespace Sys2Proof.Machine

/-- The padded field is the recursive one, whose low bits are the shorter field (R74). -/
theorem paddedFieldAt_mod (s : State) (p : Nat) {n m : Nat} (h : n ≤ m) :
    paddedFieldAt s p m % 2 ^ n = paddedFieldAt s p n := by
  obtain ⟨k, rfl⟩ := Nat.exists_eq_add_of_le h
  rw [← streamField_eq_padded, ← streamField_eq_padded, streamField_mod]

theorem paddedFieldAt_lt (s : State) (p n : Nat) : paddedFieldAt s p n < 2 ^ n := by
  rw [← streamField_eq_padded]
  exact streamField_lt s p n

/-- No row of R68 is a link. -/
theorem IsSymEntry.not_link {sel : Sel} {y l : Nat} {e : Entry} (h : IsSymEntry sel y l e) :
    e.kind ≠ .linkToSubtable := by
  obtain ⟨kind, extra, base, hrow, rfl⟩ := h
  cases hrow <;> exact Kind.noConfusion

/-- The length that a symbol's entry holds (R68). -/
theorem IsSymEntry.len_toNat {sel : Sel} {y l : Nat} {e : Entry} (h : IsSymEntry sel y l e) (hl : l ≤ 15) :
    e.len.toNat = l := by
  obtain ⟨kind, extra, base, -, rfl⟩ := h
  exact (BitVec.toNat_ofNat l 4).trans (Nat.mod_eq_of_lt (by omega))

/-- The subtables stand in the order of their prefixes (R69). -/
theorem subtableOffset_mono (lens : List Nat) (rw : Nat) {p q : Nat} (h : p ≤ q) :
    subtableOffset lens rw p ≤ subtableOffset lens rw q := by
  induction h with
  | refl => exact le_rfl
  | step _ ih => exact ih.trans (by rw [subtableOffset_succ]; omega)

/-- A field from its bit `n` on, whose low bits are the shorter field's. -/
theorem paddedFieldAt_shiftRight_mod (s : State) (p n : Nat) {k m : Nat} (h : k ≤ m) :
    (paddedFieldAt s p (n + m) >>> n) % 2 ^ k = paddedFieldAt s p (n + k) >>> n := by
  simp only [← streamField_eq_padded, streamField_shiftRight]
  obtain ⟨i, rfl⟩ := Nat.exists_eq_add_of_le h
  exact streamField_mod s _ k i

/-- No code goes on for more than 15 bits. -/
theorem maxLen_codesUnder_le {lens : List Nat} (hr : ∀ l ∈ lens, l ≤ 15) (rw p : Nat) :
    maxLen (codesUnder lens rw p) ≤ 15 := by
  by_cases hne : codesUnder lens rw p = []
  · simp [hne, maxLen]
  · have hmax := maxLen_mem hne
    rw [← groupOf_map] at hmax ⊢
    obtain ⟨x, hx, hlen⟩ := List.mem_map.1 hmax
    have := (mem_groupOf.1 hx).1.le hr
    omega

/-! ## The entry of a symbol whose code comes next -/

section
variable {sel : Sel} {lens : List Nat} {s : State} {y l c : Nat}

/-- A code no longer than the root width selects its symbol's root entry (R69, R72). -/
theorem exists_selects_root (hb : Built sel lens (slotOf sel s)) (hc : Coded lens y l c)
    (hle : l ≤ (slotOf sel s).rw.toNat) (hcode : paddedFieldAt s s.cur.pos.toNat l = revBits l c) :
    ∃ e, Selects sel s e ∧ IsSymEntry sel y l e := by
  obtain ⟨e, he, hsym⟩ := (hb.dt y l c hc.len hc.code hc.used).short hle _ (paddedFieldAt_lt s _ _)
    ((paddedFieldAt_mod s _ hle).trans hcode)
  exact ⟨e, ⟨hb.valid, .inl ⟨hsym.not_link, he⟩⟩, hsym⟩

/-- A longer code selects its symbol's entry through the link of its first bits (R69, R72). -/
theorem exists_selects_linked (h : LengthArray sel lens) (hk : kraftSum lens = 2 ^ 15)
    (hb : Built sel lens (slotOf sel s)) (hc : Coded lens y l c) (hlt : (slotOf sel s).rw.toNat < l)
    (hcode : paddedFieldAt s s.cur.pos.toNat l = revBits l c) :
    ∃ e, Selects sel s e ∧ IsSymEntry sel y l e := by
  obtain ⟨-, link, long⟩ := hb.dt y l c hc.len hc.code hc.used
  have hlink := link hlt
  have htsize : subtableOffset lens (slotOf sel s).rw.toNat (2 ^ (slotOf sel s).rw.toNat) ≤ tableEntries :=
    hb.tsize ▸ hb.fits
  generalize hrw : (slotOf sel s).rw.toNat = rw at *
  generalize hp : c >>> (l - rw) = p at *
  have hgroup : (⟨y, l, c⟩ : CodeWord) ∈ groupOf (codeWords lens) rw p := mem_groupOf.2 ⟨hc, hlt, hp⟩
  have hunder : l - rw ∈ codesUnder lens rw p := groupOf_map lens rw p ▸ List.mem_map.2 ⟨_, hgroup, rfl⟩
  have hsize : subtableSize lens rw p = 2 ^ maxLen (codesUnder lens rw p) :=
    if_neg (List.ne_nil_of_mem hunder)
  have hle := le_maxLen hunder
  have hextra := maxLen_codesUnder_le h.range rw p
  have hbase : subtableOffset lens rw p ≤ tableEntries :=
    (subtableOffset_mono lens rw (prefix_lt h.range hk hgroup).le).trans htsize
  generalize maxLen (codesUnder lens rw p) = w at *
  have hroot : paddedFieldAt s s.cur.pos.toNat rw = revBits rw p := by
    rw [← paddedFieldAt_mod s _ hlt.le, hcode, revBits_mod l rw c hlt.le, hp]
  have hj : paddedFieldAt s s.cur.pos.toNat (rw + w) >>> rw < subtableSize lens rw p := by
    rw [hsize, Nat.shiftRight_eq_div_pow]
    exact Nat.div_lt_of_lt_mul (Nat.pow_add 2 rw w ▸ paddedFieldAt_lt s _ _)
  have hmod : (paddedFieldAt s s.cur.pos.toNat (rw + w) >>> rw) % 2 ^ (l - rw) = revBits l c >>> rw := by
    rw [paddedFieldAt_shiftRight_mod s _ rw hle, Nat.add_sub_cancel' hlt.le, hcode]
  obtain ⟨e, he, hsym⟩ := long hlt _ hj hmod
  rw [← hroot, ← hrw] at hlink
  refine ⟨e, ⟨hb.valid, .inr ⟨_, ?_, hlink, ?_⟩⟩, hsym⟩
  · rfl
  · rw [tableEntries] at hbase
    simp only [BitVec.toNat_ofNat, Nat.mod_eq_of_lt (by omega : w < 2 ^ 4),
      Nat.mod_eq_of_lt (by omega : subtableOffset lens rw p < 2 ^ 16), hrw, he]

/-- After a BUILD of a complete array, a stream that begins with a symbol's code selects the symbol's entry. -/
theorem exists_selects (h : LengthArray sel lens) (hk : kraftSum lens = 2 ^ 15)
    (hslot : slotOf sel s = builtSlot sel lens) (hc : Coded lens y l c)
    (hcode : paddedFieldAt s s.cur.pos.toNat l = revBits l c) :
    ∃ e, Selects sel s e ∧ IsSymEntry sel y l e := by
  have hb : Built sel lens (slotOf sel s) := hslot ▸ builtSlot_built h hk
  obtain hle | hlt := le_or_gt l (slotOf sel s).rw.toNat
  · exact exists_selects_root hb hc hle hcode
  · exact exists_selects_linked h hk hb hc hlt hcode

end
end Sys2Proof.Machine

open Sys2Proof Sys2Proof.Machine

/-- Settles O29: READ moves the cursor and answers the field, or raises before anything changes. -/
theorem readReturnsTheFieldOrRaises : Obligations.ReadReturnsTheFieldOrRaises := by
  unfold Obligations.ReadReturnsTheFieldOrRaises
  refine fun s n _ hp => ⟨fun h => ?_, fun h => ?_⟩
  · obtain ⟨c, hread, hpos, hbits⟩ := readBits_ok s n.toNat hp h
    refine ⟨setResVal (fieldAt s s.cur.pos.toNat n.toNat) (withCur c s), ?_, ⟨hpos, hbits⟩, rfl⟩
    simp only [exec, execRead, hread, Res.bind_ok, Res.out_ok]
  · simp only [exec, execRead, readBits_of_not_hasBits s n.toNat h, Res.bind_raised, Res.out_raised,
      BitVec.ofNat_toNat]
    rfl

/-- Settles O37: the slot BUILD left selects the symbol's entry, whose length DECODESYM consumes. -/
theorem decodesymFindsTheCode : Obligations.DecodesymFindsTheCode := by
  unfold Obligations.DecodesymFindsTheCode
  intro sel s0 s lens y l c ha hlens hk hbuild hp hbits hl hne hc hcode
  rw [exec_build_of_array ha, build_complete sel lens s0 hk] at hbuild
  have hslot : slotOf sel s = builtSlot sel lens := by
    cases hbuild
    cases sel <;> rfl
  obtain ⟨e, hsel, hsym⟩ := exists_selects hlens hk hslot ⟨hl, hc, hne⟩
    ((paddedFieldAt_eq_fieldAt s _ l hbits).trans hcode)
  have hlookup := lookup_of_selects sel s e hsel
  have hlen : e.len.toNat = l := hsym.len_toNat (hlens.range l (List.mem_of_getElem? hl))
  obtain ⟨cur, hdec, hpos, hin⟩ := decodeSym_ok sel s hp (by rw [hlookup, hlen]; exact hbits)
  rw [hlookup] at hdec hpos
  rw [hlen] at hpos
  refine ⟨setResEntry e (withCur cur s), ?_, ⟨hpos, hin⟩, hsym, rfl⟩
  simp only [exec, execDecodesym, hdec, Res.bind_ok, Res.out_ok]
end

section
/-! PROOF. The output bit stream (R40): what appending bits to the packer and draining bytes from it do to the
stream (R113, R115), and that an overflow leaves the stream's bytes up to the end of OUT_MEM (R44). -/

namespace Sys2Proof.Machine

/-! ## The stream as a list of bits -/

section
variable {s t : State}

theorem byteBits_length (b : Byte) : (byteBits b).length = 8 := by
  simp [byteBits]

theorem valueBits_length (v n : Nat) : (valueBits v n).length = n := by
  simp [valueBits]

theorem outBits_length (s : State) : (outBits s).length = 8 * s.pk.optr.toNat + s.pk.pn.toNat := by
  simp [outBits, List.length_flatMap, byteBits_length, Nat.mul_comm]

/-- The stream's bits in OUT_MEM (R40). -/
theorem outBits_byte {a j : Nat} (ha : a < s.pk.optr.toNat) (hj : j < 8) :
    (outBits s)[8 * a + j]? = some (((memRead s.outMem a).getD 0).getLsbD j) := by
  have hbit := flatMap_range_getElem? (fun a => byteBits ((memRead s.outMem a).getD 0)) ha (j := j)
    (by rwa [byteBits_length])
  simp only [byteBits_length, List.map_const', List.length_range, List.sum_replicate, smul_eq_mul] at hbit
  rw [Nat.mul_comm, outBits, List.getElem?_append_left, hbit]
  · simp [byteBits, hj]
  · simp [List.length_flatMap, byteBits_length]
    omega

/-- The stream's bits in the accumulator (R40). -/
theorem outBits_held {i : Nat} (hi : i < s.pk.pn.toNat) :
    (outBits s)[8 * s.pk.optr.toNat + i]? = some (s.pk.pacc.getLsbD i) := by
  have hlen : ((List.range s.pk.optr.toNat).flatMap fun a =>
      byteBits ((memRead s.outMem a).getD 0)).length = 8 * s.pk.optr.toNat := by
    simp [List.length_flatMap, byteBits_length, Nat.mul_comm]
  rw [outBits, List.getElem?_append_right (by omega), hlen, Nat.add_sub_cancel_left]
  simp [hi]

/-- The low bytes of the accumulator hold its low bits in order. -/
theorem byteBits_extract (acc : BitVec 64) (k : Nat) :
    ((List.range k).flatMap fun j => byteBits (acc.extractLsb' (8 * j) 8)) =
      (List.range (8 * k)).map acc.getLsbD := by
  induction k with
  | zero => rfl
  | succ k ih =>
    rw [List.range_succ, List.flatMap_append, ih, List.flatMap_singleton, Nat.mul_succ, List.range_add,
      List.map_append, List.map_map]
    congr 1
    refine List.map_congr_left fun i hi => ?_
    simp [List.mem_range.1 hi]

/-! ## Progress of the stream -/

/-- From `s` the packer has gone on to `t`: it has appended the bits `bs` to the stream, and stored bytes of the
stream at OUT_MEM[optr ..] only. -/
structure Poured (s t : State) (bs : List Bool) : Prop where
  rest    : t = withPacker t.outMem t.pk s
  stream  : outBits t = outBits s ++ bs
  total   : t.pk.ptotal = s.pk.ptotal + BitVec.ofNat 32 bs.length
  clean   : Clean t
  optr    : s.pk.optr.toNat ≤ t.pk.optr.toNat
  stored  : ∀ a, a < s.pk.optr.toNat ∨ t.pk.optr.toNat ≤ a → memRead t.outMem a = memRead s.outMem a
  written : ∀ a, s.pk.optr.toNat ≤ a → a < t.pk.optr.toNat → (memRead t.outMem a).isSome = true

theorem Poured.refl (h : Clean s) : Poured s s [] where
  rest := rfl
  stream := (List.append_nil _).symm
  total := (BitVec.add_zero _).symm
  clean := h
  optr := le_rfl
  stored _ _ := rfl
  written a h h' := absurd h' (by omega)

theorem Poured.cfg {bs : List Bool} (h : Poured s t bs) : t.cfg = s.cfg := by rw [h.rest]; rfl

theorem Poured.packBits {bs : List Bool} (h : Poured s t bs) : packBits t = packBits s := by
  rw [Machine.packBits, h.cfg, Machine.packBits]

/-- The bits of the stream are in bytes or held. -/
theorem Poured.length {bs : List Bool} (h : Poured s t bs) :
    8 * t.pk.optr.toNat + t.pk.pn.toNat = 8 * s.pk.optr.toNat + s.pk.pn.toNat + bs.length := by
  rw [← outBits_length, ← outBits_length, h.stream, List.length_append]

theorem total_append {a b c : BitVec 32} {n m : Nat} (h : b = a + BitVec.ofNat 32 n)
    (h' : c = b + BitVec.ofNat 32 m) : c = a + BitVec.ofNat 32 (n + m) := by
  rw [h', h, BitVec.ofNat_add, BitVec.add_assoc]

theorem Poured.trans {u : State} {bs cs : List Bool} (h : Poured s t bs) (h' : Poured t u cs) :
    Poured s u (bs ++ cs) where
  rest := by rw [h'.rest]; rw [h.rest]; rfl
  stream := by rw [h'.stream, h.stream, List.append_assoc]
  total := by rw [List.length_append]; exact total_append h.total h'.total
  clean := h'.clean
  optr := h.optr.trans h'.optr
  stored a ha := by
    have := h.optr
    have := h'.optr
    exact (h'.stored a (by omega)).trans (h.stored a (by omega))
  written a ha ha' := by
    obtain hlt | hge := Nat.lt_or_ge a t.pk.optr.toNat
    · rw [h'.stored a (.inl hlt)]
      exact h.written a ha hlt
    · exact h'.written a hge ha'

/-- Bits poured with less than a word held are appended, whatever else the step then writes. -/
theorem Poured.appended {u : State} {bs : List Bool} (h : Poured s t bs) (ht : PackerOk t) (hc : u.cfg = t.cfg)
    (hp : u.pk = t.pk) (hm : u.outMem = t.outMem) : Appended s u bs := by
  constructor
  case stream => rw [← h.stream, outBits, outBits, hp, hm]
  case total => rw [hp, h.total]
  case packer => exact ht.congr hc hp
  case stored => rw [hp, hm]; exact h.stored

/-- The bytes stored so far are those of the stream. -/
theorem Poured.byte {bs : List Bool} (h : Poured s t bs) {a : Nat} (ha : s.pk.optr.toNat ≤ a)
    (ha' : a < t.pk.optr.toNat) : ∃ b : Byte, memRead t.outMem a = some b ∧
      ∀ j, j < 8 → (outBits s ++ bs)[8 * a + j]? = some (b.getLsbD j) := by
  obtain ⟨b, hb⟩ := Option.isSome_iff_exists.1 (h.written a ha ha')
  refine ⟨b, hb, fun j hj => ?_⟩
  rw [← h.stream, outBits_byte ha' hj, hb]
  rfl

/-- An overflow after some progress is one of the whole. -/
theorem Poured.overflowed {u : State} {bs cs : List Bool} (h : Poured s t bs)
    (ht : t.pk.optr.toNat ≤ s.cfg.outMemBytes) (h' : Overflowed t u cs) : Overflowed s u (bs ++ cs) := by
  obtain ⟨optr, total, bytes, stored, rest⟩ := h'
  rw [h.cfg] at optr bytes stored
  constructor
  case optr => exact optr
  case total => rw [List.length_append]; exact total_append h.total total
  case bytes =>
    intro a ha ha'
    obtain hlt | hge := Nat.lt_or_ge a t.pk.optr.toNat
    · obtain ⟨b, hb, hbits⟩ := h.byte ha hlt
      refine ⟨b, (stored a (.inl hlt)).trans hb, fun j hj => ?_⟩
      rw [← List.append_assoc, List.getElem?_append_left]
      · exact hbits j hj
      · exact (List.getElem?_eq_some_iff.1 (hbits j hj)).1
    · obtain ⟨b, hb, hbits⟩ := bytes a hge ha'
      exact ⟨b, hb, fun j hj => by rw [← List.append_assoc, ← h.stream]; exact hbits j hj⟩
  case stored =>
    intro a ha
    have hle := h.optr
    exact (stored a (by omega)).trans (h.stored a (by omega))
  case rest =>
    rw [rest]
    rw [h.rest]
    rfl

end

/-! ## Appending bits (R113) -/

/-- The bits appended stand above those held, first bit lowest. -/
theorem accumulate_poured {s : State} {v n : Nat} (h : Clean s) (hn : s.pk.pn.toNat + n ≤ 64) :
    Poured s (accumulate v n s) (valueBits v n) := by
  obtain ⟨hclean, hpn⟩ := accumulate_clean (v := v) h (by omega : s.pk.pn.toNat + n < 128)
  refine ⟨rfl, ?_, by rw [valueBits_length]; rfl, hclean, le_rfl, fun _ _ => rfl, fun a ha ha' => absurd ha ?_⟩
  · rw [outBits, hpn, List.range_add, List.map_append, List.map_map, outBits, List.append_assoc, valueBits]
    congr 2
    · refine List.map_congr_left fun i hi => ?_
      have hi := List.mem_range.1 hi
      simp [accumulate, hi]
    · refine List.map_congr_left fun i hi => ?_
      have hi := List.mem_range.1 hi
      have hheld : s.pk.pacc.getLsbD (s.pk.pn.toNat + i) = false := by
        rw [← BitVec.testBit_toNat]
        exact Nat.testBit_lt_two_pow (h.trans_le (Nat.pow_le_pow_right (by decide) (by omega)))
      have hnew : (BitVec.ofNat 64 (v % 2 ^ n)).getLsbD i = v.testBit i := by
        rw [BitVec.getLsbD_ofNat, Nat.testBit_mod_two_pow]
        simp [hi, show i < 64 by omega]
      have hplace : s.pk.pn.toNat + i < 64 := by omega
      simp only [Function.comp_apply, accumulate, BitVec.getLsbD_or, hheld, BitVec.getLsbD_shiftLeft,
        Nat.add_sub_cancel_left, hnew, hplace, decide_true]
      simp
  · exact Nat.not_le.2 ha'

/-! ## Storing bytes (R44) -/

/-- The memory `m` is OUT_MEM of `s` with the bytes `j .. j+k-1` of `acc` stored from `optr` on. -/
def StoresBytes (acc : BitVec 64) (j k : Nat) (s : State) (m : Cells 8) : Prop :=
  ∀ a, memRead m a = if s.pk.optr.toNat ≤ a ∧ a < s.pk.optr.toNat + k
    then some (acc.extractLsb' (8 * (j + (a - s.pk.optr.toNat))) 8) else memRead s.outMem a

/-- The state with the pointer at `o` and another OUT_MEM: what a store of bytes leaves. -/
def afterStore (m : Cells 8) (o : BitVec 32) (s : State) : State :=
  withPacker m { s.pk with optr := o } s

@[simp] theorem afterStore_cfg (m : Cells 8) (o : BitVec 32) (s : State) : (afterStore m o s).cfg = s.cfg := rfl

@[simp] theorem afterStore_optr (m : Cells 8) (o : BitVec 32) (s : State) : (afterStore m o s).pk.optr = o := rfl

@[simp] theorem afterStore_outMem (m : Cells 8) (o : BitVec 32) (s : State) : (afterStore m o s).outMem = m := rfl

theorem outBytes_of_room {acc : BitVec 64} {j k : Nat} {s : State}
    (h : s.pk.optr.toNat + k ≤ s.cfg.outMemBytes) (hc : s.pk.optr.toNat + k < 2 ^ 32) :
    ∃ m o, StoresBytes acc j k s m ∧ o.toNat = s.pk.optr.toNat + k ∧
      outBytes acc j k s = .ok () (afterStore m o s) := by
  induction k generalizing j s with
  | zero => exact ⟨s.outMem, s.pk.optr, fun a => (if_neg (by omega)).symm, rfl, rfl⟩
  | succ k ih =>
    have hnext : (s.pk.optr + 1).toNat = s.pk.optr.toNat + 1 := BitVec.toNat_add_of_lt (by simp; omega)
    obtain ⟨m, o, hm, ho, hrun⟩ := ih (j := j + 1)
      (s := afterStore (memWrite s.outMem s.pk.optr.toNat (acc.extractLsb' (8 * j) 8)) (s.pk.optr + 1) s)
      (by rw [afterStore_cfg, afterStore_optr, hnext]; omega) (by rw [afterStore_optr, hnext]; omega)
    rw [afterStore_optr, hnext] at ho
    refine ⟨m, o, fun a => ?_, by omega, ?_⟩
    · rw [hm a, afterStore_optr, hnext, afterStore_outMem, memRead_memWrite]
      by_cases ha : a = s.pk.optr.toNat
      · simp [ha]
      · simp only [ha, if_false, show s.pk.optr.toNat + 1 ≤ a ∧ a < s.pk.optr.toNat + 1 + k ↔
          s.pk.optr.toNat ≤ a ∧ a < s.pk.optr.toNat + (k + 1) by omega]
        split
        · congr 3
          omega
        · rfl
    · rw [outBytes, outByte_of_room _ s (by omega), Res.bind_ok]
      exact hrun

theorem outBytes_add (acc : BitVec 64) (j k l : Nat) (s : State) :
    outBytes acc j (k + l) s = (outBytes acc j k s).bind fun _ t => outBytes acc (j + k) l t := by
  induction k generalizing j s with
  | zero => simp [outBytes]
  | succ k ih =>
    rw [Nat.succ_add, outBytes, outBytes, Res.bind_assoc]
    simp only [ih, show j + 1 + k = j + (k + 1) by omega]

theorem outBytes_of_full {acc : BitVec 64} {j k : Nat} {s : State}
    (hp : s.pk.optr.toNat ≤ s.cfg.outMemBytes) (h : s.cfg.outMemBytes < s.pk.optr.toNat + k)
    (hc : s.cfg.outMemBytes < 2 ^ 32) :
    ∃ m o, StoresBytes acc j (s.cfg.outMemBytes - s.pk.optr.toNat) s m ∧ o.toNat = s.cfg.outMemBytes ∧
      outBytes acc j k s = .raised (raiseErr .outputOverflow o (afterStore m o s)) := by
  obtain ⟨l, hl⟩ : ∃ l, k = (s.cfg.outMemBytes - s.pk.optr.toNat) + (l + 1) :=
    ⟨k - (s.cfg.outMemBytes - s.pk.optr.toNat) - 1, by omega⟩
  obtain ⟨m, o, hm, ho, hrun⟩ := outBytes_of_room (acc := acc) (j := j) (s := s)
    (k := s.cfg.outMemBytes - s.pk.optr.toNat) (by omega) (by omega)
  rw [Nat.add_sub_cancel' hp] at ho
  refine ⟨m, o, hm, ho, ?_⟩
  rw [hl, outBytes_add, hrun, Res.bind_ok, outBytes, outByte_of_full _ _ ho.ge]
  rfl

/-! ## One round of the flush loops (R113, R115) -/

/-- Store the low `k` bytes of the accumulator and drop them. -/
def drain (k : Nat) (s : State) : Res Unit :=
  (outBytes s.pk.pacc 0 k s).bind fun _ t => .ok () (dropPacked (8 * k) t)

/-- A round of PUT's loop drains a word (R113). -/
theorem flushWords_succ (k : Nat) (s : State) : flushWords (k + 1) s =
    if packBits s ≤ s.pk.pn.toNat then (drain (packBits s / 8) s).bind fun _ t => flushWords k t
    else .ok () s := by
  rw [flushWords, drain]
  congr 1
  cases h : outBytes s.pk.pacc 0 (packBits s / 8) s with
  | ok a t =>
    have hsame : packBits t = 8 * (packBits s / 8) := by
      rw [packBits, (outBytes_ok h).1, ← packBits]
      obtain hw | hw | hw := packBits_cases s <;> omega
    simp only [Res.bind_ok, hsame]
  | raised t => rfl

/-- A round of FINALIZE's loop drains a byte (R115). -/
theorem flushBytes_succ (k : Nat) (s : State) : flushBytes (k + 1) s =
    if 0 < s.pk.pn.toNat then (drain 1 s).bind fun _ t => flushBytes k t else .ok () s := by
  rw [flushBytes, drain, outBytes, Res.bind_assoc, Res.bind_assoc]
  rfl

section
variable {s : State} {k : Nat}

/-- A drain with room for its bytes leaves the stream as it was. -/
theorem drain_of_room (h : Clean s) (hk : 8 * k ≤ s.pk.pn.toNat)
    (hr : s.pk.optr.toNat + k ≤ s.cfg.outMemBytes) (hc : s.pk.optr.toNat + k < 2 ^ 32) :
    ∃ t, drain k s = .ok () t ∧ Poured s t [] ∧ t.pk.optr.toNat = s.pk.optr.toNat + k ∧
      t.pk.pn.toNat = s.pk.pn.toNat - 8 * k := by
  obtain ⟨m, o, hm, ho, hrun⟩ := outBytes_of_room (acc := s.pk.pacc) (j := 0) hr hc
  obtain ⟨hclean, hpn⟩ := dropPacked_clean (s := afterStore m o s) (n := 8 * k) h hk
  refine ⟨dropPacked (8 * k) (afterStore m o s), by rw [drain, hrun, Res.bind_ok], ?_, ho, hpn⟩
  constructor
  case rest => rfl
  case total => exact (BitVec.add_zero _).symm
  case clean => exact hclean
  case optr => exact ho.symm ▸ Nat.le_add_right _ _
  case stored =>
    intro a ha
    have ha : a < s.pk.optr.toNat ∨ o.toNat ≤ a := ha
    exact (hm a).trans (if_neg (by omega))
  case written =>
    intro a ha ha'
    have ha' : a < o.toNat := ha'
    have hread := (hm a).trans (if_pos (by omega))
    exact Option.isSome_of_eq_some hread
  case stream =>
    have hbytes : ((List.range o.toNat).flatMap fun a => byteBits ((memRead m a).getD 0)) =
        ((List.range s.pk.optr.toNat).flatMap fun a => byteBits ((memRead s.outMem a).getD 0)) ++
          (List.range (8 * k)).map s.pk.pacc.getLsbD := by
      rw [ho, List.range_add, List.flatMap_append, ← byteBits_extract, List.flatMap_map]
      congr 1
      · refine List.flatMap_congr fun a ha => ?_
        have := List.mem_range.1 ha
        rw [hm a, if_neg (by omega)]
      · refine List.flatMap_congr fun i hi => ?_
        have := List.mem_range.1 hi
        rw [hm _, if_pos (by omega)]
        simp
    have hheld : (List.range (s.pk.pn.toNat - 8 * k)).map (s.pk.pacc >>> (8 * k)).getLsbD =
        (List.range (s.pk.pn.toNat - 8 * k)).map fun i => s.pk.pacc.getLsbD (8 * k + i) :=
      List.map_congr_left fun i _ => by simp
    rw [List.append_nil, outBits, hpn]
    refine (congrArg₂ (· ++ ·) hbytes hheld).trans ?_
    rw [List.append_assoc, outBits]
    conv_rhs => rw [← Nat.add_sub_cancel' hk, List.range_add, List.map_append, List.map_map]
    rfl

/-- A drain without room stores bytes of the stream to the end of OUT_MEM, and overflows (R44). -/
theorem drain_of_full (hk : 8 * k ≤ s.pk.pn.toNat) (hp : s.pk.optr.toNat ≤ s.cfg.outMemBytes)
    (hf : s.cfg.outMemBytes < s.pk.optr.toNat + k) (hc : s.cfg.outMemBytes < 2 ^ 32) :
    ∃ t, drain k s = .raised t ∧ Overflowed s t [] := by
  obtain ⟨m, o, hm, ho, hrun⟩ := outBytes_of_full (acc := s.pk.pacc) (j := 0) hp hf hc
  refine ⟨_, by rw [drain, hrun, Res.bind_raised], ?_⟩
  constructor
  case optr => exact ho
  case total => exact (BitVec.add_zero _).symm
  case bytes =>
    intro a ha ha'
    refine ⟨s.pk.pacc.extractLsb' (8 * (0 + (a - s.pk.optr.toNat))) 8,
      (hm a).trans (if_pos (by omega)), fun j hj => ?_⟩
    rw [List.append_nil, show 8 * a + j = 8 * s.pk.optr.toNat + (8 * (a - s.pk.optr.toNat) + j) by omega,
      outBits_held (by omega)]
    simp [hj]
  case stored => exact fun a ha => (hm a).trans (if_neg (by omega))
  case rest =>
    rw [← ho, BitVec.ofNat_toNat, BitVec.setWidth_eq]
    rfl

end
end Sys2Proof.Machine
end

section
/-! PROOF. What a PUT, a sequence of PUTs and FINALIZE pass to the output stream, and where OUT_MEM has no place for
it (R44, R113..R115). -/

namespace Sys2Proof.Machine

/-! ## Room in OUT_MEM (R44) -/

section
variable {s t : State} {bs : List Bool}

/-- Room is for what the words completed so far and those still to come take. -/
theorem outRoom_iff {q n : Nat} (hc : t.cfg = s.cfg) (ho : t.pk.optr.toNat = s.pk.optr.toNat + packBits s / 8 * q)
    (hn : t.pk.pn.toNat + packBits s * q = s.pk.pn.toNat + n) (m : Nat) : OutRoom t m ↔ OutRoom s (n + m) := by
  have hsame : packBits t = packBits s := by rw [packBits, hc, packBits]
  have hpos : 0 < packBits s := by obtain hw | hw | hw := packBits_cases s <;> omega
  have hend : t.pk.optr.toNat + packBits t / 8 * ((t.pk.pn.toNat + m) / packBits t) =
      s.pk.optr.toNat + packBits s / 8 * ((s.pk.pn.toNat + (n + m)) / packBits s) := by
    rw [hsame, ho, ← Nat.add_assoc, ← hn, Nat.add_right_comm _ _ m, Nat.add_mul_div_left _ _ hpos, Nat.mul_add]
    omega
  rw [OutRoom, hend, hc]

/-- Room for more bits is room for fewer. -/
theorem OutRoom.mono {n m : Nat} (h : OutRoom s m) (hn : n ≤ m) : OutRoom s n := by
  have hwords : packBits s / 8 * ((s.pk.pn.toNat + n) / packBits s) ≤
      packBits s / 8 * ((s.pk.pn.toNat + m) / packBits s) :=
    Nat.mul_le_mul_left _ (Nat.div_le_div_right (by omega))
  exact ⟨by omega, by omega⟩

theorem OutRoom.optr_le {n : Nat} (h : OutRoom s n) : s.pk.optr.toNat ≤ s.cfg.outMemBytes :=
  (Nat.le_add_right _ _).trans h.1

/-- Room for all the bits in bytes is room for the words they complete. -/
theorem ByteRoom.outRoom {n : Nat} (h : ByteRoom s n) : OutRoom s n := by
  obtain ⟨hle, hlt⟩ := h
  have hwords : packBits s / 8 * ((s.pk.pn.toNat + n) / packBits s) ≤ (s.pk.pn.toNat + n) / 8 := by
    obtain hw | hw | hw := packBits_cases s <;> rw [hw] <;> omega
  exact ⟨by omega, by omega⟩

/-- Room in bytes is for the bits of the stream. -/
theorem Poured.byteRoom_iff (h : Poured s t bs) (m : Nat) : ByteRoom t m ↔ ByteRoom s (bs.length + m) := by
  have hend : t.pk.optr.toNat + (t.pk.pn.toNat + m) / 8 =
      s.pk.optr.toNat + (s.pk.pn.toNat + (bs.length + m)) / 8 := by
    have := h.length
    omega
  rw [ByteRoom, hend, h.cfg]

end

/-! ## PUT (R113) -/

/-- What PUTs of the bits `bs` leave when OUT_MEM has room for them: the stream has gone on, less than a word is
held, and the room left is the room there was but for `bs`. -/
structure Put (s t : State) (bs : List Bool) : Prop extends Poured s t bs where
  partialWord : t.pk.pn.toNat < packBits t
  room : ∀ m, OutRoom t m ↔ OutRoom s (bs.length + m)

section
variable {s t : State} {bs : List Bool}

theorem Put.refl (h : PackerOk s) : Put s s [] :=
  ⟨.refl h.clean, h.partialWord, fun m => by rw [List.length_nil, Nat.zero_add]⟩

theorem Put.packerOk (h : Put s t bs) : PackerOk t := ⟨h.partialWord, h.clean⟩

theorem Put.trans {u : State} {cs : List Bool} (h : Put s t bs) (h' : Put t u cs) : Put s u (bs ++ cs) :=
  ⟨h.toPoured.trans h'.toPoured, h'.partialWord, fun m => by
    rw [h'.room, h.room, List.length_append, Nat.add_assoc]⟩

/-- What has been put is appended, whatever else the step then writes. -/
theorem Put.appended {u : State} (h : Put s t bs) (hc : u.cfg = t.cfg) (hp : u.pk = t.pk)
    (hm : u.outMem = t.outMem) : Appended s u bs :=
  h.toPoured.appended h.packerOk hc hp hm

/-- The operation `r` passes the bits `bs` to the stream: they are put where OUT_MEM has room for the words they
complete, and it overflows where it has not. -/
structure Puts (s : State) (bs : List Bool) (r : Res Unit) : Prop where
  fits : OutRoom s bs.length → ∃ t, r = .ok () t ∧ Put s t bs
  full : s.cfg.outMemBytes < 2 ^ 32 → s.pk.optr.toNat ≤ s.cfg.outMemBytes → ¬OutRoom s bs.length →
    ∃ t, r = .raised t ∧ Overflowed s t bs

/-- With less than a word held there is nothing to drain. -/
theorem puts_nothing (h : PackerOk s) : Puts s [] (.ok () s) := by
  refine ⟨fun _ => ⟨s, rfl, .refl h⟩, fun hc ho hr => absurd ?_ hr⟩
  rw [OutRoom, List.length_nil, Nat.add_zero, Nat.div_eq_of_lt h.partialWord]
  omega

/-- What an operation puts after some progress of the stream. -/
theorem Puts.after {cs : List Bool} {r : Res Unit} (h : Poured s t bs)
    (hroom : ∀ m, OutRoom t m ↔ OutRoom s (bs.length + m))
    (ho : s.pk.optr.toNat ≤ s.cfg.outMemBytes → t.pk.optr.toNat ≤ s.cfg.outMemBytes) (hr : Puts t cs r) :
    Puts s (bs ++ cs) r := by
  obtain ⟨fits, full⟩ := hr
  rw [h.cfg, hroom, ← List.length_append] at full
  rw [hroom, ← List.length_append] at fits
  refine ⟨fun hs => ?_, fun hc hs hn => ?_⟩
  · obtain ⟨u, hrun, hu⟩ := fits hs
    exact ⟨u, hrun, h.trans hu.toPoured, hu.partialWord, fun m => by
      rw [hu.room, hroom, List.length_append, Nat.add_assoc]⟩
  · obtain ⟨u, hrun, hu⟩ := full hc (ho hs) hn
    exact ⟨u, hrun, h.overflowed (ho hs) hu⟩

/-- PUT's loop drains every whole word, or stops at the end of OUT_MEM (R44, R113). -/
theorem flushWords_puts (k : Nat) {s : State} (h : Clean s) (hk : s.pk.pn.toNat < packBits s * (k + 1)) :
    Puts s [] (flushWords k s) := by
  induction k generalizing s with
  | zero => exact puts_nothing ⟨by omega, h⟩
  | succ k ih =>
    rw [flushWords_succ]
    split
    swap
    · exact puts_nothing ⟨by omega, h⟩
    rename_i hw
    have hbits := packBits_cases s
    by_cases hr : s.pk.optr.toNat + packBits s / 8 ≤ s.cfg.outMemBytes ∧
        s.pk.optr.toNat + packBits s / 8 < 2 ^ 32
    · obtain ⟨t, hrun, ht, ho, hn⟩ := drain_of_room h (by omega) hr.1 hr.2
      have hroom : ∀ m, OutRoom t m ↔ OutRoom s (0 + m) :=
        outRoom_iff (q := 1) ht.cfg (by omega) (by omega)
      have hputs : Puts t [] (flushWords k t) := ih ht.clean <| by
        rw [ht.packBits]
        rw [Nat.mul_add] at hk
        omega
      rw [hrun, Res.bind_ok]
      exact hputs.after ht hroom fun _ => by omega
    · refine ⟨fun (hs : OutRoom s 0) => absurd ?_ hr, fun hc ho _ => ?_⟩
      · have hword : packBits s / 8 ≤ packBits s / 8 * ((s.pk.pn.toNat + 0) / packBits s) :=
          Nat.le_mul_of_pos_right _ (Nat.div_pos hw (by omega))
        omega
      · obtain ⟨t, hrun, ht⟩ := drain_of_full (k := packBits s / 8) (by omega) ho (by omega) hc
        exact ⟨t, by rw [hrun, Res.bind_raised], ht⟩

/-- PUT appends the low `n` bits of its value (R113). -/
theorem putBits_puts {v n : Nat} (h : PackerOk s) (hn : n ≤ 32) : Puts s (valueBits v n) (putBits v n s) := by
  have hbits := packBits_cases s
  have hpartial := h.partialWord
  obtain ⟨hclean, hpn⟩ := accumulate_clean (v := v) (n := n) h.clean (by omega)
  have hroom : ∀ m, OutRoom (accumulate v n s) m ↔ OutRoom s ((valueBits v n).length + m) := by
    rw [valueBits_length]
    exact outRoom_iff (q := 0) rfl rfl (by omega)
  have hflush : Puts (accumulate v n s) [] (putBits v n s) := flushWords_puts 16 hclean (by
    rw [hpn, show packBits (accumulate v n s) = packBits s from rfl]
    omega)
  exact List.append_nil (valueBits v n) ▸ hflush.after (accumulate_poured h.clean (by omega)) hroom id

/-! ## PUTs in sequence -/

/-- The operation `r` passes the bit strings `puts` to PUT in order: it ends as `g` says where OUT_MEM has room for
them all, and stops at the first that does not fit (R6, R44). -/
structure Emits (s : State) (puts : List (List Bool)) (g : State → State) (r : Res Unit) : Prop where
  fits : OutRoom s puts.flatten.length → ∃ t, r = .ok () (g t) ∧ Put s t puts.flatten
  full : s.cfg.outMemBytes < 2 ^ 32 → ∀ k, k < puts.length → OutRoom s (puts.take k).flatten.length →
    ¬OutRoom s (puts.take (k + 1)).flatten.length →
    ∃ t, r = .raised t ∧ Overflowed s t (puts.take (k + 1)).flatten

theorem emits_nothing (h : PackerOk s) (g : State → State) : Emits s [] g (.ok () (g s)) :=
  ⟨fun _ => ⟨s, rfl, .refl h⟩, fun _ k hk => absurd hk (Nat.not_lt_zero k)⟩

/-- A PUT and then the rest. -/
theorem Puts.bind {puts : List (List Bool)} {g : State → State} {r : Res Unit} {f : Unit → State → Res Unit}
    (hr : Puts s bs r)
    (hf : ∀ m p, Put s (withPacker m p s) bs → Emits (withPacker m p s) puts g (f () (withPacker m p s))) :
    Emits s (bs :: puts) g (r.bind f) := by
  have rest {t : State} (ht : Put s t bs) : Emits t puts g (f () t) := ht.rest ▸ hf _ _ (ht.rest ▸ ht)
  constructor
  case fits =>
    intro hs
    rw [List.flatten_cons, List.length_append] at hs
    obtain ⟨t, hrun, ht⟩ := hr.fits (hs.mono (Nat.le_add_right _ _))
    obtain ⟨u, hrun', hu⟩ := (rest ht).fits ((ht.room _).2 hs)
    exact ⟨u, by rw [hrun, Res.bind_ok, hrun'], ht.trans hu⟩
  case full =>
    intro hc k hk hs hn
    cases k with
    | zero =>
      have hone : ((bs :: puts).take (0 + 1)).flatten = bs := by simp
      rw [hone] at hn ⊢
      obtain ⟨t, hrun, ht⟩ := hr.full hc hs.optr_le hn
      exact ⟨t, by rw [hrun, Res.bind_raised], ht⟩
    | succ k =>
      simp only [List.take_succ_cons, List.flatten_cons, List.length_append] at hs hn ⊢
      obtain ⟨t, hrun, ht⟩ := hr.fits (hs.mono (Nat.le_add_right _ _))
      rw [← ht.room] at hs hn
      obtain ⟨u, hrun', hu⟩ := (rest ht).full (ht.cfg.symm ▸ hc) k (Nat.lt_of_succ_lt_succ hk) hs hn
      exact ⟨u, by rw [hrun, Res.bind_ok, hrun'], ht.toPoured.overflowed (ht.cfg ▸ hs.optr_le) hu⟩

/-- A PUT and a last statement. -/
theorem Puts.then {r : Res Unit} (g : State → State) (hr : Puts s bs r) :
    Emits s [bs] g (r.bind fun _ t => .ok () (g t)) :=
  hr.bind fun _ _ ht => emits_nothing ht.packerOk g

theorem Puts.emits {r : Res Unit} (hr : Puts s bs r) : Emits s [bs] id r := by
  cases r with
  | ok a t => exact hr.then id
  | raised t => exact hr.then id

/-! ## The instructions that put (R100..R102, R105..R113) -/

/-- An instruction with room for what it puts. -/
theorem Emits.exec_of_room {i : Instr} {puts : List (List Bool)} {g : State → State} {r : Res Unit}
    (h : Emits s puts g r) (he : exec i s = r.out) (hbs : puts.flatten = bs) (hr : OutRoom s bs.length) :
    ∃ m p, exec i s = .next (g (withPacker m p s)) ∧ Put s (withPacker m p s) bs := by
  subst hbs
  obtain ⟨t, hrun, ht⟩ := h.fits hr
  exact ⟨t.outMem, t.pk, by rw [← ht.rest, he, hrun, Res.out_ok], ht.rest ▸ ht⟩

/-- An instruction without room for what it puts (R44). -/
theorem Emits.overflowsAt {i : Instr} {puts : List (List Bool)} {g : State → State} {r : Res Unit}
    (h : Emits s puts g r) (he : exec i s = r.out) (hc : s.cfg.outMemBytes < 2 ^ 32) : OverflowsAt i s puts := by
  intro k hk hs hn
  obtain ⟨t, hrun, ht⟩ := h.full hc k hk hs hn
  exact ⟨t, by rw [he, hrun, Res.out_raised], ht⟩

/-- ENCODESYM puts the code of a symbol that has one (R112). -/
theorem encodeSym_puts {sel : Sel} {y : Nat} {e : EncEntry} (h : PackerOk s) (he : HasCode sel y s e) :
    Puts s (valueBits e.code.toNat e.len.toNat) (encodeSym sel y s) := by
  rw [encodeSym_of_hasCode sel y s e he]
  exact putBits_puts h (by omega)

/-- A step that begins with ENCODESYM of a symbol without a code raises UnencodableSymbol (R112). -/
theorem raisesUnencodable_of_no_code {i : Instr} {sel : Sel} {y : Nat} {e : EncEntry}
    {f : Unit → State → Res Unit} (hi : exec i s = ((encodeSym sel y s).bind f).out)
    (hv : (slotOf sel s).valid = true) (he : (slotOf sel s).et[y]? = some e) (hl : e.len = 0) :
    RaisesUnencodable i sel y s := by
  rw [RaisesUnencodable, hi, encodeSym_of_no_code sel y s e hv he hl]
  rfl

/-- The extra bits of an RLE symbol (R102). -/
theorem putExtra_puts {y x : Nat} (h : PackerOk s) : Puts s (valueBits x (metaExtra y)) (putExtra y x s) := by
  unfold metaExtra putExtra
  split_ifs
  · exact putBits_puts h (by decide)
  · exact putBits_puts h (by decide)
  · exact putBits_puts h (by decide)
  · exact puts_nothing h

/-- E_HEADER puts the block header and the three counts (R100). -/
theorem eHeaderStep_emits (h : PackerOk s) : Emits s [[s.enc.isLast], [false, true], valueBits s.enc.eHlit.toNat 5,
    valueBits s.enc.eHdist.toNat 5, valueBits s.enc.eHclen.toNat 4] (setState .eMetalen) (eHeaderStep s) := by
  have hlast : valueBits s.enc.isLast.toNat 1 = [s.enc.isLast] := by cases s.enc.isLast <;> rfl
  refine (hlast ▸ putBits_puts h (by decide)).bind fun m p ht => ?_
  refine (putBits_puts ht.packerOk (by decide) : Puts _ (valueBits 2 2) _).bind fun m p ht => ?_
  refine (putBits_puts ht.packerOk (by decide)).bind fun m p ht => ?_
  refine (putBits_puts ht.packerOk (by decide)).bind fun m p ht => ?_
  exact (putBits_puts ht.packerOk (by decide)).then (setState .eMetalen)

/-- The end of E_METALEN: the next meta length, or the code lengths after the last (R101). -/
def nextMeta (s : State) : State :=
  let t := { s with enc := { s.enc with emi := s.enc.emi + 1 } }
  if t.enc.emi.toNat = t.enc.eHclen.toNat + 4 then setState .eCodelen t else t

theorem eMetalenStep_emits (v : Nat) (h : PackerOk s) : Emits s [valueBits v 3] nextMeta (eMetalenStep v s) :=
  (putBits_puts h (by decide)).then nextMeta

theorem nextMeta_eq (h : s.enc.emi.toNat < 31) : nextMeta s = { s with
    enc := { s.enc with emi := s.enc.emi + 1 }
    state := if s.enc.emi.toNat + 1 = s.enc.eHclen.toNat + 4 then .eCodelen else s.state } := by
  have hnext : (s.enc.emi + 1).toNat = s.enc.emi.toNat + 1 := BitVec.toNat_add_of_lt (by simp; omega)
  simp only [nextMeta, hnext]
  split <;> rfl

/-- The end of E_CODELEN: the next RLE symbol, or the tokens after the last (R102). -/
def nextPair (s : State) : State :=
  let t := { s with enc := { s.enc with rqi := s.enc.rqi + 1 } }
  if t.enc.rqi.toNat = t.enc.rq.length then setState .eWriteToken t else t

theorem nextPair_eq (h : s.enc.rqi.toNat < 511) : nextPair s = { s with
    enc := { s.enc with rqi := s.enc.rqi + 1 }
    state := if s.enc.rqi.toNat + 1 = s.enc.rq.length then .eWriteToken else s.state } := by
  have hnext : (s.enc.rqi + 1).toNat = s.enc.rqi.toNat + 1 := BitVec.toNat_add_of_lt (by simp; omega)
  simp only [nextPair, hnext]
  split <;> rfl

/-- E_CODELEN on the RLE symbol at `rqi` (R102). -/
theorem eCodelenStep_eq {y : BitVec 5} {x : BitVec 7} (hp : s.enc.rq[s.enc.rqi.toNat]? = some (y, x)) :
    eCodelenStep s = (encodeSym .codeLen y.toNat s).bind fun _ t =>
      (putExtra y.toNat x.toNat t).bind fun _ t => .ok () (nextPair t) := by
  simp only [eCodelenStep, rqAt_of_lt s _ _ hp]
  rfl

/-- E_CODELEN puts the code of the RLE symbol at `rqi` and its extra bits (R102). -/
theorem eCodelenStep_emits {y : BitVec 5} {x : BitVec 7} {e : EncEntry} (h : PackerOk s)
    (hp : s.enc.rq[s.enc.rqi.toNat]? = some (y, x)) (he : HasCode .codeLen y.toNat s e) :
    Emits s [valueBits e.code.toNat e.len.toNat, valueBits x.toNat (metaExtra y.toNat)] nextPair
      (eCodelenStep s) := by
  rw [eCodelenStep_eq hp]
  exact (encodeSym_puts h he).bind fun m p ht => (putExtra_puts ht.packerOk).then nextPair

/-- The extra bits of an RLE symbol, by its 5 bits. -/
theorem metaExtra_toNat (y : BitVec 5) :
    metaExtra y.toNat = if y = 16#5 then 2 else if y = 17#5 then 3 else if y = 18#5 then 7 else 0 := by
  simp [metaExtra, ← BitVec.toNat_inj]

end
end Sys2Proof.Machine

open Sys2Proof Sys2Proof.Machine

/-- Settles O52: the words that the bits complete have room. -/
theorem putAppendsItsBits : Obligations.PutAppendsItsBits := by
  unfold Obligations.PutAppendsItsBits
  intro s n hn h hr
  have hput : Emits s _ id (putBits s.uop.opVal.toNat n.toNat s) := (putBits_puts h hn).emits
  obtain ⟨m, p, he, ht⟩ := hput.exec_of_room (i := .put n) rfl List.flatten_singleton
    (by rwa [valueBits_length])
  exact ⟨_, he, ht.appended rfl rfl rfl, rfl⟩

/-- Settles O54: the words that the bits complete have no room. -/
theorem outputOverflowStopsTheJob : Obligations.OutputOverflowStopsTheJob := by
  unfold Obligations.OutputOverflowStopsTheJob
  intro s n hn h hc ho hf
  obtain ⟨t, hrun, ht⟩ := (putBits_puts (v := s.uop.opVal.toNat) h hn).full hc ho (by
    rw [valueBits_length]
    omega)
  exact ⟨t, congrArg Res.out hrun, ht⟩

/-- Settles O55: ENCODESYM is a PUT of the symbol's code, or an error before any write. -/
theorem encodesymWritesTheCode : Obligations.EncodesymWritesTheCode := by
  unfold Obligations.EncodesymWritesTheCode
  refine fun sel s => ⟨fun e he h => ?_, fun e hv he hl => ?_⟩
  · have hput := (encodeSym_puts h he).emits
    refine ⟨fun hr => ?_, hput.overflowsAt rfl⟩
    obtain ⟨m, p, hrun, ht⟩ := hput.exec_of_room (i := .encodesym sel) rfl List.flatten_singleton
      (by rwa [valueBits_length])
    exact ⟨_, hrun, ht.appended rfl rfl rfl, rfl⟩
  · exact congrArg Res.out (encodeSym_of_no_code sel _ s e hv he hl)

/-- Settles O56: each token state is one PUT and a move of `state`. -/
theorem tokenStatesWriteTheirBits : Obligations.TokenStatesWriteTheirBits := by
  unfold Obligations.TokenStatesWriteTheirBits
  intro s writes symbol
  have writes_of_puts {i : Instr} {bs : List Bool} {next : Fsm} {r : Res Unit}
      (hi : exec i s = (r.bind fun _ t => Res.ok () (setState next t)).out) (hr : PackerOk s → Puts s bs r) :
      writes i bs next := by
    intro h
    have hstep := (hr h).then (setState next)
    refine ⟨fun hroom => ?_, hstep.overflowsAt hi⟩
    obtain ⟨m, p, hrun, ht⟩ := hstep.exec_of_room hi List.flatten_singleton hroom
    exact ⟨_, hrun, ht.appended rfl rfl rfl, rfl⟩
  have symbol_of_encodeSym {i : Instr} {sel : Sel} {y : Nat} {next : Fsm}
      (hi : exec i s = ((encodeSym sel y s).bind fun _ t => Res.ok () (setState next t)).out) :
      symbol i sel y next :=
    ⟨fun e he => writes_of_puts hi fun h => encodeSym_puts h he,
      fun e hv he hl => raisesUnencodable_of_no_code hi hv he hl⟩
  exact ⟨symbol_of_encodeSym rfl, symbol_of_encodeSym rfl, writes_of_puts rfl fun h => putBits_puts h (by omega),
    symbol_of_encodeSym rfl, writes_of_puts rfl fun h => putBits_puts h (by omega), symbol_of_encodeSym rfl⟩

/-- Settles O57: each header step is its PUTs in order and a last statement. -/
theorem headerStepsWriteTheirBits : Obligations.HeaderStepsWriteTheirBits := by
  unfold Obligations.HeaderStepsWriteTheirBits
  refine fun s => ⟨fun h => ?header, fun k v hk hv h => ?metaLength, fun y x hp => ⟨fun e he h => ?symbol, ?noCode⟩⟩
  case header =>
    have hstep := eHeaderStep_emits h
    refine ⟨fun hr => ?_, hstep.overflowsAt rfl⟩
    obtain ⟨m, p, hrun, ht⟩ := hstep.exec_of_room (i := .eHeader) rfl rfl (by simpa [valueBits_length] using hr)
    exact ⟨_, hrun, ht.appended rfl rfl rfl, rfl⟩
  case metaLength =>
    have hstep := eMetalenStep_emits v.toNat h
    have hi : exec .eMetalen s = (eMetalenStep v.toNat s).out := by
      simp only [exec, execEMetalen, permAt_of_lt s _ k hk, hv]
    refine ⟨fun hr => ?_, hstep.overflowsAt hi⟩
    obtain ⟨m, p, hrun, ht⟩ := hstep.exec_of_room hi List.flatten_singleton (by rwa [valueBits_length])
    have hemi : s.enc.emi.toNat < 19 := (List.getElem?_eq_some_iff.1 hk).1
    rw [nextMeta_eq (s := withPacker m p s) (hemi.trans (by decide))] at hrun
    exact ⟨_, hrun, ht.appended rfl rfl rfl, rfl⟩
  case symbol =>
    have hstep := eCodelenStep_emits h hp he
    rw [metaExtra_toNat] at hstep
    refine ⟨fun hr hi => ?_, hstep.overflowsAt rfl⟩
    obtain ⟨m, p, hrun, ht⟩ := hstep.exec_of_room (i := .eCodelen) rfl
      (by rw [List.flatten_cons, List.flatten_singleton])
      (by rwa [List.length_append, valueBits_length, valueBits_length])
    rw [nextPair_eq (s := withPacker m p s) hi] at hrun
    exact ⟨_, hrun, ht.appended rfl rfl rfl, rfl⟩
  case noCode =>
    intro e hv he hl
    exact raisesUnencodable_of_no_code (congrArg Res.out (eCodelenStep_eq hp)) hv he hl
end

section
/-! PROOF. FINALIZE (R114, R115): the trailer as PUTs in order, then the last bytes; both end the stream on a byte
boundary or stop at the end of OUT_MEM (R44). -/

namespace Sys2Proof.Machine

/-- The bit strings of the trailer after `n` bits held (R114). -/
def trailerBits (n : Nat) : List (List Bool) :=
  [List.replicate 3 false, List.replicate ((8 - (n + 3) % 8) % 8) false, List.replicate 8 false,
    List.replicate 8 false, List.replicate 8 true, List.replicate 8 true]

/-- The trailer ends on a byte boundary. -/
theorem trailerBits_length (n : Nat) : (n + (trailerBits n).flatten.length) % 8 = 0 := by
  simp [trailerBits]
  omega

theorem valueBits_zero (n : Nat) : valueBits 0 n = List.replicate n false := by
  simp [valueBits]

section
variable {s : State}

/-- TRAILER puts its six strings, the padding after the bits then held (R114). -/
theorem putTrailer_emits (h : PackerOk s) : Emits s (trailerBits s.pk.pn.toNat) id (putTrailer s) := by
  have zeros (n : Nat) (hn : n ≤ 32) {t : State} (ht : PackerOk t) :
      Puts t (List.replicate n false) (putBits 0 n t) := valueBits_zero n ▸ putBits_puts ht hn
  have ones {t : State} (ht : PackerOk t) : Puts t (List.replicate 8 true) (putBits 0xFF 8 t) :=
    (putBits_puts ht (by decide) : Puts t (valueBits 0xFF 8) _)
  refine (zeros 3 (by decide) h).bind fun m p ht => ?_
  have hpad : (8 - p.pn.toNat % 8) % 8 = (8 - (s.pk.pn.toNat + 3) % 8) % 8 := by
    have hlen := ht.length
    rw [List.length_replicate, withPacker_pk] at hlen
    omega
  rw [withPacker_pk, hpad]
  refine (zeros _ (by omega) ht.packerOk).bind fun m p ht => ?_
  refine (zeros 8 (by decide) ht.packerOk).bind fun m p ht => ?_
  refine (zeros 8 (by decide) ht.packerOk).bind fun m p ht => ?_
  refine (ones ht.packerOk).bind fun m p ht => ?_
  exact (ones ht.packerOk).emits

/-- FINALIZE's loop drains the bytes held (R115). -/
theorem flushBytes_of_room (k : Nat) {s : State} (h : Clean s) (hm : s.pk.pn.toNat % 8 = 0)
    (hk : s.pk.pn.toNat < 8 * (k + 1)) (hr : ByteRoom s 0) :
    ∃ t, flushBytes k s = .ok () t ∧ Poured s t [] ∧ t.pk.pn = 0 := by
  have empty {s : State} (h : Clean s) (hn : s.pk.pn.toNat = 0) :
      ∃ t, (Res.ok () s : Res Unit) = .ok () t ∧ Poured s t [] ∧ t.pk.pn = 0 :=
    ⟨s, rfl, .refl h, BitVec.eq_of_toNat_eq hn⟩
  induction k generalizing s with
  | zero => exact empty h (by omega)
  | succ k ih =>
    rw [flushBytes_succ]
    split
    · obtain ⟨t, hrun, ht, ho, hn⟩ := drain_of_room (k := 1) h (by omega) (by omega) (by omega)
      obtain ⟨u, hrun', hu, hzero⟩ := ih ht.clean (by omega) (by omega) ((ht.byteRoom_iff 0).2 hr)
      exact ⟨u, by rw [hrun, Res.bind_ok, hrun'], ht.trans hu, hzero⟩
    · exact empty h (by omega)

/-- FINALIZE's loop stops at the first byte without a place (R44, R115). -/
theorem flushBytes_of_full (k : Nat) {s : State} (h : Clean s) (hm : s.pk.pn.toNat % 8 = 0)
    (hk : s.pk.pn.toNat < 8 * (k + 1)) (hc : s.cfg.outMemBytes < 2 ^ 32)
    (ho : s.pk.optr.toNat ≤ s.cfg.outMemBytes) (hr : ¬ByteRoom s 0) :
    ∃ t, flushBytes k s = .raised t ∧ Overflowed s t [] := by
  induction k generalizing s with
  | zero => omega
  | succ k ih =>
    rw [flushBytes_succ, if_pos (by omega)]
    obtain hfull | hlt := Nat.lt_or_ge s.cfg.outMemBytes (s.pk.optr.toNat + 1)
    · obtain ⟨t, hrun, ht⟩ := drain_of_full (k := 1) (by omega) ho hfull hc
      exact ⟨t, by rw [hrun, Res.bind_raised], ht⟩
    · obtain ⟨t, hrun, ht, hnext, hn⟩ := drain_of_room (k := 1) h (by omega) hlt (by omega)
      obtain ⟨u, hrun', hu⟩ := ih ht.clean (by omega) (by omega) (ht.cfg.symm ▸ hc) (by rw [ht.cfg]; omega)
        (fun hb => hr ((ht.byteRoom_iff 0).1 hb))
      exact ⟨u, by rw [hrun, Res.bind_ok, hrun'], ht.overflowed (by omega) hu⟩

/-! ## FINALIZE with and without a trailer -/

/-- With no bit held, and none to write for an empty input, FINALIZE has nothing to write (R115). -/
theorem finalizePacker_of_no_trailer (hn : ¬(0 < s.pk.pn.toNat ∨ s.inLen = 0)) :
    finalizePacker s = .ok () s := by
  rw [finalizePacker, if_neg hn, Res.bind_ok, flushBytes_succ, if_neg (fun hp => hn (.inl hp))]

theorem finalizePacker_of_trailer (ht : 0 < s.pk.pn.toNat ∨ s.inLen = 0) :
    finalizePacker s = (putTrailer s).bind fun _ t => flushBytes 16 t := by
  rw [finalizePacker, if_pos ht]

/-- With no bit held the packer is as between two operations. -/
theorem packerOk_of_empty (h : Clean s) (hn : s.pk.pn = 0) : PackerOk s :=
  ⟨by have := packBits_cases s; rw [hn]; simp; omega, h⟩

/-- A trailer that OUT_MEM has room for leaves whole bytes. -/
theorem putTrailer_of_room (h : PackerOk s) (hr : OutRoom s (trailerBits s.pk.pn.toNat).flatten.length) :
    ∃ t, putTrailer s = .ok () t ∧ Put s t (trailerBits s.pk.pn.toNat).flatten ∧
      t.pk.pn.toNat % 8 = 0 ∧ t.pk.pn.toNat < 8 * (16 + 1) := by
  obtain ⟨t, hrun, hput⟩ := (putTrailer_emits h).fits hr
  have := hput.length
  have := trailerBits_length s.pk.pn.toNat
  exact ⟨t, hrun, hput, by omega, by omega⟩

/-- FINALIZE with room for the trailer's bytes ends on a byte boundary (R115). -/
theorem finalizePacker_of_room (h : PackerOk s) (ht : 0 < s.pk.pn.toNat ∨ s.inLen = 0)
    (hr : ByteRoom s (trailerBits s.pk.pn.toNat).flatten.length) :
    ∃ t, finalizePacker s = .ok () t ∧ Poured s t (trailerBits s.pk.pn.toNat).flatten ∧ t.pk.pn = 0 := by
  obtain ⟨t, hrun, hput, hm, hk⟩ := putTrailer_of_room h hr.outRoom
  obtain ⟨u, hrun', hu, hzero⟩ := flushBytes_of_room 16 hput.clean hm hk ((hput.byteRoom_iff 0).2 hr)
  exact ⟨u, by rw [finalizePacker_of_trailer ht, hrun, Res.bind_ok, hrun'],
    List.append_nil (trailerBits s.pk.pn.toNat).flatten ▸ hput.toPoured.trans hu, hzero⟩

/-- FINALIZE with room for the trailer's words but not for its last bytes (R44, R115). -/
theorem finalizePacker_of_full (h : PackerOk s) (ht : 0 < s.pk.pn.toNat ∨ s.inLen = 0)
    (hc : s.cfg.outMemBytes < 2 ^ 32) (hr : OutRoom s (trailerBits s.pk.pn.toNat).flatten.length)
    (hb : ¬ByteRoom s (trailerBits s.pk.pn.toNat).flatten.length) :
    ∃ t, finalizePacker s = .raised t ∧ Overflowed s t (trailerBits s.pk.pn.toNat).flatten := by
  obtain ⟨t, hrun, hput, hm, hk⟩ := putTrailer_of_room h hr
  have ho : t.pk.optr.toNat ≤ t.cfg.outMemBytes := ((hput.room 0).2 hr).optr_le
  obtain ⟨u, hrun', hu⟩ := flushBytes_of_full 16 hput.clean hm hk (hput.cfg.symm ▸ hc) ho
    (fun h => hb ((hput.byteRoom_iff 0).1 h))
  exact ⟨u, by rw [finalizePacker_of_trailer ht, hrun, Res.bind_ok, hrun'],
    List.append_nil (trailerBits s.pk.pn.toNat).flatten ▸ hput.toPoured.overflowed (hput.cfg ▸ ho) hu⟩

/-- FINALIZE and E_FINALIZE stop alike (R111). -/
theorem exec_of_finalizePacker_raised {t : State} (hrun : finalizePacker s = .raised t) {i : Instr}
    (hi : i ∈ [Instr.finalize, Instr.eFinalize]) : exec i s = .next t := by
  obtain rfl | rfl : i = .finalize ∨ i = .eFinalize := by simpa using hi
  · exact congrArg Res.out hrun
  · simp only [exec, execEFinalize, hrun, Res.bind_raised, Res.out_raised]

/-- FINALIZE and E_FINALIZE end alike but for `state` (R111). -/
theorem exec_of_finalizePacker_ok {t : State} (hrun : finalizePacker s = .ok () t) :
    exec .finalize s = .next t ∧ exec .eFinalize s = .next { t with state := .eDone } :=
  ⟨congrArg Res.out hrun, by simp only [exec, execEFinalize, hrun, Res.bind_ok, Res.out_ok]; rfl⟩

end
end Sys2Proof.Machine

open Sys2Proof Sys2Proof.Machine

/-- Settles O53: the trailer is PUTs in order and the last bytes are drained, or neither has anything to write. -/
theorem finalizeEndsOnAByte : Obligations.FinalizeEndsOnAByte := by
  unfold Obligations.FinalizeEndsOnAByte
  intro s h pad trailer bits
  refine ⟨fun hr => ?room, fun hc ht i hi => ⟨fun k hk hs hn => ?put, fun hr hb => ?lastBytes⟩⟩
  case room =>
    have hrun : ∃ t, finalizePacker s = .ok () t ∧ Poured s t bits ∧ t.pk.pn = 0 := by
      by_cases ht : 0 < s.pk.pn.toNat ∨ s.inLen = 0
      · have hbits : bits = (trailerBits s.pk.pn.toNat).flatten := if_pos ht
        rw [hbits] at hr ⊢
        exact finalizePacker_of_room h ht hr
      · have hbits : bits = [] := if_neg ht
        rw [hbits]
        exact ⟨s, finalizePacker_of_no_trailer ht, .refl h.clean, BitVec.eq_of_toNat_eq (by simp; omega)⟩
    obtain ⟨t, hrun, hpoured, hzero⟩ := hrun
    obtain ⟨hfin, hefin⟩ := exec_of_finalizePacker_ok hrun
    exact ⟨t, hfin, hefin, hpoured.appended (packerOk_of_empty hpoured.clean hzero) rfl rfl rfl, hzero,
      hpoured.rest⟩
  case put =>
    obtain ⟨t, hrun, ht'⟩ := (putTrailer_emits h).full hc k hk hs hn
    refine ⟨t, exec_of_finalizePacker_raised ?_ hi, ht'⟩
    rw [finalizePacker_of_trailer ht, hrun, Res.bind_raised]
  case lastBytes =>
    obtain ⟨t, hrun, ht'⟩ := finalizePacker_of_full h ht hc hr hb
    exact ⟨t, exec_of_finalizePacker_raised hrun hi, ht'⟩
end

section
/-! PROOF. The word formats (R49..R53): which words decode and to what, and that the
encoder's words decode back. -/

namespace Sys2Proof

/-! ## The fields of a micro-operation word (R49) -/

/-- The fields of a word put together from fields. -/
theorem uopWord_fields (op n : BitVec 6) (sel : BitVec 2) :
    ((uopWord op n sel).setWidth 16).extractLsb' 0 6 = op ∧
    ((uopWord op n sel).setWidth 16).extractLsb' 6 6 = n ∧
    ((uopWord op n sel).setWidth 16).extractLsb' 12 2 = sel ∧
    ((uopWord op n sel).setWidth 16).extractLsb' 14 2 = 0#2 := by
  have hword : (uopWord op n sel).setWidth 16 = (0#2 ++ sel ++ n ++ op : BitVec 16) := by simp [uopWord]
  rw [hword]
  exact ⟨BitVec.extractLsb'_append_eq_right,
    (BitVec.extractLsb'_append_eq_of_le (by decide)).trans BitVec.extractLsb'_append_eq_right,
    (BitVec.extractLsb'_append_eq_of_le (by decide)).trans <|
      (BitVec.extractLsb'_append_eq_of_le (by decide)).trans BitVec.extractLsb'_append_eq_right,
    (BitVec.extractLsb'_append_eq_of_le (by decide)).trans <|
      (BitVec.extractLsb'_append_eq_of_le (by decide)).trans BitVec.extractLsb'_append_eq_left⟩

/-- A word with its reserved bits 0 is put together from its fields. -/
theorem uopWord_extract (w : BitVec 16) (h : w.extractLsb' 14 2 = 0#2) :
    uopWord (w.extractLsb' 0 6) (w.extractLsb' 6 6) (w.extractLsb' 12 2) = w.setWidth 32 := by
  have upper : w.extractLsb' 14 2 ++ w.extractLsb' 12 2 = w.extractLsb' 12 4 :=
    BitVec.extractLsb'_append_extractLsb'_eq_extractLsb' rfl
  have middle : w.extractLsb' 12 4 ++ w.extractLsb' 6 6 = w.extractLsb' 6 10 :=
    BitVec.extractLsb'_append_extractLsb'_eq_extractLsb' rfl
  have lower : w.extractLsb' 6 10 ++ w.extractLsb' 0 6 = w :=
    (BitVec.extractLsb'_append_extractLsb'_eq_extractLsb' rfl).trans BitVec.extractLsb'_eq_self
  rw [uopWord, ← h, upper, middle, lower]

/-! ## The three tables of operations (R50) -/

/-- What the fields OP, N and SEL of a word name (R50). -/
inductive Names (op : Nat) (n : BitVec 6) (sel : Nat) (i : Instr) : Prop
  | select (h : selOp op sel = some i) (hn : n = 0#6)
  | count (h : countOp op n = some i) (hn : countOk n = true) (hs : sel = 0)
  | plain (h : plainOp op = some i) (hn : n = 0#6) (hs : sel = 0)

section
variable {op sel : Nat} {n : BitVec 6} {i : Instr}

theorem takesSel_of_selOp (h : selOp op sel = some i) : takesSel op = true := by
  unfold selOp at h
  split at h <;> cases h <;> rfl

theorem takesSel_of_countOp (h : countOp op n = some i) : takesSel op = false := by
  unfold countOp at h
  split at h <;> cases h <;> rfl

theorem tables_of_plainOp (h : plainOp op = some i) : takesSel op = false ∧ countOp op n = none := by
  unfold plainOp at h
  split at h <;> cases h <;> exact ⟨rfl, rfl⟩

end

theorem selOp_isSome_iff {op sel : Nat} : (selOp op sel).isSome ↔
    ((op = 0x01 ∨ op = 0x02 ∨ op = 0x03) ∧ sel ≤ 2) ∨ (op = 0x09 ∧ 1 ≤ sel ∧ sel ≤ 2) := by
  unfold selOp
  split
  case h_12 =>
    simp only [imp_false, Option.isSome_none, Bool.false_eq_true, false_iff] at *
    omega
  all_goals decide

theorem countOp_isSome_iff {op : Nat} {n : BitVec 6} : (countOp op n).isSome ↔
    op = 0x04 ∨ op = 0x05 ∨ op = 0x06 ∨ op = 0x0A := by
  unfold countOp
  split
  case h_5 =>
    simp only [imp_false, Option.isSome_none, Bool.false_eq_true, false_iff] at *
    omega
  all_goals simp only [Option.isSome_some]; decide

theorem plainOp_isSome_iff {op : Nat} : (plainOp op).isSome ↔
    op = 0x07 ∨ op = 0x08 ∨ op = 0x0B ∨ op = 0x0C ∨ (0x21 ≤ op ∧ op ≤ 0x2E) ∨
    (0x30 ≤ op ∧ op ≤ 0x3B) := by
  unfold plainOp
  split
  case h_31 =>
    simp only [imp_false, Option.isSome_none, Bool.false_eq_true, false_iff] at *
    omega
  all_goals decide

/-- Which fields name an instruction (R50). -/
theorem exists_names_iff {op sel : Nat} {n : BitVec 6} : (∃ i, Names op n sel i) ↔
    (n = 0#6 ∧ (selOp op sel).isSome) ∨ (countOk n = true ∧ sel = 0 ∧ (countOp op n).isSome) ∨
    (n = 0#6 ∧ sel = 0 ∧ (plainOp op).isSome) := by
  simp only [Option.isSome_iff_exists]
  constructor
  · rintro ⟨i, ⟨h, hn⟩ | ⟨h, hn, hs⟩ | ⟨h, hn, hs⟩⟩
    exacts [.inl ⟨hn, i, h⟩, .inr (.inl ⟨hn, hs, i, h⟩), .inr (.inr ⟨hn, hs, i, h⟩)]
  · rintro (⟨hn, i, h⟩ | ⟨hn, hs, i, h⟩ | ⟨hn, hs, i, h⟩)
    exacts [⟨i, .select h hn⟩, ⟨i, .count h hn hs⟩, ⟨i, .plain h hn hs⟩]

/-- The same, as the complement of the list of reserved words (R51). -/
theorem exists_names_iff_of_lt {op sel : Nat} {n : BitVec 6} (hop : op < 64) (hsel : sel < 4) :
    (∃ i, Names op n sel i) ↔
    ¬(op = 0x00 ∨ (0x0D ≤ op ∧ op ≤ 0x20) ∨ op = 0x2F ∨ 0x3C ≤ op ∨ 32 < n.toNat ∨
      (n.toNat ≠ 0 ∧ ¬(op = 0x04 ∨ op = 0x05 ∨ op = 0x06 ∨ op = 0x0A)) ∨ sel = 3 ∨
      (sel ≠ 0 ∧ ¬(op = 0x01 ∨ op = 0x02 ∨ op = 0x03 ∨ op = 0x09)) ∨ (op = 0x09 ∧ sel = 0)) := by
  have hn : n = 0#6 ↔ n.toNat = 0 := BitVec.toNat_inj.symm
  have hcount : countOk n = true ↔ n.toNat ≤ 32 := decide_eq_true_iff
  rw [exists_names_iff, selOp_isSome_iff, countOp_isSome_iff, plainOp_isSome_iff, hn, hcount]
  omega

/-- A micro-operation word decodes exactly to what its fields name (R49, R50). -/
theorem decodeUop_eq_ok_iff (w : BitVec 16) (i : Instr) : decodeUop w = .ok i ↔
    w.extractLsb' 14 2 = 0#2 ∧
      Names (w.extractLsb' 0 6).toNat (w.extractLsb' 6 6) (w.extractLsb' 12 2).toNat i := by
  simp only [decodeUop]
  generalize (w.extractLsb' 0 6).toNat = op, w.extractLsb' 6 6 = n, (w.extractLsb' 12 2).toNat = sel,
    w.extractLsb' 14 2 = top
  constructor
  · intro h
    split at h
    · cases h
    rename_i htop
    refine ⟨not_not.1 htop, ?_⟩
    split at h
    · split at h
      · cases h
      · rename_i hn
        split at h <;> cases h
        exact .select ‹_› (not_not.1 hn)
    split at h
    · split at h <;> cases h
    rename_i hs
    split at h
    · split at h <;> cases h
      exact .count ‹_› ‹_› (not_not.1 hs)
    · split at h
      · cases h
      · rename_i hplain
        split at h <;> cases h
        exact .plain hplain (not_not.1 ‹_›) (not_not.1 hs)
  · rintro ⟨rfl, ⟨h, rfl⟩ | ⟨h, hn, rfl⟩ | ⟨h, rfl, rfl⟩⟩
    · simp [takesSel_of_selOp h, h]
    · simp [takesSel_of_countOp h, hn, h]
    · obtain ⟨hsel, hcount⟩ := tables_of_plainOp (n := 0#6) h
      simp [hsel, hcount, h]

/-- A micro-operation word is refused exactly when it has a reserved bit or its fields name nothing (R51). -/
theorem decodeUop_eq_error_iff (w : BitVec 16) : (∃ r, decodeUop w = .error r) ↔
    ¬(w.extractLsb' 14 2 = 0#2 ∧
      ∃ i, Names (w.extractLsb' 0 6).toNat (w.extractLsb' 6 6) (w.extractLsb' 12 2).toNat i) := by
  rw [← exists_and_left]
  simp only [← decodeUop_eq_ok_iff]
  cases decodeUop w <;> simp

/-! ## The encoder's words (R49, R50) -/

/-- The word put together from fields decodes to what they name. -/
theorem decode_uopWord {op n : BitVec 6} {sel : BitVec 2} {i : Instr} (h : Names op.toNat n sel.toNat i) :
    decode ⟨.uop, uopWord op n sel⟩ = .ok i := by
  obtain ⟨hop, hn, hsel, htop⟩ := uopWord_fields op n sel
  refine (decodeUop_eq_ok_iff _ i).2 ⟨htop, ?_⟩
  rwa [hop, hn, hsel]

/-- Fields that name an instruction are those of its word, and the instruction is well-formed. -/
theorem Names.encode {op sel : Nat} {n : BitVec 6} {i : Instr} (h : Names op n sel i) :
    i.wellFormed = true ∧ encode i = ⟨.uop, uopWord (BitVec.ofNat 6 op) n (BitVec.ofNat 2 sel)⟩ := by
  obtain ⟨h, rfl⟩ | ⟨h, hn, rfl⟩ | ⟨h, rfl, rfl⟩ := h
  · unfold selOp at h
    split at h <;> cases h <;> exact ⟨rfl, rfl⟩
  · unfold countOp at h
    split at h <;> cases h <;> exact ⟨hn, rfl⟩
  · unfold plainOp at h
    split at h <;> cases h <;> exact ⟨rfl, rfl⟩

/-! ## Token words (R53) -/

theorem literalWord_fields (b : Byte) :
    (literalWord b).extractLsb' 0 8 = b ∧ (literalWord b).extractLsb' 8 24 = 0#24 := by
  constructor
  · simp [literalWord, BitVec.extractLsb'_setWidth_of_le]
  · ext i hi
    simp [literalWord]

theorem matchWord_fields (l : BitVec 9) (d : BitVec 16) :
    (matchWord l d).extractLsb' 0 16 = d ∧ (matchWord l d).extractLsb' 16 9 = l ∧
    (matchWord l d).extractLsb' 25 7 = 0x40#7 :=
  ⟨BitVec.extractLsb'_append_eq_right,
    (BitVec.extractLsb'_append_eq_of_le (by decide)).trans BitVec.extractLsb'_append_eq_right,
    (BitVec.extractLsb'_append_eq_of_le (by decide)).trans BitVec.extractLsb'_append_eq_left⟩

theorem decodeToken_literalWord (b : Byte) : decodeToken (literalWord b) = .ok (.tokenLiteral b) := by
  obtain ⟨hlow, hhigh⟩ := literalWord_fields b
  have hend : literalWord b ≠ 0x40000000#32 := fun h => absurd (h ▸ hhigh) (by decide)
  rw [decodeToken, if_neg hend, if_pos hhigh, hlow]

theorem decodeToken_matchWord (l : BitVec 9) (d : BitVec 16) :
    decodeToken (matchWord l d) = .ok (.tokenMatch l d) := by
  obtain ⟨hd, hl, htop⟩ := matchWord_fields l d
  have hend : matchWord l d ≠ 0x40000000#32 := fun h => absurd (h ▸ htop) (by decide)
  have hlit : (matchWord l d).extractLsb' 8 24 ≠ 0#24 := fun h => by
    have hzero := congrArg (BitVec.getLsbD · 23) h
    have hone := congrArg (BitVec.getLsbD · 6) htop
    simp only [BitVec.getLsbD_extractLsb'] at hzero hone
    exact absurd (hone.symm.trans hzero) (by decide)
  rw [decodeToken, if_neg hend, if_neg hlit, if_pos htop, hl, hd]

/-- The words of no form (R53; log 40). -/
theorem decodeToken_eq_error_iff (w : Word) : (∃ r, decodeToken w = .error r) ↔
    w.extractLsb' 8 24 ≠ 0#24 ∧ w.extractLsb' 25 7 ≠ 0x40#7 ∧ w ≠ 0x40000000#32 := by
  unfold decodeToken
  split_ifs with hend hlit hmatch
  · simp [hend]
  · simp [hlit]
  · simp [hmatch]
  · simp [hend, hlit, hmatch]

end Sys2Proof

open Sys2Proof Sys2Proof.Machine

/-- Settles O1: a micro-operation's fields name it; a command and a token decode by their patterns. -/
theorem decodeOfEncodeIsTheInstruction : Obligations.DecodeOfEncodeIsTheInstruction := by
  unfold Obligations.DecodeOfEncodeIsTheInstruction
  intro i hi
  cases i with
  | build sel | decodesym sel | encodesym sel | rleEmit sel =>
    refine decode_uopWord (.select ?_ rfl)
    cases sel <;> rfl
  | peek n | consume n | read n | put n => exact decode_uopWord (.count rfl hi rfl)
  | align | refill | finalize | rleExpand | dHeader | dPreamble | dStoredHdr | dStoredCopy | dDynCounts
  | dDynMetalen | dDynMetabuild | dDynCodelen | dDynTablebuild | dStatic | dBgLiteral | dBgMlen | dBgMdist
  | dBgMdistwr | eBuild | eHeader | eMetalen | eCodelen | eWriteToken | eLitRep | eMatchDistRep
  | eMatchExtra | eDistRep | eDistExtra | eEob | eFinalize => exact decode_uopWord (.plain rfl rfl rfl)
  | startDecode isLast | startEncode isLast => cases isLast <;> rfl
  | softReset => rfl
  | setMode mode isLast => cases mode <;> cases isLast <;> rfl
  | tokenLiteral b => exact decodeToken_literalWord b
  | tokenMatch l d => exact decodeToken_matchWord l d
  | tokenEnd => rfl

/-- Settles O2: a word that decodes has no reserved bit, and its fields are those of what they name. -/
theorem microOpWordsHaveOneMeaning : Obligations.MicroOpWordsHaveOneMeaning := by
  unfold Obligations.MicroOpWordsHaveOneMeaning
  intro w i h
  obtain ⟨htop, hnames⟩ := (decodeUop_eq_ok_iff w i).1 h
  obtain ⟨hwf, henc⟩ := hnames.encode
  refine ⟨hwf, ?_⟩
  rw [henc, BitVec.ofNat_toNat, BitVec.ofNat_toNat, BitVec.setWidth_eq, BitVec.setWidth_eq,
    uopWord_extract w htop]

/-- Settles O3: the list of R51 is that of the fields that name nothing, and a refused word is refused at
the port. -/
theorem reservedMicroOpWordsAreRefused : Obligations.ReservedMicroOpWordsAreRefused := by
  unfold Obligations.ReservedMicroOpWordsAreRefused
  intro w op n sel hasN hasSel reserved
  have hreserved : reserved ↔ ∃ r, decodeUop w = .error r := by
    rw [decodeUop_eq_error_iff, exists_names_iff_of_lt (BitVec.isLt _) (BitVec.isLt _), not_and_or, not_not,
      or_comm]
    simp only [reserved, or_assoc]
    exact Iff.rfl
  refine ⟨hreserved, fun h s v rest hh => ?_⟩
  obtain ⟨r, hr⟩ := hreserved.1 h
  exact step_of_issueUop (o := .refused _) hh (by simp [issueUop, hr])

/-- Settles O5: the fields of a literal's and a match's word, and the decoder's three questions. -/
theorem tokenWordsHaveThreeForms : Obligations.TokenWordsHaveThreeForms := by
  unfold Obligations.TokenWordsHaveThreeForms
  exact ⟨fun b => ⟨rfl, decodeToken_literalWord b⟩, fun l d => ⟨matchWord_eq l d, decodeToken_matchWord l d⟩,
    ⟨rfl, rfl⟩, decodeToken_eq_error_iff⟩

/-- Settles O6: each word decoded. -/
theorem sampleWordsDecode : Obligations.SampleWordsDecode := by
  unfold Obligations.SampleWordsDecode
  exact ⟨rfl, rfl, rfl, rfl, rfl, rfl⟩
end

section
/-! PROOF. The length and distance classes (R59, R60, R103): the class of a value is the last row of its table
whose base is at most the value, and its extra value fits the row's bits. -/

namespace Sys2Proof.Machine

/-- The class found is the last row whose base is at most `x`, or the one before the list where there is
none. -/
theorem classOf_cases (x : Nat) (rows : List (Nat × Nat)) (i : Nat) (best : Nat × Nat × Nat) :
    (classOf x i best rows = best ∧ ∀ r ∈ rows, x < r.1) ∨
    ∃ k row, rows[k]? = some row ∧ classOf x i best rows = (i + k, row) ∧ row.1 ≤ x ∧
      ∀ j r, rows[j]? = some r → k < j → x < r.1 := by
  induction rows generalizing i best with
  | nil => exact .inl ⟨rfl, by simp⟩
  | cons row rest ih =>
    obtain ⟨base, extra⟩ := row
    rw [classOf]
    obtain ⟨hc, hrest⟩ | ⟨k, row, hk, hc, hle, habove⟩ :=
      ih (i + 1) (if base ≤ x then (i, base, extra) else best)
    · rw [hc]
      split_ifs with hb
      · refine .inr ⟨0, (base, extra), rfl, rfl, hb, fun j r hj hpos => ?_⟩
        obtain ⟨j, rfl⟩ := Nat.exists_eq_add_one.2 hpos
        exact hrest r (List.mem_of_getElem? hj)
      · exact .inl ⟨rfl, List.forall_mem_cons.2 ⟨not_le.1 hb, hrest⟩⟩
    · refine .inr ⟨k + 1, row, hk, by rw [hc, Nat.add_right_comm, Nat.add_assoc], hle, fun j r hj hkj => ?_⟩
      obtain ⟨j, rfl⟩ := Nat.exists_eq_add_one.2 (Nat.zero_lt_of_lt hkj)
      exact habove j r hj (Nat.lt_of_succ_lt_succ hkj)

/-- The rows of a base and extra-bit table whose bases rise from `low`, and whose extra bits reach every value
below the next row's base, and below `limit` in the last row (R59, R60). -/
structure CoversFrom (low limit : Nat) (rows : List (Nat × Nat)) : Prop where
  first  : ∃ r ∈ rows, r.1 = low
  sorted : rows.Pairwise fun r q => r.1 < q.1
  fits   : ∀ k < rows.length,
    (rows.getD (k + 1) (limit, 0)).1 ≤ (rows.getD k (0, 0)).1 + 2 ^ (rows.getD k (0, 0)).2

theorem lengthTable_covers : CoversFrom 3 258 (lengthTable.take 28) where
  first  := by decide
  sorted := by decide
  fits   := by decide

theorem distTable_covers : CoversFrom 1 32769 distTable where
  first  := by decide
  sorted := by decide
  fits   := by decide

/-- `c` is the class of `x` in the table `rows`: the largest symbol whose base is at most `x`, with the extra
value within its bits (R103). -/
structure IsClass (rows : List (Nat × Nat)) (x : Nat) (c : Nat × Nat × Nat) : Prop where
  row     : rows[c.1]? = some c.2
  base_le : c.2.1 ≤ x
  fits    : x - c.2.1 < 2 ^ c.2.2
  largest : ∀ k base extra, rows[k]? = some (base, extra) → (base ≤ x ↔ k ≤ c.1)

theorem CoversFrom.isClass {low limit x : Nat} {rows : List (Nat × Nat)} (h : CoversFrom low limit rows)
    (hl : low ≤ x) (hx : x < limit) (best : Nat × Nat × Nat) : IsClass rows x (classOf x 0 best rows) := by
  obtain ⟨r, hr, rfl⟩ := h.first
  obtain ⟨-, hnone⟩ | ⟨k, row, hk, hc, hle, habove⟩ := classOf_cases x rows 0 best
  · exact absurd (hnone r hr) (not_lt.2 hl)
  rw [hc, Nat.zero_add]
  refine ⟨hk, hle, ?fits, fun j base extra hj => ⟨fun hb => ?_, fun hjk => ?_⟩⟩
  case fits =>
    have hfits := h.fits k (List.getElem?_eq_some_iff.1 hk).1
    have hnext : x < (rows.getD (k + 1) (limit, 0)).1 := by
      cases hn : rows[k + 1]? with
      | none => simpa [hn] using hx
      | some r => simpa [hn] using habove _ r hn (Nat.lt_succ_self k)
    rw [show rows.getD k (0, 0) = row by simp [hk]] at hfits
    exact Nat.sub_lt_left_of_lt_add hle (hnext.trans_le hfits)
  · exact not_lt.1 fun hkj => absurd hb (not_le.2 (habove j _ hj hkj))
  · obtain rfl | hlt := Nat.eq_or_lt_of_le hjk
    · cases hj.symm.trans hk
      exact hle
    · obtain ⟨hjl, hj⟩ := List.getElem?_eq_some_iff.1 hj
      obtain ⟨hkl, rfl⟩ := List.getElem?_eq_some_iff.1 hk
      have hsorted := List.pairwise_iff_getElem.1 h.sorted j k hjl hkl hlt
      rw [hj] at hsorted
      exact hsorted.le.trans hle

theorem lenCode_of_ne {l : Nat} (h : l ≠ 258) : lenCode l =
    let c := classOf l 0 (0, 3, 0) (lengthTable.take 28)
    (257 + c.1, l - c.2.1, c.2.2) :=
  if_neg h

end Sys2Proof.Machine

open Sys2Proof Sys2Proof.Machine

/-- Settles O60: the classes of both tables; 258 has a row of its own. -/
theorem classesGiveTheMatchBack : Obligations.ClassesGiveTheMatchBack := by
  unfold Obligations.ClassesGiveTheMatchBack
  have len {l : Nat} (h3 : 3 ≤ l) (h : l < 258) := lengthTable_covers.isClass h3 h (0, 3, 0)
  have dist {d : Nat} (h1 : 1 ≤ d) (h : d ≤ 32768) :=
    distTable_covers.isClass h1 (Nat.lt_succ_of_le h) (0, 1, 0)
  refine ⟨rfl, rfl, rfl, fun l k base extra h3 h hk hrow => ?_, fun d k base extra h1 h hrow => ?_,
    fun l h3 h => ?_, fun d h1 h => ?_⟩
  · rw [lenCode_of_ne (by omega), Nat.add_comm k, Nat.add_le_add_iff_left]
    refine (len h3 (by omega)).largest k base extra ?_
    rw [List.getElem?_take_of_lt (by omega), hrow]
  · exact (dist h1 h).largest k base extra hrow
  · obtain rfl | hne := eq_or_ne l 258
    · exact ⟨258, 0, by decide⟩
    · obtain ⟨row, base_le, fits, -⟩ := len h3 (by omega)
      rw [lenCode_of_ne hne]
      refine ⟨_, _, ?_, Nat.le_add_right _ _, Nat.add_sub_cancel' base_le, rfl, fits⟩
      rw [Nat.add_sub_cancel_left]
      exact (Option.ite_none_right_eq_some.1 (List.getElem?_take.symm.trans row)).2
  · obtain ⟨row, base_le, fits, -⟩ := dist h1 h
    exact ⟨_, _, row, Nat.add_sub_cancel' base_le, rfl, fits⟩
end

section
/-! PROOF. D_DYN_CODELEN (R86): the meta symbol its table selects, the extra bits a repeat reads, and the
lengths it writes. -/

namespace Sys2Proof.Machine

section
variable {s t : State} {c : Cursor}

/-- From `s` to `t` the cursor has moved by `n` bits, and `r` lengths `v` stand in `cl` from `ci` on; after
the last declared length the tables are built next (R86). -/
def LensWritten (s t : State) (n : Nat) (v : BitVec 4) (r : Nat) : Prop :=
  CursorMoved s t n ∧
  (∀ j, t.par.cl[j]? = if s.par.ci.toNat ≤ j ∧ j < s.par.ci.toNat + r then some v else s.par.cl[j]?) ∧
  t.par.ci.toNat = s.par.ci.toNat + r ∧
  t = { s with
    cur := t.cur, par := { s.par with cl := t.par.cl, ci := t.par.ci }
    state := if s.par.ci.toNat + r = declaredLens s then .dDynTablebuild else s.state }

/-- `t` is `s` with the cursor moved by `n` bits, stopped by an error (R117). -/
def FailedAfter (s t : State) (n : Nat) (x : Err) (info : Nat) : Prop :=
  CursorMoved s t n ∧
  t = { s with
    cur := t.cur, err := ⟨x, if s.ctrl.mode then s.pk.ptotal else t.cur.pos, BitVec.ofNat 32 info⟩
    state := .error }

theorem failedAfter_raiseErr {n : Nat} (hp : c.pos.toNat = s.cur.pos.toNat + n)
    (hb : c.inBits = s.cur.inBits) (x : Err) (info : Nat) :
    FailedAfter s (raiseErr x (BitVec.ofNat 32 info) (withCur c s)) n x info :=
  ⟨⟨hp, hb⟩, rfl⟩

theorem lensWritten_appendLens {n r : Nat} (hp : c.pos.toNat = s.cur.pos.toNat + n)
    (hb : c.inBits = s.cur.inBits) (v : BitVec 4) (hr : s.par.ci.toNat + r ≤ declaredLens s)
    (hd : declaredLens s ≤ s.par.cl.length) (hl : s.par.cl.length = 320) :
    LensWritten s (codelenDone (appendLens v r (withCur c s))) n v r := by
  have hci : (appendLens v r (withCur c s)).par.ci.toNat = s.par.ci.toNat + r :=
    appendLens_ci v r (withCur c s) (by rw [withCur_par]; omega)
  rw [codelenDone_eq]
  refine ⟨⟨hp, hb⟩, fun j => setRun_getElem s.par.ci.toNat v r s.par.cl j (by omega), hci, ?_⟩
  rw [hci]
  rfl

/-! ## The symbol and its extra bits -/

/-- The length a repeat symbol stands for: the one before for a 16, else 0 (R86). -/
def repeatedLen (y : Nat) (s : State) : BitVec 4 :=
  if y = 16 then clAt s (s.par.ci.toNat - 1) else 0

/-- The repeat symbols at `ci`: how many extra bits each has, and its least count (R57, R86). -/
inductive Repeats (ci : BitVec 9) : Nat → Nat → Nat → Prop
  | last (h : ci ≠ 0) : Repeats ci 16 2 3
  | shortZeros : Repeats ci 17 3 3
  | longZeros : Repeats ci 18 7 11

theorem expandSymbol_of_repeats {y n low : Nat} (h : Repeats s.par.ci y n low) : expandSymbol y s =
    (readBits n s).bind fun x t => repeatLens (repeatedLen y t) (low + x) t := by
  cases h with
  | last h => rw [expandSymbol, if_neg (by decide), if_pos rfl, if_neg h]; rfl
  | shortZeros => rfl
  | longZeros => rfl

/-- Moving the cursor leaves the length before as it is. -/
theorem repeatedLen_withCur (y : Nat) (hl : s.par.ci.toNat - 1 < s.par.cl.length) :
    repeatedLen y (withCur c s) = if y = 16 then s.par.cl.getD (s.par.ci.toNat - 1) 0 else 0 := by
  rw [repeatedLen, clAt_eq_getD (by exact hl), withCur_par]

/-- D_DYN_CODELEN with the bits of its symbol left. -/
theorem exec_dDynCodelen_of_hasBits {e : Entry} (he : Selects .codeLen s e) (hp : PosFits s)
    (h : HasBits s e.len.toNat) : ∃ c : Cursor, c.pos.toNat = s.cur.pos.toNat + e.len.toNat ∧
      c.inBits = s.cur.inBits ∧ exec .dDynCodelen s = (expandSymbol e.base.toNat (withCur c s)).out := by
  have hlookup := lookup_of_selects .codeLen s e he
  obtain ⟨c, hdec, hpos, hbits⟩ := decodeSym_ok .codeLen s hp (by rwa [hlookup])
  rw [hlookup] at hdec hpos
  exact ⟨c, hpos, hbits, by simp only [exec, execDDynCodelen, dDynCodelenStep, hdec, Res.bind_ok]⟩

/-- D_DYN_CODELEN without the bits of its symbol. -/
theorem exec_dDynCodelen_of_not_hasBits {e : Entry} (he : Selects .codeLen s e)
    (h : ¬HasBits s e.len.toNat) :
    ∃ t, exec .dDynCodelen s = .next t ∧ FailedAfter s t 0 .unexpectedEof e.len.toNat := by
  rw [← lookup_of_selects .codeLen s e he] at h ⊢
  obtain ⟨hb, -⟩ | ⟨-, c, hpos, hbits, hdec⟩ := decodeSym_cases .codeLen s
  · exact absurd hb h
  · refine ⟨_, ?_, failedAfter_raiseErr (congrArg BitVec.toNat hpos) hbits _ _⟩
    simp only [exec, execDDynCodelen, dDynCodelenStep, hdec, Res.bind_raised, Res.out_raised]

/-- D_DYN_CODELEN on a repeat symbol with its extra bits left. -/
theorem exec_dDynCodelen_of_repeats {e : Entry} {n low : Nat} (he : Selects .codeLen s e) (hp : PosFits s)
    (hy : Repeats s.par.ci e.base.toNat n low) (h : HasBits s (e.len.toNat + n)) :
    ∃ c : Cursor, c.pos.toNat = s.cur.pos.toNat + (e.len.toNat + n) ∧ c.inBits = s.cur.inBits ∧
      exec .dDynCodelen s = (repeatLens (repeatedLen e.base.toNat (withCur c s))
        (low + fieldAt s (s.cur.pos.toNat + e.len.toNat) n) (withCur c s)).out := by
  simp only [HasBits] at h
  obtain ⟨c, hpos, hbits, hexec⟩ := exec_dDynCodelen_of_hasBits he hp (by simp only [HasBits]; omega)
  obtain ⟨d, hread, hpos', hbits'⟩ := readBits_ok (withCur c s) n
    (by simpa [PosFits, hbits] using hp) (by simp only [HasBits, withCur_cur, hpos, hbits]; omega)
  rw [withCur_cur, hpos] at hpos' hread
  refine ⟨d, by omega, hbits'.trans hbits, ?_⟩
  rw [hexec, expandSymbol_of_repeats (s := withCur c s) hy, hread]
  rfl

/-- D_DYN_CODELEN on a repeat symbol without its extra bits. -/
theorem exec_dDynCodelen_of_missing_extra {e : Entry} {n low : Nat} (he : Selects .codeLen s e)
    (hp : PosFits s) (hy : Repeats s.par.ci e.base.toNat n low) (h : HasBits s e.len.toNat)
    (hn : ¬HasBits s (e.len.toNat + n)) :
    ∃ t, exec .dDynCodelen s = .next t ∧ FailedAfter s t e.len.toNat .unexpectedEof n := by
  obtain ⟨c, hpos, hbits, hexec⟩ := exec_dDynCodelen_of_hasBits he hp h
  have hmissing : ¬HasBits (withCur c s) n := by
    simp only [HasBits, withCur_cur, hpos, hbits] at hn ⊢
    omega
  refine ⟨_, ?_, failedAfter_raiseErr hpos hbits _ _⟩
  rw [hexec, expandSymbol_of_repeats (s := withCur c s) hy, readBits_of_not_hasBits _ _ hmissing]
  rfl

end
end Sys2Proof.Machine

open Sys2Proof Sys2Proof.Machine

/-- Settles O45: a length and a 16 with nothing before it need the symbol's bits only; a repeat goes on with
its extra bits, and its lengths fit the declared ones or not. -/
theorem dynCodelenExpandsOneSymbol : Obligations.DynCodelenExpandsOneSymbol := by
  unfold Obligations.DynCodelenExpandsOneSymbol
  intro s e he hfit hcl hlit hdist hci y p total written fails
  have htotal : total = declaredLens s := rfl
  refine ⟨exec_dDynCodelen_of_not_hasBits he, fun hb hy => ?length, fun hb hy h0 => ?nothing,
    fun n low hrow => ?_⟩
  case length =>
    obtain ⟨c, hpos, hin, hexec⟩ := exec_dDynCodelen_of_hasBits he hfit hb
    exact ⟨_, by rw [hexec, expandSymbol, if_pos hy, Res.out_ok],
      lensWritten_appendLens hpos hin _ (by omega) (by omega) hcl⟩
  case nothing =>
    obtain ⟨c, hpos, hin, hexec⟩ := exec_dDynCodelen_of_hasBits he hfit hb
    refine ⟨_, ?_, failedAfter_raiseErr hpos hin _ _⟩
    rw [hexec, expandSymbol, if_neg (by omega), if_pos hy, if_pos (by exact h0), raise_eq, Res.out_raised]
    rfl
  have hrepeats : Repeats s.par.ci e.base.toNat n low := by
    obtain ⟨hy, h0, rfl, rfl⟩ | ⟨hy, rfl, rfl⟩ | ⟨hy, rfl, rfl⟩ := hrow <;> rw [show e.base.toNat = _ from hy]
    exacts [.last h0, .shortZeros, .longZeros]
  refine ⟨exec_dDynCodelen_of_missing_extra he hfit hrepeats, fun hb hr => ?written, fun hb hr => ?tooMany⟩
  all_goals
    obtain ⟨c, hpos, hin, hexec⟩ := exec_dDynCodelen_of_repeats he hfit hrepeats hb
    rw [repeatedLen_withCur _ (by omega)] at hexec
  case written =>
    refine ⟨_, ?_, lensWritten_appendLens hpos hin _ hr (by omega) hcl⟩
    rw [hexec, repeatLens, if_neg (by exact not_lt.2 hr), Res.out_ok]
  case tooMany =>
    refine ⟨_, ?_, failedAfter_raiseErr hpos hin _ _⟩
    rw [hexec, repeatLens, if_pos (by exact hr), raise_eq, Res.out_raised]
    rfl
end

section
/-! PROOF. RLE_EMIT and RLE_EXPAND on a length array (R57, R94..R96): the windows of the walk, what each sends,
and that expanding the pairs gives the array back. -/

namespace Sys2Proof.Machine

/-! ## Limits and windows of the walk (R94) -/

/-- The limits `(maxc, minc)` of a window of the length `next` after the length `prev`. -/
def windowLimits (prev next : Option Nat) : Nat × Nat :=
  if next = some 0 then (138, 3) else if next = prev then (6, 3) else (7, 4)

theorem rleLimits_eq (cur : Nat) (next : Option Nat) :
    rleLimits cur next = windowLimits (some cur) next := rfl

theorem windowLimits_of_ne {prev next : Option Nat} (h : next ≠ prev) :
    windowLimits prev next = if next = some 0 then (138, 3) else (7, 4) := by
  rw [windowLimits, if_neg h]

theorem windowLimits_pos (prev next : Option Nat) : 0 < (windowLimits prev next).1 := by
  unfold windowLimits
  split_ifs <;> decide

theorem rlePairs_eq {lens : List Nat} (h : lens ≠ []) :
    rlePairs lens = rleWalk none 0 (windowLimits none lens.head?) lens := by
  rw [rlePairs, windowLimits_of_ne (by simpa using h)]

section
variable {prev : Option Nat} {count cur : Nat} {lim : Nat × Nat}

/-- A window that can take one more of its length goes on. -/
theorem rleWalk_cons_same (h : count + 1 < lim.1) (rest : List Nat) :
    rleWalk prev count lim (cur :: cur :: rest) = rleWalk prev (count + 1) lim (cur :: rest) := by
  rw [rleWalk, if_pos ⟨h, rfl⟩]

/-- A window that is full, or after which another length comes, is sent. -/
theorem rleWalk_cons_flush {rest : List Nat} (h : count + 1 < lim.1 → rest.head? ≠ some cur) :
    rleWalk prev count lim (cur :: rest) = rleRun prev cur (count + 1) lim.2 ++
      rleWalk (some cur) 0 (windowLimits (some cur) rest.head?) rest := by
  rw [rleWalk, if_neg fun hc => h hc.1 hc.2, rleLimits_eq]

/-- A whole window of `m` more lengths. -/
theorem rleWalk_replicate {m : Nat} {rest : List Nat} (hm : 1 ≤ m) (hle : count + m ≤ lim.1)
    (h : count + m < lim.1 → rest.head? ≠ some cur) :
    rleWalk prev count lim (List.replicate m cur ++ rest) = rleRun prev cur (count + m) lim.2 ++
      rleWalk (some cur) 0 (windowLimits (some cur) rest.head?) rest := by
  induction m, hm using Nat.le_induction generalizing count with
  | base => exact rleWalk_cons_flush h
  | succ m hm ih =>
    obtain ⟨k, rfl⟩ := Nat.exists_eq_add_of_le' hm
    have hnext := ih (count := count + 1) (by omega) (by rwa [Nat.add_right_comm, Nat.add_assoc])
    rw [Nat.add_right_comm, Nat.add_assoc] at hnext
    rw [← hnext]
    exact rleWalk_cons_same (by omega) _

/-- The last window of an array. -/
theorem rleWalk_last {m : Nat} (hm : 1 ≤ m) (hle : count + m ≤ lim.1) :
    rleWalk prev count lim (List.replicate m cur) = rleRun prev cur (count + m) lim.2 := by
  have hrun := rleWalk_replicate (prev := prev) (cur := cur) (rest := []) hm hle (by simp)
  rwa [List.append_nil, rleWalk, List.append_nil] at hrun

/-! ## Runs one after the other -/

/-- What came before matters only to a window of the same length. -/
theorem rleWalk_congr_prev {lens : List Nat} (h : lens.head? ≠ prev) :
    rleWalk prev count lim lens = rleWalk none count lim lens := by
  induction lens generalizing count with
  | nil => rfl
  | cons cur rest ih =>
    have hne : prev ≠ some cur := Ne.symm h
    have hrun : rleRun prev cur (count + 1) lim.2 = rleRun none cur (count + 1) lim.2 := by
      simp only [rleRun, hne, ne_eq, not_false_eq_true, reduceCtorEq, if_true]
    rw [rleWalk, rleWalk, hrun]
    split_ifs with hc
    · rw [ih (hc.2 ▸ h)]
    · rfl

/-- The walk of two arrays one after the other, where a run ends between them. -/
theorem rleWalk_append {as bs : List Nat} (ha : as ≠ []) (h : as.getLast? ≠ bs.head?) :
    rleWalk prev count lim (as ++ bs) = rleWalk prev count lim as ++
      rleWalk as.getLast? 0 (windowLimits as.getLast? bs.head?) bs := by
  induction as generalizing prev count lim with
  | nil => exact absurd rfl ha
  | cons cur rest ih =>
    cases rest with
    | nil =>
      have hflush := rleWalk_cons_flush (prev := prev) (count := count) (lim := lim) fun _ => Ne.symm h
      have hlast := rleWalk_cons_flush (prev := prev) (count := count) (lim := lim) (cur := cur) (rest := [])
        (by simp)
      rw [hlast, rleWalk, List.append_nil]
      exact hflush
    | cons y rest =>
      have hhead : (y :: rest ++ bs).head? = (y :: rest).head? := rfl
      rw [List.getLast?_cons_cons] at h ⊢
      rw [rleWalk, List.cons_append, rleWalk, hhead]
      split_ifs
      · exact ih (List.cons_ne_nil y rest) h
      · rw [ih (List.cons_ne_nil y rest) h, List.append_assoc]

end

/-! ## The pairs of one run -/

section
variable {v : Nat}

/-- A run that goes on, or one of zeros, is sent in full windows and what is left. -/
theorem rleWalk_run {prev : Option Nat} {w minc : Nat} (hp : prev = some v ∨ v = 0)
    (hlim : windowLimits (some v) (some v) = (w, minc)) (hminc : 0 < minc) (q : Nat) {r : Nat} (hr : r < w) :
    rleWalk prev 0 (windowLimits prev (List.replicate (w * q + r) v).head?) (List.replicate (w * q + r) v) =
      (List.replicate q (rleRun (some v) v w minc)).flatten ++ rleRun (some v) v r minc := by
  have hfirst : windowLimits prev (some v) = (w, minc) ∧
      ∀ n, rleRun prev v n minc = rleRun (some v) v n minc := by
    obtain rfl | rfl := hp
    exacts [⟨hlim, fun _ => rfl⟩, ⟨hlim, fun _ => rfl⟩]
  induction q generalizing prev with
  | zero =>
    obtain rfl | hpos := Nat.eq_zero_or_pos r
    · simp [rleWalk, rleRun, hminc]
    · rw [Nat.mul_zero, Nat.zero_add, List.head?_replicate, if_neg hpos.ne', hfirst.1,
        rleWalk_last hpos (by simp [hr.le]), hfirst.2, Nat.zero_add]
      rfl
  | succ q ih =>
    have hw : 1 ≤ w := Nat.one_le_of_lt hr
    rw [Nat.mul_succ, Nat.add_right_comm, Nat.add_comm, List.replicate_add,
      List.head?_append_of_ne_nil _ (by simp; omega), List.head?_replicate, if_neg (by omega), hfirst.1,
      rleWalk_replicate hw (by simp) (by simp), ih (.inl rfl) ⟨hlim, fun _ => rfl⟩, hfirst.2, Nat.zero_add,
      List.replicate_succ, List.flatten_cons, List.append_assoc]

/-- The pairs of a run of a length other than 0: a first window of at most 7, then windows of 6 (R94). -/
theorem rlePairs_replicate (hv : v ≠ 0) {n : Nat} (hn : 1 ≤ n) :
    rlePairs (List.replicate n v) = lengthRunPairs v n := by
  have hlim : (if (List.replicate n v).head? = some 0 then (138, 3) else (7, 4)) = (7, 4) := by
    simp [List.head?_replicate, hv]
  rw [rlePairs, hlim]
  obtain h4 | h4 := Nat.lt_or_ge n 4
  · rw [rleWalk_last hn (by simp; omega), Nat.zero_add, rleRun, if_pos h4, lengthRunPairs, if_pos h4]
    rfl
  obtain h7 | h7 := Nat.lt_or_ge n 7
  · have hdiv : (n - 1) / 6 = 0 := Nat.div_eq_of_lt (by omega)
    have hmod : (n - 1) % 6 = n - 1 := Nat.mod_eq_of_lt (by omega)
    rw [rleWalk_last hn (by simp; omega), Nat.zero_add, rleRun, if_neg (not_lt.2 h4), if_pos hv, if_pos nofun,
      lengthRunPairs, if_neg (not_lt.2 h4), hdiv, hmod, restPairs, if_neg (by omega)]
    rfl
  · obtain ⟨k, rfl⟩ := Nat.exists_eq_add_of_le h7
    have hfull : rleRun (some v) v 6 3 = [(16#5, 3#7)] := by simp [rleRun, hv, pairOf]
    have hrest : rleRun (some v) v (k % 6) 3 = restPairs v (k % 6) := by simp [rleRun, restPairs, hv, pairOf]
    have hnext : windowLimits (some v) (some v) = (6, 3) := by simp [windowLimits, hv]
    have hwindows := rleWalk_run (.inl rfl) hnext (by decide) (k / 6)
      (Nat.mod_lt k (by decide : 6 > 0))
    rw [Nat.div_add_mod, hfull, hrest, List.flatten_replicate_singleton] at hwindows
    rw [List.replicate_add, rleWalk_replicate (by decide) (by decide) (by simp), hwindows, lengthRunPairs,
      if_neg (by omega), show (7 + k - 1) / 6 = k / 6 + 1 by omega, show (7 + k - 1) % 6 = k % 6 by omega]
    simp [rleRun, hv, List.replicate_succ, pairOf]

/-- The pairs of a run of zeros: windows of 138 (R94). -/
theorem rlePairs_zeros {n : Nat} (hn : 1 ≤ n) : rlePairs (List.replicate n 0) = zeroRunPairs n := by
  have hfull : rleRun (some 0) 0 138 3 = [(18#5, 127#7)] := rfl
  have hwindows := rleWalk_run (prev := none) (.inr rfl) rfl (by decide) (n / 138)
    (Nat.mod_lt n (by decide : 138 > 0))
  rw [Nat.div_add_mod, hfull, List.flatten_replicate_singleton] at hwindows
  rw [rlePairs_eq (by simp; omega), hwindows, zeroRunPairs]
  rfl

end

/-! ## What each window sends -/

/-- The pairs of a window of `count` lengths `cur` after the length `prev` (R94). -/
inductive Window (prev : Option Nat) (cur count : Nat) : List Pair → Prop
  | lengths : Window prev cur count (List.replicate count (pairOf cur 0))
  | start (h : 4 ≤ count) (hm : count ≤ 7) : Window prev cur count [pairOf cur 0, pairOf 16 (count - 4)]
  | goOn (hp : prev = some cur) (h : 3 ≤ count) (hm : count ≤ 6) :
    Window prev cur count [pairOf 16 (count - 3)]
  | shortZeros (hz : cur = 0) (h : 3 ≤ count) (hm : count ≤ 10) :
    Window prev cur count [pairOf 17 (count - 3)]
  | longZeros (hz : cur = 0) (h : 11 ≤ count) (hm : count ≤ 138) :
    Window prev cur count [pairOf 18 (count - 11)]

/-- Within its limits a window sends one of five forms. -/
theorem rleRun_window {prev : Option Nat} {cur count : Nat} (h : count ≤ (windowLimits prev (some cur)).1) :
    Window prev cur count (rleRun prev cur count (windowLimits prev (some cur)).2) := by
  rw [rleRun]
  split_ifs with hmin hz hp hle
  · exact .lengths
  · have hlim : windowLimits prev (some cur) = (7, 4) := by simp [windowLimits, hz, Ne.symm hp]
    rw [hlim] at h hmin
    exact .start (not_lt.1 hmin) h
  · have hlim : windowLimits prev (some cur) = (6, 3) := by simp [windowLimits, hz, not_not.1 hp]
    rw [hlim] at h hmin
    exact .goOn (not_not.1 hp) (not_lt.1 hmin) h
  all_goals
    have hlim : windowLimits prev (some cur) = (138, 3) := by simp [windowLimits, not_not.1 hz]
    rw [hlim] at h hmin
  · exact .shortZeros (not_not.1 hz) (not_lt.1 hmin) hle
  · exact .longZeros (not_not.1 hz) (by omega) h

/-- A symbol of the meta alphabet with an extra value in the range R57 gives it. -/
def PairOk (p : Pair) : Prop :=
  p.1.toNat ≤ 18 ∧ (p.1.toNat ≤ 15 → p.2 = 0) ∧ (p.1.toNat = 16 → p.2.toNat ≤ 3) ∧
    (p.1.toNat = 17 → p.2.toNat ≤ 7)

theorem pairOk_pairOf {y x : Nat} (hy : y ≤ 18) (hlength : y ≤ 15 → x = 0) (hlast : y = 16 → x ≤ 3)
    (hshort : y = 17 → x ≤ 7) (hx : x < 128) : PairOk (pairOf y x) := by
  have hsym : (pairOf y x).1.toNat = y := Nat.mod_eq_of_lt (by omega)
  have hextra : (pairOf y x).2.toNat = x := Nat.mod_eq_of_lt hx
  rw [PairOk, hsym, hextra]
  refine ⟨hy, fun h => ?_, hlast, hshort⟩
  rw [hlength h]
  rfl

theorem Window.pairOk {prev : Option Nat} {cur count : Nat} {ps : List Pair} (h : Window prev cur count ps)
    (hc : cur ≤ 15) : ∀ p ∈ ps, PairOk p := by
  have hlength : PairOk (pairOf cur 0) := pairOk_pairOf (by omega) (by omega) (by omega) (by omega) (by omega)
  cases h with
  | lengths =>
    intro p hp
    rwa [List.eq_of_mem_replicate hp]
  | start h hm =>
    refine List.forall_mem_cons.2 ⟨hlength, List.forall_mem_singleton.2 ?_⟩
    exact pairOk_pairOf (by omega) (by omega) (by omega) (by omega) (by omega)
  | goOn _ h hm | shortZeros _ h hm | longZeros _ h hm =>
    exact List.forall_mem_singleton.2 (pairOk_pairOf (by omega) (by omega) (by omega) (by omega) (by omega))

/-! ## Expansion (R95) -/

section
variable (b : List (BitVec 4)) (rest : List Pair)

theorem rleExpandFrom_length {cur : Nat} (h : cur ≤ 15) :
    rleExpandFrom b (pairOf cur 0 :: rest) = rleExpandFrom (BitVec.ofNat 4 cur :: b) rest := by
  have hsym : (BitVec.ofNat 5 cur).toNat = cur := Nat.mod_eq_of_lt (by omega)
  have hlen : (BitVec.ofNat 5 cur).setWidth 4 = BitVec.ofNat 4 cur :=
    BitVec.setWidth_ofNat_of_le (by decide) cur
  rw [pairOf, rleExpandFrom.eq_def]
  simp only [hsym, if_pos h, hlen]

theorem rleExpandFrom_lengths {cur : Nat} (h : cur ≤ 15) (n : Nat) :
    rleExpandFrom b (List.replicate n (pairOf cur 0) ++ rest) =
      rleExpandFrom (List.replicate n (BitVec.ofNat 4 cur) ++ b) rest := by
  induction n generalizing b with
  | zero => rfl
  | succ n ih =>
    rw [List.replicate_succ, List.cons_append, rleExpandFrom_length _ _ h, ih, List.replicate_succ',
      List.append_assoc]
    rfl

section
variable {k : Nat} (h : k < 128)
include h

theorem rleExpandFrom_repeatLast (v : BitVec 4) :
    rleExpandFrom (v :: b) (pairOf 16 k :: rest) =
      rleExpandFrom (List.replicate (3 + k) v ++ v :: b) rest := by
  change rleExpandFrom (List.replicate (3 + (BitVec.ofNat 7 k).toNat) v ++ v :: b) rest = _
  rw [BitVec.toNat_ofNat, Nat.mod_eq_of_lt h]

theorem rleExpandFrom_shortZeros :
    rleExpandFrom b (pairOf 17 k :: rest) = rleExpandFrom (List.replicate (3 + k) 0 ++ b) rest := by
  change rleExpandFrom (List.replicate (3 + (BitVec.ofNat 7 k).toNat) 0 ++ b) rest = _
  rw [BitVec.toNat_ofNat, Nat.mod_eq_of_lt h]

theorem rleExpandFrom_longZeros :
    rleExpandFrom b (pairOf 18 k :: rest) = rleExpandFrom (List.replicate (11 + k) 0 ++ b) rest := by
  change rleExpandFrom (List.replicate (11 + (BitVec.ofNat 7 k).toNat) 0 ++ b) rest = _
  rw [BitVec.toNat_ofNat, Nat.mod_eq_of_lt h]

end

/-- A window expands to its lengths. -/
theorem Window.expand {prev : Option Nat} {cur count : Nat} {ps : List Pair} (h : Window prev cur count ps)
    (hc : cur ≤ 15) (hb : b.head? = prev.map (BitVec.ofNat 4)) :
    rleExpandFrom b (ps ++ rest) = rleExpandFrom (List.replicate count (BitVec.ofNat 4 cur) ++ b) rest := by
  cases h with
  | lengths => exact rleExpandFrom_lengths b rest hc count
  | start h hm =>
    obtain ⟨k, rfl⟩ := Nat.exists_eq_add_of_le h
    rw [List.cons_append, rleExpandFrom_length _ _ hc, List.singleton_append, Nat.add_sub_cancel_left,
      rleExpandFrom_repeatLast _ _ (by omega), show 4 + k = 3 + k + 1 by omega, List.replicate_succ',
      List.append_assoc]
    rfl
  | goOn hp h hm =>
    obtain ⟨c, rfl⟩ : ∃ c, b = BitVec.ofNat 4 cur :: c := by
      rw [hp] at hb
      exact ⟨b.tail, List.eq_cons_of_mem_head? hb⟩
    rw [List.singleton_append, rleExpandFrom_repeatLast _ _ (by omega), Nat.add_sub_cancel' h]
  | shortZeros hz h hm =>
    rw [List.singleton_append, rleExpandFrom_shortZeros _ _ (by omega), Nat.add_sub_cancel' h, hz]
    rfl
  | longZeros hz h hm =>
    rw [List.singleton_append, rleExpandFrom_longZeros _ _ (by omega), Nat.add_sub_cancel' h, hz]
    rfl

end

/-! ## The whole walk -/

/-- The pairs of the walk are in range, and expand to the lengths of the open window and those to come. -/
theorem rleWalk_expands {lens : List Nat} (hle : ∀ l ∈ lens, l ≤ 15) {prev : Option Nat} {count : Nat}
    (hcount : count < (windowLimits prev lens.head?).1) (hnil : lens = [] → count = 0) {b : List (BitVec 4)}
    (hb : b.head? = prev.map (BitVec.ofNat 4)) :
    (∀ p ∈ rleWalk prev count (windowLimits prev lens.head?) lens, PairOk p) ∧
    rleExpandFrom b (rleWalk prev count (windowLimits prev lens.head?) lens) =
      some (b.reverse ++ (List.replicate count (lens.headD 0) ++ lens).map (BitVec.ofNat 4)) := by
  induction lens generalizing prev count b with
  | nil =>
    rw [hnil rfl]
    exact ⟨nofun, by simp [rleWalk, rleExpandFrom]⟩
  | cons cur rest ih =>
    rw [List.head?_cons] at hcount ⊢
    obtain ⟨hcur, hrest⟩ := List.forall_mem_cons.1 hle
    by_cases hc : count + 1 < (windowLimits prev (some cur)).1 ∧ rest.head? = some cur
    · obtain ⟨rest, rfl⟩ : ∃ l, rest = cur :: l := ⟨rest.tail, List.eq_cons_of_mem_head? hc.2⟩
      rw [rleWalk_cons_same hc.1]
      obtain ⟨hok, hexp⟩ := ih hrest (count := count + 1) hc.1 (by simp) hb
      refine ⟨hok, hexp.trans ?_⟩
      simp [List.replicate_succ']
    · rw [rleWalk_cons_flush fun hlt hsame => hc ⟨hlt, hsame⟩]
      have hwindow := rleRun_window (prev := prev) (cur := cur) (count := count + 1) (by omega)
      obtain ⟨hok, hexp⟩ := ih hrest (prev := some cur) (count := 0)
        (b := List.replicate (count + 1) (BitVec.ofNat 4 cur) ++ b) (windowLimits_pos _ _)
        (fun _ => rfl) (by simp [List.replicate_succ])
      refine ⟨List.forall_mem_append.2 ⟨hwindow.pairOk hcur, hok⟩, ?_⟩
      rw [hwindow.expand b _ hcur hb, hexp, List.reverse_append, List.reverse_replicate, List.append_assoc,
        List.replicate_succ']
      simp

end Sys2Proof.Machine

open Sys2Proof Sys2Proof.Machine

/-- Settles O50: by the windows of the walk; where a run ends, the walk starts afresh. -/
theorem rleExpandInvertsRleEmit : Obligations.RleExpandInvertsRleEmit := by
  unfold Obligations.RleExpandInvertsRleEmit
  refine ⟨fun lens hne hle => ?_, fun as bs ha hb h => ?_, fun v n hv _ hn => rlePairs_replicate (by omega) hn,
    fun n hn => rlePairs_zeros hn⟩
  · obtain ⟨hok, hexp⟩ := rleWalk_expands hle (windowLimits_pos none _) (fun _ => rfl) (b := []) rfl
    rw [rleExpand, rlePairs_eq hne]
    exact ⟨hexp, hok⟩
  · rw [rlePairs_eq (by simp [ha]), rlePairs_eq ha, rleWalk_append ha h, List.head?_append_of_ne_nil _ ha,
      rlePairs, windowLimits_of_ne h.symm, rleWalk_congr_prev h.symm]
end

section
/-! PROOF. Canonical codes as their rule gives them (R67), and DECODESYM on any table (R72). -/

open Sys2Proof Sys2Proof.Machine

/-- Settles O34: the recurrence is the definition, and a code is its length's first one and its rank. -/
theorem canonicalCodesAreConsecutive : Obligations.CanonicalCodesAreConsecutive := by
  unfold Obligations.CanonicalCodesAreConsecutive
  refine fun lens hr => ⟨rfl, fun l hl => ?_, fun y l => canonCodes_getElem? hr⟩
  rw [firstCode, if_neg (by omega)]

/-- Settles O35: a code that begins with another is the same symbol's. -/
theorem canonicalCodesArePrefixFree : Obligations.CanonicalCodesArePrefixFree := by
  unfold Obligations.CanonicalCodesArePrefixFree
  intro lens hr hk a b la lb ca cb hla hlb hne hle hab hca hcb
  have ha : Coded lens a la ca := ⟨hla, hca, hne⟩
  have hb : Coded lens b lb cb := ⟨hlb, hcb, by omega⟩
  exact ⟨ha.lt hr hk, hb.lt hr hk, fun hp => hab (ha.eq_of_prefix hr hb hle hp)⟩

/-- Settles O36: the entry the table selects is the lookup's, whose length DECODESYM consumes. -/
theorem decodesymFollowsTheTable : Obligations.DecodesymFollowsTheTable := by
  unfold Obligations.DecodesymFollowsTheTable
  intro sel s e he hp
  obtain rfl := lookup_of_selects sel s e he
  refine ⟨fun h => ?_, fun h => ?_⟩
  · obtain ⟨c, hdec, hpos, hin⟩ := decodeSym_ok sel s hp h
    refine ⟨setResEntry (lookup sel s) (withCur c s), ?_, ⟨hpos, hin⟩, rfl⟩
    simp only [exec, execDecodesym, hdec, Res.bind_ok, Res.out_ok]
  · obtain ⟨hb, -⟩ | ⟨-, c, hpos, hin, hdec⟩ := decodeSym_cases sel s
    · exact absurd hb h
    refine ⟨raiseErr .unexpectedEof ((lookup sel s).len.setWidth 32) (withCur c s), ?_,
      ⟨congrArg BitVec.toNat hpos, hin⟩, ?_⟩
    · simp only [exec, execDecodesym, hdec, Res.bind_raised, Res.out_raised, BitVec.ofNat_toNat]
    · simp only [raiseErr, bitPos, withCur, hpos]
end

section
/-! PROOF. The tables a job builds: those of a dynamic header (R85, R87) and those of E_BUILD, with the header
counts and the RLE queue (R98, R99). -/

namespace Sys2Proof.Machine

/-! ## BUILD as the first statement of a sequence (R66, R71) -/

/-- After a BUILD of a complete array the sequence goes on with its slot. -/
theorem build_bind_of_complete {α : Type} {sel : Sel} {lens : List Nat} (s : State) (f : Unit → State → Res α)
    (h : kraftSum lens = 2 ^ 15) :
    (build sel lens s).bind f = f () (setSlot sel (builtSlot sel lens) s) := by
  rw [build_complete sel lens s h, Res.bind_ok]

/-- A BUILD of an array that is not complete ends the sequence by its tree error, before any write. -/
theorem build_bind_fails {α : Type} (sel : Sel) (lens : List Nat) (s : State) (f : Unit → State → Res α) :
    (kraftSum lens < 2 ^ 15 → ((build sel lens s).bind f).out = .next { s with
      err := ⟨.treeIncomplete, bitPos s, BitVec.ofNat 32 (selNat sel)⟩, state := .error }) ∧
    (2 ^ 15 < kraftSum lens → ((build sel lens s).bind f).out = .next { s with
      err := ⟨.treeOversubscribed, bitPos s, BitVec.ofNat 32 (selNat sel)⟩, state := .error }) := by
  constructor <;> intro h
  · rw [build_incomplete sel lens s h, Res.bind_raised, Res.out_raised, raiseErr]
  · rw [build_oversubscribed sel lens s h, Res.bind_raised, Res.out_raised, raiseErr]

/-! ## The arrays are code lengths (R65, R66) -/

theorem toNat_le_maxCodeLen {w : Nat} (x : BitVec w) (hw : w ≤ 4) : x.toNat ≤ maxCodeLen := by
  have hpow : 2 ^ w ≤ 2 ^ 4 := Nat.pow_le_pow_right (by decide) hw
  have hx := x.isLt
  rw [maxCodeLen]
  omega

/-- The lengths a tree memory holds fit its cells (R20). -/
theorem lengthArray_of_treeHolds {w : Nat} {m : Cells w} {sel : Sel} {lens : List Nat} (hw : w ≤ 4)
    (hn : lens.length = nsym sel) (h : TreeHolds m lens) : LengthArray sel lens := by
  refine ⟨hn, fun l hl => ?_⟩
  obtain ⟨y, hy⟩ := List.mem_iff_getElem?.1 hl
  have hread := h y (List.getElem?_eq_some_iff.1 hy).1
  rw [hy, Option.map_eq_some_iff] at hread
  obtain ⟨x, -, rfl⟩ := hread
  exact toNat_le_maxCodeLen x hw

theorem lengthArray_map_range (sel : Sel) {f : Nat → Nat} (hf : ∀ y, f y ≤ maxCodeLen) :
    LengthArray sel ((List.range (nsym sel)).map f) := by
  refine ⟨by simp, fun l hl => ?_⟩
  obtain ⟨y, -, rfl⟩ := List.mem_map.1 hl
  exact hf y

/-- A length of `cl`, or the padding after its part (R87). -/
theorem paddedLen_le_maxCodeLen (p : Prop) [Decidable p] (x : BitVec 4) :
    (if p then x.toNat else 0) ≤ maxCodeLen := by
  split
  · exact toNat_le_maxCodeLen x le_rfl
  · exact Nat.zero_le _

theorem metaArray_lengthArray (s : State) : LengthArray .codeLen (metaArray s) :=
  lengthArray_map_range .codeLen fun _ => toNat_le_maxCodeLen _ (by decide)

theorem litLenArray_lengthArray (s : State) : LengthArray .litLen (litLenArray s) :=
  lengthArray_map_range .litLen fun _ => paddedLen_le_maxCodeLen _ _

theorem distArray_lengthArray (s : State) : LengthArray .dist (distArray s) :=
  lengthArray_map_range .dist fun _ => paddedLen_le_maxCodeLen _ _

/-! ## Header counts and the RLE queue (R98, R99) -/

/-- The meta lengths in the order the stream sends them (R56). -/
theorem permuted_getD (mm : List Nat) (i : Nat) :
    (permuted mm).getD i 0 = if i < 19 then mm.getD (metaOrder.getD i 0) 0 else 0 := by
  have hlen : perm.length = 19 := rfl
  by_cases h : i < 19
  · simp [permuted, List.getD_eq_getElem?_getD, h, hlen, show metaOrder = perm from rfl]
  · simp [permuted, List.getD_eq_getElem?_getD, h, hlen]

/-- A header count, from the last symbol in use (R98). -/
theorem trimmedCount_of_last {lens : List Nat} {last : Nat} (low : Nat) (h : lens.getD last 0 ≠ 0)
    (hlast : ∀ y, last < y → lens.getD y 0 = 0) : trimmedCount low lens = max low (last + 1) - low := by
  rw [trimmedCount, usedLength_eq lens last h hlast]

/-- The number of meta lengths sent, from the last one in use in their order (R56, R98). -/
theorem trimmedCount_permuted {mm : List Nat} {last : Nat} (hlt : last < 19)
    (h : mm.getD (metaOrder.getD last 0) 0 ≠ 0)
    (hlast : ∀ i, last < i → i < 19 → mm.getD (metaOrder.getD i 0) 0 = 0) :
    trimmedCount 4 (permuted mm) = max 4 (last + 1) - 4 := by
  refine trimmedCount_of_last 4 (by rwa [permuted_getD, if_pos hlt]) fun i hi => ?_
  rw [permuted_getD]
  split
  · exact hlast i hi ‹_›
  · rfl

/-- A symbol in use stands inside its array. -/
theorem lt_length_of_getD_ne_zero {lens : List Nat} {y : Nat} (h : lens.getD y 0 ≠ 0) : y < lens.length :=
  Nat.lt_of_not_le fun hle => h (List.getD_eq_default _ _ hle)

/-- The header counts and the queue of E_BUILD, where the counts fit their registers (R98, R99). -/
theorem queueLens_setCounts {lit dist : List Nat} (mm : List Nat) (s : State)
    (hlit : trimmedCount 257 lit < 32) (hdist : trimmedCount 1 dist < 32) :
    queueLens lit dist (setCounts lit dist mm s) = { s with enc := { s.enc with
      eHlit := BitVec.ofNat 5 (trimmedCount 257 lit)
      eHdist := BitVec.ofNat 5 (trimmedCount 1 dist)
      eHclen := BitVec.ofNat 4 (trimmedCount 4 (permuted mm))
      rq := rlePairs (lit.take (trimmedCount 257 lit + 257)) ++ rlePairs (dist.take (trimmedCount 1 dist + 1))
      rqi := 0
      emi := 0 } } := by
  simp [queueLens, setCounts, appendPairs, BitVec.toNat_ofNat, Nat.mod_eq_of_lt hlit, Nat.mod_eq_of_lt hdist]

/-! ## E_BUILD as an instruction -/

section
variable {s : State} {lit dist mm : List Nat}

theorem exec_eBuild_of_treeHolds (hl : lit.length = litSymbols) (hd : dist.length = distSymbols)
    (hm : mm.length = metaSymbols) (hlit : TreeHolds s.litlenLen lit) (hdist : TreeHolds s.distLen dist)
    (hmm : TreeHolds s.metaLenMem mm) :
    exec .eBuild s = (eBuildStep lit dist mm s).out := by
  have htl : treeLens .litLen litSymbols s = some lit := hl ▸ treeLens_litLen s lit hlit
  have htd : treeLens .dist distSymbols s = some dist := hd ▸ treeLens_dist s dist hdist
  have htm : treeLens .codeLen metaSymbols s = some mm := hm ▸ treeLens_codeLen s mm hmm
  simp only [exec, execEBuild, htl, htd, htm]

/-- A tree that cannot be read faults before anything else (R20; log 16). -/
theorem exec_eBuild_of_none (h : treeLens .litLen litSymbols s = none ∨ treeLens .dist distSymbols s = none ∨
    treeLens .codeLen metaSymbols s = none) : ∃ t, exec .eBuild s = .fault (.treeUnwritten t) := by
  simp only [exec, execEBuild]
  split
  next hlit hdist hmm =>
    rw [hlit, hdist, hmm] at h
    simp at h
  all_goals exact ⟨_, rfl⟩

end
end Sys2Proof.Machine

open Sys2Proof Sys2Proof.Machine

/-- Settles O44: each table's BUILD comes first in what is left of its step. -/
theorem dynamicTablesAreBuilt : Obligations.DynamicTablesAreBuilt := by
  unfold Obligations.DynamicTablesAreBuilt
  intro s hml hcl hl hd mm ll dd fails
  have hmm : metaArray s = mm := metaArray_eq s hml
  have hll : litLenArray s = ll := litLenArray_eq hcl
  have hdd : distArray s = dd := distArray_eq hcl hl
  have hmeta : exec .dDynMetabuild s = (dDynMetabuildStep s).out := rfl
  have htable : exec .dDynTablebuild s = (dDynTablebuildStep s).out := rfl
  rw [dDynMetabuildStep, hmm] at hmeta
  rw [dDynTablebuildStep, hll, hdd] at htable
  rw [hmeta, htable]
  refine ⟨(build_bind_fails .codeLen mm s _).1, (build_bind_fails .codeLen mm s _).2,
    fun hk => ⟨builtSlot .codeLen mm, builtSlot_built (hmm ▸ metaArray_lengthArray s) hk, ?_⟩,
    (build_bind_fails .litLen ll s _).1, (build_bind_fails .litLen ll s _).2,
    fun hk => ⟨builtSlot .litLen ll, builtSlot_built (hll ▸ litLenArray_lengthArray s) hk, ?_⟩⟩
  · rw [build_bind_of_complete s _ hk]
    rfl
  rw [build_bind_of_complete s _ hk]
  refine ⟨(build_bind_fails .dist dd _ _).1, (build_bind_fails .dist dd _ _).2,
    fun hk => ⟨builtSlot .dist dd, builtSlot_built (hdd ▸ distArray_lengthArray s) hk, ?_⟩⟩
  rw [build_bind_of_complete _ _ hk]
  rfl

/-- Settles O58: each tree's BUILD comes first in what is left of E_BUILD; after the three, the counts fit their
registers, so the queue holds the lengths up to the last one in use. -/
theorem encoderBuildsItsTrees : Obligations.EncoderBuildsItsTrees := by
  unfold Obligations.EncoderBuildsItsTrees
  refine ⟨fun s h => exec_eBuild_of_none ?_, fun s lit dist mm hl hd hm hlit hdist hmm => ?_⟩
  · exact h.imp (fun ⟨_, hy, hn⟩ => readCells_eq_none hy hn) (.imp (fun ⟨_, hy, hn⟩ => readCells_eq_none hy hn)
      fun ⟨_, hy, hn⟩ => readCells_eq_none hy hn)
  intro fails
  have hexec := exec_eBuild_of_treeHolds hl hd hm hlit hdist hmm
  rw [eBuildStep] at hexec
  simp only [fails, hexec]
  refine ⟨build_bind_fails .litLen lit s _, fun hk => ⟨builtSlot .litLen lit,
    builtSlot_built (lengthArray_of_treeHolds le_rfl hl hlit) hk, ?_⟩⟩
  rw [build_bind_of_complete s _ hk]
  refine ⟨build_bind_fails .dist dist _ _, fun hk => ⟨builtSlot .dist dist,
    builtSlot_built (lengthArray_of_treeHolds le_rfl hd hdist) hk, ?_⟩⟩
  rw [build_bind_of_complete _ _ hk]
  refine ⟨build_bind_fails .codeLen mm _ _, fun hk => ⟨builtSlot .codeLen mm,
    builtSlot_built (lengthArray_of_treeHolds (by decide) hm hmm) hk, ?_⟩⟩
  rw [build_bind_of_complete _ _ hk]
  intro lastL lastD lastP hL hLlast hD hDlast hP19 hP hPlast
  have hlitLast := lt_length_of_getD_ne_zero hL
  have hdistLast := lt_length_of_getD_ne_zero hD
  have hlitCount := trimmedCount_of_last 257 hL hLlast
  have hdistCount := trimmedCount_of_last 1 hD hDlast
  rw [Res.out_ok, queueLens_setCounts mm _ (by omega) (by omega), hlitCount, hdistCount,
    trimmedCount_permuted hP19 hP hPlast, Nat.sub_add_cancel (le_max_left 257 _),
    Nat.sub_add_cancel (le_max_left 1 _)]
  rfl
end

section
/-! PROOF. PEEK, CONSUME, ALIGN and REFILL as instructions (R73..R75, R77): where an aligned cursor stands, and how
many bits a refill holds. -/

namespace Sys2Proof.Machine

section
variable {s : State}

/-- Under R24's invariant a move by bits that are held does not wrap `pos` (R2, R24). -/
theorem CursorOk.toNat_pos_add {n : Nat} (h : CursorOk s) (hn : n ≤ s.cur.held.toNat) :
    (s.cur.pos + BitVec.ofNat 32 n).toNat = s.cur.pos.toNat + n := by
  obtain ⟨aligned, fetched, -, bound, -, -⟩ := h
  rw [BitVec.toNat_add, BitVec.toNat_ofNat, Nat.add_mod_mod]
  exact Nat.mod_eq_of_lt (by omega)

/-- The cursor never stands past the end of the input (R24). -/
theorem CursorOk.pos_le_inBits (h : CursorOk s) : s.cur.pos.toNat ≤ s.cur.inBits.toNat := by
  obtain ⟨aligned, fetched, total, -, -, -⟩ := h
  omega

/-- `pos + held` is a whole number of bytes, so that dropping `held mod 8` bits rounds `pos` up (R24, R77). -/
theorem alignCursor_pos (h : CursorOk s) :
    (alignCursor s).cur.pos.toNat = (s.cur.pos.toNat + 7) / 8 * 8 := by
  have aligned := h.aligned
  have moved : (alignCursor s).cur.pos.toNat = s.cur.pos.toNat + s.cur.held.toNat % 8 :=
    h.toNat_pos_add (Nat.mod_le _ _)
  omega

/-- A granule is fetched only below the threshold of 32 bits, so that a refill holds at most 31 + 16 bits
where no more were held before (R73). -/
theorem refillLoop_held_le {c : Cursor} (k : Nat) (h : CursorOk (withCur c s)) (hc : c.held.toNat ≤ 47) :
    (refillLoop s k c).held.toNat ≤ 47 := by
  induction k generalizing c with
  | zero => exact hc
  | succ k ih =>
    rw [refillLoop, refillThreshold, refillGranule]
    split_ifs with hlow
    · obtain ⟨hok, hheld, -⟩ :=
        fetchBytes_cursorOk (min (16 / 8) (s.inLen.toNat - c.fetch.toNat)) h (by omega) (by omega)
      exact ih hok (by omega)
    · exact hc

end
end Sys2Proof.Machine

open Sys2Proof Sys2Proof.Machine

/-- Settles O27: the value PEEK answers is the padded field, and only its refill touches the cursor. -/
theorem peekReturnsTheNextBits : Obligations.PeekReturnsTheNextBits := by
  unfold Obligations.PeekReturnsTheNextBits
  intro s n _
  refine ⟨(refill s).cur, refill_pos s, refill_inBits s, ?_⟩
  rw [← peekVal_eq]
  rfl

/-- Settles O28: after the refill CONSUME advances, or raises with the refilled cursor. -/
theorem consumeAdvancesOrRaises : Obligations.ConsumeAdvancesOrRaises := by
  unfold Obligations.ConsumeAdvancesOrRaises
  refine fun s n _ hp => ⟨refill s, rfl, refill_pos s, fun h => ?_, fun h => ?_⟩
  · refine ⟨advanceCursor n.toNat (refill s), ?_, advanceCursor_moved s n.toNat hp h, ?_⟩
    · simp only [exec, execConsume, consume_of_hasBits s n.toNat h, Res.out_ok]
    · simp only [advanceCursor, refill_inBits, BitVec.ofNat_toNat]
      rfl
  · simp only [exec, execConsume, consume_of_not_hasBits s n.toNat h, Res.out_raised, raiseErr,
      bitPos_refill, BitVec.ofNat_toNat]
    rfl

/-- Settles O30: the drop is the definition; under R24's invariant it rounds `pos` up. -/
theorem alignRoundsUpToAByte : Obligations.AlignRoundsUpToAByte := by
  unfold Obligations.AlignRoundsUpToAByte
  refine fun s => ⟨alignCursor s, rfl, rfl, fun h => ?_⟩
  have hok : CursorOk (alignCursor s) := alignCursor_cursorOk h
  exact ⟨alignCursor_pos h, hok.pos_le_inBits, hok⟩

/-- Settles O31: the loop of REFILL keeps `pos` and R24's invariant, and stops filled. -/
theorem refillTopsUpTheAccumulator : Obligations.RefillTopsUpTheAccumulator := by
  unfold Obligations.RefillTopsUpTheAccumulator
  refine fun s => ⟨refill s, rfl, rfl, ⟨congrArg BitVec.toNat (refill_pos s), refill_inBits s⟩, fun h => ?_⟩
  exact ⟨refill_cursorOk h, refill_filled h, refillLoop_held_le 4 h⟩
end

section
/-! PROOF. D_HEADER .. D_DYN_METALEN, D_STATIC (R79..R84, R88) and D_BG_LITERAL (R90): consecutive reads of one
stream, the end of a block, and what the Literal stage makes of each kind of entry. -/

namespace Sys2Proof.Machine

section
variable {s t u : State} {m n : Nat}

/-! ## Consecutive reads (R37, R76) -/

theorem HasBits.of_le (h : HasBits s n) (hmn : m ≤ n) : HasBits s m :=
  (Nat.add_le_add_left hmn _).trans h

/-- `u` reads on in the stream of `s`, `n` bits further. -/
structure ReadsOn (s u : State) (n : Nat) : Prop where
  moved  : CursorMoved s u n
  stream : ∀ p, inBit u p = inBit s p

/-- Writes of other registers do not move the cursor or change the stream. -/
theorem ReadsOn.of_same (h : ReadsOn s t n) (hc : u.cur = t.cur) (hs : ∀ p, inBit u p = inBit t p) :
    ReadsOn s u n :=
  ⟨⟨hc ▸ h.moved.pos, hc ▸ h.moved.inBits⟩, fun p => (hs p).trans (h.stream p)⟩

/-- `Read(n)` where `m` bits have been read and `n` more are left. -/
theorem ReadsOn.readBits_ok (hr : ReadsOn s u m) (hp : PosFits s) (h : HasBits s (m + n)) :
    ∃ c : Cursor, ReadsOn s (withCur c u) (m + n) ∧
      readBits n u = .ok (fieldAt s (s.cur.pos.toNat + m) n) (withCur c u) := by
  obtain ⟨⟨hpos, hin⟩, hstream⟩ := hr
  obtain ⟨c, hread, hpos', hin'⟩ := Machine.readBits_ok u n (by rwa [PosFits, hin])
    (by rwa [HasBits, hpos, hin, Nat.add_assoc])
  have hfield : fieldAt u u.cur.pos.toNat n = fieldAt s (s.cur.pos.toNat + m) n := by
    simp only [fieldAt, hstream, hpos]
  rw [hfield] at hread
  exact ⟨c, ⟨⟨by rw [withCur_cur, hpos', hpos, Nat.add_assoc], hin'.trans hin⟩, hstream⟩, hread⟩

/-- `Read(n)` where `m` bits have been read and `n` more are not left. -/
theorem ReadsOn.readBits_missing (hr : ReadsOn s u m) (h : ¬HasBits s (m + n)) :
    readBits n u = .raised (raiseErr .unexpectedEof (BitVec.ofNat 32 n) u) :=
  readBits_of_not_hasBits u n (by rwa [HasBits, hr.moved.pos, hr.moved.inBits, Nat.add_assoc])

/-- The first `Read(n)` of a step, with its bits left. -/
theorem readBits_first_ok (hp : PosFits s) (h : HasBits s n) :
    ∃ c : Cursor, ReadsOn s (withCur c s) n ∧
      readBits n s = .ok (fieldAt s s.cur.pos.toNat n) (withCur c s) := by
  obtain ⟨c, hread, hpos, hin⟩ := readBits_ok s n hp h
  exact ⟨c, ⟨⟨hpos, hin⟩, fun _ => rfl⟩, hread⟩

theorem ReadsOn.setBfinal (h : ReadsOn s t n) (v : Nat) : ReadsOn s (setBfinal v t) n :=
  h.of_same rfl fun _ => rfl

/-! ## The counts of a dynamic header (R83) -/

/-- `hlit <- v + 257` (R83). -/
def setHlit (v : Nat) (s : State) : State :=
  { s with par := { s.par with hlit := BitVec.ofNat 9 (v + 257) } }

/-- `hdist <- v + 1` (R83). -/
def setHdist (v : Nat) (s : State) : State :=
  { s with par := { s.par with hdist := BitVec.ofNat 6 (v + 1) } }

/-- `hclen <- v + 4`, and the meta lengths are cleared (R83). -/
def startMetaLens (v : Nat) (s : State) : State :=
  { s with
    par := { s.par with hclen := BitVec.ofNat 5 (v + 4), metaLen := List.replicate 19 0, mi := 0 }
    state := .dDynMetalen }

theorem dDynCountsStep_eq (s : State) : dDynCountsStep s =
    (readBits 5 s).bind fun v t => (readBits 5 (setHlit v t)).bind fun v t =>
    (readBits 4 (setHdist v t)).bind fun v t => .ok () (startMetaLens v t) := rfl

theorem ReadsOn.setHlit (h : ReadsOn s t n) (v : Nat) : ReadsOn s (setHlit v t) n :=
  h.of_same rfl fun _ => rfl

theorem ReadsOn.setHdist (h : ReadsOn s t n) (v : Nat) : ReadsOn s (setHdist v t) n :=
  h.of_same rfl fun _ => rfl

/-! ## The stored header (R81) -/

theorem CursorOk.posFits (h : CursorOk s) : PosFits s := by
  have total := h.total
  have bound := h.bound
  rw [PosFits]
  omega

/-- The length and its complement, behind ALIGN. -/
theorem readBits_alignCursor_words (h : CursorOk s)
    (hb : (s.cur.pos.toNat + 7) / 8 * 8 + 32 ≤ s.cur.inBits.toNat) :
    ∃ c d : Cursor, d.pos.toNat = (s.cur.pos.toNat + 7) / 8 * 8 + 32 ∧
      readBits 16 (alignCursor s) = .ok (fieldAt s ((s.cur.pos.toNat + 7) / 8 * 8) 16) (withCur c s) ∧
      readBits 16 (withCur c s) =
        .ok (fieldAt s ((s.cur.pos.toNat + 7) / 8 * 8 + 16) 16) (withCur d s) := by
  rw [← alignCursor_pos h] at hb ⊢
  have hb : HasBits (alignCursor s) 32 := hb
  obtain ⟨c, hc, hlen⟩ :=
    readBits_first_ok (s := alignCursor s) h.posFits (hb.of_le (m := 16) (by decide))
  obtain ⟨d, hd, hnlen⟩ := hc.readBits_ok (n := 16) h.posFits hb
  exact ⟨c, d, hd.moved.pos, hlen, hnlen⟩

/-- The length behind ALIGN, and no complement. -/
theorem readBits_alignCursor_one_word (h : CursorOk s)
    (hlen : (s.cur.pos.toNat + 7) / 8 * 8 + 16 ≤ s.cur.inBits.toNat)
    (hnlen : s.cur.inBits.toNat < (s.cur.pos.toNat + 7) / 8 * 8 + 32) :
    ∃ c : Cursor, c.pos.toNat = (s.cur.pos.toNat + 7) / 8 * 8 + 16 ∧
      readBits 16 (alignCursor s) = .ok (fieldAt s ((s.cur.pos.toNat + 7) / 8 * 8) 16) (withCur c s) ∧
      readBits 16 (withCur c s) = .raised (raiseErr .unexpectedEof 16 (withCur c s)) := by
  rw [← alignCursor_pos h] at hlen hnlen ⊢
  obtain ⟨c, hc, hread⟩ := readBits_first_ok (s := alignCursor s) h.posFits hlen
  exact ⟨c, hc.moved.pos, hread, hc.readBits_missing (n := 16) (not_le.2 hnlen)⟩

/-- No length behind ALIGN. -/
theorem readBits_alignCursor_missing (h : CursorOk s)
    (hlen : s.cur.inBits.toNat < (s.cur.pos.toNat + 7) / 8 * 8 + 16) :
    readBits 16 (alignCursor s) = .raised (raiseErr .unexpectedEof 16 (alignCursor s)) := by
  rw [← alignCursor_pos h] at hlen
  exact readBits_of_not_hasBits (alignCursor s) 16 (not_le.2 hlen)

/-! ## The end of a block (R78) -/

theorem endOfBlock_of_final (h : s.par.bfinal = true) : endOfBlock s = setState .dComplete (emitEnd s) :=
  if_pos h

theorem endOfBlock_of_not_final (h : s.par.bfinal = false) : endOfBlock s = setState .dPreamble s :=
  if_neg (by simp [h])

/-! ## Table slots (R28) -/

/-- Clearing the valid bits of slots 1 and 2, as one update (R80). -/
theorem clearValid_dist_litLen_eq (s : State) : clearValid .dist (clearValid .litLen s) = { s with
    slots := ⟨s.slots.codeLen, { s.slots.litLen with valid := false },
      { s.slots.dist with valid := false }⟩ } := rfl

/-! ## The Literal stage (R72, R90) -/

section
variable {sel : Sel} {e : Entry}

/-- DECODESYM with the bits of the selected entry's code left. -/
theorem decodeSym_of_hasBits (he : Selects sel s e) (hp : PosFits s) (h : HasBits s e.len.toNat) :
    ∃ c : Cursor, CursorMoved s (withCur c s) e.len.toNat ∧ decodeSym sel s = .ok e (withCur c s) := by
  obtain rfl := lookup_of_selects sel s e he
  obtain ⟨c, hdec, hpos, hin⟩ := decodeSym_ok sel s hp h
  exact ⟨c, ⟨hpos, hin⟩, hdec⟩

/-- DECODESYM on a code that runs past the end. -/
theorem decodeSym_of_not_hasBits (he : Selects sel s e) (h : ¬HasBits s e.len.toNat) :
    ∃ c : Cursor, CursorMoved s (withCur c s) 0 ∧ decodeSym sel s =
      .raised (raiseErr .unexpectedEof (e.len.setWidth 32) (withCur c s)) := by
  obtain rfl := lookup_of_selects sel s e he
  obtain ⟨hb, -⟩ | ⟨-, c, hpos, hin, hdec⟩ := decodeSym_cases sel s
  · exact absurd hb h
  · rw [BitVec.ofNat_toNat] at hdec
    exact ⟨c, ⟨congrArg BitVec.toNat hpos, hin⟩, hdec⟩

theorem literalStage_of_literal (h : e.kind = .literal) :
    literalStage e s = .ok () (emitToken (literalWord (e.base.setWidth 8)) s) := by
  simp only [literalStage, h]

theorem literalStage_of_length (h : e.kind = .length) :
    literalStage e s = .ok () { s with
      bg := { s.bg with lbase := e.base.setWidth 9, lext := e.extra.setWidth 3 }, state := .dBgMlen } := by
  simp only [literalStage, h]

theorem literalStage_of_endOfBlock (h : e.kind = .endOfBlock) :
    literalStage e s = .ok () (endOfBlock s) := by
  simp only [literalStage, h]

/-- The kinds that are no literal, length or end of block (log 15). -/
theorem literalStage_of_other (h : e.kind = .invalid ∨ e.kind = .distance ∨ e.kind = .linkToSubtable) :
    literalStage e s = .raised (raiseErr .invalidCode (e.base.setWidth 32) s) := by
  obtain h | h | h := h <;> simp only [literalStage, h, raise_eq]

end
end
end Sys2Proof.Machine

open Sys2Proof Sys2Proof.Machine

/-- Settles O38: the definition, with the three valid bits cleared as one update. -/
theorem headerInitialisesTheCursor : Obligations.HeaderInitialisesTheCursor := by
  unfold Obligations.HeaderInitialisesTheCursor
  intro s
  simp only [exec, execDHeader, dHeaderStep, clearAllValid_eq]

/-- Settles O26: the step is one `raise`. -/
theorem staticBlockRaisesUnsupported : Obligations.StaticBlockRaisesUnsupported := by
  unfold Obligations.StaticBlockRaisesUnsupported
  intro s
  simp only [exec, execDStatic, dStaticStep, raise_eq, Res.out_raised]
  rfl

/-- Settles O39: the type's read stands one bit behind the final bit's, whose effect it keeps. -/
theorem preambleReadsTheBlockHeader : Obligations.PreambleReadsTheBlockHeader := by
  unfold Obligations.PreambleReadsTheBlockHeader
  intro s hp f b
  simp only [exec, execDPreamble, dPreambleStep]
  refine ⟨fun h3 => ?whole, fun h1 => ?nothing, fun h1 h3 => ?finalOnly⟩
  case whole =>
    obtain ⟨c, hc, hfinal⟩ := readBits_first_ok hp (h3.of_le (m := 1) (by decide))
    obtain ⟨d, hd, htype⟩ := (hc.setBfinal _).readBits_ok (n := 2) hp h3
    rw [hfinal, Res.bind_ok, htype, Res.bind_ok, clearValid_dist_litLen_eq]
    refine ⟨_, rfl, ⟨hd.moved.pos, hd.moved.inBits⟩, ?_⟩
    simp only [setState, setBtype, setBfinal, withCur]
    rfl
  case nothing =>
    rw [readBits_of_not_hasBits s 1 h1]
    rfl
  case finalOnly =>
    obtain ⟨c, hc, hfinal⟩ := readBits_first_ok hp h1
    rw [hfinal, Res.bind_ok, (hc.setBfinal _).readBits_missing (n := 2) h3]
    exact ⟨_, rfl, ⟨hc.moved.pos, hc.moved.inBits⟩, rfl⟩

/-- Settles O40: ALIGN stands at the next byte boundary, and the two words follow there. Only the end of a
final block appends a word, so that nothing else waits for room. -/
theorem storedHeaderReadsTheLength : Obligations.StoredHeaderReadsTheLength := by
  unfold Obligations.StoredHeaderReadsTheLength
  intro s hs p len nlen fails
  simp only [exec, execDStoredHdr, dStoredHdrStep]
  refine ⟨fun h => ?noLength, fun h1 h2 => ?noComplement, fun h hn => ?right, fun h hn => ?wrong⟩
  case noLength =>
    rw [readBits_alignCursor_missing hs h, Res.bind_raised, Res.state_raised,
      takeIfRoom_of_no_token _ _ (by rfl)]
    exact ⟨_, rfl, alignCursor_pos hs, rfl⟩
  case noComplement =>
    obtain ⟨c, hpos, hlen, hnlen⟩ := readBits_alignCursor_one_word hs h1 h2
    rw [hlen, Res.bind_ok, hnlen, Res.bind_raised, Res.state_raised, takeIfRoom_of_no_token _ _ (by rfl)]
    exact ⟨_, rfl, hpos, rfl⟩
  all_goals
    obtain ⟨c, d, hpos, hlen, hnlen⟩ := readBits_alignCursor_words hs h
    rw [hlen, Res.bind_ok, hnlen, Res.bind_ok]
  case wrong =>
    rw [if_neg hn, raise_eq, Res.state_raised, takeIfRoom_of_no_token _ _ (by rfl)]
    exact ⟨_, rfl, hpos, rfl⟩
  case right =>
    rw [if_pos hn, Res.state_ok]
    refine ⟨fun h0 => ?copy, fun h0 hf => ?next, fun h0 hf room => ?complete⟩
    case copy =>
      rw [if_neg h0, takeIfRoom_of_no_token _ _ (by rfl)]
      exact ⟨_, rfl, hpos, rfl⟩
    all_goals rw [if_pos h0, show fieldAt s _ 16 = 0 from h0]
    case next =>
      rw [endOfBlock_of_not_final (by exact hf), takeIfRoom_of_no_token _ _ (by rfl)]
      exact ⟨_, rfl, hpos, rfl⟩
    case complete =>
      rw [endOfBlock_of_final (by exact hf), takeIfRoom_of_room _ _ (by simpa using room)]
      exact ⟨_, rfl, hpos, rfl⟩

/-- Settles O41: `stored_rem - 1` is 0 at the last byte of the block only, whose end may append END. -/
theorem storedCopyPassesOneByte : Obligations.StoredCopyPassesOneByte := by
  unfold Obligations.StoredCopyPassesOneByte
  intro s hp b
  simp only [exec, execDStoredCopy, dStoredCopyStep]
  refine ⟨fun h => ?missing, fun h hrem room => ?inside, fun h hrem hf room => ?last,
    fun h hrem hf room => ?final⟩
  case missing =>
    rw [readBits_of_not_hasBits s 8 h, Res.bind_raised, Res.state_raised, takeIfRoom_of_no_token _ _ (by rfl)]
    rfl
  all_goals
    obtain ⟨c, hc, hread⟩ := readBits_first_ok hp h
    rw [hread, Res.bind_ok, Res.state_ok]
  case inside =>
    rw [if_neg (by exact sub_ne_zero.2 hrem), takeIfRoom_of_room _ _ (by simpa using room)]
    exact ⟨_, rfl, ⟨hc.moved.pos, hc.moved.inBits⟩, rfl⟩
  case last =>
    rw [if_pos (by exact sub_eq_zero.2 hrem), endOfBlock_of_not_final (by exact hf),
      takeIfRoom_of_room _ _ (by simpa using room), ← sub_eq_zero.2 hrem]
    exact ⟨_, rfl, ⟨hc.moved.pos, hc.moved.inBits⟩, rfl⟩
  case final =>
    rw [if_pos (by exact sub_eq_zero.2 hrem), endOfBlock_of_final (by exact hf),
      takeIfRoom_of_room _ _ (by simpa using room), ← sub_eq_zero.2 hrem, List.append_cons]
    exact ⟨_, rfl, ⟨hc.moved.pos, hc.moved.inBits⟩, rfl⟩

/-- Settles O42: each read stands where the one before it ends, and keeps its effect. -/
theorem dynCountsReadsThreeCounts : Obligations.DynCountsReadsThreeCounts := by
  unfold Obligations.DynCountsReadsThreeCounts
  intro s hp p hlit hdist fails
  simp only [exec, execDDynCounts, dDynCountsStep_eq]
  refine ⟨fun h14 => ?whole, fun h5 => ?noHlit, fun h5 h10 => ?noHdist, fun h10 h14 => ?noHclen⟩
  case whole =>
    obtain ⟨c, hc, hlit⟩ := readBits_first_ok hp (h14.of_le (m := 5) (by decide))
    obtain ⟨d, hd, hdist⟩ := (hc.setHlit _).readBits_ok (n := 5) hp (h14.of_le (by decide))
    obtain ⟨e, he, hclen⟩ := (hd.setHdist _).readBits_ok (n := 4) hp h14
    rw [hlit, Res.bind_ok, hdist, Res.bind_ok, hclen]
    refine ⟨_, rfl, ⟨he.moved.pos, he.moved.inBits⟩, ?_⟩
    simp only [startMetaLens, setHdist, setHlit, withCur]
    rfl
  case noHlit =>
    rw [readBits_of_not_hasBits s 5 h5]
    rfl
  case noHdist =>
    obtain ⟨c, hc, hlit⟩ := readBits_first_ok hp h5
    rw [hlit, Res.bind_ok, (hc.setHlit _).readBits_missing (n := 5) h10]
    exact ⟨_, rfl, ⟨hc.moved.pos, hc.moved.inBits⟩, rfl⟩
  case noHclen =>
    obtain ⟨c, hc, hlit⟩ := readBits_first_ok hp (h10.of_le (m := 5) (by decide))
    obtain ⟨d, hd, hdist⟩ := (hc.setHlit _).readBits_ok (n := 5) hp h10
    rw [hlit, Res.bind_ok, hdist, Res.bind_ok, (hd.setHdist _).readBits_missing (n := 4) h14]
    refine ⟨_, rfl, ⟨hd.moved.pos, hd.moved.inBits⟩, ?_⟩
    simp only [setHdist, setHlit, withCur]
    rfl

/-- Settles O43: `mi` names an entry of PERM, and reaches `hclen` or not. -/
theorem dynMetalenReadsOneLength : Obligations.DynMetalenReadsOneLength := by
  unfold Obligations.DynMetalenReadsOneLength
  intro s k hp hk
  simp only [exec, execDDynMetalen, dDynMetalenStep]
  refine ⟨fun h => ?_, fun h => ?_⟩
  · obtain ⟨c, hc, hread⟩ := readBits_first_ok hp h
    rw [hread, Res.bind_ok, Res.out_ok]
    simp only [withCur_par, permAt_of_lt (withCur c s) _ k hk]
    refine ⟨_, rfl, ?_⟩
    split_ifs <;> exact ⟨⟨hc.moved.pos, hc.moved.inBits⟩, rfl⟩
  · rw [readBits_of_not_hasBits s 3 h]
    rfl

/-- Settles O46: the entry the table selects is decoded, and the Literal stage goes by its kind. Only a literal
and the end of a final block append a word, so that nothing else waits for room. -/
theorem literalStageFollowsTheEntry : Obligations.LiteralStageFollowsTheEntry := by
  unfold Obligations.LiteralStageFollowsTheEntry
  intro s e he hp fails
  simp only [exec, execDBgLiteral, dBgLiteralStep]
  refine ⟨fun h => ?missing, fun h hk room => ?literal, fun h hk => ?length, fun h hk hf => ?next,
    fun h hk hf room => ?complete, fun h hk => ?invalid⟩
  case missing =>
    obtain ⟨c, hc, hdec⟩ := decodeSym_of_not_hasBits he h
    rw [hdec, Res.bind_raised, Res.state_raised, takeIfRoom_of_no_token _ _ (by rfl)]
    exact ⟨_, rfl, ⟨hc.pos, hc.inBits⟩, rfl⟩
  all_goals
    obtain ⟨c, hc, hdec⟩ := decodeSym_of_hasBits he hp h
    rw [hdec, Res.bind_ok]
  case literal =>
    rw [literalStage_of_literal hk, Res.state_ok, takeIfRoom_of_room _ _ (by simpa using room)]
    exact ⟨_, rfl, ⟨hc.pos, hc.inBits⟩, rfl⟩
  case length =>
    rw [literalStage_of_length hk, Res.state_ok, takeIfRoom_of_no_token _ _ (by rfl)]
    exact ⟨_, rfl, ⟨hc.pos, hc.inBits⟩, rfl⟩
  case next =>
    rw [literalStage_of_endOfBlock hk, Res.state_ok, endOfBlock_of_not_final (by exact hf),
      takeIfRoom_of_no_token _ _ (by rfl)]
    exact ⟨_, rfl, ⟨hc.pos, hc.inBits⟩, rfl⟩
  case complete =>
    rw [literalStage_of_endOfBlock hk, Res.state_ok, endOfBlock_of_final (by exact hf),
      takeIfRoom_of_room _ _ (by simpa using room)]
    exact ⟨_, rfl, ⟨hc.pos, hc.inBits⟩, rfl⟩
  case invalid =>
    rw [literalStage_of_other hk, Res.state_raised, takeIfRoom_of_no_token _ _ (by rfl)]
    exact ⟨_, rfl, ⟨hc.pos, hc.inBits⟩, rfl⟩
end

section
/-! PROOF. D_BG_MLEN, D_BG_MDIST and D_BG_MDISTWR (R91..R93): what the MatchDistance stage makes of each kind
of entry, and a match emitted behind its extra bits. -/

namespace Sys2Proof.Machine

section
variable {s : State} {e : Entry}

/-! ## The MatchDistance stage (R92) -/

theorem distanceStage_of_distance (h : e.kind = .distance) :
    distanceStage e s = .ok () { s with
      bg := { s.bg with dbase := e.base, dext := e.extra }, state := .dBgMdistwr } := by
  simp only [distanceStage, h]

/-- The kinds that are no distance (log 15). -/
theorem distanceStage_of_other (h : e.kind ≠ .distance) :
    distanceStage e s = .raised (raiseErr .invalidCode (e.base.setWidth 32) s) := by
  cases hk : e.kind with
  | distance => exact absurd hk h
  | literal | length | endOfBlock | invalid | linkToSubtable => simp only [distanceStage, hk, raise_eq]

/-! ## Extra bits (R91, R93) -/

/-- `Read(n)` past the end, for an `n` that a register holds. -/
theorem readBits_toNat_missing {w : Nat} {n : BitVec w} (h : ¬HasBits s n.toNat) :
    readBits n.toNat s = .raised (raiseErr .unexpectedEof (n.setWidth 32) s) := by
  rw [readBits_of_not_hasBits s _ h, BitVec.ofNat_toNat]

end
end Sys2Proof.Machine

open Sys2Proof Sys2Proof.Machine

/-- Settles O47: the extra bits are one `Read`; the entry the table selects is decoded, and the MatchDistance
stage goes by its kind. -/
theorem lengthAndDistanceStages : Obligations.LengthAndDistanceStages := by
  unfold Obligations.LengthAndDistanceStages
  intro s hp
  simp only [exec, execDBgMlen, dBgMlenStep, execDBgMdist, dBgMdistStep]
  refine ⟨fun h => ?length, fun h => ?noLength, fun e he =>
    ⟨fun h => ?missing, fun h hk => ?distance, fun h hk => ?other⟩⟩
  case length =>
    obtain ⟨c, hc, hread⟩ := readBits_first_ok hp h
    rw [hread, Res.bind_ok, Res.out_ok]
    exact ⟨_, rfl, ⟨hc.moved.pos, hc.moved.inBits⟩, rfl⟩
  case noLength => rw [readBits_toNat_missing h, Res.bind_raised, Res.out_raised, raiseErr]
  case missing =>
    obtain ⟨c, hc, hdec⟩ := decodeSym_of_not_hasBits he h
    rw [hdec, Res.bind_raised, Res.out_raised]
    exact ⟨_, rfl, ⟨hc.pos, hc.inBits⟩, rfl⟩
  all_goals
    obtain ⟨c, hc, hdec⟩ := decodeSym_of_hasBits he hp h
    rw [hdec, Res.bind_ok]
  case distance =>
    rw [distanceStage_of_distance hk, Res.out_ok]
    exact ⟨_, rfl, ⟨hc.pos, hc.inBits⟩, rfl⟩
  case other =>
    rw [distanceStage_of_other hk, Res.out_raised]
    exact ⟨_, rfl, ⟨hc.pos, hc.inBits⟩, rfl⟩

/-- Settles O48: with its bits there the step appends one word, for which there is room; a failed read appends
none, and so never waits. -/
theorem matchIsEmitted : Obligations.MatchIsEmitted := by
  unfold Obligations.MatchIsEmitted
  intro s hp
  simp only [exec, execDBgMdistwr, dBgMdistwrStep]
  refine ⟨fun h room => ?emitted, fun h => ?missing⟩
  case emitted =>
    obtain ⟨c, hc, hread⟩ := readBits_first_ok hp h
    rw [hread, Res.bind_ok, Res.state_ok, takeIfRoom_of_room _ _ (by simpa using room)]
    refine ⟨_, rfl, ⟨hc.moved.pos, hc.moved.inBits⟩, ?_⟩
    rw [← matchWord_eq]
    rfl
  case missing =>
    rw [readBits_toNat_missing h, Res.bind_raised, Res.state_raised,
      takeIfRoom_of_no_token _ _ (by rfl), raiseErr]
end

section
/-! PROOF. RLE_EMIT and RLE_EXPAND as instructions (R94, R95): the branches of R95 are a function of the queue, and
expansions chain. -/

namespace Sys2Proof.Machine

/-! ## The branches of R95 and the model's expansion -/

theorem rleExpandFrom_of_le_15 (b : List (BitVec 4)) {y : BitVec 5} (x : BitVec 7) (rest : List Pair)
    (h : y.toNat ≤ 15) : rleExpandFrom b ((y, x) :: rest) = rleExpandFrom (y.setWidth 4 :: b) rest := by
  rw [rleExpandFrom.eq_def]
  exact if_pos h

/-- Every symbol above 17 is expanded as an 18 (log 29). -/
theorem rleExpandFrom_of_18_le (b : List (BitVec 4)) {y : BitVec 5} (x : BitVec 7) (rest : List Pair)
    (h : 18 ≤ y.toNat) :
    rleExpandFrom b ((y, x) :: rest) = rleExpandFrom (List.replicate (11 + x.toNat) 0 ++ b) rest := by
  rw [rleExpandFrom.eq_def]
  simp only [if_neg (show ¬y.toNat ≤ 15 by omega), if_neg (show y.toNat ≠ 16 by omega),
    if_neg (show y.toNat ≠ 17 by omega)]

/-- The model follows the branch the rule takes; it keeps the newest length first. -/
theorem Expands.rleExpandFrom_eq {b : List (BitVec 4)} {ps : List Pair} {r : Option (List (BitVec 4))}
    (h : Expands b ps r) : rleExpandFrom b.reverse ps = r := by
  induction h with
  | done b => rw [rleExpandFrom, List.reverse_reverse]
  | length b y x rest r hy _ ih =>
    rwa [rleExpandFrom_of_le_15 _ x rest hy, ← List.reverse_concat]
  | nothingToRepeat x rest => rfl
  | repeatLast b v x rest r _ ih =>
    rw [List.reverse_append, List.reverse_replicate, List.reverse_concat] at ih
    rw [List.reverse_concat]
    exact ih
  | shortZeros b x rest r _ ih =>
    rw [List.reverse_append, List.reverse_replicate] at ih
    exact ih
  | longZeros b y x rest r hy _ ih =>
    rw [List.reverse_append, List.reverse_replicate] at ih
    rw [rleExpandFrom_of_18_le _ x rest hy]
    exact ih

/-- One of the branches always applies. -/
theorem exists_expands (b : List (BitVec 4)) (ps : List Pair) : ∃ r, Expands b ps r := by
  induction ps generalizing b with
  | nil => exact ⟨_, .done b⟩
  | cons p rest ih =>
    obtain ⟨y, x⟩ := p
    have hsym : y.toNat ≤ 15 ∨ y = 16#5 ∨ y = 17#5 ∨ 18 ≤ y.toNat := by bv_omega
    obtain hy | rfl | rfl | hy := hsym
    · exact (ih _).imp fun r => .length b y x rest r hy
    · obtain rfl | ⟨c, v, rfl⟩ := List.eq_nil_or_concat' b
      · exact ⟨none, .nothingToRepeat x rest⟩
      · exact (ih _).imp fun r => .repeatLast c v x rest r
    · exact (ih _).imp fun r => .shortZeros b x rest r
    · exact (ih _).imp fun r => .longZeros b y x rest r hy

/-- An expansion by the branches is the model's. -/
theorem expands_iff (ps : List Pair) (r : Option (List (BitVec 4))) : Expands [] ps r ↔ rleExpand ps = r := by
  refine ⟨fun h => h.rleExpandFrom_eq, fun h => ?_⟩
  obtain ⟨r', hr'⟩ := exists_expands [] ps
  rwa [← h, show rleExpand ps = r' from hr'.rleExpandFrom_eq]

/-! ## Expansions one after the other -/

/-- An array expands to the same lengths whatever stands before it. -/
theorem Expands.prepend {b l : List (BitVec 4)} {ps : List Pair} (h : Expands b ps (some l))
    (a : List (BitVec 4)) : Expands (a ++ b) ps (some (a ++ l)) := by
  generalize hr : some l = r at h
  induction h with
  | done b =>
    obtain rfl := Option.some.inj hr
    exact .done _
  | length b y x rest r hy _ ih => exact .length _ y x rest _ hy (by simpa using ih hr)
  | nothingToRepeat x rest => cases hr
  | repeatLast b v x rest r _ ih =>
    rw [← List.append_assoc]
    exact .repeatLast _ v x rest _ (by simpa using ih hr)
  | shortZeros b x rest r _ ih => exact .shortZeros _ x rest _ (by simpa using ih hr)
  | longZeros b y x rest r hy _ ih => exact .longZeros _ y x rest _ hy (by simpa using ih hr)

/-- Where the first pairs give an array, the next go on from it. -/
theorem Expands.append {b l : List (BitVec 4)} {ps qs : List Pair} {r : Option (List (BitVec 4))}
    (h : Expands b ps (some l)) (hq : Expands l qs r) : Expands b (ps ++ qs) r := by
  generalize hl : some l = r' at h
  induction h with
  | done b =>
    obtain rfl := Option.some.inj hl
    exact hq
  | length b y x rest r' hy _ ih => exact .length b y x _ r hy (ih hl)
  | nothingToRepeat x rest => cases hl
  | repeatLast b v x rest r' _ ih => exact .repeatLast b v x _ r (ih hl)
  | shortZeros b x rest r' _ ih => exact .shortZeros b x _ r (ih hl)
  | longZeros b y x rest r' hy _ ih => exact .longZeros b y x _ r hy (ih hl)

/-- The pairs of an array expand to it (R96). -/
theorem expands_rlePairs {lens : List Nat} (hne : lens ≠ []) (hle : ∀ l ∈ lens, l ≤ 15) :
    Expands [] (rlePairs lens) (some (lens.map (BitVec.ofNat 4))) := by
  obtain ⟨hinverse, -, -, -⟩ := rleExpandInvertsRleEmit
  exact (expands_iff _ _).2 (hinverse lens hne hle).1

/-- The pairs of two arrays expand to the one after the other: no run goes on from the first to the second. -/
theorem expands_rlePairs_append {as bs : List Nat} (ha : as ≠ []) (hb : bs ≠ [])
    (hle : ∀ l ∈ as ++ bs, l ≤ 15) :
    Expands [] (rlePairs as ++ rlePairs bs) (some ((as ++ bs).map (BitVec.ofNat 4))) := by
  obtain ⟨hleA, hleB⟩ := List.forall_mem_append.1 hle
  have hsecond := (expands_rlePairs hb hleB).prepend (as.map (BitVec.ofNat 4))
  rw [List.append_nil, ← List.map_append] at hsecond
  exact (expands_rlePairs ha hleA).append hsecond

/-! ## The two instructions -/

section
variable {s : State}

theorem exec_rleEmit_of_rleArray {sel : RleSel} {lens : List Nat} (h : rleArray sel s = some lens) :
    exec (.rleEmit sel) s = .next (appendPairs lens s) := by
  simp only [exec, execRleEmit, h]

theorem exec_rleExpand_of_expands {l : List (BitVec 4)} (h : Expands [] s.enc.rq (some l)) :
    exec .rleExpand s = .next (setResLens l s) := by
  simp only [exec, execRleExpand, (expands_iff _ _).1 h]

theorem exec_rleExpand_of_expands_none (h : Expands [] s.enc.rq none) :
    exec .rleExpand s = .next (raiseErr .rleProtocolError 0 s) := by
  simp only [exec, execRleExpand, (expands_iff _ _).1 h]

end
end Sys2Proof.Machine

open Sys2Proof Sys2Proof.Machine

/-- Settles O51: the branches of R95 are the model's expansion, and the expansions of two arrays chain. -/
theorem rleOperationsRun : Obligations.RleOperationsRun := by
  unfold Obligations.RleOperationsRun
  refine ⟨fun s lens hm hn => ?litLen, fun s lens hm hn => ?dist,
    fun s => ⟨exists_expands [] _, fun _ h => exec_rleExpand_of_expands h, exec_rleExpand_of_expands_none⟩,
    fun s lens hne hle hq => ?oneArray, fun s lit dist hlit hdist hle hq => ?twoArrays⟩
  case litLen => exact exec_rleEmit_of_rleArray (by rw [rleArray, ← hn, treeLens_litLen s lens hm])
  case dist => exact exec_rleEmit_of_rleArray (by rw [rleArray, ← hn, treeLens_dist s lens hm])
  case oneArray => exact exec_rleExpand_of_expands (hq ▸ expands_rlePairs hne hle)
  case twoArrays => exact exec_rleExpand_of_expands (hq ▸ expands_rlePairs_append hlit hdist hle)
end

section
/-! PROOF. Reset (R130, R131), and the steps that wait for room in the token queue (R134). -/

namespace Sys2Proof.Machine

section
variable {s t : State}

/-! ## Steps held back (R134) -/

/-- A step that appends the words `w :: ws` waits when the queue has no room for them all. -/
theorem takeIfRoom_of_appends {w : Word} {ws : List Word} (h : t.tokenOut = s.tokenOut ++ w :: ws)
    (full : s.cfg.tokenOutDepth < s.tokenOut.length + (ws.length + 1)) : takeIfRoom s t = s := by
  have hlen : t.tokenOut.length = s.tokenOut.length + (ws.length + 1) := by
    rw [h, List.length_append, List.length_cons]
  exact takeIfRoom_of_full s t (by omega) (by omega)

/-- The end of a block appends END after the final block only (R78). -/
theorem endOfBlock_tokenOut (s : State) :
    (endOfBlock s).tokenOut = s.tokenOut ++ if s.par.bfinal then [endWord] else [] := by
  rw [endOfBlock_eq]
  cases s.par.bfinal
  · exact (List.append_nil _).symm
  · rfl

theorem endOfBlock_tokenOut_of_final (h : s.par.bfinal = true) :
    (endOfBlock s).tokenOut = s.tokenOut ++ [endWord] := by
  rw [endOfBlock_tokenOut, if_pos h]

/-- What D_STORED_COPY appends with a byte left: its literal, and END behind the last byte of a final block (R82). -/
theorem dStoredCopyStep_tokenOut (hp : PosFits s) (h : HasBits s 8) :
    ∃ b : Byte, (dStoredCopyStep s).state.tokenOut = s.tokenOut ++
      literalWord b :: if s.par.storedRem = 1 ∧ s.par.bfinal = true then [endWord] else [] := by
  obtain ⟨c, -, hread⟩ := readBits_first_ok hp h
  refine ⟨BitVec.ofNat 8 (fieldAt s s.cur.pos.toNat 8), ?_⟩
  rw [dStoredCopyStep, hread, Res.bind_ok, Res.state_ok, List.append_cons]
  by_cases hrem : s.par.storedRem = 1
  · rw [if_pos (by exact sub_eq_zero.2 hrem), endOfBlock_tokenOut]
    simp only [hrem, true_and]
    rfl
  · rw [if_neg (by exact sub_ne_zero.2 hrem), if_neg fun h => hrem h.1, List.append_nil]
    rfl

/-- The Literal stage appends a word on a literal, and on the end of a final block (R90). -/
theorem literalStage_tokenOut {e : Entry}
    (h : e.kind = .literal ∨ (e.kind = .endOfBlock ∧ s.par.bfinal = true)) :
    ∃ w : Word, (literalStage e s).state.tokenOut = s.tokenOut ++ [w] := by
  obtain hk | ⟨hk, hf⟩ := h
  · rw [literalStage_of_literal hk]
    exact ⟨_, rfl⟩
  · rw [literalStage_of_endOfBlock hk]
    exact ⟨_, endOfBlock_tokenOut_of_final hf⟩

/-! ## Reset (R130, R131) -/

/-- In IDLE STATUS reads 0: not busy, not done, no error (R11). -/
theorem statusWord_of_idle (h : s.state = .idle) : statusWord s = 0#32 := by
  rw [statusWord, failed, done, busy, h, if_neg (by decide)]
  decide

/-- With MODE and IS_LAST clear CTRL reads 0 (R10). -/
theorem ctrlValue_of_clear (h : s.ctrl = ⟨false, false⟩) : ctrlValue s = 0#32 := by
  rw [ctrlValue, h]
  decide

theorem decodeCtrl_of_bit3 {w : Word} (h : w.getLsbD 3 = true) : decodeCtrl w = .softReset :=
  if_pos h

end
end Sys2Proof.Machine

open Sys2Proof Sys2Proof.Machine

/-- Settles O49: each step appends a word, of which the queue has no room for all; the final end of a stored block
appends one more, so that D_STORED_COPY waits for two places there. -/
theorem stepsWaitForRoom : Obligations.StepsWaitForRoom := by
  unfold Obligations.StepsWaitForRoom
  intro s hp
  refine ⟨fun h full => ?emitsMatch, fun h full => ?copies, fun h hrem hf full => ?copiesLast,
    fun e he h hk full => ?decodes, fun hs hb hlen hnlen hf full => ?endsBlock⟩
  all_goals refine congrArg Host.Outcome.next ?_
  case emitsMatch =>
    obtain ⟨c, -, hread⟩ := readBits_first_ok hp h
    rw [dBgMdistwrStep, hread, Res.bind_ok]
    exact takeIfRoom_of_appends rfl full
  case copies =>
    obtain ⟨b, happends⟩ := dStoredCopyStep_tokenOut hp h
    exact takeIfRoom_of_appends happends (by omega)
  case copiesLast =>
    obtain ⟨b, happends⟩ := dStoredCopyStep_tokenOut hp h
    rw [if_pos ⟨hrem, hf⟩] at happends
    exact takeIfRoom_of_appends happends full
  case decodes =>
    obtain ⟨c, -, hdec⟩ := decodeSym_of_hasBits he hp h
    rw [dBgLiteralStep, hdec, Res.bind_ok]
    obtain ⟨w, happends⟩ := literalStage_tokenOut (s := withCur c s) hk
    exact takeIfRoom_of_appends happends full
  case endsBlock =>
    obtain ⟨c, d, -, hreadLen, hreadNlen⟩ := readBits_alignCursor_words hs hb
    rw [dStoredHdrStep, hreadLen, Res.bind_ok, hreadNlen, Res.bind_ok, hlen, hnlen]
    exact takeIfRoom_of_appends (endOfBlock_tokenOut_of_final hf) full

/-- Settles O9: the reset values, and IDLE names no step. -/
theorem resetLeavesTheStatedValues : Obligations.ResetLeavesTheStatedValues := by
  unfold Obligations.ResetLeavesTheStatedValues
  intro c s
  refine ⟨rfl, rfl, ctrlValue_of_clear rfl, statusWord_of_idle rfl, rfl, rfl, rfl, rfl, rfl, rfl, rfl, rfl, rfl, rfl,
    rfl, fun sel => ?slots, fun _ => ⟨rfl, rfl, rfl, rfl, rfl⟩, rfl, rfl, engineTurn_of_terminal s rfl⟩
  case slots => cases sel <;> exact ⟨rfl, rfl, rfl, rfl⟩

/-- Settles O10: the decoder looks at bit 3 first, and the state enters SOFT_RESET only with its parameters and the
model's own fields. -/
theorem softResetRestoresTheResetState : Obligations.SoftResetRestoresTheResetState := by
  unfold Obligations.SoftResetRestoresTheResetState
  intro s w h
  rw [decodeCtrl_of_bit3 h]
  exact ⟨_, rfl, rfl, rfl⟩
end
